-- ==== Sys2Proof/Word.lean ====
section
/-!
DEFINITION. The word types of the FV20 model and the index types of Table 00.8 (spec 00_scope.md).
-/
namespace Sys2Proof

/-- One byte of memory. -/
abbrev Byte := BitVec 8
/-- A 32-bit word: one vector lane, one register word, one FP32 or INT32 value. -/
abbrev W32 := BitVec 32
/-- A 48-bit word: a W48 accumulator total (R85) or a device address (R52). -/
abbrev W48 := BitVec 48
/-- A 64-bit word. -/
abbrev W64 := BitVec 64
/-- A 128-bit word: a verb (R209) or one AES block. -/
abbrev W128 := BitVec 128
/-- A 256-bit key, digest or nonce. -/
abbrev W256 := BitVec 256

/-- Herds 0 to 31 (Table 00.8). -/
abbrev HerdId := Fin 32
/-- Chip logical blocks 0 to 383 (R3, Table 00.8). -/
abbrev BlockId := Fin 384
/-- Fabric lanes 0 to 63. -/
abbrev LaneId := Fin 64
/-- Hypercube dimensions d0 to d14. -/
abbrev DimId := Fin 15
/-- Windows 0 to 63. -/
abbrev WinId := Fin 64
/-- Lots 0 to 1023 (R58). -/
abbrev LotId := Fin 1024
/-- HBM stacks 0 to 11. -/
abbrev StackId := Fin 12
/-- Regions C0 to C3. -/
abbrev RegionId := Fin 4
/-- Cell pairs 0 to 7 of a block (R83). -/
abbrev PairId := Fin 8
/-- Lanes 0 to 127 of a cell pair (R83). -/
abbrev PairLane := Fin 128
/-- Performance points P0 to P3 (Table 00.3). -/
abbrev Point := Fin 4

end Sys2Proof
end

