-- ==== Sys2Proof/Types.lean ====
section
/-!
DEFINITION. The operand types of the commands: who sends a register access, the verb operands of chapters 03, 05, 07
and 08, frames, probes and orders. They are data only; what they do stands under Machine.
-/
namespace Sys2Proof

/-- Who makes a register access (R517, R518): the PF, the VF of a herd, Tahr, or a region controller. -/
inductive Who where
  | pf | vf (h : HerdId) | tahr | region (r : RegionId)
deriving DecidableEq, Repr

/-- The register space an offset belongs to: the set-up space (Table 19.1), the doorbell pages, the register window of a herd
(Table 19.6), or the accessing function's PCIe configuration space (Table 11.1). -/
inductive Space where
  | setup | doors | door (h : HerdId) | window (h : HerdId) | config
deriving DecidableEq, Repr

/-- How a TLP travels (R334, Table 11.7): outside its function's IDE stream, in it under the key set that is active, or in it
under the other set, which is accepted until a TLP under the active one arrives. -/
inductive Tlp where
  | clear | active | old
deriving DecidableEq, Repr

/-- A ring set: one of the PF (0 to 3) or that of the VF of a herd (chapter 11). -/
inductive RingId where
  | pf (k : Fin 4) | vf (h : HerdId)
deriving DecidableEq, Repr

/-- Who orders (Table 11.11): a ring set, or Tahr, whose orders enter the sequencer directly (R343). -/
inductive OrderSrc where
  | ring (r : RingId) | tahr
deriving DecidableEq, Repr

/-- An order with its operands (Tables 11.11, 11.12, 12.1, 12.7, R388, R431). -/
inductive OrderOp where
  | fence
  | sentenceLoad (addr : W64) (bytes : W32)
  | sentenceRun (steps : W32)
  | nounCreate (arg : W64)
  | nounDestroy (entry : BitVec 6) (block : BitVec 9)
  | copy (src dst : W64) (bytes : BitVec 40) (srcHost dstHost noun : Bool)
  | windowAlloc (win : WinId) (tag : BitVec 4) (base : W48) (size : BitVec 40) (budgetLog2 : BitVec 6)
  | windowFree (win : WinId)
  | keyRotate (win : WinId) (action : BitVec 2)
  | checkpointSeal (list dst : W64) (dstBytes : BitVec 40) (mode : BitVec 2) (recipient : BitVec 3) (auto : Bool)
      (approvals : W64)
  | checkpointRestore (src : W64) (bytes : BitVec 40)
  | attest (dst : W64) (dstBytes : W32) (herdReport : Bool) (nonce : W256)
  | herdQuiesce
  | herdRevoke
  | herdCreate (groups : W48) (span : BitVec 15)
  | lotAssign (first countM1 : BitVec 10)
  | lotRelease (first countM1 : BitVec 10)
deriving DecidableEq, Repr

/-- An order of the sequencer: its source, the herd it names, its TAG and its operands (Table 11.10). `gen` is the
generation of its ring set when it was admitted (R332, R532), `seq` its place in batch order (R340, R346), and `batch` the batch that
it came in, 0 for none (Table 06.6). -/
structure Order where
  src : OrderSrc
  herd : HerdId
  tag : W32
  op : OrderOp
  gen : Nat := 0
  seq : Nat := 0
  batch : Nat := 0
deriving DecidableEq, Repr

/-- One received frame of a message: the lane it came on and its ACK word, as herd and counter, when ACK_V is 1 (Table 09.2). -/
structure Carried where
  lane : LaneId
  ack : Option (HerdId × BitVec 26)
deriving DecidableEq, Repr

/-- END and WAIT of a verb word (Table 07.6). -/
structure Issue where
  last : Bool
  wait : BitVec 3
deriving DecidableEq, Repr

/-- Operands of `MMA` (Table 03.5). -/
structure MmaOp where
  pairs : BitVec 8
  arrange : BitVec 2
  aAg : BitVec 2
  bAg : BitVec 2
  fmt : BitVec 4
  lcode : BitVec 8
  start : BitVec 1
  mSweep : BitVec 7
  ksteps : BitVec 20
deriving DecidableEq, Repr

/-- Operands of `MST` (Table 03.6). -/
structure MstOp where
  pairs : BitVec 8
  cAg : BitVec 2
  outFmt : BitVec 4
  rnd : BitVec 2
  srStream : BitVec 6
  keep : BitVec 1
  scaleAxis : BitVec 1
  layer : BitVec 12
deriving DecidableEq, Repr

/-- Operands of `AG_BIND` (Table 03.10). -/
structure AgBindOp where
  ag : BitVec 2
  mode : BitVec 2
  noun : BitVec 6
  rowDim : BitVec 3
  colDim : BitVec 3
  oob : BitVec 2
deriving DecidableEq, Repr

/-- Operands of `AG_ORIGIN` (Table 03.11). -/
structure AgOriginOp where
  ag : BitVec 2
  dim0 : BitVec 3
  dim1 : BitVec 3
  dim2 : BitVec 3
  valid : BitVec 3
  coord0 : W32
  coord1 : W32
  coord2 : W32
deriving DecidableEq, Repr

/-- Operands of `AG_CONV` (Table 03.12). -/
structure AgConvOp where
  ag : BitVec 2
  kh : BitVec 5
  kw : BitVec 5
  sh : BitVec 4
  sw : BitVec 4
  dh : BitVec 4
  dw : BitVec 4
  padT : BitVec 4
  padL : BitVec 4
  groups : BitVec 16
  oh : BitVec 18
  ow : BitVec 18
  dimN : BitVec 3
  dimC : BitVec 3
  dimH : BitVec 3
  dimW : BitVec 3
deriving DecidableEq, Repr

/-- Operands of a register verb (Table 05.1). -/
structure RegOp where
  cell : BitVec 2
  vd : BitVec 5
  sa : BitVec 5
  sb : BitVec 5
  sc : BitVec 5
  sub : BitVec 6
  imm : W32
deriving DecidableEq, Repr

/-- The register verbs of class 0x1 whose operands are laid out by Table 05.1 (Table 05.2). -/
inductive RegFn where
  | vadd | vsub | vmul | vfma | vfnma | vmax | vmin | vabs | vneg | vrcp | vdivs | vrsqrt | vexp2 | vlog2 | vldexp
  | vcmp | vsel | vand | vor | vxor | vshl | vsrl | vsra | viadd | visub | vimul | vimax | vimin
  | vexpadd | vpadd | vpmul | vpfma | vmov | vsplat | vlimm | vlane | vargmax | vargmin | vgetf | vclrf
deriving DecidableEq, Repr

/-- Operands of `VCVT` (Table 05.5). -/
structure VcvtOp where
  cell : BitVec 2
  vd : BitVec 5
  sa : BitVec 5
  sb : BitVec 5
  sc : BitVec 5
  conv : BitVec 4
  rnd : BitVec 2
  srStream : BitVec 6
  layer : BitVec 12
  cur : BitVec 2
deriving DecidableEq, Repr

/-- Operands of `VLD` (Table 05.7). -/
structure VldOp where
  cell : BitVec 2
  vd : BitVec 5
  noun : BitVec 6
  cur : BitVec 2
  inc : BitVec 1
  form : BitVec 4
deriving DecidableEq, Repr

/-- Operands of `VST` (Table 05.7). -/
structure VstOp where
  cell : BitVec 2
  sa : BitVec 5
  noun : BitVec 6
  cur : BitVec 2
  inc : BitVec 1
  form : BitVec 4
  rnd : BitVec 2
  srStream : BitVec 6
  layer : BitVec 12
  maskEn : BitVec 1
  mreg : BitVec 5
deriving DecidableEq, Repr

/-- Operands of `VCUR` (Table 05.6). -/
structure VcurOp where
  cell : BitVec 2
  cur : BitVec 2
  base : W48
  lane : BitVec 24
  step : W32
deriving DecidableEq, Repr

/-- Operands of `VLOOP` (R164). -/
structure VloopOp where
  cell : BitVec 2
  body : BitVec 5
  count : BitVec 24
deriving DecidableEq, Repr

/-- Operands of `VRED` (Table 05.11). -/
structure VredOp where
  cell : BitVec 2
  vd : BitVec 5
  sa : BitVec 5
  sb : BitVec 5
  op : BitVec 3
deriving DecidableEq, Repr

/-- Operands of `BRED` (Table 05.11). -/
structure BredOp where
  dest : BitVec 2
  vd : BitVec 5
  sa : BitVec 5
  op : BitVec 3
  cells : BitVec 4
  lanewise : BitVec 1
deriving DecidableEq, Repr

/-- Operands of `VRNG` (Table 05.12). -/
structure VrngOp where
  cell : BitVec 2
  vd : BitVec 5
  cur : BitVec 2
  inc : BitVec 1
  stream : BitVec 6
  layer : BitVec 12
  draw : BitVec 16
  form : BitVec 2
deriving DecidableEq, Repr

/-- Operands of `RSEED` (Table 05.12). -/
structure RseedOp where
  stream : BitVec 6
  seed : W64
deriving DecidableEq, Repr

/-- Operands of `MOV` (Table 07.8). -/
structure MovOp where
  src : BitVec 6
  dst : BitVec 6
  od0 : BitVec 3
  od1 : BitVec 3
  org0 : BitVec 30
  org1 : BitVec 30
  scales : BitVec 1
deriving DecidableEq, Repr

/-- Operands of `SETR` (Table 07.9). -/
structure SetrOp where
  offset : BitVec 16
  imm : W64
  wide : BitVec 1
  fromNoun : BitVec 1
  noun : BitVec 6
  index : BitVec 24
deriving DecidableEq, Repr

/-- Operands of `DCOEF` (Table 08.4). -/
structure DcoefOp where
  cell : BitVec 2
  vd : BitVec 5
  row : BitVec 6
  checkK : BitVec 1
  kExpect : BitVec 5
deriving DecidableEq, Repr

/-- Operands of `DTOUCH` (Table 08.4). -/
structure DtouchOp where
  cell : BitVec 2
  sa : BitVec 5
  item : BitVec 24
deriving DecidableEq, Repr

/-- A verb: its class, opcode and operands (Table 07.7). -/
inductive Verb where
  | mma (o : MmaOp) | mst (o : MstOp) | mclr (pairs : BitVec 8)
  | agBind (o : AgBindOp) | agOrigin (o : AgOriginOp) | agConv (o : AgConvOp)
  | reg (f : RegFn) (o : RegOp) | vcvt (o : VcvtOp) | vld (o : VldOp) | vst (o : VstOp)
  | vcur (o : VcurOp) | vloop (o : VloopOp)
  | vred (o : VredOp) | bred (o : BredOp) | vrng (o : VrngOp) | rseed (o : RseedOp)
  | mov (o : MovOp) | bend (skip : BitVec 4) | setr (o : SetrOp)
  | dcoef (o : DcoefOp) | dtouch (o : DtouchOp)
deriving DecidableEq, Repr

/-- A verb word (Table 07.6). -/
structure VerbWord where
  verb : Verb
  issue : Issue
deriving DecidableEq, Repr

/-- A beat plan entry (Table 07.4). KIND is 1 FABRIC, 2 DECLENSION or 3 COMMIT. -/
structure PlanEntry where
  beat : Nat
  kind : BitVec 8
  item : Nat
deriving DecidableEq, Repr

/-- A Clause table entry (Table 07.3) with its verbs. -/
structure ClauseEntry where
  herdBlock : Nat
  mask : BitVec 15
  mtch : BitVec 15
  verbs : List VerbWord
deriving DecidableEq, Repr

/-- A declension item (Table 08.3). -/
structure DclItem where
  layer : BitVec 12
  row : BitVec 6
  phase : BitVec 2
  sparse : Bool
  mix : Bool
  trust : BitVec 2
  gFmt : BitVec 4
  gScaled : Bool
  wFmt : BitVec 4
  sFmt : BitVec 4
  wSr : Bool
  srStream : BitVec 6
  rows : Nat
  rowLen : Nat
  gBase : Nat
  gSBase : Nat
  wBase : Nat
  mBase : Nat
  vBase : Nat
  lastBase : Nat
  maskBase : Nat
  tStride : Nat
  gnormAddr : Nat
  gnormEn : Bool
  xbuf : Nat
deriving DecidableEq, Repr

/-- A route plan entry (Table 09.7). -/
structure RouteEnt where
  beat : Nat
  mask : BitVec 15
  mtch : BitVec 15
  delta : BitVec 15
  descending : Bool
  bytes : Nat
  src : Nat
  dst : Nat
deriving DecidableEq, Repr

/-- A reduction item (Table 10.2). -/
structure RedItem where
  op : BitVec 4
  elem : BitVec 4
  scaled : Bool
  wire : Bool
  ring : Bool
  patient : Bool
  drop : Bool
  normEn : Bool
  normSlot : BitVec 4
  layer : BitVec 12
  groupMask : BitVec 15
  n : Nat
  patienceUs : W32
  src : Nat
  dst : Nat
  ssrc : Nat
  sdst : Nat
  cbuf : Nat
deriving DecidableEq, Repr

/-- A loaded Sentence (Tables 07.1 and 07.2), with its sections decoded. -/
structure Sentence where
  det : Bool
  commit : Bool
  sliceJ : Nat
  beats : Nat
  beatLimitMs : Nat
  meas : List Byte
  clauses : List ClauseEntry
  plan : List PlanEntry
  routes : List RouteEnt
  carryD : Nat
  reds : List RedItem
  dcls : List DclItem
deriving DecidableEq, Repr

/-- The increments of one layer's health counters in the step in progress (R130, Table 04.3) and its gradient
statistics (R136). `gmax` is the largest exponent recorded, `fmt` the gradient format F of the row. -/
structure LayerInc where
  nonfinite : Nat := 0
  sat : Nat := 0
  flush : Nat := 0
  read : Bool := false
  gcount : Nat := 0
  gzero : Nat := 0
  gmax : Option Int := none
  hist : List Nat := []
  fmt : BitVec 4 := 0
deriving DecidableEq, Repr

/-- A fault gathered by a stop (R227, R228): its status, the beat, the slice position and the herd block index that
break ties. -/
structure FaultRec where
  status : BitVec 8
  beat : W48
  slicePos : Nat
  herdBlock : Nat
deriving DecidableEq, Repr

/-- What a done token of a slice round carries (Tables 07.10 and 10.10, R225, R316, R321, R324, R533). The spec does
not give the payload's encoding; the command carries the meaning of the opened payload. -/
structure BeatToken where
  stop : Bool
  ready : Bool
  through : W48
  meas : List Byte
  steps : W64
  firstBeat : W48
  committed : W48
  present : Bool
  isReady : Bool
  recorded : Bool
  dropped : Bool
  mismatch : Bool
  faults : List FaultRec
  incs : List (Nat × LayerInc)
deriving DecidableEq, Repr

/-- A fabric frame (Table 09.2). `payload` is the 512 bytes from 0x010 and `tag` the 16 bytes from 0x210, in order. -/
structure Frame where
  type : BitVec 4
  herd : BitVec 5
  last : Bool
  item : BitVec 20
  offset : BitVec 24
  counter : W64
  payload : List Byte
  tag : List Byte
  ack : BitVec 26
  ackV : Bool
  ackHerd : BitVec 5
deriving DecidableEq, Repr

/-- A PROBE payload (Table 09.5). -/
structure Probe where
  addr : BitVec 15
  lane : BitVec 6
  dim : BitVec 4
  profile : BitVec 2
  smallD : BitVec 4
  echoV : Bool
  echoAddr : BitVec 15
  echoLane : BitVec 6
deriving DecidableEq, Repr

/-- Host bytes that the host has placed in its own memory: address and bytes of each piece. The block reads host memory
only through its rings, orders and requests. -/
abbrev HostData := List (W64 × List Byte)

/-- The part an error names and a self-test tests (Tables 16.10 and 16.11, R468): a scratch bank row of a block; a row
of its Noun table or Clause store; a matrix cell; a vector cell; a channel of a block; a row port of a region; a hub
channel; a bank row of the central store (with the lot it lies in); a line of an HBM page (interleaved page number); a
row of region-controller SRAM; a hub engine (0 to 5 declension units, 6 copy engine, 7 fabric engine); a fabric lane; a
node held in Nyala's node cache, and a window's root (R389); Tahr's SRAM and MRAM. -/
inductive Part where
  | scratchRow (b : BlockId) (bank : BitVec 4) (row : BitVec 7)
  | seqRow (b : BlockId) (row : BitVec 16)
  | cell (b : BlockId) (c : BitVec 4)
  | vcell (b : BlockId) (v : BitVec 2)
  | blockChan (b : BlockId)
  | rowPort (r : RegionId) (row : Fin 10)
  | hubChan
  | csRow (bank : BitVec 8) (row : BitVec 12) (lot : LotId)
  | hbmLine (page : BitVec 28)
  | hbmPhy (k : StackId)
  | hostLink
  | rcRow (r : RegionId) (row : BitVec 20)
  | engine (e : BitVec 3)
  | lane (n : LaneId)
  | nyaNode (w : WinId) (level idx : Nat)
  | nyaRoot (w : WinId)
  | tahrMem
deriving DecidableEq, Repr

/-- An interrupt controller: the chip controller or that of a region (R454). -/
inductive IcId where
  | chip | region (r : RegionId)
deriving DecidableEq, Repr

end Sys2Proof
end

