-- ==== Sys2Proof/Syntax.lean ====
section
/-!
DEFINITION. Instr: the commands of the FV20, one constructor for each row of the table of operations and events.
Each docstring names the row's rule in spec/; the operands are what the row's event carries.
-/
namespace Sys2Proof

/-- The commands. `h` is a herd, `b` a block, `n` a fabric lane, `d` a dimension, `w` a window, `i` the END and WAIT of
a verb word, `o` a verb's operands. Orders carry their source, the herd they name and their TAG. -/
inductive Instr where
  /-- R530: a write of `bytes` (4 or 8) at an offset; `tlp` is how the TLP came (R334, Table 11.7) -/
  | regWrite (who : Who) (sp : Space) (off : Nat) (bytes : Nat) (value : W64) (tlp : Tlp)
  /-- R51, R518: a read of `bytes` at an offset; `err` is a part whose uncorrectable error the read meets (R475) -/
  | regLowWordRead (who : Who) (sp : Space) (off : Nat) (bytes : Nat) (tlp : Tlp) (err : Option Part)
  /-- R31: input power in W and input voltage in 10 mV, averaged over 100 µs -/
  | governorEval (inputW : BitVec 12) (p56 : BitVec 16)
  /-- R32 -/
  | powerPointDown
  /-- R33 -/
  | powerPointUp
  /-- R35 -/
  | thermalThrottleTick
  /-- R36 -/
  | thermalRecoverTick
  /-- R30 -/
  | ppPointWrite (value : W32)
  /-- R29 -/
  | slewDone
  /-- R43: the part that owns the channel, and the herd whose operation the stall stops, if any -/
  | handshakeStall (p : Part) (h : Option HerdId)
  /-- R46 -/
  | tbSyncSend
  /-- Table 01.9 E1, E2: head time, measured offset in ns, and the beacon carried -/
  | tbSyncReceive (head : W64) (offset : W64) (beacon : Option (BitVec 5))
  /-- Table 01.9 E3 -/
  | tbSyncTimeout
  /-- Table 01.9 E4, R280 -/
  | sInLightChange (lit : Bool)
  /-- R278 -/
  | stringBeaconTimeout
  /-- Table 01.9 E5 -/
  | tbNowWrite (value : W64)
  /-- R61 -/
  | lotClearDone (l : LotId)
  /-- R71, R481 -/
  | hbmTrainingDone (k : StackId) (ok : Bool)
  /-- R66 -/
  | hbmHotEnter (k : StackId) (temp : BitVec 8)
  /-- R66 -/
  | hbmHotExit (k : StackId) (temp : BitVec 8)
  /-- R73 -/
  | copyOrder (src : OrderSrc) (h : HerdId) (tag : W32) (sa da : W64) (bytes : BitVec 40) (sHost dHost : Bool)
  /-- R198 -/
  | nounCopy (src : OrderSrc) (h : HerdId) (tag : W32) (sEntry : BitVec 6) (sBlock : BitVec 9) (dEntry : BitVec 6)
      (dBlock : BitVec 9)
  /-- R74: the oldest copy of the herd ends -/
  | copyComplete (h : HerdId)
  /-- Table 03.4 -/
  | mma (b : BlockId) (i : Issue) (o : MmaOp)
  /-- Table 03.2, Group start -/
  | groupStart (b : BlockId) (p : PairId)
  /-- Table 03.2, A offer -/
  | aOffer (b : BlockId) (p : PairId)
  /-- Table 03.2, Lane accept -/
  | laneAccept (b : BlockId) (p : PairId) (l : PairLane)
  /-- Table 03.2, Step complete -/
  | stepComplete (b : BlockId) (p : PairId)
  /-- Table 03.2, Refill complete -/
  | refillComplete (b : BlockId) (p : PairId)
  /-- Table 03.2, Verb end -/
  | mmaVerbEnd (b : BlockId) (p : PairId)
  /-- Table 03.4 -/
  | mst (b : BlockId) (i : Issue) (o : MstOp)
  /-- R100 -/
  | mclr (b : BlockId) (i : Issue) (pairs : BitVec 8)
  /-- R106 -/
  | agBind (b : BlockId) (i : Issue) (o : AgBindOp)
  /-- R107 -/
  | agOrigin (b : BlockId) (i : Issue) (o : AgOriginOp)
  /-- R108 -/
  | agConv (b : BlockId) (i : Issue) (o : AgConvOp)
  /-- Table 05.2, this and the register verbs that follow -/
  | vadd (b : BlockId) (i : Issue) (o : RegOp)
  | vsub (b : BlockId) (i : Issue) (o : RegOp)
  | vmul (b : BlockId) (i : Issue) (o : RegOp)
  | vfma (b : BlockId) (i : Issue) (o : RegOp)
  | vfnma (b : BlockId) (i : Issue) (o : RegOp)
  | vmax (b : BlockId) (i : Issue) (o : RegOp)
  | vmin (b : BlockId) (i : Issue) (o : RegOp)
  | vabs (b : BlockId) (i : Issue) (o : RegOp)
  | vneg (b : BlockId) (i : Issue) (o : RegOp)
  | vrcp (b : BlockId) (i : Issue) (o : RegOp)
  | vdivs (b : BlockId) (i : Issue) (o : RegOp)
  | vrsqrt (b : BlockId) (i : Issue) (o : RegOp)
  | vexp2 (b : BlockId) (i : Issue) (o : RegOp)
  | vlog2 (b : BlockId) (i : Issue) (o : RegOp)
  | vldexp (b : BlockId) (i : Issue) (o : RegOp)
  | vcmp (b : BlockId) (i : Issue) (o : RegOp)
  | vsel (b : BlockId) (i : Issue) (o : RegOp)
  | vand (b : BlockId) (i : Issue) (o : RegOp)
  | vor (b : BlockId) (i : Issue) (o : RegOp)
  | vxor (b : BlockId) (i : Issue) (o : RegOp)
  | vshl (b : BlockId) (i : Issue) (o : RegOp)
  | vsrl (b : BlockId) (i : Issue) (o : RegOp)
  | vsra (b : BlockId) (i : Issue) (o : RegOp)
  | viadd (b : BlockId) (i : Issue) (o : RegOp)
  | visub (b : BlockId) (i : Issue) (o : RegOp)
  | vimul (b : BlockId) (i : Issue) (o : RegOp)
  | vimax (b : BlockId) (i : Issue) (o : RegOp)
  | vimin (b : BlockId) (i : Issue) (o : RegOp)
  /-- Table 05.5 -/
  | vcvt (b : BlockId) (i : Issue) (o : VcvtOp)
  | vexpadd (b : BlockId) (i : Issue) (o : RegOp)
  | vpadd (b : BlockId) (i : Issue) (o : RegOp)
  | vpmul (b : BlockId) (i : Issue) (o : RegOp)
  | vpfma (b : BlockId) (i : Issue) (o : RegOp)
  | vmov (b : BlockId) (i : Issue) (o : RegOp)
  | vsplat (b : BlockId) (i : Issue) (o : RegOp)
  | vlimm (b : BlockId) (i : Issue) (o : RegOp)
  | vlane (b : BlockId) (i : Issue) (o : RegOp)
  | vargmax (b : BlockId) (i : Issue) (o : RegOp)
  | vargmin (b : BlockId) (i : Issue) (o : RegOp)
  | vgetf (b : BlockId) (i : Issue) (o : RegOp)
  | vclrf (b : BlockId) (i : Issue) (o : RegOp)
  /-- Table 05.7 -/
  | vld (b : BlockId) (i : Issue) (o : VldOp)
  /-- Table 05.7 -/
  | vst (b : BlockId) (i : Issue) (o : VstOp)
  /-- R159 -/
  | vcur (b : BlockId) (i : Issue) (o : VcurOp)
  /-- R164 -/
  | vloop (b : BlockId) (i : Issue) (o : VloopOp)
  /-- R167 -/
  | vred (b : BlockId) (i : Issue) (o : VredOp)
  /-- R168 -/
  | bred (b : BlockId) (i : Issue) (o : BredOp)
  /-- R171 -/
  | vrng (b : BlockId) (i : Issue) (o : VrngOp)
  /-- R172 -/
  | rseed (b : BlockId) (i : Issue) (o : RseedOp)
  /-- R176, Table 11.12 -/
  | nounCreate (src : OrderSrc) (h : HerdId) (tag : W32) (arg : W64)
  /-- R176, Table 11.12 -/
  | nounDestroy (src : OrderSrc) (h : HerdId) (tag : W32) (entry : BitVec 6) (block : BitVec 9)
  /-- R207, Table 11.12 -/
  | sentenceLoad (src : OrderSrc) (h : HerdId) (tag : W32) (addr : W64) (bytes : W32)
  /-- R225, Table 11.12 -/
  | sentenceRun (src : OrderSrc) (h : HerdId) (tag : W32) (steps : W32)
  /-- R212 -/
  | mov (b : BlockId) (i : Issue) (o : MovOp)
  /-- R215 -/
  | bend (b : BlockId) (i : Issue) (skip : BitVec 4)
  /-- R217 -/
  | setr (b : BlockId) (i : Issue) (o : SetrOp)
  /-- Table 07.10, Block done -/
  | blockDone (b : BlockId)
  /-- Table 07.10, Row done -/
  | rowDone (h : HerdId) (r : RegionId) (row : Fin 10)
  /-- Table 07.10, Unit done -/
  | unitDone (h : HerdId)
  /-- Table 07.10, Slice round i -/
  | sliceRound (h : HerdId)
  /-- Table 07.10, Beat end -/
  | beatEnd (h : HerdId)
  /-- Table 07.10, Beat end seen -/
  | beatEndSeen (b : BlockId)
  /-- R224 -/
  | beatTimeout (h : HerdId)
  /-- R227: a stop request that reaches this unit with a fault of another participant -/
  | stopRequest (h : HerdId) (f : FaultRec)
  /-- R227, R228: the stop beat ends; `peers` are the tokens of the other units of the slice -/
  | stopBeatEnd (h : HerdId) (peers : List BeatToken)
  /-- R234 -/
  | stageCtrlWrite (h : HerdId) (value : W64)
  /-- R240 -/
  | declensionItem (h : HerdId) (item : Nat)
  /-- R255 -/
  | dcoef (b : BlockId) (i : Issue) (o : DcoefOp)
  /-- R256 -/
  | dtouch (b : BlockId) (i : Issue) (o : DtouchOp)
  /-- R290: the unit starts sending entry `e` -/
  | routeEntry (h : HerdId) (e : Nat)
  /-- R301, R302: the engine starts item `e` -/
  | reduceScatter (h : HerdId) (e : Nat)
  | allGather (h : HerdId) (e : Nat)
  | allReduce (h : HerdId) (e : Nat)
  | allToAll (h : HerdId) (e : Nat)
  | smallSum (h : HerdId) (e : Nat)
  /-- R305 -/
  | normFinish (h : HerdId) (e : Nat)
  /-- R308 -/
  | patienceExpiry (h : HerdId) (e : Nat)
  /-- R311 -/
  | carryCapture (h : HerdId) (e : Nat)
  /-- Table 10.10, Ready -/
  | commitReady (h : HerdId)
  /-- Table 10.10, All ready -/
  | commitAllReady (h : HerdId)
  /-- Table 10.10, Record -/
  | commitRecord (h : HerdId)
  /-- Table 10.10, HBM record -/
  | commitHbmRecord (h : HerdId)
  /-- Table 10.10, Flip -/
  | commitFlip (h : HerdId)
  /-- R322 -/
  | stopLimitExpiry (h : HerdId)
  /-- R323 -/
  | resolveForward (h : HerdId)
  /-- R323 -/
  | resolveBack (h : HerdId)
  /-- Table 10.9: a write of `HRD_LEDGER_STATUS` -/
  | ledgerCountWrite (h : HerdId) (value : W32)
  /-- Table 09.6, E2 -/
  | laneLock (n : LaneId)
  /-- Table 09.6, E3 -/
  | laneTrainTimeout (n : LaneId)
  /-- Table 09.6, E7 -/
  | laneLightLost (n : LaneId)
  /-- Table 09.4, Probe -/
  | probeTimer (n : LaneId)
  /-- R274 -/
  | frameSlot (n : LaneId)
  /-- R281; `rtt` is the round trip the probe and its echo show, in ns -/
  | probeFrame (n : LaneId) (p : Probe) (rtt : Nat)
  /-- R269 -/
  | idleFrame (n : LaneId)
  /-- R271; `rest` are the slice-position bits that a frame of a route under DET 0 has still to cross (R293) -/
  | dataFrame (n : LaneId) (f : Frame) (rest : List Nat)
  /-- R300 -/
  | reduceFrame (n : LaneId) (f : Frame)
  /-- Table 07.10; `tok` is what the opened payload says -/
  | beatFrame (n : LaneId) (f : Frame) (tok : BeatToken)
  /-- R272; `auth` is that the CONTROL frame opens, `ctr` its counter (R397) -/
  | ackReport (n : LaneId) (h : HerdId) (ack : BitVec 26) (ctr : W64) (auth : Bool)
  /-- R272 -/
  | ackTimer (d : DimId)
  /-- R272: the `k`-th held frame of the dimension times out -/
  | resendTimeout (d : DimId) (k : Nat)
  /-- R283; `auth` is that the CONTROL frame opens under the control key, `ctr` its counter; `via` the frames it came in -/
  | testRequest (n : LaneId) (via : List Carried) (ctr : W64) (auth : Bool)
  /-- R283 -/
  | crcLimitReached (n : LaneId)
  /-- R282 -/
  | laneRetrain (n : LaneId)
  /-- R282 -/
  | laneDisable (n : LaneId) (off : Bool)
  /-- R284 -/
  | spareReturn (n : LaneId)
  /-- Table 13.8, Judge; `via` are the KEYX frames that carry the message and `ctr` is their control counter (R397), here and in ENCAP,
  CONFIRM, JOIN and ADVANCE -/
  | hello (d : DimId) (via : List Carried) (report : List Byte) (ctr : W64)
  /-- Table 13.8, Derive -/
  | encap (d : DimId) (via : List Carried) (ct : List Byte) (ctr : W64)
  /-- Table 13.8, Keyed -/
  | confirm (d : DimId) (via : List Carried) (mac : List Byte) (ctr : W64)
  /-- R400 -/
  | join (d : DimId) (via : List Carried) (peer : BitVec 5) (world : Bool) (mac : List Byte) (ctr : W64) (auth : Bool)
  /-- R403 -/
  | advance (d : DimId) (via : List Carried) (peer : BitVec 5) (g : BitVec 16) (ctr : W64) (auth : Bool)
  /-- R403 -/
  | advanceSend (d : DimId) (h : HerdId)
  /-- Table 13.3: a requester of herd `h`, or the debug mailbox for it (`dbg`), reads the line at window offset `off`; `evict`
  are nodes (level, index) the cache gives up first, `bad` the HBM lines (stack-linear) that report an uncorrectable error
  from this access on -/
  | lineRead (dbg : Bool) (h : HerdId) (w : WinId) (off : Nat) (evict : List (Nat × Nat)) (bad : List Nat)
  /-- R381: a write of `data` from byte `start` of the line -/
  | lineWrite (dbg : Bool) (h : HerdId) (w : WinId) (off : Nat) (start : Nat) (data : List Byte) (evict : List (Nat × Nat))
      (bad : List Nat)
  /-- R384 -/
  | sweepEnd (w : WinId)
  /-- R355 -/
  | windowAlloc (src : OrderSrc) (h : HerdId) (tag : W32) (w : WinId) (ptag : BitVec 4) (base : W48) (size : BitVec 40)
      (budgetLog2 : BitVec 6)
  /-- R355 -/
  | windowFree (src : OrderSrc) (h : HerdId) (tag : W32) (w : WinId)
  /-- R388 -/
  | keyRotateRotate (src : OrderSrc) (h : HerdId) (tag : W32) (w : WinId)
  /-- R392 -/
  | keyRotateReseed (src : OrderSrc) (h : HerdId) (tag : W32) (w : WinId)
  /-- R403 -/
  | keyRotateLink (src : OrderSrc) (h : HerdId) (tag : W32)
  /-- R344 -/
  | fence (src : OrderSrc) (tag : W32)
  /-- R364 -/
  | checkpointSeal (src : OrderSrc) (h : HerdId) (tag : W32) (list dst : W64) (dstBytes : BitVec 40) (mode : BitVec 2)
      (recipient : BitVec 3) (auto : Bool) (approvals : W64)
  /-- R368 -/
  | checkpointRestore (src : OrderSrc) (h : HerdId) (tag : W32) (sa : W64) (bytes : BitVec 40)
  /-- R431 -/
  | attest (src : OrderSrc) (h : HerdId) (tag : W32) (dst : W64) (dstBytes : W32) (herdReport : Bool) (nonce : W256)
  /-- Table 07.12 -/
  | herdQuiesce (src : OrderSrc) (h : HerdId) (tag : W32)
  /-- Table 12.9, Execute -/
  | herdRevoke (src : OrderSrc) (h : HerdId) (tag : W32)
  /-- Table 12.9, Zeroize -/
  | revokeZeroize (h : HerdId)
  /-- Table 12.9, Last entries -/
  | revokeLastEntries (h : HerdId)
  /-- Table 12.9, Stream off -/
  | revokeStreamOff (h : HerdId)
  /-- Table 12.9, Clear -/
  | revokeClear (h : HerdId)
  /-- Table 12.9, Free -/
  | revokeFree (h : HerdId)
  /-- R353 -/
  | herdCreate (src : OrderSrc) (h : HerdId) (tag : W32) (groups : W48) (span : BitVec 15)
  /-- R354 -/
  | lotAssign (src : OrderSrc) (h : HerdId) (tag : W32) (first countM1 : BitVec 10)
  /-- R354 -/
  | lotRelease (src : OrderSrc) (h : HerdId) (tag : W32) (first countM1 : BitVec 10)
  /-- R356 to R358: Tahr answers the FORM record it has read -/
  | form
  /-- R359: Tahr answers the PARTY_REVOKE record it has read -/
  | partyRevoke
  /-- R339 -/
  | orderFetch (r : RingId)
  /-- R345, R346 -/
  | batchDispatch
  /-- R338; `hostData` is what the host has placed in its memory for the device to read -/
  | ordTail (r : RingId) (value : W32) (hostData : HostData)
  /-- R338 -/
  | cplHead (r : RingId) (value : W32)
  /-- R338 -/
  | evtHead (r : RingId) (value : W32)
  /-- R531: ring 0 order, 1 completion, 2 event -/
  | ringEnWrite (r : RingId) (which : Fin 3) (on : Bool)
  /-- R342 -/
  | msixHoldoffExpiry (r : RingId)
  /-- R327 -/
  | dlDown
  /-- R327 -/
  | dlUp (speed : BitVec 3) (width : BitVec 5)
  /-- R327 -/
  | hostLinkTimeout
  /-- R332 -/
  | vfFlr (h : HerdId)
  /-- R532 -/
  | pfFlr
  /-- R329 -/
  | vfEnableWrite (num : BitVec 16) (on : Bool)
  /-- Table 11.6, R325; `doe` is the DOE object's type, `code` the message code in its header, or the index of a discovery -/
  | reportReq (doe : BitVec 8) (code : BitVec 8) (nonce : W256)
  /-- Table 11.6 -/
  | keyOffer (stream : Fin 33) (set : Bool) (ct : List Byte) (salt : W256) (auth : Option W256)
  /-- Table 11.6 -/
  | keyGo (stream : Fin 33) (set : Bool)
  /-- Table 11.6 -/
  | keyStop (stream : Fin 33)
  /-- Table 11.7 -/
  | ideIntegrityFail (stream : Fin 33)
  /-- Table 17.1: the light on S_IN, the BOOT_SRC strap, the TEST lands, the tamper condition that holds, what MRAM shows (bit 0 a
  boot count that cannot be written, R406; bits 1 and 2 an invalid leaf-state copy, R428), P56 in 10 mV (R498) and the voltage
  droop that the load step of R500 gave, in microvolts -/
  | powerGood (light : Bool) (bootString : Bool) (test : BitVec 4) (tamperCause : BitVec 3) (mram : BitVec 3) (vin : BitVec 16)
      (droop : Nat)
  /-- Table 17.1 -/
  | pwrEnAssert
  /-- Table 18.7 -/
  | pwrEnDeassert
  /-- R479 -/
  | railFault
  /-- R498; `tooHigh` is above 62 V -/
  | inputVoltageFault (tooHigh : Bool)
  /-- R496; `hbm` is that an HBM stack tripped -/
  | thermalTrip (hbm : Bool)
  /-- R492 -/
  | perstAssert
  /-- R480 -/
  | perstRelease
  /-- Table 14.3; `str` is an image that has completed over the string (R483, R434), none the check itself -/
  | imageVerify (str : Option (List Byte))
  /-- R426, R427 -/
  | aliasReady
  /-- R484 -/
  | imageRequest
  /-- Table 17.3 -/
  | beginImage (total : W32)
  | data (off : W32) (bytes : List Byte)
  | endImage
  | query
  /-- R417 -/
  | devidKeys
  /-- R417 -/
  | devidCerts (certs : List Byte)
  /-- R488; `ends` is that the validation ends before the next command is taken -/
  | cfgCommit (crc : W32) (ends : Bool)
  /-- R357; `hostData` is the record the host has placed -/
  | tahrReqGo (hostData : HostData)
  /-- R421 -/
  | tamper (cause : Fin 7)
  /-- R424 -/
  | tahrFault
  /-- R418 -/
  | entropyReseed
  /-- R423, R500: the voltage at the P56 lands in 10 mV, 0 when P56 is absent, and the input power in W -/
  | holdupMeasure (p56 : BitVec 16) (watts : BitVec 12)
  /-- Table 15.5: a message of a header alone, CHALLENGE when it is 1 (R447) -/
  | challenge (header : W64)
  | present (cert : List Byte)
  | close
  | renew
  /-- R441; `target` is TARGET and the three bytes after it -/
  | transition (target : W32) (cert : List Byte)
  /-- R443: the write in progress and its read-back end -/
  | fuseWriteDone
  /-- R455 -/
  | icEdge (c : IcId) (src : Fin 512)
  /-- R457 -/
  | icClaim (c : IcId) (t : Fin 5)
  /-- R458 -/
  | icComplete (c : IcId) (t : Fin 5) (src : BitVec 10)
  /-- R459 -/
  | icVectorDeliver (c : IcId) (t : Fin 5)
  /-- R460 -/
  | icCtrlWrite (c : IcId) (value : W32)
  /-- R461 -/
  | icHoldoffExpiry (c : IcId) (g : Fin 16)
  /-- R464: `p` is a part of a block -/
  | blockFault (p : Part)
  /-- R467 -/
  | correctableError (p : Part)
  /-- R468, R469: the test of the first part due ends -/
  | selfTestVerdict (p : Part) (pass : Bool)
  /-- R20 -/
  | remapRecord
  /-- R470 -/
  | regionRestart (r : RegionId)
  /-- R270; `errs` is the error pattern of a codeword that the frame touches, by symbol (R267) -/
  | frameCrcFail (n : LaneId) (errs : List (BitVec 10))
  /-- R207 -/
  | sentenceLoadDone (h : HerdId)
  /-- R423, R505: what VBAT_T reads, in mV -/
  | vbatTLoss (mv : BitVec 12)
  /-- R418 -/
  | entropyHealthFail (failing : Bool)
  /-- R463; `line` is the line of the page, for an error of an HBM line -/
  | regionOrChipError (p : Part) (h : Option HerdId) (line : BitVec 6)
deriving DecidableEq, Repr

end Sys2Proof
end

