-- ==== Sys2Proof/Decode.lean ====
section
/-!
DEFINITION. decodeTableWord. The table of operations and events gives no row any bits: a command is not encoded in a
word, so no word spells one. (The verb words that the block itself decodes stand in Machine/VerbWord.lean.)
-/
namespace Sys2Proof

/-- The command that a word spells by the table's bits: none, since no row of the table gives bits. -/
def decodeTableWord (_nbits _w : Nat) : Option Instr := none

end Sys2Proof
end

