-- ==== Sys2Proof/Config.lean ====
section
/-!
DEFINITION. Config: what one unit's fabrication fixes and the free values of the model. Each is opaque: nothing in Lean
can evaluate it, so a claim about it holds for every value.
-/
namespace Sys2Proof

/-- FREE VALUE: the `k`-th byte that an undefined range holds (R77, R227, R229). -/
opaque Config.freeByte : Nat → Byte
/-- FREE VALUE: the `k`-th 256-bit value that Tahr's random generator draws (R418). -/
opaque Config.random : Nat → W256
/-- The PCIe vendor ID of the manufacturer. -/
opaque Config.vendorId : BitVec 16
/-- FREE VALUE: the C_HOLD, in nanofarads, that R500's division gives when the load step shows no droop. -/
opaque Config.cHoldNoDroop : Nat
/-- FREE VALUE: post-package repairs that an HBM stack has room for (R468). -/
opaque Config.pprRows : Nat → Nat
/-- FREE VALUE: the Noun table entries, and the verb words of the Clause store, that a row of a block's sequencer memory holds; the
spec does not lay these memories out in rows. -/
opaque Config.seqRowNouns : BitVec 16 → List Nat
opaque Config.seqRowWords : BitVec 16 → List Nat
/-- FREE VALUE: the scrambler state that the two ends of a lane agree in a training (R267). -/
opaque Config.lineSeed : Nat → BitVec 58
/-- The unit's serial number fuse (Table 19.4). -/
opaque Config.serial : W64
/-- The 64 KiB boot ROM's SHA-256 digest M_ROM, fixed for stepping B1 (R409). -/
opaque Config.romDigest : W256
/-- The fused roots ROOT_MAKER, ROOT_INTEGRATOR, ROOT_FIELD and ROOT_RETURN (R415), in that order. -/
opaque Config.root : Fin 4 → W256
/-- FREE VALUE: the 32-byte randomizer C of the signature with leaf `q` of the tree of an identifier (RFC 8554 leaves it to the
signer; log entry 134). -/
opaque Config.otsC : List Byte → Nat → List Byte
/-- The public keys that Skavoco holds in ROM (Table 14.9, R448): 0 firmware, 1 device identity, 2 authorisation. -/
opaque Config.romKey : Fin 3 → List Byte

end Sys2Proof
end

