-- ==== Sys2Proof/Machine/Bits.lean ====
section
/-!
DEFINITION. Bytes and numbers: little-endian and big-endian conversions, bit fields, signed reading.
-/
namespace Sys2Proof.Machine

/-- The number that bytes spell, lowest byte first (R201, R209 and the register words). -/
def leNat : List Byte → Nat
  | [] => 0
  | b :: r => b.toNat + 256 * leNat r

/-- The low `k` bytes of a number, lowest first. -/
def leBytes (k n : Nat) : List Byte :=
  match k with
  | 0 => []
  | k + 1 => BitVec.ofNat 8 n :: leBytes k (n / 256)

/-- The number that bytes spell, highest byte first. -/
def beNat (l : List Byte) : Nat := l.foldl (fun a b => 256 * a + b.toNat) 0

/-- The low `k` bytes of a number, highest first. -/
def beBytes (k n : Nat) : List Byte := (leBytes k n).reverse

/-- Bits [lo + len - 1 : lo] of a number. -/
def bits (n lo len : Nat) : Nat := (n >>> lo) % 2 ^ len

/-- One bit of a number. -/
def bit (n i : Nat) : Bool := n.testBit i

/-- The number of a Boolean. -/
def b2n (b : Bool) : Nat := if b then 1 else 0


/-- Number of significant bits of a number. -/
def bitLen (n : Nat) : Nat := if n = 0 then 0 else Nat.log2 n + 1

/-- A `k`-byte slice of a byte list from `o`; bytes beyond the end read as 0. -/
def sliceBytes (l : List Byte) (o k : Nat) : List Byte :=
  let r := (l.drop o).take k
  r ++ List.replicate (k - r.length) 0

/-- The little-endian number in `k` bytes of a byte list from `o`. -/
def fieldLe (l : List Byte) (o k : Nat) : Nat := leNat (sliceBytes l o k)

/-- ASCII bytes of a label. -/
def ascii (s : String) : List Byte := s.toList.map fun c => BitVec.ofNat 8 c.toNat

/-- Saturating increment of a counter of width `w`. -/
def satAdd {w : Nat} (a : BitVec w) (n : Nat) : BitVec w :=
  if a.toNat + n < 2 ^ w then BitVec.ofNat w (a.toNat + n) else BitVec.allOnes w

/-- Ceiling division. -/
def cdiv (a b : Nat) : Nat := (a + b - 1) / b

/-- The numbers `lo, lo + 1, …`, `n` of them. -/
def rangeFrom (lo : Nat) : Nat → List Nat
  | 0 => []
  | n + 1 => lo :: rangeFrom (lo + 1) n

end Sys2Proof.Machine
end

