-- ==== Sys2Proof/Machine/Crypto.lean ====
section
/-!
DEFINITION. The standards of Table 00.7 that the machine computes with: SHA-256, HMAC, HKDF (RFC 5869), AES-256
(FIPS 197), GCM, CRC-32C, and Philox4x32-10 (R170). PRESUMED in the standards' details (log entry 2): the spec names
the standards and does not print them.
-/
namespace Sys2Proof.Machine

/-! ## SHA-256, HMAC-SHA-256, HKDF-SHA-256 -/

/-- The round constants of SHA-256, eight to a row, the first of a row in its highest 32 bits. -/
def shaRow : Nat → W256
  | 0 => 0x428a2f98_71374491_b5c0fbcf_e9b5dba5_3956c25b_59f111f1_923f82a4_ab1c5ed5
  | 1 => 0xd807aa98_12835b01_243185be_550c7dc3_72be5d74_80deb1fe_9bdc06a7_c19bf174
  | 2 => 0xe49b69c1_efbe4786_0fc19dc6_240ca1cc_2de92c6f_4a7484aa_5cb0a9dc_76f988da
  | 3 => 0x983e5152_a831c66d_b00327c8_bf597fc7_c6e00bf3_d5a79147_06ca6351_14292967
  | 4 => 0x27b70a85_2e1b2138_4d2c6dfc_53380d13_650a7354_766a0abb_81c2c92e_92722c85
  | 5 => 0xa2bfe8a1_a81a664b_c24b8b70_c76c51a3_d192e819_d6990624_f40e3585_106aa070
  | 6 => 0x19a4c116_1e376c08_2748774c_34b0bcb5_391c0cb3_4ed8aa4a_5b9cca4f_682e6ff3
  | _ => 0x748f82ee_78a5636f_84c87814_8cc70208_90befffa_a4506ceb_bef9a3f7_c67178f2
/-- The constant of round `t`. -/
def shaK (t : Nat) : W32 := (shaRow (t / 8)).extractLsb' (32 * (7 - t % 8)) 32
/-- The initial hash value of SHA-256 as one number, word a highest. -/
def shaInit : W256 := 0x6a09e667_bb67ae85_3c6ef372_a54ff53a_510e527f_9b05688c_1f83d9ab_5be0cd19
/-- Working word `k` of a hash value: 0 is a, 7 is h. -/
def shaWord (v : W256) (k : Nat) : W32 := v.extractLsb' (32 * (7 - k)) 32
/-- Three rotations of a word (or, where `sh` is set, two rotations and a shift) added without carries. -/
def shaMix (i j k : Nat) (sh : Bool) (x : W32) : W32 :=
  x.rotateRight i ^^^ x.rotateRight j ^^^ (if sh then x >>> k else x.rotateRight k)
/-- The schedule word after the sixteen words of a window, oldest highest. -/
def shaNext (w : BitVec 512) : W32 :=
  let at_ := fun (k : Nat) => w.extractLsb' (32 * (15 - k)) 32
  shaMix 17 19 10 true (at_ 14) + at_ 9 + shaMix 7 18 3 true (at_ 1) + at_ 0
/-- One round: the words move down by one; word a is new, and word e takes its share. -/
def shaRound (v : W256) (kw : W32) : W256 :=
  let x := shaWord v
  let t := x 7 + shaMix 6 11 25 false (x 4) + (x 6 ^^^ (x 4 &&& (x 5 ^^^ x 6))) + kw
  let u := shaMix 2 13 22 false (x 0) + ((x 0 &&& x 1) ||| (x 2 &&& (x 0 ||| x 1)))
  (t + u) ++ x 0 ++ x 1 ++ x 2 ++ (x 3 + t) ++ x 4 ++ x 5 ++ x 6
/-- Rounds `t`, `t + 1`, …, `n` of them, with the window of schedule words that begins at round `t`. -/
def shaGo : Nat → Nat → BitVec 512 → W256 → W256
  | 0, _, _, v => v
  | n + 1, t, w, v =>
    shaGo n (t + 1) ((w <<< (32 : Nat)) ||| (shaNext w).setWidth 512)
      (shaRound v (shaK t + w.extractLsb' 480 32))
/-- The compression of one 64-byte block: the words of both hash values are added. -/
def shaBlock (v : W256) (blk : List Byte) : W256 :=
  let r := shaGo 64 0 (BitVec.ofNat 512 (beNat blk)) v
  BitVec.ofNat 256 ((List.range 8).foldl (fun a k => 2 ^ 32 * a + (shaWord v k + shaWord r k).toNat) 0)
/-- `n` blocks in turn. -/
def shaBlocks : Nat → W256 → List Byte → W256
  | 0, v, _ => v
  | n + 1, v, m => shaBlocks n (shaBlock v (m.take 64)) (m.drop 64)
/-- The message with its end bit, zeros up to 8 bytes short of a block, and its length in bits. -/
def shaPad (m : List Byte) : List Byte :=
  m ++ 0x80 :: (List.replicate ((119 - m.length % 64) % 64) 0 ++ beBytes 8 (8 * m.length))
/-- SHA-256 of a byte string: 32 bytes. -/
def sha256 (m : List Byte) : List Byte :=
  let p := shaPad m
  beBytes 32 (shaBlocks (p.length / 64) shaInit p).toNat

/-- HMAC-SHA-256. -/
def hmac (key msg : List Byte) : List Byte :=
  let k0 := if key.length > 64 then sha256 key else key
  let k := k0 ++ List.replicate (64 - k0.length) 0
  sha256 (k.map (· ^^^ 0x5c) ++ sha256 (k.map (· ^^^ 0x36) ++ msg))

/-- HKDF-Extract. -/
def hkdfExtract (salt ikm : List Byte) : List Byte := hmac salt ikm

/-- HKDF-Expand to 32 bytes, the only length the spec asks for. -/
def hkdfExpand (prk info : List Byte) : List Byte := hmac prk (info ++ [1])

/-- A 256-bit value as its 32 bytes, most significant first. -/
def bytes256 (k : W256) : List Byte := beBytes 32 k.toNat

/-- 32 bytes, most significant first, as a 256-bit value. -/
def word256 (l : List Byte) : W256 := BitVec.ofNat 256 (beNat l)

/-! ## AES-256 -/

/-- Multiplication by x in the field of AES. -/
def xtime (b : Byte) : Byte := (b <<< (1 : Nat)) ^^^ (if b.msb then 0x1b else 0)

/-- Multiplication in the field of AES, `n` bits of the second factor. -/
def gmul8 : Nat → Byte → Byte → Byte
  | 0, _, _ => 0
  | n + 1, a, b => (if b.getLsbD 0 then a else 0) ^^^ gmul8 n (xtime a) (b >>> (1 : Nat))

/-- `b` to the power 254 (the inverse, and 0 for 0). -/
def ginv8 (b : Byte) : Byte :=
  let m := gmul8 8
  let b2 := m b b
  let b3 := m b2 b
  let b6 := m b3 b3
  let b12 := m b6 b6
  let b15 := m b12 b3
  let b30 := m b15 b15
  let b60 := m b30 b30
  let b120 := m b60 b60
  let b126 := m b120 b6
  let b127 := m b126 b
  m b127 b127

/-- The S-box of AES. -/
def aesSbox (b : Byte) : Byte :=
  let i := ginv8 b
  i ^^^ i.rotateLeft 1 ^^^ i.rotateLeft 2 ^^^ i.rotateLeft 3 ^^^ i.rotateLeft 4 ^^^ 0x63

/-- Words of the key schedule, newest first: word `i` from its predecessors. -/
def aesExpand : Nat → Nat → Byte → List (List Byte) → List (List Byte)
  | 0, _, _, w => w
  | n + 1, i, rc, w =>
    let p := w.headD []
    let t := if i % 8 = 0 then
        match (p.drop 1 ++ p.take 1).map aesSbox with
        | b :: r => (b ^^^ rc) :: r
        | [] => []
      else if i % 8 = 4 then p.map aesSbox else p
    aesExpand n (i + 1) (if i % 8 = 0 then xtime rc else rc) (List.zipWith (· ^^^ ·) (w.getD 7 []) t :: w)

/-- The fifteen round keys of a 32-byte key. -/
def aesKeys (key : List Byte) : List (List Byte) :=
  let w0 := (List.range 8).map fun i => sliceBytes key (4 * i) 4
  let ws := (aesExpand 52 8 1 w0.reverse).reverse
  (List.range 15).map fun r => ((ws.drop (4 * r)).take 4).flatten

/-- ShiftRows on a 16-byte state in column order. -/
def aesShift (s : List Byte) : List Byte :=
  (List.range 16).map fun i => s.getD ((i + 4 * (i % 4)) % 16) 0

/-- MixColumns on a 16-byte state. -/
def aesMix (s : List Byte) : List Byte :=
  (List.range 16).map fun i =>
    let c := 4 * (i / 4)
    let g (k : Nat) : Byte := s.getD (c + (i + k) % 4) 0
    xtime (g 0) ^^^ (xtime (g 1) ^^^ g 1) ^^^ g 2 ^^^ g 3

/-- The rounds of AES after the first key addition. -/
def aesRounds : List (List Byte) → List Byte → List Byte
  | [], s => s
  | [k], s => List.zipWith (· ^^^ ·) (aesShift (s.map aesSbox)) k
  | k :: r, s => aesRounds r (List.zipWith (· ^^^ ·) (aesMix (aesShift (s.map aesSbox))) k)

/-- AES-256 of one 16-byte block. -/
def aes256 (key blk : List Byte) : List Byte :=
  match aesKeys key with
  | k0 :: r => aesRounds r (List.zipWith (· ^^^ ·) (sliceBytes blk 0 16) k0)
  | [] => []

/-! ## GCM -/

/-- Multiplication in the field of GHASH: `n` bits of `x`, most significant first, with `v` the running multiple. -/
def ghashMul : Nat → W128 → W128 → W128 → W128
  | 0, _, _, z => z
  | n + 1, x, v, z =>
    ghashMul n (x <<< (1 : Nat)) ((v >>> (1 : Nat)) ^^^ (if v.getLsbD 0 then 0xe1 <<< (120 : Nat) else 0))
      (if x.msb then z ^^^ v else z)

/-- GHASH over `n` blocks of 16 bytes. -/
def ghashGo : Nat → W128 → W128 → List Byte → W128
  | 0, _, y, _ => y
  | n + 1, h, y, m => ghashGo n h (ghashMul 128 (y ^^^ BitVec.ofNat 128 (beNat (sliceBytes m 0 16))) h 0) (m.drop 16)

/-- Pad to a multiple of 16 bytes with zeros. -/
def pad16 (l : List Byte) : List Byte := l ++ List.replicate ((16 - l.length % 16) % 16) 0

/-- GHASH of whole blocks. -/
def ghash (h : W128) (m : List Byte) : W128 := ghashGo (m.length / 16) h 0 m

/-- CTR keystream: `n` blocks from a 128-bit counter block, the low 32 bits counting. -/
def aesCtr (key : List Byte) : Nat → Nat → List Byte
  | 0, _ => []
  | n + 1, c => aes256 key (beBytes 16 c) ++ aesCtr key n (c / 2 ^ 32 * 2 ^ 32 + (c + 1) % 2 ^ 32)

/-- Bytes XOR a keystream. -/
def xorBytes (a b : List Byte) : List Byte := List.zipWith (· ^^^ ·) a b

/-- The GCM tag of ciphertext and additional data under a 96-bit IV. -/
def gcmTag (key iv aad ct : List Byte) : List Byte :=
  let h := BitVec.ofNat 128 (beNat (aes256 key (List.replicate 16 0)))
  let g := ghash h (pad16 aad ++ pad16 ct ++ beBytes 8 (8 * aad.length) ++ beBytes 8 (8 * ct.length))
  xorBytes (beBytes 16 g.toNat) (aes256 key (iv ++ beBytes 4 1))

/-- The GCM keystream applied to bytes (encryption and decryption are the same). -/
def gcmCrypt (key iv m : List Byte) : List Byte :=
  xorBytes m (aesCtr key (cdiv m.length 16) (beNat iv * 2 ^ 32 + 2))

/-- AES-256-GCM seal: ciphertext and 16-byte tag. -/
def gcmSeal (key iv aad m : List Byte) : List Byte × List Byte :=
  let ct := gcmCrypt key iv m
  (ct, gcmTag key iv aad ct)

/-- AES-256-GCM open: the plaintext when the tag holds. -/
def gcmOpen (key iv aad ct tag : List Byte) : Option (List Byte) :=
  if gcmTag key iv aad ct = tag then some (gcmCrypt key iv ct) else none

/-! ## CRC-32C and Philox -/

/-- `n` bits of the reflected CRC-32C. -/
def crcBits : Nat → W32 → W32
  | 0, c => c
  | n + 1, c => crcBits n ((c >>> (1 : Nat)) ^^^ (if c.getLsbD 0 then 0x82F63B78 else 0))

/-- CRC-32C of a byte string (Castagnoli, reflected, initial and final complement). -/
def crc32c (m : List Byte) : W32 :=
  ~~~(m.foldl (fun c b => crcBits 8 (c ^^^ b.setWidth 32)) 0xFFFFFFFF)

/-- The rounds of Philox4x32: multipliers 0xD2511F53 and 0xCD9E8D57, key increments 0x9E3779B9 and 0xBB67AE85. -/
def philoxGo : Nat → W32 → W32 → W32 × W32 × W32 × W32 → W32 × W32 × W32 × W32
  | 0, _, _, c => c
  | n + 1, k0, k1, (c0, c1, c2, c3) =>
    let p0 := 0xD2511F53 * c0.toNat
    let p1 := 0xCD9E8D57 * c2.toNat
    philoxGo n (k0 + 0x9E3779B9) (k1 + 0xBB67AE85)
      (BitVec.ofNat 32 (p1 / 2 ^ 32) ^^^ c1 ^^^ k0, BitVec.ofNat 32 p1,
       BitVec.ofNat 32 (p0 / 2 ^ 32) ^^^ c3 ^^^ k1, BitVec.ofNat 32 p0)

/-- Philox4x32-10 of a 128-bit counter (words 0 to 3) under a 64-bit key. -/
def philox (key : W64) (c : W32 × W32 × W32 × W32) : W32 × W32 × W32 × W32 :=
  philoxGo 10 (key.setWidth 32) ((key >>> (32 : Nat)).setWidth 32) c

end Sys2Proof.Machine
end

