-- ==== Sys2Proof/Machine/Fec.lean ====
section
/-!
DEFINITION. The line code of a lane (R267, Table 09.1): the additive scrambler of polynomial x^58 + x^39 + 1 and RS(544,514) over
GF(2^10), which corrects up to 15 symbols. The field's polynomial x^10 + x^3 + 1 and the code's generator, whose roots are the
powers 0 to 29 of the field's generator, are those of IEEE 802.3 Clause 91 (PRESUMED, log entry 144).
-/
namespace Sys2Proof.Machine

/-- A 10-bit symbol of a codeword. -/
abbrev Sym := BitVec 10

/-- What an end of a lane keeps of its line code: the scrambler's state, the scrambled bits that do not fill a codeword yet, and the
codeword sent last. -/
structure LineCode where
  scram : BitVec 58 := 0
  bits : List Bool := []
  word : List Sym := []
deriving DecidableEq, Repr

/-- Scramble a stream of bits. -/
def scramble (k : BitVec 58) : List Bool → BitVec 58 × List Bool
  | [] => (k, [])
  | b :: r =>
    let p := k.getLsbD 57 ^^ k.getLsbD 38
    let (k, l) := scramble (k.shiftConcat p) r
    (k, (b ^^ p) :: l)

/-- The scrambler's state after `n` more bits. It does not depend on them, so the receiver's descrambler moves in step. -/
def scrambleSkip : Nat → BitVec 58 → BitVec 58
  | 0, k => k
  | n + 1, k => scrambleSkip n (k.shiftConcat (k.getLsbD 57 ^^ k.getLsbD 38))
/-- The bits of a frame (R268). -/
def frameBits : Nat := 4416

/-- Multiplication by the field's generator. -/
def Sym.twice (a : Sym) : Sym := a <<< 1 ^^^ (if a.getLsbD 9 then 0x009 else 0)
/-- Multiplication in GF(2^10). -/
def Sym.times (a b : Sym) : Sym :=
  (List.range 10).foldr (fun i (c : Sym) => c.twice ^^^ (if a.getLsbD i then b else 0)) 0
/-- The coefficients of the generator polynomial below its leading 1, highest first. -/
def rsCoefs : List Sym :=
  ((List.range 30).foldl (fun (q : Sym × List Sym) _ =>
    (q.1.twice, List.zipWith (· ^^^ ·) (q.2 ++ [0]) (0 :: q.2.map q.1.times))) ((1 : Sym), [1])).2.drop 1
/-- The 30 parity symbols of a message: the remainder of its shifted polynomial. -/
def rsParity (m : List Sym) : List Sym :=
  m.foldl (fun r a =>
    let q := a ^^^ r.headD 0
    List.zipWith (· ^^^ ·) (r.drop 1 ++ [0]) (rsCoefs.map q.times)) (List.replicate 30 0)
/-- A codeword: 514 symbols and their parity. -/
def rsWord (m : List Sym) : List Sym := m ++ rsParity m
/-- The decoder corrects a codeword that arrives with this error pattern: at most 15 symbols are wrong. Any other it passes on as it
is, and the frames that it touches fail their CRC (Table 09.1). -/
def rsCorrects (errs : List Sym) : Bool := decide ((errs.filter (· != 0)).length ≤ 15)
/-- The bits of bytes in the order they travel, lowest first. -/
def lineBits (l : List Byte) : List Bool := l.flatMap fun b => (List.range 8).map b.getLsbD
/-- The symbols that bits fill, lowest bit first. -/
def symsOf (n : Nat) (l : List Bool) : List Sym :=
  (List.range n).map fun i => BitVec.ofNat 10 (((l.drop (10 * i)).take 10).foldr (fun b a => b2n b + 2 * a) 0)
/-- A frame's bytes join the stream; a codeword goes out once its 5,140 bits have come. -/
def LineCode.push (c : LineCode) (b : List Byte) : LineCode :=
  let (k, l) := scramble c.scram (lineBits b)
  let l := c.bits ++ l
  if l.length < 5140 then { c with scram := k, bits := l }
  else { scram := k, bits := l.drop 5140, word := rsWord (symsOf 514 l) }

end Sys2Proof.Machine
end

