-- ==== Sys2Proof/Machine/Tbl.lean ====
section
/-!
DEFINITION. Sparse tables: a list of (key, value) pairs with strictly rising keys, in which no entry equals what an
unlisted key reads as, so that equal tables are equal data. Every array of State is one, and so is memory (R52).
-/
namespace Sys2Proof.Machine

/-- A sparse table from numbers to values. -/
structure Tbl (β : Type) where
  entries : List (Nat × β) := []
deriving DecidableEq, Repr

/-- The value listed for a key, if any. -/
def Tbl.find {β : Type} : List (Nat × β) → Nat → Option β
  | [], _ => none
  | (a, v) :: r, k => if a = k then some v else Tbl.find r k

/-- What a key reads as: its listed value, or the default `d`. -/
def Tbl.get {β : Type} (t : Tbl β) (d : β) (k : Nat) : β :=
  match Tbl.find t.entries k with
  | some v => v
  | none => d

/-- Remove a key. -/
def Tbl.del {β : Type} : List (Nat × β) → Nat → List (Nat × β)
  | [], _ => []
  | (a, v) :: r, k => if a = k then Tbl.del r k else (a, v) :: Tbl.del r k

/-- Insert or replace a key, keeping the keys rising. -/
def Tbl.ins {β : Type} : List (Nat × β) → Nat → β → List (Nat × β)
  | [], k, v => [(k, v)]
  | (a, w) :: r, k, v =>
    if a = k then (k, v) :: r else if k < a then (k, v) :: (a, w) :: r else (a, w) :: Tbl.ins r k v

/-- Give a key a value; writing the default removes the entry. -/
def Tbl.set {β : Type} [DecidableEq β] (t : Tbl β) (d : β) (k : Nat) (v : β) : Tbl β :=
  if v = d then ⟨Tbl.del t.entries k⟩ else ⟨Tbl.ins t.entries k v⟩

/-- The empty table: every key reads as its default. -/
def Tbl.empty {β : Type} : Tbl β := ⟨[]⟩

/-- Keys rise strictly. -/
def Tbl.sorted {β : Type} : List (Nat × β) → Bool
  | [] => true
  | [_] => true
  | (a, _) :: (b, w) :: r => a < b && Tbl.sorted ((b, w) :: r)

/-- The canonical form over a default: strictly rising keys and no entry equal to the default. -/
def Tbl.wf {β : Type} [DecidableEq β] (d : β) (t : Tbl β) : Bool :=
  Tbl.sorted t.entries && t.entries.all fun e => !(e.2 == d)

/-- Keep the entries whose key satisfies `p`. -/
def Tbl.filter {β : Type} (t : Tbl β) (p : Nat → Bool) : Tbl β := ⟨t.entries.filter fun e => p e.1⟩

/-- The keys that are listed, rising. -/
def Tbl.keys {β : Type} (t : Tbl β) : List Nat := t.entries.map (·.1)

/-- Memory: a table of bytes; an unlisted byte reads as 0 (DESIGN CHOICE, log entry 5). -/
abbrev Mem := Tbl Byte

/-- One byte of memory. -/
def Mem.read (m : Mem) (a : Nat) : Byte := Tbl.get m 0 a
/-- Write one byte of memory. -/
def Mem.write (m : Mem) (a : Nat) (v : Byte) : Mem := Tbl.set m 0 a v

/-- `n` bytes from address `a`, lowest address first. -/
def Mem.readBytes (m : Mem) (a : Nat) : Nat → List Byte
  | 0 => []
  | n + 1 => m.read a :: Mem.readBytes m (a + 1) n
/-- Write bytes from address `a` upward. -/
def Mem.writeBytes (m : Mem) (a : Nat) : List Byte → Mem
  | [] => m
  | b :: r => Mem.writeBytes (m.write a b) (a + 1) r

/-- The canonical form of memory. -/
def Memory.wf (m : Mem) : Bool := Tbl.wf 0 m

end Sys2Proof.Machine
end

