-- ==== Sys2Proof/Machine/Parts.lean ====
section
/-!
DEFINITION. The structures that State is made of: power, timebase, memories, blocks, herds, fabric. Every field is
plain data; the defaults are the values of reset (of a cleared part), and tables list only what differs from them.
-/
namespace Sys2Proof.Machine

/-! ## Chapter 01: power loops and timebase -/

/-- The performance point and the two governor loops (R28 to R37, Tables 01.4 and 01.5). `supplyMv` is the compute-die
supply, `duty...` the two duties in percent, `p56` the input voltage of the last evaluation in 10 mV, 56 V until then (MODEL); the
times of R32, R33, R35 and R36 are those of their event rows. -/
structure Power where
  point : Point := 2
  limitW : BitVec 12 := 0xE10
  powerPoint : Point := 3
  thermalPoint : Point := 3
  powerDuty : Nat := 100
  thermalDuty : Nat := 100
  slewing : Bool := false
  supplyMv : Nat := 720
  inputW : BitVec 12 := 0
  p56 : BitVec 16 := 5600
deriving DecidableEq, Repr

/-- Timebase states (Table 01.9). -/
inductive TbMode where
  | free | locked | adrift | master
deriving DecidableEq, Repr

/-- The timebase (R45 to R51, Tables 01.10 and 01.11) and the string position (R278). `light` is the light on S_IN;
`slewNs` is the offset still to be slewed out; `sent` holds the head time and beacon of the last sync message sent, and `beacon`
the last valid beacon since S_IN last changed. -/
structure Timebase where
  now : W64 := 0
  mode : TbMode := .master
  stepped : Bool := false
  offsetNs : BitVec 8 := 0
  light : Bool := false
  slewNs : Int := 0
  slewPhase : Nat := 0
  sent : Option (W64 × Option (BitVec 5)) := none
  beacon : Option (BitVec 5) := none
  position : BitVec 5 := 0
  posValid : Bool := false
  stringFault : Bool := false
deriving DecidableEq, Repr

/-! ## Chapter 02: lots, stacks, copies -/

/-- A lot of the central store (Table 02.2, R58 to R61). `since` is the timebase when it was assigned (R347). -/
structure Lot where
  herd : BitVec 5 := 0
  secure : Bool := false
  assigned : Bool := false
  clearing : Bool := false
  since : W64 := 0
deriving DecidableEq, Repr

/-- An HBM stack (Table 02.5): STATE 0 TRAINING, 1 READY, 2 FAILED. -/
structure Stack where
  st : BitVec 2 := 0
  hot : Bool := false
  repaired : BitVec 8 := 0
  tempC : BitVec 8 := 0
deriving DecidableEq, Repr

/-! ## Chapter 03: matrix cells and address generators -/

/-- One operand chunk register of a lane, with the scale code that goes with it (R81, R88). -/
structure ChunkReg where
  data : W128 := 0
  scale : Byte := 127
deriving DecidableEq, Repr

/-- What an open accumulation of a pair was opened with (R96, R112, Table 03.8); `kCount` is the count of R90. -/
structure OpenAcc where
  fmt : BitVec 4
  lcode : BitVec 8
  arrange : BitVec 2
  mSweep : BitVec 7
  set : BitVec 8
  gridRow : Nat
  gridCol : Nat
  kCount : Nat
deriving DecidableEq, Repr

/-- What an A generator has offered for one row: the G elements as packed and their scale code (R88, R110). -/
structure AOffer where
  data : W128
  scale : Byte
deriving DecidableEq, Repr

/-- An `MMA` in progress on one pair (Table 03.2), issued in segment `seg` of its pass. -/
structure MmaRun where
  op : MmaOp
  seg : Nat
  m0 : Int
  kA : Int
  kB : Int
  n0 : Int
  group : Nat
  inGroup : Bool
  row : Nat
  offer : Option AOffer
  acks : W128
  nextFull : Bool
deriving DecidableEq, Repr

/-- A cell pair: chunk and total registers (R85) keyed by lane * 128 + m, lane sticky flags (R93), the saturation
counters of its two cells, the operand chunk registers in use and next (R81), and the `MMA` it runs. -/
structure Pair where
  acc : Option OpenAcc := none
  chunk : Tbl W32 := {}
  total : Tbl W48 := {}
  sticky : W128 := 0
  sat0 : W32 := 0
  sat1 : W32 := 0
  cur : Tbl ChunkReg := {}
  next : Tbl ChunkReg := {}
  run : Option MmaRun := none
deriving DecidableEq, Repr

/-- An address generator (R103, R106 to R109). `origin` is keyed by Noun dimension 0 to 5, by 6 for the reduction
index K of CONV_A and by 7 for the flattened output position M. -/
structure Ag where
  bound : Bool := false
  noun : BitVec 6 := 0
  mode : BitVec 2 := 0
  rowDim : BitVec 3 := 0
  colDim : BitVec 3 := 0
  oob : BitVec 2 := 0
  origin : Tbl Int := {}
  conv : Option AgConvOp := none
deriving DecidableEq, Repr

/-! ## Chapter 05: vector cells -/

/-- A cursor (R159). -/
structure Cursor where
  base : W48 := 0
  lane : BitVec 24 := 0
  step : W32 := 0
deriving DecidableEq, Repr

/-- A vector cell: registers keyed by register * 64 + lane (R148), lane flags (R165) and four cursors (R159). -/
structure VCell where
  regs : Tbl W32 := {}
  flags : Tbl (BitVec 5) := {}
  curs : Tbl Cursor := {}
deriving DecidableEq, Repr

/-! ## Chapter 06: Nouns -/

/-- A dimension word of a descriptor (Table 06.2). -/
structure NounDim where
  extM1 : BitVec 18 := 0
  stride : BitVec 28 := 0
  lead : BitVec 5 := 0
  tail : BitVec 7 := 0
  rule : BitVec 2 := 0
  k : BitVec 4 := 0
deriving DecidableEq, Repr

/-- A Noun descriptor (Tables 06.1 and 06.2). -/
structure Noun where
  kind : BitVec 2 := 0
  alloc : BitVec 10 := 0
  offset : BitVec 34 := 0
  elem : BitVec 4 := 0
  rank : BitVec 3 := 0
  isGlobal : Bool := false
  residual : Bool := false
  haloShare : Bool := false
  maskz : Bool := false
  secure : Bool := false
  herd : BitVec 5 := 0
  live : Bool := false
  tile : BitVec 2 := 0
  sofs : BitVec 34 := 0
  scale : BitVec 2 := 0
  sdim : BitVec 3 := 0
  hdrRes : BitVec 23 := 0
  dims : List NounDim := []
deriving DecidableEq, Repr

/-! ## Chapter 07: blocks and Sentences -/

/-- Block sequencer states (Table 07.11). -/
inductive SeqState where
  | idle | issue | held | passEnd | halt
deriving DecidableEq, Repr

/-- A logical block: its sequencer (Table 07.11), Clause store (R208), flag word, Noun table (R174), address
generators, cell pairs, vector cells and the seeds it took (R172). `pos` is the next verb, `seg` the segment it belongs
to, `seen` the number of beats of the pass whose end it has received, `doneSegs` the segments it has signalled done;
`pass` is the pass it runs, `fenced` is
R19, with the status of the fault. -/
structure Block where
  st : SeqState := .idle
  pos : Nat := 0
  seg : Nat := 0
  seen : Nat := 0
  doneSegs : Nat := 0
  pass : Nat := 0
  clause : List VerbWord := []
  flags : BitVec 6 := 0
  seeds : Tbl W64 := {}
  nouns : Tbl Noun := {}
  ags : Tbl Ag := {}
  pairs : Tbl Pair := {}
  vcells : Tbl VCell := {}
  fenced : Bool := false
  fault : BitVec 16 := 0
deriving DecidableEq, Repr

/-- Herd Sentence states (Table 07.12). -/
inductive HerdSeq where
  | empty | loading | ready | running | stopping
deriving DecidableEq, Repr

/-- Where an order came from: its ring set and its TAG, for its completion entry (R340). `gen` is the ring set's
generation when the order was admitted: an FLR starts a new one, so that older completions are discarded (R332, R532).
`seq` is the order's place in batch order, `herd` the herd it names. -/
structure OrderRef where
  src : OrderSrc
  tag : W32
  gen : Nat := 0
  seq : Nat := 0
  herd : Option HerdId := none
deriving DecidableEq, Repr

/-- One staged value (R7, R8, R218): the 32-bit word's offset in the herd window, the bits it writes and their values.
`block` and `seq` order `SETR` values (R218), and `beat` is the beat at whose start one takes effect; for a host value
they are 0. -/
structure Staged where
  off : Nat
  mask : W32
  val : W32
  block : Nat
  seq : Nat
  beat : Nat := 0
deriving DecidableEq, Repr

/-- A load in progress: what it found (an image, or the status, check code and offset of its failure). -/
structure LoadRun where
  ref : OrderRef
  result : Option Sentence
  status : BitVec 8
  code : BitVec 8
  where_ : W32
deriving DecidableEq, Repr

/-- A run in progress (R225, R226): steps asked, steps done, the first beat number, the pass, the beat index in the
pass, the slice round reached, whether this unit is done for the beat, and, for a stop (R227), the faults gathered and
the quiesce orders that wait. `rows` and `items` list the
participants that have signalled: mesh rows, items. `closed` is that the order has already completed (Table 12.9). `wrote` lists the ranges the step in progress
has written (R229), `between` that the run stopped as a beat ended and no beat is in progress, `flipped` is that the commit of the step has flipped, and `atBoundary` that the last beat that ended was
a step boundary. -/
structure Run where
  ref : OrderRef
  steps : W64
  done : W64 := 0
  beat0 : W48 := 0
  pass : Nat := 0
  beat : Nat := 0
  rows : List Nat := []
  items : List (BitVec 8 × Nat) := []
  unitDone : Bool := false
  round : Nat := 0
  faults : List FaultRec := []
  quiesces : List OrderRef := []
  stopAtEnd : Bool := false
  dropped : Bool := false
  fullRaised : Bool := false
  ended : Nat := 0
  closed : Bool := false
  wrote : List (Nat × Nat) := []
  mismatch : Bool := false
  flipped : Bool := false
  atBoundary : Bool := false
  between : Bool := false
deriving DecidableEq, Repr

/-! ## Chapters 08 and 10: declension, collectives, commit -/

/-- A route entry in progress on this unit: frames sent and acknowledged, and bytes received (R291). -/
structure RouteRun where
  sent : Nat := 0
  acked : Nat := 0
  got : Nat := 0
deriving DecidableEq, Repr

/-- A reduction item in progress (R301 to R303): the round reached, the unit's partials as 32-bit words by element
index (or the bytes it forwards), the frames received and not yet used as (round, frame of the round, payload), whether
the unit has missed it and whether its patience budget has started (R308). -/
structure RedRun where
  started : Bool := false
  round : Nat := 0
  x : Tbl W32 := {}
  early : List (Nat × Nat × List Byte) := []
  missed : Bool := false
  budget : Bool := false
  done : Bool := false
deriving DecidableEq, Repr

/-- Step commit states (Table 10.13). -/
inductive CommitState where
  | opened | ready | recording | unresolved
deriving DecidableEq, Repr

/-! ## Chapter 11: rings, orders, streams -/

/-- One ring of a ring set (Table 11.8): `idx` is ORD_HEAD, CPL_TAIL or EVT_TAIL, `door` the device's copy of the
doorbell value and `phase` the PHASE of the next entry written (R340, R531). -/
structure Ring where
  base : W64 := 0
  log2 : BitVec 5 := 0
  en : Bool := false
  idx : BitVec 16 := 0
  door : BitVec 16 := 0
  phase : Bool := true
deriving DecidableEq, Repr

/-- A completion entry (Table 11.13), PHASE apart. -/
structure Cpl where
  tag : W32
  status : BitVec 16
  check : BitVec 8
  detail : W64
  place : Nat := 0
deriving DecidableEq, Repr

/-- An event entry (Table 11.15), PHASE apart; `payload` is the 20 bytes from 0x0C. -/
structure Evt where
  code : BitVec 16
  herd : BitVec 5
  time : W64
  payload : List Byte
deriving DecidableEq, Repr

/-- An order fetched from a ring: its 64 bytes as read (Table 11.10). -/
structure Fetched where
  bytes : List Byte
  gen : Nat := 0
deriving DecidableEq, Repr

/-- A ring set (Table 11.8): its rings, hold-off, lost events, admitted orders that have not completed
(`reserved`, R339) and the generation an FLR advances, entries held while the
link is down or the ring cannot take them (R327, R339), the orders fetched and not yet dispatched, the `FENCE` orders
that have not completed (R344), and the vector: `vecBusy` while a hold-off runs, `vecDue` when one is owed, `vecSent` the number
sent, `masked` and `pend` the mask and pending bits (R342), `msgAddr` and `msgData` the rest of its MSI-X table entry
(Table 11.4). -/
structure RingSet where
  ord : Ring := {}
  cpl : Ring := {}
  evt : Ring := {}
  holdoffUs : BitVec 16 := 0
  evtLost : W32 := 0
  lostSince : Nat := 0
  ringErr : Bool := false
  reserved : Nat := 0
  gen : Nat := 0
  heldCpl : List Cpl := []
  heldEvt : List Evt := []
  fetched : List Fetched := []
  fences : List OrderRef := []
  vecBusy : Bool := false
  vecDue : Bool := false
  vecSent : Nat := 0
  masked : Bool := true
  pend : Bool := false
  msgAddr : W64 := 0
  msgData : W32 := 0
deriving DecidableEq, Repr

/-- IDE stream states (Table 11.7). -/
inductive IdeState where
  | disabled | keyed | secure
deriving DecidableEq, Repr

/-- An IDE stream: its state, its two key sets (the six keys of R336 in order dir, sub), the active set, and whether
both sets are accepted for receipt (Table 11.7). -/
structure IdeStream where
  st : IdeState := .disabled
  set0 : List W256 := []
  set1 : List W256 := []
  active : Bool := false
  both : Bool := false
deriving DecidableEq, Repr

/-- The meters of a herd number (Table 11.18). -/
structure Meter where
  beats : W64 := 0
  cellSteps : W64 := 0
  hbmBytes : W64 := 0
  linkBytes : W64 := 0
  lotUs : W64 := 0
deriving DecidableEq, Repr

/-- A copy in progress (R72 to R77): its order, its herd and, when an event has already decided it, its status; `quiet` is
that it was refused when it was issued. `src` and `dst` are its device ranges (address, bytes). For R75, `old` keeps the
transfer units of its source that the run has written meanwhile, as they were before, and `met` the ranges of its destination
that the run has written meanwhile. -/
structure CopyJob where
  ref : OrderRef
  herd : HerdId
  op : OrderOp
  status : Option (BitVec 16)
  quiet : Bool := false
  src : List (Nat × Nat) := []
  dst : List (Nat × Nat) := []
  old : List (Nat × List Byte) := []
  met : List (Nat × Nat) := []
deriving DecidableEq, Repr

/-! ## Chapter 12: herds -/

/-- Herd states (Table 12.11). -/
inductive HerdState where
  | absent | live | revoking
deriving DecidableEq, Repr

/-- How far a revocation has come (Table 12.9). -/
inductive RevStage where
  | executed | zeroized | lastWritten | streamOff | cleared
deriving DecidableEq, Repr

/-- A revocation in progress: its stage, the timebase at Execute and at Stream off, the orders to complete `OK`, and the
completions that wait for the Last entries event, each with its order's place in batch order. -/
structure Revocation where
  stage : RevStage
  t0 : W64
  tOff : W64
  refs : List OrderRef
  lasts : List Cpl
deriving DecidableEq, Repr

/-- What formation gave a secure herd (R356 to R358): the number of parties, the policy, the quorum, the lead party, the
bound measurement, FNONCE, the export sequence, and the Markhor slots of pk_0 .. pk_(n-1) and kc. -/
structure Formation where
  n : Nat
  quorum : Bool
  kM1 : BitVec 3
  lead : BitVec 3
  meas : List Byte
  fnonce : W256
  seq : W64
  pkSlots : List Nat
  kcSlot : Nat
deriving DecidableEq, Repr

/-! ## Chapter 13: windows, lanes, dimensions, streams -/

/-- A subtree of a window that is unverifiable or being re-seeded (R389, R392): the level and index of its top node
(level 0 is a page node; `whole` the whole window) and the data lines written since a re-seed. -/
structure SubTree where
  whole : Bool
  level : Nat
  idx : Nat
  reseeding : Bool
  written : List Nat
deriving DecidableEq, Repr

/-- A window (Tables 13.1, 13.5, 13.6 and 13.11). `st` is 0 FREE, 1 LIVE, 2 DAMAGED, 3 RESEEDING; `epochSt` 0 STEADY,
1 SWEEPING, 2 STALLED. `slot0` and `slot1` are the Markhor slots of the keys of epochs 0 and 1. `root` holds the root
counters, `cache` the node cache, keyed by level * 2^40 + index (level 0: page nodes), each entry the node's first 56
bytes. `waiting` are line writes that STALLED holds. -/
structure Win where
  st : BitVec 2 := 0
  epochSt : BitVec 2 := 0
  epoch : Bool := false
  herd : BitVec 5 := 0
  secure : Bool := false
  tag : BitVec 4 := 0
  pinned : Bool := false
  base : Nat := 0
  size : Nat := 0
  budgetLog2 : Nat := 0
  writes : Nat := 0
  slot0 : Option Nat := none
  slot1 : Option Nat := none
  root : Tbl Nat := {}
  cache : Tbl (Option (BitVec 448)) := {}
  subs : List SubTree := []
  sweepDue : Bool := false
  rotations : List (OrderRef × W64) := []
  waiting : List (Nat × List Byte) := []
deriving DecidableEq, Repr

/-- Lane states (Table 09.6), coded as `FAB_LANE_STATUS_n.STATE`. -/
inductive LaneState where
  | dark | train | probe | ready | active | standby | test | failed | mismatch
deriving DecidableEq, Repr

/-- What a lane last put on its fibre. -/
inductive Tx where
  | idle | probe (p : Probe) | frame (f : Frame)
deriving DecidableEq, Repr

/-- A fabric lane (Tables 09.6, 09.14 and 09.15). `last` is the last probe received, `called` that a spare has been
called (E11), or that a working lane has called one (R284); `sentCount` counts frames for R274; `fails`, `goods` and `hunting` follow
R270; `errs` are the times of CRC errors within 1 ms of the last (R283); `rtt` is the round trip in ns; `arb` holds the
weights of the round or frame of grants in progress, operator last (Table 01.7); `out` is the last frame put on the fibre,
552 bytes (Table 09.2), `line` the line code it went through, and `descram` the state of the receiving side's descrambler (R267). -/
structure Lane where
  st : LaneState := .dark
  dim : BitVec 4 := 0xF
  spare : Bool := false
  noPeer : Bool := false
  peerLane : BitVec 6 := 0
  crcErr : BitVec 16 := 0
  disable : Bool := false
  last : Option (BitVec 15 × BitVec 6) := none
  called : Bool := false
  toStandby : Bool := false
  sentCount : Nat := 0
  fails : Nat := 0
  goods : Nat := 0
  hunting : Bool := false
  errs : List W64 := []
  rtt : Nat := 0
  arbPos : Nat := 0
  arb : List Nat := []
  out : Option (List Byte) := none
  line : LineCode := {}
  descram : BitVec 58 := 0
deriving DecidableEq, Repr

/-- A frame held until it is acknowledged (R272): its stream's herd, its bytes, the lane it was last sent on, and whether the
run that sent it has ended. -/
structure HeldFrame where
  herd : HerdId
  frame : Frame
  lane : LaneId
  stale : Bool := false
deriving DecidableEq, Repr

/-- A frame waiting to be sent on a dimension, in clear (R274): a data frame of a herd, or a control or key-exchange
message, `clear` when it travels unsealed (R397). `path` are the slice-position bits that a frame of a route under DET 0 has still to
cross, this dimension's first (R293). -/
structure OutFrame where
  type : BitVec 4
  clear : Bool := false
  herd : HerdId
  last : Bool
  item : BitVec 20
  offset : BitVec 24
  payload : List Byte
  path : List Nat := []
deriving DecidableEq, Repr

/-- Hop key states (Table 13.13). -/
inductive HopState where
  | none | exchanging | keyed | refused
deriving DecidableEq, Repr

/-- A dimension (Tables 09.16 and 13.13): hop state, cause, counters, the hop key and the secrets it is made of
(Table 13.8), the control counters of R397, queues, held frames, the herd map of R400 (peer herd number to local herd
number + 1) with the JOINs received (peer number, world, value), and the peer's herd numbers whose E changed since the
last report (R272). -/
structure Dim where
  hop : HopState := .none
  cause : BitVec 3 := 0
  authFail : BitVec 16 := 0
  hk : Option W256 := none
  ssOwn : Option W256 := none
  ssPeer : Option W256 := none
  ctlSent : W64 := 0
  ctlSeen : Option W64 := none
  queue : List OutFrame := []
  held : List HeldFrame := []
  map : Tbl Nat := {}
  ackDue : List (BitVec 5) := []
  joins : List (Nat × Bool × List Byte) := []
  helloDue : Bool := false
  encapDue : Option (List Byte) := none
deriving DecidableEq, Repr

/-- The streams of one herd number on one dimension (R271, R403): the next counter to send and a `KEY_ROTATE` LINK that
waits to advance, for this unit's herd of that number; E and the counters accepted at or above E, for the peer's; `cut`, the counter of
the peer's last BEAT frame that tells it has sent all that came before, and whether that frame told of a stop with a fault (R291). -/
structure Stream where
  sendCtr : W64 := 0
  e : W64 := 0
  seen : List W64 := []
  advancing : Bool := false
  cut : W64 := 0
  halted : Bool := false
deriving DecidableEq, Repr

/-! ## Chapter 14: Markhor, Tahr, Serow -/

/-- A Markhor slot (Table 14.5) and its secret of up to 64 bytes. -/
structure Slot where
  valid : Bool := false
  tenant : Bool := false
  type : BitVec 4 := 0
  derived : Bool := false
  owner : BitVec 2 := 0
  herd : BitVec 5 := 0
  party : BitVec 3 := 0
  index : BitVec 6 := 0
  epoch : Bool := false
  held : Bool := false
  secret : List Byte := []
deriving DecidableEq, Repr

/-- A copy of the leaf-state record (R428): the next DeviceID and alias leaves, the alias index, the boot count and the
sequence number and the CRC-32C over them; that of a record of zeros is the default. -/
structure LeafRec where
  devid : Nat := 0
  aliasLeaf : Nat := 0
  aliasIdx : Nat := 0
  boot : W32 := 0
  seq : W32 := 0
  crc : W32 := 0xBCC5563E
deriving DecidableEq, Repr

/-- An MRAM commit-log entry of a herd with the MAC that Tahr made under SEAL (R319, R419). -/
structure CommitLog where
  step : W48
  present : Bool
  mac : List Byte
deriving DecidableEq, Repr

/-- A request record that Tahr has read and not yet answered (R357); `issued` is that its order has been issued. -/
structure Request where
  bytes : List Byte
  issued : Bool := false
deriving DecidableEq, Repr

/-- A RECOVERY message that waits while an image is verified (R434, Table 17.3): BEGIN, DATA or END. -/
inductive RecMsg where
  | start (total : W32)
  | data (off : W32) (bytes : List Byte)
  | finish
deriving DecidableEq, Repr

/-- Tahr (Tables 14.12 to 14.15, 12.14 to 12.17, 17.3). `st` is 0 ROM, 1 WAIT_IMAGE, 2 VERIFYING, 3 RUNNING, 4 HALTED.
`total` and `got` are a mailbox transfer in progress: TOTAL and the ranges received; `img` its bytes. An image taken for
verification lies in lots 1008 to 1011, `candLen` bytes, and its signature in `sig`; `fromString` is where it came from.
`imageLen` is the length of a verified image that is kept (R484). `imgWaits` and `strWait` are mailbox messages and a string
image that wait for a verification to end (R434). `imgAsked` counts the image requests sent upstream, `imgRequests` those received
and `imgServed` those served (R484). `form` is a formation whose `HERD_CREATE` has been
issued and has not completed. `altReady` is that the next alias is certified. `recs` holds
the two leaf-state copies of each life-cycle state (R437), keyed by state * 2 + copy. `waitAttests` and `waitReports` wait
for an alias leaf (R427), `renewDue` for the entropy source (R418). -/
structure Tahr where
  st : BitVec 3 := 0
  source : Bool := false
  fail : BitVec 4 := 0
  svn : BitVec 8 := 0
  rootNew : Bool := false
  cfgMeasured : Bool := false
  bootCount : W32 := 0
  mFw : List Byte := []
  mCfg : List Byte := []
  total : Option Nat := none
  got : List (Nat × Nat) := []
  img : Mem := {}
  fromString : Bool := false
  candLen : Nat := 0
  imgWaits : List RecMsg := []
  strWait : Option (List Byte) := none
  imageLen : Nat := 0
  sig : List Byte := []
  states : BitVec 4 := 0
  raiseTo : Nat := 0
  imgRequests : Nat := 0
  imgServed : Nat := 0
  imgAsked : Nat := 0
  recs : Tbl LeafRec := {}
  aliasOk : Bool := false
  aliasSlot10 : Bool := false
  altReady : Bool := false
  aliasCert : List Byte := []
  altCert : List Byte := []
  devidCerts : List Byte := []
  reqAddr : W64 := 0
  reqBusy : Bool := false
  reqHerd : BitVec 5 := 0
  reqResult : BitVec 16 := 0
  reqDetail : W32 := 0
  request : Option Request := none
  form : Option (HerdId × Formation) := none
  orders : List Order := []
  commits : Tbl (Option CommitLog) := {}
  entropyBad : Bool := false
  waitAttests : List Order := []
  waitReports : List W256 := []
  renewDue : Bool := false
deriving DecidableEq, Repr

/-- Serow (Table 14.16, R419 to R424, R499, R500): `root` is the tenant root, `cHold` the capacitance in nanofarads,
`latent` a tamper that happened without P56, `trips` the causes of the shutdowns not yet written to MRAM. `vin` is what P56 last
measured at the lands, in 10 mV, 0 while P56 is absent, and `vbatMv` what VBAT_T did, in mV; `p56` and `holdup` are the register's
fields. -/
structure Serow where
  tampered : Bool := false
  cause : BitVec 3 := 0
  vbatMv : BitVec 12 := 3000
  tamperCount : BitVec 16 := 0
  vin : BitVec 16 := 0
  p56 : BitVec 16 := 0
  holdup : BitVec 16 := 0
  root : Option W256 := none
  cHold : Nat := 0
  latent : Option (BitVec 3) := none
  trips : List (BitVec 3) := []
  tripCause : BitVec 3 := 0
  tripCount : BitVec 16 := 0
deriving DecidableEq, Repr

/-! ## Chapter 15: life cycle -/

/-- A fuse sequence in progress (R443, R446): the field index k (1 to 4), the stage (0 INTENT, 1 kill bits, 2 STATE),
whether a write is in progress, whether it completes a pending intent at boot, and whether it still waits for the draw of
its new DNONCE (R418, R449). -/
structure FuseSeq where
  k : Nat
  stage : Nat
  writing : Bool
  resumed : Bool
  draws : Bool := false
deriving DecidableEq, Repr

/-- Life cycle and debug (Tables 15.10 to 15.13, R410, R438, R440, R447). `raising` is that an SVN raise has started and has bits
left to blow (R411). -/
structure LifeCycle where
  fuseState : W64 := 0
  fuseIntent : W64 := 0
  kill : BitVec 4 := 0
  svnFuse : W64 := 0
  svnWriting : Bool := false
  raising : Bool := false
  seq : Option FuseSeq := none
  reboot : Bool := false
  resumed : Bool := false
  rights : BitVec 6 := 0
  expiry : W32 := 0
  dnonce : W256 := 0
  haltHerd : Option HerdId := none
deriving DecidableEq, Repr

/-! ## Chapter 16: interrupt controllers, errors -/

/-- An interrupt controller (Tables 16.3 to 16.8). `edge` lists latched edges by source, `level` the level conditions
that hold, `active` the source (plus 1) that each target holds, `enable` is keyed by target * 512 + source, `raised` that
a target's request was raised since its last claim read, `entry` the address last handed to a target (R459). -/
structure Ic where
  gdis : Bool := true
  vector : Bool := true
  vectorBase : BitVec 18 := 0
  edge : Tbl Bool := {}
  level : Tbl Bool := {}
  active : Tbl Nat := {}
  enable : Tbl Bool := {}
  holdoff : Tbl (BitVec 16) := {}
  held : Tbl Bool := {}
  raised : Tbl Bool := {}
  entry : Tbl W32 := {}
deriving DecidableEq, Repr

/-- A self-test that is due or running (R468): the part, the status of the error (0 for a correctable one), the herds
concerned and whether a further error met the part under test. -/
structure Test where
  part : Part
  status : BitVec 8
  herds : List HerdId
  again : Bool
deriving DecidableEq, Repr

/-- A record that Tahr must write to MRAM before a part returns to service (R20, R469): the part and what was done. -/
inductive RecordKind where
  | row | cellMoved | blockMoved | blockRetired | groupRetired | lotRetired | pageFenced | none
deriving DecidableEq, Repr

/-- A pending MRAM record: the part, the action, and what its error events carry (R477): the status, the herds concerned
and whether the contents of the row are lost (R471). -/
structure MramRecord where
  part : Part
  kind : RecordKind
  status : BitVec 8
  herds : List HerdId
  lost : Bool
deriving DecidableEq, Repr

/-- Errors, spares and repair (R15 to R20, R467 to R473, Tables 01.2, 16.14 to 16.16). `moved` maps a logical block to
1 + the corner position it took; `cellMoved` marks blocks whose seventeenth cell is in use and says for which cell;
`rows` counts spare rows used per part; `transient` holds the timebase (in ns) of the last transient verdict of each part
(by list), `hubErr` the time of the last HW_HUB error; `restarts` are the regions that an uncorrectable SRAM error restarts (R470),
and `stalled` the channels on which a stalled Offer is outstanding, REQ differing from ACK (Table 01.3). -/
structure Repair where
  repeatMs : BitVec 16 := 0x03E8
  ceCount : BitVec 16 := 0
  unitFault : Bool := false
  moved : Tbl Nat := {}
  cornersUsed : Tbl Nat := {}
  cellMoved : Tbl Nat := {}
  groupRetired : Tbl Bool := {}
  lotRetired : Tbl Bool := {}
  lotLost : Tbl Bool := {}
  pages : List Nat := []
  stackFull : Tbl Bool := {}
  rows : Tbl Nat := {}
  transient : List (Part × W64) := []
  hubErr : Option W64 := none
  restarts : Tbl Bool := {}
  stalled : List Part := []
  tests : List Test := []
  records : List MramRecord := []
deriving DecidableEq, Repr

/-! ## Chapter 17 and 18: configuration and pins -/

/-- `CFG_STATUS` and `CFG_FAULT` (Tables 17.7 and 17.8): `st` 0 UNCOMMITTED, 1 VALIDATING, 2 COMMITTED, 3 INVALID; `crc` is what
`CFG_COMMIT` was last written with. -/
structure Cfg where
  st : BitVec 2 := 0
  lockedWrite : Bool := false
  badValue : Bool := false
  check : BitVec 8 := 0
  faultOff : BitVec 26 := 0
  faultBit : BitVec 5 := 0
  crc : W32 := 0
deriving DecidableEq, Repr

/-- Control lands and rails (Table 18.5, R479, R496, R498, R503). `blocked` is that the regulators restart only after
PWR_EN has been low; `pwrGood` and `thermTrip` are what Serow's domain drives (R503). -/
structure Pins where
  pwrEn : Bool := false
  pwrGood : Bool := false
  perst : Bool := true
  thermTrip : Bool := false
  blocked : Bool := false
  bootSrcString : Bool := false
  hot95 : Bool := false
deriving DecidableEq, Repr

/-! ## The herd -/

/-- Everything that belongs to one herd number: its state and resources (chapter 12), the HERD-domain registers of its
window (Table 19.6), its ring set (FLR domain), its Sentence, run and staged values (chapter 07), and the progress of its
items (chapters 08 to 10). `unitSeeds` are the seeds the declension units took at the run (R172). `written` lists the
items and slots whose carry copy was written in the step (R311), `captures` the missed contributions still to be captured
(item, step, pass), `pendLedger` the misses of the step (item, ACTION), `inputs` what the engines' inputs held when the
beat began (R251, R291, R307). `wrote` keeps, while the unit is UNRESOLVED, the
ranges that the undecided step wrote. `rowHist` lists, oldest first, declension rows that a boundary of the run replaced, with the beat from which
they were no longer in effect (R255). `tail` is a completed run whose late blocks still work (R309). -/
structure Herd where
  st : HerdState := .absent
  secure : Bool := false
  keysGone : Bool := false
  groups : W48 := 0
  form : Option Formation := none
  rev : Option Revocation := none
  rings : RingSet := {}
  healthLot : BitVec 10 := 0
  healthValid : Bool := false
  lossEn : Bool := false
  alphaShift : BitVec 4 := 6
  lossK : BitVec 8 := 0x60
  warmup : BitVec 16 := 0x40
  rngSeed : Tbl W64 := {}
  rngDraw : W64 := 0
  haloDrops : W32 := 0
  lastCheck : BitVec 8 := 0
  beatNow : W48 := 0
  stageBeat : W48 := 0
  stageArm : Bool := false
  stageLate : Bool := false
  stageDue : Bool := false
  dclRows : Tbl W32 := {}
  rowHist : List (Nat × Tbl W32) := []
  dclSkips : W32 := 0
  span : BitVec 15 := 0
  commitAddr : W48 := 0
  committed : W48 := 0
  commitValid : Bool := false
  present : Bool := false
  commit : CommitState := .opened
  recorded : Bool := false
  hbmRecorded : Bool := false
  ledgerBase : W48 := 0
  ledgerCap : BitVec 20 := 0
  replay : Bool := false
  ledgerCursor : BitVec 20 := 0
  ledgerCount : BitVec 20 := 0
  ledgerFull : Bool := false
  seq : HerdSeq := .empty
  sentence : Option Sentence := none
  load : Option LoadRun := none
  loadQueue : List Order := []
  deferred : List Order := []
  run : Option Run := none
  tail : Option Run := none
  staged : List Staged := []
  heldStaged : List Staged := []
  setrs : List Staged := []
  incs : Tbl LayerInc := {}
  unitSeeds : Tbl W64 := {}
  latched : Tbl (List W32) := {}
  inputs : List (Nat × List Byte) := []
  reds : Tbl RedRun := {}
  routes : Tbl RouteRun := {}
  norms : List (Nat × Nat × W32) := []
  pendLedger : List (Nat × BitVec 2) := []
  written : List (Nat × Nat) := []
  captures : List (Nat × Nat × Nat) := []
  wrote : List (Nat × Nat) := []
  tokens : List (Nat × BeatToken) := []
  rotLinks : List OrderRef := []
deriving DecidableEq, Repr

end Sys2Proof.Machine
end

