-- ==== Sys2Proof/Machine/State.lean ====
section
/-!
DEFINITION. State: everything the spec gives one FV20, as plain data, and the reasons a step can stop.
Tables list only what differs from the reset value, so the state after reset is small.
-/
namespace Sys2Proof.Machine

/-- Why a step stops. It never does: the spec stops the machine nowhere, so there is no reason to name. Where the condition of
an event or the turn of a verb is not given, the command changes nothing (DESIGN CHOICE, log entry 122). -/
inductive Fault where
deriving DecidableEq, Repr

/-- Why a command has no meaning. -/
inductive Refusal where
  /-- Raised by the dispatch of a command that has no meaning yet. Safe: the model stops. -/
  | notModelled (mnemonic : String)
deriving DecidableEq, Repr

/-- The state of one FV20. -/
structure State where
  /-- commands that wait, first in, first out -/
  pending : List Instr := []
  /-- performance point and governor (chapter 01) -/
  power : Power := {}
  /-- `HUB_ARB_CTRL.MODE` and OPER_WEIGHT (Table 01.6) -/
  arbSlot : Bool := false
  operWeight : BitVec 8 := 0x10
  /-- `HUB_ARB_WEIGHT_h` (Table 01.7), default 0x10 -/
  weights : Tbl (BitVec 8) := {}
  /-- `HUB_WDOG_CFG.TIMEOUT_US` (Table 01.8) -/
  wdogUs : BitVec 16 := 0x00C8
  /-- timebase and string (chapter 01, R278) -/
  tb : Timebase := {}
  /-- control lands (chapter 18) -/
  pins : Pins := {}
  /-- `CFG_STATUS`, `CFG_FAULT` (chapter 17) -/
  cfg : Cfg := {}
  /-- host link registers (Tables 11.2, 11.3) -/
  linkTimeoutMs : BitVec 16 := 0x0064
  linkUp : Bool := false
  linkSpeed : BitVec 3 := 0
  linkWidth : BitVec 5 := 0
  /-- the DOE mailbox's Error bit (R325) -/
  doeError : Bool := false
  /-- the uncorrectable errors that AER has logged (Tables 11.1, 16.1), and the functions in D3hot: 0 the PF, h + 1 VF h + 1 -/
  aer : W32 := 0
  d3hot : Tbl Bool := {}
  /-- NumVFs and VF Enable (R329) -/
  numVfs : BitVec 16 := 0
  vfEnable : Bool := false
  /-- lots (Table 02.2), default unassigned -/
  lots : Tbl Lot := {}
  /-- `CS_FAULT_CNT.DENIED` (Table 02.3) -/
  denied : W32 := 0
  /-- HBM stacks (Table 02.5) and `HBM_MAP_STATUS.INTERLEAVED_OK` (Table 02.6) -/
  hbm : Tbl Stack := {}
  interleavedOk : Bool := false
  /-- device memory by device address: central store, block scratch, and the HBM's own bytes (ciphertext) at the
  stack-linear addresses (R52) -/
  mem : Mem := {}
  /-- the key-epoch bit beside each HBM line (R380), keyed by stack-linear line address -/
  lineEpoch : Tbl Bool := {}
  /-- HBM lines (stack-linear) that hold an uncorrectable error until they are next written in full (R389, R390) -/
  hbmBad : List Nat := []
  /-- the RO words of health tables as the health unit last wrote them (R132), keyed by lot * 2^19 + word -/
  healthRo : Tbl W32 := {}
  /-- host memory, as far as this device and the host's own commands have written it -/
  hostMem : Mem := {}
  /-- copies in progress, in order of issue (R72 to R77) -/
  copies : List CopyJob := []
  /-- orders that wait for a copy to end (R354, Table 06.6) or for a `FENCE` point -/
  waitFree : List Order := []
  /-- logical blocks -/
  blocks : Tbl Block := {}
  /-- herds -/
  herds : Tbl Herd := {}
  /-- PF ring sets 0 to 3 -/
  pfRings : Tbl RingSet := {}
  /-- IDE streams 0 to 32 -/
  ide : Tbl IdeStream := {}
  /-- meters, by herd number (Table 11.18) -/
  meters : Tbl Meter := {}
  /-- what the meters will advance by at the herd's next beat end or order completion (R347) -/
  meterDue : Tbl Meter := {}
  /-- link identities of non-secure herds, `GER_HERD_LINKID_h` (Table 13.14) -/
  linkIds : Tbl W64 := {}
  /-- low words held (R519), keyed by function and register, and high words latched (R51), by function -/
  heldLow : List (Who × Space × Nat × W32) := []
  latchedHigh : List (Who × Space × Nat × W32) := []
  /-- windows (Table 13.11) and `NYA_FAULT_CNT` (Table 13.12) -/
  wins : Tbl Win := {}
  macFail : BitVec 16 := 0
  badNodeCnt : BitVec 16 := 0
  /-- fabric configuration (Tables 09.9, 09.10, 09.12, 09.13) -/
  profile : BitVec 2 := 0
  smallD : BitVec 4 := 0
  dimEn : BitVec 15 := 0x7FFF
  pod : BitVec 10 := 0
  spareDim : W32 := 0xFFFF_FFFF
  crcLimit : BitVec 16 := 0x10
  /-- the latched cube address (Table 09.11) -/
  cubeAddr : BitVec 15 := 0
  addrValid : Bool := false
  /-- lanes, dimensions, streams (keyed by dimension * 32 + herd) -/
  lanes : Tbl Lane := {}
  dims : Tbl Dim := {}
  streams : Tbl Stream := {}
  /-- Markhor's slots -/
  slots : Tbl Slot := {}
  /-- Tahr, Serow, life cycle (chapters 14 and 15) -/
  tahr : Tahr := {}
  serow : Serow := {}
  lc : LifeCycle := {}
  /-- errors, spares and repair (chapter 16) -/
  repair : Repair := {}
  /-- interrupt controllers: 0 the chip's, 1 to 4 those of the regions -/
  ics : Tbl Ic := {}
  /-- MODEL: the place in batch order of the next order to be dispatched (R340, R346) -/
  orderSeq : Nat := 0
  /-- MODEL: the next free value's number (Config.freeValue and the like are applied to it) -/
  freeCtr : Nat := 0
  /-- MODEL: the status with which the last line access of a requester completed (Table 13.3, R389, R390) -/
  lineStatus : BitVec 16 := 0
  /-- MODEL: what the last read, claim or mailbox message answered, as bytes -/
  reply : List Byte := []
deriving DecidableEq, Repr

/-- The machine right after reset: nothing powered, every register at its reset value, memory with nothing listed, no
command waiting. -/
def State.reset : State := {}

end Sys2Proof.Machine
end

