-- ==== Sys2Proof/Machine/Ops.lean ====
section
/-!
DEFINITION. The named operations over State that the meanings share: accessors, statuses, interrupt sources, events,
completions, host memory, free values, herd geometry and stop requests.
-/
namespace Sys2Proof.Machine

/-- What a command answers when the machine goes on. -/
abbrev Out := Host.Outcome State Fault Refusal

/-! ## Accessors -/

def State.herd (s : State) (h : HerdId) : Herd := s.herds.get {} h.val
def State.setHerd (s : State) (h : HerdId) (v : Herd) : State := { s with herds := s.herds.set {} h.val v }
def State.modHerd (s : State) (h : HerdId) (f : Herd → Herd) : State := s.setHerd h (f (s.herd h))
def State.block (s : State) (b : BlockId) : Block := s.blocks.get {} b.val
def State.setBlock (s : State) (b : BlockId) (v : Block) : State := { s with blocks := s.blocks.set {} b.val v }
def State.modBlock (s : State) (b : BlockId) (f : Block → Block) : State := s.setBlock b (f (s.block b))
def State.laneAt (s : State) (n : LaneId) : Lane := s.lanes.get {} n.val
def State.setLane (s : State) (n : LaneId) (v : Lane) : State := { s with lanes := s.lanes.set {} n.val v }
def State.dimAt (s : State) (d : DimId) : Dim := s.dims.get {} d.val
def State.setDim (s : State) (d : DimId) (v : Dim) : State := { s with dims := s.dims.set {} d.val v }
def State.modDim (s : State) (d : DimId) (f : Dim → Dim) : State := s.setDim d (f (s.dimAt d))
def State.win (s : State) (w : WinId) : Win := s.wins.get {} w.val
def State.setWin (s : State) (w : WinId) (v : Win) : State := { s with wins := s.wins.set {} w.val v }
def State.slot (s : State) (n : Nat) : Slot := s.slots.get {} n
def State.setSlot (s : State) (n : Nat) (v : Slot) : State := { s with slots := s.slots.set {} n v }
def State.stack (s : State) (n : StackId) : Stack := s.hbm.get {} n.val
def State.setStack (s : State) (n : StackId) (v : Stack) : State := { s with hbm := s.hbm.set {} n.val v }
def State.lot (s : State) (l : Nat) : Lot := s.lots.get {} l
def State.setLot (s : State) (l : Nat) (v : Lot) : State := { s with lots := s.lots.set {} l v }
def State.stream (s : State) (d : DimId) (h : HerdId) : Stream := s.streams.get {} (d.val * 32 + h.val)
def State.setStream (s : State) (d : DimId) (h : HerdId) (v : Stream) : State :=
  { s with streams := s.streams.set {} (d.val * 32 + h.val) v }
def State.ideAt (s : State) (k : Fin 33) : IdeStream := s.ide.get {} k.val
def State.setIde (s : State) (k : Fin 33) (v : IdeStream) : State := { s with ide := s.ide.set {} k.val v }
/-- The IDE stream of a herd is stream h + 1 (R333). -/
def ideOf (h : HerdId) : Fin 33 := ⟨h.val + 1, by have := h.isLt; omega⟩

/-- All herd numbers, blocks, lanes, dimensions and windows, rising. -/
def allHerds : List HerdId := List.finRange 32
def allBlocks : List BlockId := List.finRange 384
def allLanes : List LaneId := List.finRange 64
def allDims : List DimId := List.finRange 15
def allWins : List WinId := List.finRange 64

/-! ## Statuses (Tables 11.14 and 16.12) -/

/-- A completion status. -/
abbrev Status := BitVec 16
def stOK : Status := 0x0000
def stSuperseded : Status := 0x0001
def stHerdRevoked : Status := 0x0002
def stIntegrityFail : Status := 0x0003
def stUnverifiable : Status := 0x0004
def stNounBounds : Status := 0x0005
def stCfgInvalid : Status := 0x0006
def stCapacityChanged : Status := 0x0007
def stLateDropped : Status := 0x0008
def stKeyRetired : Status := 0x0009
def stMeasMismatch : Status := 0x000A
def stBeatTimeout : Status := 0x000B
def stNotPermitted : Status := 0x000C
def stHwHub : Status := 0x0040
def stHwRegion : Status := 0x0041
def stHwCs : Status := 0x0042
def stHwHbm : Status := 0x0043
def stHwScratch : Status := 0x0044
def stHwCell : Status := 0x0045
def stHwSeq : Status := 0x0046
def stHwMesh : Status := 0x0047
def stHwStall : Status := 0x0048
def stHwEngine : Status := 0x0049

/-! ## Free values -/

/-- The next free byte (R77, R227, R229): the counter of the state advances. -/
def State.freeBytes (s : State) (n : Nat) : State × List Byte :=
  ({ s with freeCtr := s.freeCtr + n }, (List.range n).map fun k => Config.freeByte (s.freeCtr + k))

/-- The next random value that Tahr's generator draws (R418). -/
def State.draw (s : State) : State × W256 := ({ s with freeCtr := s.freeCtr + 1 }, Config.random s.freeCtr)

/-- Whether an access of a function, or of a controller, can arrive: the unit is powered, and the host's link is up; a VF
exists once VF Enable is set with NumVFs 32 (R329). -/
def State.reach (s : State) : Who → Bool
  | .pf => s.pins.pwrGood && s.linkUp
  | .vf _ => s.pins.pwrGood && s.linkUp && s.vfEnable && s.numVfs == 32
  | _ => s.pins.pwrGood

/-- P56 is absent (MODEL: it measures 0 V at the lands). -/
def Serow.noP56 (x : Serow) : Bool := x.vin == 0
/-- VBAT_LOW: VBAT_T reads below 2.6 V (R505, Table 14.16). -/
def Serow.vbatLow (x : Serow) : Bool := decide (x.vbatMv.toNat < 2600)
/-- With P56 absent and VBAT_T below 2.2 V, Serow's supply is gone, and the tenant root with it (R423, R505). -/
def Serow.supply (x : Serow) : Serow := if x.noP56 && decide (x.vbatMv.toNat < 2200) then { x with root := none } else x
/-- With neither supply present nothing drives PWR_GOOD and THERM_TRIP_n: they float to the pull-up, high (R503). -/
def Serow.dead (x : Serow) : Bool := x.noP56 && x.vbatMv == 0
/-- The level of the PWR_GOOD land (R503). -/
def State.pwrGoodLand (s : State) : Bool := s.pins.pwrGood || s.serow.dead
/-- The level of the THERM_TRIP_n land (R496, R503). -/
def State.thermTripLand (s : State) : Bool := !s.pins.thermTrip || s.serow.dead

/-- An image request goes to the upstream unit, on the S_IN reverse fibre (R484). -/
def State.askImage (s : State) : State := { s with tahr := { s.tahr with imgAsked := s.tahr.imgAsked + 1 } }

/-! ## Herd geometry -/

/-- A herd exists from its creation until Free (Table 12.11). -/
def State.herdExists (s : State) (h : HerdId) : Bool := (s.herd h).st != .absent
/-- Whether any herd exists. -/
def State.anyHerd (s : State) : Bool := s.herds.entries.any fun e => e.2.st != .absent
/-- Whether any Sentence runs (Table 19.7). -/
def State.anyRun (s : State) : Bool := s.herds.entries.any fun e => e.2.seq == .running || e.2.seq == .stopping
/-- Whether the herd's Sentence is RUNNING or STOPPING (R231). -/
def Herd.busy (x : Herd) : Bool := x.seq == .running || x.seq == .stopping
/-- The herd's beat goes on: its run is RUNNING, or it is STOPPING for `HERD_QUIESCE` alone, which lets the beat in
progress end normally (R227). -/
def Herd.active (x : Herd) : Bool :=
  match x.run with
  | some r => x.seq == .running || (x.seq == .stopping && r.stopAtEnd)
  | none => false
/-- The run whose blocks work: the one in progress, or a completed one that left late blocks behind (R309). -/
def Herd.workRun (x : Herd) : Option Run := if x.run.isSome then x.run else x.tail
/-- Blocks of the herd may work: its beat goes on, or late blocks of its completed run do (R309). -/
def Herd.working (x : Herd) : Bool := x.active || (x.run.isNone && x.tail.isSome)
/-- The herd holds block group `g`. -/
def Herd.hasGroup (x : Herd) (g : Nat) : Bool := x.st != .absent && x.groups.getLsbD g
/-- The block group of a block (R14). -/
def groupOf (b : BlockId) : Nat := b.val / 8
/-- The region of a block. -/
def regionOf (b : BlockId) : Nat := b.val / 96
/-- The corner positions of a region, in the order in which they take retired blocks (R14, R15). -/
def corners : List (Nat × Nat) := [(0, 0), (0, 9), (9, 0), (9, 9)]
/-- The non-corner position number `k` of a region, counted in row-major order (R14). -/
def homePos (k : Nat) : Nat × Nat :=
  if k < 8 then (0, k + 1) else if k < 88 then ((k + 2) / 10, (k + 2) % 10) else (9, k - 87)
/-- Where a block stands in the mesh of its region, as (row, column): its home, or the corner that it moved to (R14, R15). -/
def State.meshPos (s : State) (b : BlockId) : Nat × Nat :=
  match s.repair.moved.get 0 b.val with
  | 0 => homePos (b.val % 96)
  | c + 1 => corners.getD c (0, 0)
/-- The mesh row of a block: the row port it reaches through its tap. -/
def State.meshRow (s : State) (b : BlockId) : Nat := (s.meshPos b).1
/-- The positions from `i` to `j`, without `i`, in the direction of `j`. -/
def walk (i j : Nat) : List Nat :=
  if i ≤ j then (List.range (j - i)).map (i + 1 + ·) else (List.range (i - j)).map (i - 1 - ·)
/-- The path of mesh traffic between two positions: along the source's row to the destination's column, then along that
column (R21). -/
def meshPath (src dst : Nat × Nat) : List (Nat × Nat) :=
  src :: ((walk src.2 dst.2).map fun c => (src.1, c)) ++ (walk src.1 dst.1).map fun r => (r, dst.2)
/-- The path between two blocks of a region, from the positions they stand at (R21). -/
def State.meshRoute (s : State) (a b : BlockId) : List (Nat × Nat) := meshPath (s.meshPos a) (s.meshPos b)
/-- The herd that holds a block, if any (R348). -/
def State.owner (s : State) (b : BlockId) : Option HerdId := allHerds.find? fun h => (s.herd h).hasGroup (groupOf b)
/-- The blocks of a herd in ascending order (R203). -/
def State.blocksOf (s : State) (h : HerdId) : List BlockId :=
  let x := s.herd h
  allBlocks.filter fun b => x.hasGroup (groupOf b)
/-- The block with a herd block index (R203). -/
def State.blockAt (s : State) (h : HerdId) (i : Nat) : Option BlockId := (s.blocksOf h)[i]?
/-- The herd block index of a block. -/
def State.herdIndex (s : State) (h : HerdId) (b : BlockId) : Nat := (s.blocksOf h).idxOf b
/-- The slice dimensions of a herd, ascending (R286). -/
def Herd.dims (x : Herd) : List DimId := allDims.filter fun d => x.span.getLsbD d.val
/-- The slice position of this unit in a span (R202). -/
def State.slicePos (s : State) (x : Herd) : Nat :=
  (x.dims.zipIdx).foldl (fun a e => a + b2n (s.cubeAddr.getLsbD e.1.val) * 2 ^ e.2) 0

/-! ## Interrupt controllers (chapter 16) -/

def State.icAt (s : State) (c : Nat) : Ic := s.ics.get {} c
def State.setIc (s : State) (c : Nat) (v : Ic) : State := { s with ics := s.ics.set {} c v }
/-- The table index of a controller. -/
def icIdx : IcId → Nat
  | .chip => 0
  | .region r => r.val + 1
/-- Whether a source exists (Tables 16.1 and 16.2). -/
def icSource (c src : Nat) : Bool := 0 < src && (if c = 0 then src < 84 else src < 111)
/-- Whether a source is a level source (Tables 16.1 and 16.2). -/
def icLevel (c src : Nat) : Bool :=
  if c = 0 then (1 ≤ src && src ≤ 4) || src = 44 || src = 45 || src = 47 || (52 ≤ src && src ≤ 83)
  else (1 ≤ src && src ≤ 96) || src = 109
/-- The hold-off group of a source (Tables 16.1 and 16.2). -/
def icGroup (c src : Nat) : Nat :=
  if c = 0 then
    if src ≤ 4 then 0 else if src ≤ 6 then 1 else if src = 7 then 2 else if src ≤ 19 then 3 else if src = 20 then 4
    else if src ≤ 28 then 5 else if src ≤ 43 then 6 else if src = 44 then 7 else if src = 45 then 8
    else if src ≤ 47 then 9 else if src ≤ 49 then 10 else if src ≤ 51 then 11 else 12
  else if src ≤ 96 then 0 else if src ≤ 107 then 1 else if src = 108 then 2 else if src = 109 then 3 else 4
/-- Targets of a controller (R454). -/
def icTargets (c : Nat) : Nat := if c = 0 then 5 else 1
/-- The region of a part that a region controller handles, if any. -/
def partRegion : Part → Option Nat
  | .scratchRow b _ _ => some (regionOf b)
  | .seqRow b _ => some (regionOf b)
  | .cell b _ => some (regionOf b)
  | .vcell b _ => some (regionOf b)
  | .blockChan b => some (regionOf b)
  | .rowPort r _ => some r.val
  | .rcRow r _ => some r.val
  | _ => none
/-- The condition of a level source (Tables 16.1 and 16.2). Sources 52 to 83 of the chip and 109 of a region also latch
in `level` (DESIGN CHOICE, log entry 15). -/
def State.icCond (s : State) (c src : Nat) : Bool :=
  if c = 0 then
    if src ≤ 4 then s.repair.restarts.get false (src - 1) || s.repair.records.any fun r => partRegion r.part == some (src - 1)
    else if src = 44 then !s.linkUp || s.aer != 0
    else if src = 45 then
      !s.tahr.orders.isEmpty || s.pfRings.entries.any (fun e => !e.2.fetched.isEmpty)
        || s.herds.entries.any fun e => !e.2.rings.fetched.isEmpty
    else if src = 47 then s.pins.hot95
    else (s.icAt 0).level.get false src || (s.herds.get {} (src - 52)).commit == .unresolved
  else if src ≤ 96 then (s.blocks.get {} ((c - 1) * 96 + (src - 1))).fenced
  else (s.icAt c).level.get false src
/-- Whether some target holds a source active. -/
def Ic.isActive (x : Ic) (src : Nat) : Bool := x.active.entries.any fun e => e.2 == src + 1
/-- Whether a source is pending (R455). -/
def State.icPending (s : State) (c src : Nat) : Bool :=
  icSource c src && (if icLevel c src then s.icCond c src && !(s.icAt c).isActive src else (s.icAt c).edge.get false src)
/-- Whether a source is eligible for a target (R456). -/
def State.icEligible (s : State) (c t src : Nat) : Bool :=
  let x := s.icAt c
  s.icPending c src && x.enable.get false (t * 512 + src) && !x.isActive src && !x.held.get false (icGroup c src)
/-- The lowest-numbered eligible source of a target (R456); only enabled sources can be. -/
def State.icBest (s : State) (c t : Nat) : Option Nat :=
  ((s.icAt c).enable.keys.filter fun k => k / 512 = t).map (· % 512) |>.find? fun src => s.icEligible c t src
/-- Whether a target's request is raised (R456). -/
def State.icRequest (s : State) (c t : Nat) : Bool :=
  !(s.icAt c).gdis && (s.icAt c).active.get 0 t == 0 && (s.icBest c t).isSome
/-- Note, for every target, that its request has been raised since its last claim read (R457). -/
def State.icNote (s : State) : State :=
  s.ics.entries.foldl (fun s e =>
    (List.range (icTargets e.1)).foldl (fun s t =>
      if s.icRequest e.1 t then
        s.setIc e.1 { s.icAt e.1 with raised := (s.icAt e.1).raised.set false t true }
      else s) s) s
/-- An edge arrives at a source (R455). -/
def State.edge (s : State) (c src : Nat) : State :=
  if icSource c src && !icLevel c src then
    (s.setIc c { s.icAt c with edge := (s.icAt c).edge.set false src true }).icNote
  else s
/-- Latch or release a level condition that the state does not hold elsewhere. -/
def State.latchLevel (s : State) (c src : Nat) (v : Bool) : State :=
  (s.setIc c { s.icAt c with level := (s.icAt c).level.set false src v }).icNote

/-! ## Host memory, rings, events and completions (chapter 11) -/

/-- Read host memory. -/
def State.hostRead (s : State) (a : Nat) (n : Nat) : List Byte := s.hostMem.readBytes a n
/-- Write host memory. -/
def State.hostWrite (s : State) (a : Nat) (l : List Byte) : State := { s with hostMem := s.hostMem.writeBytes a l }
/-- Place the bytes that the host has put in its own memory. -/
def State.hostPlace (s : State) (d : HostData) : State := d.foldl (fun s e => s.hostWrite e.1.toNat e.2) s

/-- A ring set. Key 4 of the PF table counts Tahr's own orders. -/
def State.ring (s : State) : RingId → RingSet
  | .pf k => s.pfRings.get {} k.val
  | .vf h => (s.herd h).rings
def State.setRing (s : State) (r : RingId) (v : RingSet) : State :=
  match r with
  | .pf k => { s with pfRings := s.pfRings.set {} k.val v }
  | .vf h => s.modHerd h fun x => { x with rings := v }
/-- The ring set, or Tahr's count, that an order source uses. -/
def State.srcRing (s : State) : OrderSrc → RingSet
  | .ring r => s.ring r
  | .tahr => s.pfRings.get {} 4
def State.setSrcRing (s : State) (o : OrderSrc) (v : RingSet) : State :=
  match o with
  | .ring r => s.setRing r v
  | .tahr => { s with pfRings := s.pfRings.set {} 4 v }

/-- Entries of a ring. -/
def Ring.size (r : Ring) : Nat := 2 ^ r.log2.toNat
/-- Slots written and not yet read. -/
def Ring.unread (r : Ring) : Nat := (r.idx.toNat + r.size - r.door.toNat % r.size) % r.size
/-- One entry of the ring is free: a ring of N entries holds at most N - 1 (R337). -/
def Ring.room (r : Ring) : Bool := r.en && r.unread + 1 < r.size
/-- Take the next slot: its PHASE and address, and the ring after it (R340). -/
def Ring.take (r : Ring) (entry : Nat) : Ring × Nat × Bool :=
  let nxt := (r.idx.toNat + 1) % r.size
  ({ r with idx := BitVec.ofNat 16 nxt, phase := if nxt = 0 then !r.phase else r.phase },
   r.base.toNat + entry * r.idx.toNat, r.phase)

/-- Whether the herd's TLPs must travel in its selective stream (R334): a secure herd's always; a non-secure herd's
while it uses the stream. -/
def State.protected_ (s : State) (h : HerdId) : Bool :=
  (s.herd h).secure || (s.ideAt (ideOf h)).st != .disabled
/-- Whether the herd's TLPs can be sent: the link is up and a protected herd's stream is SECURE (R327, R334). -/
def State.hostReach (s : State) (h : HerdId) : Bool :=
  s.linkUp && (!s.protected_ h || (s.ideAt (ideOf h)).st == .secure)
/-- Whether entries of a ring set can be sent. -/
def State.ringReach (s : State) : RingId → Bool
  | .pf _ => s.linkUp
  | .vf h => s.hostReach h

/-- Send the set's MSI-X vector, or owe it until the hold-off ends; a masked vector sets its pending bit (R342). -/
def RingSet.vector (r : RingSet) : RingSet :=
  if r.vecBusy then { r with vecDue := true }
  else if r.masked then { r with pend := true }
  else { r with vecSent := r.vecSent + 1, vecBusy := r.holdoffUs != 0 }
/-- The mask bit is written: a pending vector that is no longer masked is sent. -/
def RingSet.setMask (r : RingSet) (on : Bool) : RingSet :=
  if !on && r.pend then ({ r with masked := false, pend := false } : RingSet).vector else { r with masked := on }

/-- The bytes of a completion entry (Table 11.13). -/
def Cpl.bytes (c : Cpl) (phase : Bool) : List Byte :=
  leBytes 4 c.tag.toNat ++ leBytes 4 (c.status.toNat + c.check.toNat * 2 ^ 16 + b2n phase * 2 ^ 31)
    ++ leBytes 8 c.detail.toNat
/-- The bytes of an event entry (Table 11.15). -/
def Evt.bytes (e : Evt) (phase : Bool) : List Byte :=
  leBytes 4 (e.code.toNat + e.herd.toNat * 2 ^ 16 + b2n phase * 2 ^ 31) ++ leBytes 8 e.time.toNat
    ++ sliceBytes e.payload 0 20

/-- Insert a completion by its order's place in batch order, after its equals. -/
def insertCpl (c : Cpl) : List Cpl → List Cpl
  | [] => [c]
  | q :: r => if c.place < q.place then c :: q :: r else q :: insertCpl c r
/-- A completion joins those held. While CPL_EN is 0 they are held in batch order (R339), else in the order of completion
(R327). -/
def RingSet.hold (x : RingSet) (c : Cpl) : RingSet :=
  { x with heldCpl := if x.cpl.en then x.heldCpl ++ [c] else insertCpl c x.heldCpl }
/-- Write completion entries in order while the ring has room; the rest stay held (R339). -/
def State.putCpls (s : State) (r : RingId) : List Cpl → State
  | [] => s.setRing r { s.ring r with heldCpl := [] }
  | c :: rest =>
    let x := s.ring r
    if s.ringReach r && x.cpl.room then
      let (cpl, a, ph) := x.cpl.take 16
      ((s.setRing r { ({ x with cpl := cpl } : RingSet).vector with heldCpl := rest }).hostWrite a (c.bytes ph)).putCpls
        r rest
    else s.setRing r { x with heldCpl := c :: rest }
/-- Write the completions that a ring holds, as far as it can. -/
def State.flushCpl (s : State) (r : RingId) : State := s.putCpls r (s.ring r).heldCpl

/-- Write one event entry, its slot being free. -/
def State.putEvt (s : State) (r : RingId) (e : Evt) : State :=
  let x := s.ring r
  let (evt, a, ph) := x.evt.take 32
  (s.setRing r ({ x with evt := evt } : RingSet).vector).hostWrite a (e.bytes ph)
/-- Write the `EVENTS_LOST` entry that is due, if a slot is free (R341). -/
def State.putLost (s : State) (r : RingId) : State :=
  let x := s.ring r
  if x.lostSince != 0 && s.ringReach r && x.evt.room then
    (s.setRing r { x with lostSince := 0 }).putEvt r
      { code := 0x0009, herd := 0, time := s.tb.now, payload := leBytes 4 x.lostSince }
  else s
/-- An event reaches its ring: written, lost (R341) or held while its TLP cannot be sent (R327). -/
def State.offerEvt (s : State) (r : RingId) (e : Evt) : State :=
  let x := s.ring r
  if !s.ringReach r && x.evt.en then s.setRing r { x with heldEvt := x.heldEvt ++ [e] }
  else if x.evt.room && x.lostSince == 0 then s.putEvt r e
  else s.setRing r { x with evtLost := satAdd x.evtLost 1, lostSince := x.lostSince + 1 }
/-- Write the events that a ring holds, in their original order. -/
def State.flushEvt (s : State) (r : RingId) : State :=
  let x := s.ring r
  if s.ringReach r then x.heldEvt.foldl (fun s e => s.offerEvt r e) ((s.setRing r { x with heldEvt := [] }).putLost r)
  else s

/-- Raise an event on a PF ring set: HERD is the herd concerned. -/
def State.evtPf (s : State) (k : Fin 4) (code : BitVec 16) (h : Nat) (payload : List Byte) : State :=
  s.offerEvt (.pf k) { code := code, herd := BitVec.ofNat 5 h, time := s.tb.now, payload := sliceBytes payload 0 20 }
/-- The VF rings of a herd take entries: the herd exists and its last entries have not been written (Table 12.9). -/
def State.vfOpen (s : State) (h : HerdId) : Bool :=
  match (s.herd h).st, (s.herd h).rev with
  | .live, _ => true
  | .revoking, some r => r.stage == RevStage.executed || r.stage == RevStage.zeroized
  | _, _ => false
/-- Raise an event on a herd's ring. -/
def State.evtHerd (s : State) (h : HerdId) (code : BitVec 16) (payload : List Byte) : State :=
  if s.vfOpen h then
    s.offerEvt (.vf h) { code := code, herd := 0, time := s.tb.now, payload := sliceBytes payload 0 20 }
  else s

/-- Advance the herd's meters by what is due. -/
def State.meterFlush (s : State) (h : HerdId) : State :=
  let d := s.meterDue.get {} h.val
  let m := s.meters.get {} h.val
  { s with
    meterDue := s.meterDue.set {} h.val {}
    meters := s.meters.set {} h.val
      { beats := satAdd m.beats d.beats.toNat, cellSteps := satAdd m.cellSteps d.cellSteps.toNat
        hbmBytes := satAdd m.hbmBytes d.hbmBytes.toNat, linkBytes := satAdd m.linkBytes d.linkBytes.toNat
        lotUs := satAdd m.lotUs d.lotUs.toNat } }
/-- Complete every `FENCE` of a source once only they are outstanding (R344). -/
def State.fenceCheck (s : State) (o : OrderSrc) : State :=
  let x := s.srcRing o
  if !x.fences.isEmpty && x.reserved ≤ x.fences.length then
    let held := x.fences.map fun f => ({ tag := f.tag, status := stOK, check := 0, detail := 0, place := f.seq } : Cpl)
    let s := (x.fences.filterMap (·.herd)).foldl State.meterFlush s
    let s := s.setSrcRing o (held.foldl RingSet.hold { x with fences := [], reserved := 0 })
    match o with
    | .ring r => s.flushCpl r
    | .tahr => s.setSrcRing o { x with fences := [], reserved := 0 }
  else s

/-- Tahr takes the status of an order it issued for a request record (R358, R359): TAG 1 is its `HERD_CREATE`, TAG 2 its
`HERD_REVOKE`. A formation that creates no herd leaves no key. -/
def State.tahrDone (s : State) (tag : W32) (st : Status) : State :=
  let s := if tag = 1 then
      let drop := match s.tahr.form with
        | some (_, f) => if st != stOK then f.kcSlot :: f.pkSlots else []
        | none => []
      { s with slots := drop.foldl (fun t n => t.set {} n {}) s.slots, tahr := { s.tahr with form := none } }
    else s
  if (tag = 1 || tag = 2) && s.tahr.request.isSome then
    { s with tahr := { s.tahr with reqBusy := false, reqResult := st, request := none } }
  else s

/-- An order completes: its completion is written, held, kept for the last entries of a revocation, or discarded after an
FLR (R339, R340, R332, Table 12.9). The meters of the herd it names advance (R347). -/
def State.complete (s : State) (ref : OrderRef) (st : Status) (chk : BitVec 8) (detail : W64) : State :=
  let s := match ref.herd with | some h => s.meterFlush h | none => s
  let x := s.srcRing ref.src
  if ref.gen != x.gen then s
  else
    let s := s.setSrcRing ref.src { x with reserved := x.reserved - 1 }
    let c : Cpl := { tag := ref.tag, status := st, check := chk, detail := detail, place := ref.seq }
    let s := match ref.src with
      | .tahr => s.tahrDone ref.tag st
      | .ring (.vf h) =>
        match (s.herd h).st, (s.herd h).rev with
        | .live, _ =>
          let y := s.ring (.vf h)
          (s.setRing (.vf h) (y.hold c)).flushCpl (.vf h)
        | .revoking, some r =>
          if r.stage == RevStage.executed || r.stage == RevStage.zeroized then
            s.modHerd h fun y => { y with rev := some { r with lasts := r.lasts ++ [c] } }
          else s
        | _, _ => s
      | .ring r =>
        let y := s.ring r
        (s.setRing r (y.hold c)).flushCpl r
    (s.fenceCheck ref.src).icNote
/-- Complete with a status alone. -/
def State.done (s : State) (ref : OrderRef) (st : Status) : State := s.complete ref st 0 0
/-- Take an order in: it holds a completion slot until it completes (R339). -/
def State.admitOrder (s : State) (o : OrderSrc) : State :=
  s.setSrcRing o { s.srcRing o with reserved := (s.srcRing o).reserved + 1 }

/-! ## Misuse flags (R6, R11, R233, R525) -/

/-- The event ring a flag of an access goes to: PF ring set 0 or the herd's ring. -/
def State.flagEvt (s : State) (who : Who) (code : BitVec 16) (off : Nat) : State :=
  match who with
  | .vf h => s.evtHerd h code (leBytes 4 off ++ leBytes 6 (if code = 1 then (s.herd h).beatNow.toNat else 0))
  | _ => s.evtPf 0 code 0 (leBytes 4 off)
/-- A discarded RWL write (R6): `LOCKED_WRITE` set and reported. -/
def State.lockedWrite (s : State) (who : Who) (off : Nat) : State :=
  { s with cfg := { s.cfg with lockedWrite := true } }.flagEvt who 0x0001 off
/-- A discarded reserved encoding (R11): `BAD_VALUE` set and reported. -/
def State.badValue (s : State) (who : Who) (off : Nat) : State :=
  { s with cfg := { s.cfg with badValue := true } }.flagEvt who 0x0002 off

/-! ## Self-tests (R468) -/

/-- The test of a part is due; an error in the part under test makes its verdict lasting (Table 16.17), and an uncorrectable one
in a row under a transparent test loses what that row held (R471). -/
def State.addTest (s : State) (p : Part) (status : BitVec 8) (herds : List HerdId) : State :=
  let l := s.repair.tests
  let l := if l.any fun t => t.part == p then l.map fun t =>
      if t.part != p then t
      else { t with again := true, status := if t.status = 0 then status else t.status, herds := (t.herds ++ herds).eraseDups }
    else l ++ [{ part := p, status := status, herds := herds, again := false }]
  { s with repair := { s.repair with tests := l } }

/-! ## Meters (R347) -/

/-- Add to what a herd's meters advance by at its next beat end or order completion. -/
def State.meter (s : State) (h : HerdId) (f : Meter → Meter) : State :=
  { s with meterDue := s.meterDue.set {} h.val (f (s.meterDue.get {} h.val)) }
/-- Count vector issue periods or matrix cell steps. -/
def State.meterSteps (s : State) (h : HerdId) (n : Nat) : State :=
  s.meter h fun m => { m with cellSteps := satAdd m.cellSteps n }

/-! ## Stop requests (R227) -/

/-- What START, `MCLR` and a fault of the pair clear (R95, R100, R104). -/
def Pair.clear (p : Pair) : Pair := { p with acc := none, chunk := {}, total := {}, sticky := 0, sat0 := 0, sat1 := 0 }
/-- A block halts: what it runs ceases (Table 07.11). -/
def Block.halt (b : Block) : Block :=
  if b.st == .idle then b
  else { b with st := .halt, pairs := ⟨b.pairs.entries.map fun e => (e.1, { e.2 with run := none })⟩ }
/-- Every block of a herd halts. -/
def State.haltBlocks (s : State) (h : HerdId) : State :=
  (s.blocksOf h).foldl (fun s b => s.setBlock b (s.block b).halt) s
/-- The regions that hold blocks of a herd take a beat end or a stop request from the hub (source 109). -/
def State.tellRegions (s : State) (h : HerdId) : State :=
  (((s.blocksOf h).map regionOf).eraseDups).foldl (fun s r => s.latchLevel (r + 1) 109 true) s
/-- Queue a BEAT frame of a herd's stream on slice dimension `k` (Tables 07.10 and 09.2). The spec gives the token's payload
no encoding: the bytes sent are free. -/
def State.sendToken (s : State) (h : HerdId) (k : Nat) : State :=
  match (s.herd h).dims[k]? with
  | none => s
  | some d =>
    let (s, p) := s.freeBytes 512
    s.modDim d fun x =>
      { x with queue := x.queue ++ [{ type := 3, herd := h, last := true, item := 0, offset := 0, payload := p }] }
/-- A stop request travels on every slice dimension (R227). -/
def State.sendStop (s : State) (h : HerdId) : State :=
  (List.range (s.herd h).dims.length).foldl (fun s k => s.sendToken h k) s
/-- The fabric engine halts with a run that stops (R227): the DATA and REDUCE frames not yet sent are gone, acknowledgements of those
sent count for no later run, and what the items and entries had reached is dropped (DEDUCED, log entry 141). -/
def State.endFrames (s : State) (h : HerdId) : State :=
  let s := s.modHerd h fun x => { x with reds := {}, routes := {} }
  allDims.foldl (fun s d => s.modDim d fun x =>
    { x with queue := x.queue.filter fun o => !(o.herd == h && (o.type = 1 || o.type = 2))
             held := x.held.map fun f => if f.herd == h then { f with stale := true } else f }) s
/-- A stop request with a fault: the run is STOPPING, its blocks and its fabric items halt, and the fault is gathered (R227). The
request goes out unless the run is already stopping on a fault. Without a run nothing is stopped. -/
def State.stop (s : State) (h : HerdId) (f : FaultRec) : State :=
  match (s.herd h).run with
  | none => s
  | some r =>
    let was := (s.herd h).seq
    let s := s.modHerd h fun x => { x with seq := .stopping, run := some { r with faults := r.faults ++ [f], stopAtEnd := false } }
    let s := (s.haltBlocks h).tellRegions h
    if was == .running || r.stopAtEnd then (s.endFrames h).sendStop h else s
/-- A fault of this unit: its beat is the one in progress, its place this unit's slice position. -/
def State.stopHere (s : State) (h : HerdId) (st : Status) (herdBlock : Nat) : State :=
  let x := s.herd h
  s.stop h { status := st.setWidth 8, beat := x.beatNow, slicePos := s.slicePos x, herdBlock := herdBlock }
/-- The beat that a block's next verb belongs to (R215, R219): a block can be ahead of the beat in progress. -/
def State.blockBeat (s : State) (h : HerdId) (b : BlockId) : W48 :=
  match (s.herd h).workRun with
  | some r => r.beat0 + BitVec.ofNat 48 ((s.block b).pass * ((s.herd h).sentence.map (·.beats)).getD 0 + (s.block b).seg)
  | none => (s.herd h).beatNow
/-- A block's fault or refusal: HALT with a stop request (R101, R464, R466). -/
def State.stopBlock (s : State) (h : HerdId) (b : BlockId) (st : Status) : State :=
  (s.setBlock b (s.block b).halt).stop h
    { status := st.setWidth 8, beat := s.blockBeat h b, slicePos := s.slicePos (s.herd h), herdBlock := s.herdIndex h b }

end Sys2Proof.Machine
end

