-- ==== Sys2Proof/Machine/NyaCore.lean ====
section
/-!
DEFINITION. Markhor's slots and the memory encryption engine: window layout (R373, R374), line and node protection
(R375 to R378), the node cache (R379), reads and writes of one line (Table 13.3, R381 to R387), damage and re-seeding
(R389 to R393).
-/
namespace Sys2Proof.Machine

/-! ## Markhor (chapter 14) -/

/-- Zeroize a slot (R414): its secret is gone and it is free, or HELD when `held`. -/
def State.zeroSlot (s : State) (n : Nat) (held : Bool) : State :=
  if held then s.setSlot n { s.slot n with valid := false, held := true, secret := [] } else s.setSlot n {}
/-- The free pool slots, lowest first (R413). -/
def State.freeSlots (s : State) : List Nat :=
  (rangeFrom 32 224).filter fun n => !(s.slot n).valid && !(s.slot n).held
/-- The owner fields of a slot that belongs to a herd. -/
def herdSlot (h : HerdId) (ty : BitVec 4) : Slot := { tenant := true, type := ty, owner := 2, herd := BitVec.ofNat 5 h.val }

/-! ## HBM addresses (R67) -/

/-- First byte of the stack-linear view. -/
def linBase : Nat := 0x0100_0000_0000
/-- The stack-linear address of an interleaved address (R67). -/
def linOf (a : Nat) : Nat :=
  let p := a / 4096
  linBase + (p % 12) * 0x10_0000_0000 + (p / 12) * 4096 + a % 4096
/-- The interleaved address of a stack-linear address. -/
def interOf (l : Nat) : Nat :=
  let r := l - linBase
  (12 * (r % 0x10_0000_0000 / 4096) + r / 0x10_0000_0000) * 4096 + r % 4096
/-- An address of the interleaved view. -/
def isInter (a : Nat) : Bool := a < 0x00C0_0000_0000
/-- An address of the stack-linear view. -/
def isLin (a : Nat) : Bool := linBase ≤ a && a < 0x01C0_0000_0000
/-- The interleaved page number of a stack-linear address (R473). -/
def pageOf (l : Nat) : Nat := interOf l / 4096

/-- The channel and the pseudo-channel of the line that a stack-linear address lies in: line l of local page q goes to
channel (l + q) mod 32, pseudo-channel ⌊l / 32⌋ (R68). -/
def hbmChannel (a : Nat) : Nat × Nat :=
  let o := (a - linBase) % 0x10_0000_0000
  let l := o % 4096 / 64
  ((l + o / 4096) % 32, l / 32)

/-! ## Window layout (R373, R374) -/

/-- Nodes per tree level, level 1 first, from the number of a level (fuel bounds the levels). -/
def levelsUp : Nat → Nat → List Nat → List Nat
  | 0, _, acc => acc
  | f + 1, n, acc => if n ≤ 8 then n :: acc else levelsUp f (cdiv n 8) (n :: acc)
/-- N_1 … N_D of a window of `size` bytes. -/
def levelsOf (size : Nat) : List Nat := levelsUp 12 (2 * (size / 65536)) []
/-- D. -/
def depthOf (size : Nat) : Nat := (levelsOf size).length
/-- U: the upper tree levels, rounded up to 4 KiB. -/
def upperOf (size : Nat) : Nat := cdiv (64 * ((levelsOf size).dropLast).sum) 4096 * 4096
/-- Bytes of the data range. -/
def dataSize (size : Nat) : Nat := 7 * size / 8 - upperOf size
/-- Window offset of tree node `n` of level `l`. -/
def treeOff (size l n : Nat) : Nat :=
  if l = depthOf size then 7 * size / 8 + 8192 * (n / 2) + 64 * (126 + n % 2)
  else 7 * size / 8 - upperOf size + 64 * (((levelsOf size).take (l - 1)).sum + n)
/-- Window offset of the node of page `p` (pages counted through the window, 14 per granule). -/
def pageNodeOff (size p : Nat) : Nat := 7 * size / 8 + 8192 * (p / 14) + 64 * (112 + p % 14)
/-- Window offset of a node; level 0 is a page node. -/
def nodeOff (size l n : Nat) : Nat := if l = 0 then pageNodeOff size n else treeOff size l n
/-- Window offset of the MAC of the data line at `off`. -/
def macOff (size off : Nat) : Nat := 7 * size / 8 + 8192 * (off / 57344) + 8 * (off % 57344 / 64)
/-- The page of a data offset. -/
def pageOfOff (off : Nat) : Nat := 14 * (off / 57344) + off % 57344 / 4096
/-- The parent of a node: its level (0 for the root), index, and the slot there (R374). -/
def parentOf (size l n : Nat) : Nat × Nat × Nat :=
  if l = 0 then (depthOf size, 2 * (n / 14) + n % 14 / 8, n % 14 % 8)
  else if l = 1 then (0, 0, n) else (l - 1, n / 8, n % 8)
/-- Cache key of a node. -/
def nodeKey (l n : Nat) : Nat := l * 2 ^ 40 + n
/-- The leaf tree nodes beneath a node: first and count. -/
def leavesOf (size l n : Nat) : Nat × Nat :=
  let k := 8 ^ (depthOf size - l)
  (n * k, k)
/-- Whether node (l, n) stands above or at page `p`. -/
def nodeCovers (size l n p : Nat) : Bool :=
  if l = 0 then n = p
  else
    let leaf := 2 * (p / 14) + p % 14 / 8
    let (a, k) := leavesOf size l n
    a ≤ leaf && leaf < a + k

/-! ## Lines and nodes -/

/-- Where a window's byte lies in HBM: its stack-linear address. -/
def Win.phys (x : Win) (off : Nat) : Nat := if x.pinned then x.base + off else linOf (x.base + off)
/-- The key slot of an epoch. -/
def Win.slotOf (x : Win) (e : Bool) : Option Nat := if e then x.slot1 else x.slot0
/-- K_ENC and K_MAC of an epoch (R372), while its slot is VALID. -/
def State.winKeys (s : State) (x : Win) (e : Bool) : Option (List Byte × List Byte) :=
  match x.slotOf e with
  | some n =>
    if (s.slot n).valid then
      some (hkdfExpand (s.slot n).secret (ascii "FV20-NYA-ENC"), hkdfExpand (s.slot n).secret (ascii "FV20-NYA-MAC"))
    else none
  | none => none
/-- The counter block of a line (Table 13.2): `mac` is bit 23. -/
def lineBlock (lineIdx major minor : Nat) (mac : Bool) (b : Nat) : Nat :=
  lineIdx * 2 ^ 94 + major * 2 ^ 30 + minor * 2 ^ 24 + b2n mac * 2 ^ 23 + b
/-- The nonce block of a node (R377). -/
def nodeBlock (l n ctr : Nat) : Nat := l * 2 ^ 124 + n * 2 ^ 90 + ctr * 2 ^ 34 + 2 ^ 23
/-- The MAC of R376 over 64 bytes under a nonce block. -/
def lineMac (kmac : List Byte) (nonce : Nat) (c : List Byte) : List Byte :=
  let h := BitVec.ofNat 128 (beNat (aes256 kmac (List.replicate 16 0)))
  let g := ghash h (sliceBytes c 0 64 ++ beBytes 8 0 ++ beBytes 8 512)
  (xorBytes (beBytes 16 g.toNat) (aes256 kmac (beBytes 16 nonce))).take 8
/-- Encrypt or decrypt a line in CTR mode (R375). -/
def lineCrypt (kenc : List Byte) (lineIdx major minor : Nat) (d : List Byte) : List Byte :=
  xorBytes d ((List.range 4).flatMap fun b => aes256 kenc (beBytes 16 (lineBlock lineIdx major minor false b)))
/-- Minor counter `l` and the major counter of a page node. -/
def nodeMinor (v : BitVec 448) (l : Nat) : Nat := bits v.toNat (6 * l) 6
def nodeMajor (v : BitVec 448) : Nat := bits v.toNat 384 64
/-- A page node with a minor counter replaced. -/
def setMinor (v : BitVec 448) (l m : Nat) : BitVec 448 :=
  BitVec.ofNat 448 (v.toNat - nodeMinor v l * 2 ^ (6 * l) + m * 2 ^ (6 * l))
/-- The page node in which every non-zero minor counter is 1, under a major counter (R382). -/
def freshPage (v : BitVec 448) (major : Nat) : BitVec 448 :=
  BitVec.ofNat 448
    (((List.range 64).foldl (fun a l => a + b2n (nodeMinor v l != 0) * 2 ^ (6 * l)) 0) + major * 2 ^ 384)
/-- Counter `i` of a tree node. -/
def nodeCtr (v : BitVec 448) (i : Nat) : Nat := bits v.toNat (56 * i) 56
/-- A tree node with counter `i` advanced (modulo 2^56; DESIGN CHOICE, log entry 101). -/
def bumpCtr (v : BitVec 448) (i : Nat) : BitVec 448 :=
  BitVec.ofNat 448 (v.toNat - nodeCtr v i * 2 ^ (56 * i) + (nodeCtr v i + 1) % 2 ^ 56 * 2 ^ (56 * i))

/-- Count a MAC mismatch. -/
def State.macMiss (s : State) : State := { s with macFail := satAdd s.macFail 1 }
/-- The number of data lines of a window beneath a node. -/
def linesUnder (size l n : Nat) : Nat :=
  64 * ((List.range (dataSize size / 4096)).filter fun p => nodeCovers size l n p).length
/-- A subtree covers a page. -/
def SubTree.covers (t : SubTree) (size p : Nat) : Bool := t.whole || nodeCovers size t.level t.idx p
/-- Data lines of a subtree. -/
def SubTree.lines (t : SubTree) (size : Nat) : Nat :=
  if t.whole then 64 * (dataSize size / 4096) else linesUnder size t.level t.idx
/-- Chip source 20 and the window's DAMAGED state for a bad node (R389, R393); `page` is a page beneath it, and a node
already inside an unverifiable subtree adds nothing. -/
def State.badNode (s : State) (w : WinId) (whole : Bool) (l n : Nat) : State :=
  let x := s.win w
  let p0 := if l = 0 then n else let a := (leavesOf x.size l n).1; 14 * (a / 2) + a % 2 * 8
  let inside := x.subs.any fun t => !t.reseeding && (t.whole || (!whole && t.covers x.size p0 && l != 0 && t.level != 0
    && t.level ≤ l) || (!whole && t.covers x.size p0 && l = 0))
  let s := { s with badNodeCnt := satAdd s.badNodeCnt 1 }
  let subs :=
    if inside then x.subs
    else if whole || (x.subs.filter fun t => !t.reseeding).length ≥ 8 then
      [{ whole := true, level := 0, idx := 0, reseeding := false, written := [] }]
    else x.subs.filter (fun t => !(t.reseeding && !t.whole && t.level == l && t.idx == n))
      ++ [{ whole := false, level := l, idx := n, reseeding := false, written := [] }]
  (s.setWin w { x with st := 2, subs := subs }).edge 0 20

/-- The stored 64 bytes of a line. -/
def State.hbmLine (s : State) (a : Nat) : List Byte := s.mem.readBytes a 64
/-- Store bytes in HBM and mark their line with a key epoch (R380). A full line that is written reads normally again (R390);
MACs are written with their whole line. -/
def State.hbmStore (s : State) (a : Nat) (l : List Byte) (e : Bool) : State :=
  { s with mem := s.mem.writeBytes a l, lineEpoch := s.lineEpoch.set false (a / 64 * 64) e
           hbmBad := s.hbmBad.filter (· != a / 64 * 64) }
/-- The offset of a stack-linear address in an allocated window, if it lies there (R54). -/
def Win.offOf (x : Win) (l : Nat) : Option Nat :=
  let a := if x.pinned then l else interOf l
  if x.st != 0 && x.base ≤ a && a < x.base + x.size then some (a - x.base) else none
/-- The lines that an uncorrectable error of an HBM line of a window affects: a MAC line stands for the eight data lines whose
MACs it holds, any other line for itself. -/
def Win.affected (x : Win) (a : Nat) : List Nat :=
  match x.offOf a with
  | some o =>
    let r := o - 7 * x.size / 8
    if 7 * x.size / 8 ≤ o && r % 8192 < 64 * 112 then
      (List.range 8).map fun j => x.phys (57344 * (r / 8192) + 64 * (8 * (r % 8192 / 64) + j))
    else [a]
  | none => [a]
/-- HBM lines of a window report an uncorrectable error from now on (R389, R390). DESIGN CHOICE (log entry 125): the error
stays in the line until the line is next written in full. -/
def State.hbmFail (s : State) (w : WinId) (bad : List Nat) : State :=
  { s with hbmBad := (s.hbmBad ++ bad.flatMap (s.win w).affected).eraseDups }
/-- An HBM line shows an uncorrectable error: its stack's source is raised, and a row test is due (R467, R468). -/
def State.hbmError (s : State) (a : Nat) : State :=
  (s.edge 0 (8 + pageOf a % 12)).addTest (.hbmLine (BitVec.ofNat 28 (pageOf a))) 0 []
/-- A line of a fenced page (R473). -/
def State.pageFenced (s : State) (a : Nat) : Bool := s.repair.pages.contains (pageOf a)
/-- Put a node into the node cache. -/
def State.cachePut (s : State) (w : WinId) (l n : Nat) (v : BitVec 448) : State :=
  let x := s.win w
  s.setWin w { x with cache := x.cache.set none (nodeKey l n) (some v) }

/-- The value of a node: from the cache; zeros when its parent counter is 0 (R378); else fetched and verified, from the
highest uncached node downward (Table 13.3). -/
def State.getNode : Nat → State → WinId → Nat → Nat → State × Status × BitVec 448
  | 0, s, _, _, _ => (s, stUnverifiable, 0)
  | f + 1, s, w, l, n =>
    let x := s.win w
    match x.cache.get none (nodeKey l n) with
    | some v => (s, stOK, v)
    | none =>
      if 1 ≤ l && l ≤ 3 then (s, stOK, 0)
      else
        let (pl, pn, ps) := parentOf x.size l n
        let (s, st, pv) := if pl = 0 then (s, stOK, (0 : BitVec 448)) else State.getNode f s w pl pn
        if st != stOK then (s, st, 0)
        else
          let c := if pl = 0 then x.root.get 0 ps else nodeCtr pv ps
          if c = 0 then (s, stOK, 0)
          else
            let a := x.phys (nodeOff x.size l n)
            if s.pageFenced a then (s, stHwHbm, 0)
            else if s.hbmBad.contains a then ((s.hbmError a).badNode w false l n, stUnverifiable, 0)
            else
              let line := s.hbmLine a
              let ok := match s.winKeys x (s.lineEpoch.get false a) with
                | some (_, km) => lineMac km (nodeBlock l n c) (line.take 56) == line.drop 56
                | none => false
              if ok then
                let v := BitVec.ofNat 448 (leNat (line.take 56))
                (s.cachePut w l n v, stOK, v)
              else (s.macMiss.badNode w false l n, stIntegrityFail, 0)
/-- The levels of a window are at most nine, and a page node stands below them. -/
def State.node (s : State) (w : WinId) (l n : Nat) : State × Status × BitVec 448 :=
  State.getNode 12 s w l n

/-- Advance the counter of a node's parent (R379), the parent being verified first. Answers the new counter. -/
def State.bumpParent (s : State) (w : WinId) (l n : Nat) : State × Status × Nat :=
  let x := s.win w
  let (pl, pn, ps) := parentOf x.size l n
  if pl = 0 then
    let c := (x.root.get 0 ps + 1) % 2 ^ 56
    (s.setWin w { x with root := x.root.set 0 ps c }, stOK, c)
  else
    let (s, st, pv) := s.node w pl pn
    if st != stOK then (s, st, 0)
    else
      let v := bumpCtr pv ps
      (s.cachePut w pl pn v, stOK, nodeCtr v ps)

/-- Evict a node: its parent counter advances, then it is written with its MAC under the current key (R379). Levels 1 to
3 stay, and so does a node whose line lies in a fenced page (R473). -/
def State.evictNode (s : State) (w : WinId) (l n : Nat) : State :=
  let x := s.win w
  match x.cache.get none (nodeKey l n) with
  | none => s
  | some v =>
    if (1 ≤ l && l ≤ 3) || s.pageFenced (x.phys (nodeOff x.size l n)) then s
    else
      let (s, st, c) := s.bumpParent w l n
      if st != stOK then s
      else
        let x := s.win w
        match s.winKeys x x.epoch with
        | none => s
        | some (_, km) =>
          let body := leBytes 56 v.toNat
          let s := s.hbmStore (x.phys (nodeOff x.size l n)) (body ++ lineMac km (nodeBlock l n c) body) x.epoch
          s.setWin w { x with cache := x.cache.set none (nodeKey l n) none }
/-- Give up the named nodes, in order; the access for which one is given up completes `HW_HBM` when its line lies in a fenced
page (R473). -/
def State.evict (s : State) (w : WinId) (l : List (Nat × Nat)) : State × Status :=
  let x := s.win w
  let held := l.any fun e => !(1 ≤ e.1 && e.1 ≤ 3) && (x.cache.get none (nodeKey e.1 e.2)).isSome
    && s.pageFenced (x.phys (nodeOff x.size e.1 e.2))
  (l.foldl (fun s e => s.evictNode w e.1 e.2) s, if held then stHwHbm else stOK)

/-! ## Reads (Table 13.3) -/

/-- A line lies in an unverifiable subtree, or in one being re-seeded and not yet written (R391, R392). -/
def Win.blocked (x : Win) (off : Nat) (write : Bool) : Bool :=
  x.subs.any fun t => t.covers x.size (pageOfOff off) && (!t.reseeding || (!write && !t.written.contains (off / 64)))
/-- Decrypt and verify the stored data line at `off` under a page node; no change but the count of mismatches. -/
def State.openLine (s : State) (w : WinId) (off : Nat) (v : BitVec 448) : State × Status × List Byte :=
  let x := s.win w
  let l := off % 4096 / 64
  let a := x.phys off
  let ma := x.phys (macOff x.size off)
  if s.pageFenced a || s.pageFenced ma then (s, stHwHbm, [])
  else if s.hbmBad.contains a then ((s.hbmError a).edge 0 20, stIntegrityFail, [])
  else
    let c := s.hbmLine a
    match s.winKeys x (s.lineEpoch.get false a) with
    | some (ke, km) =>
      if lineMac km (lineBlock (off / 64) (nodeMajor v) (nodeMinor v l) true 0) c == s.mem.readBytes ma 8 then
        (s, stOK, lineCrypt ke (off / 64) (nodeMajor v) (nodeMinor v l) c)
      else (s.macMiss.edge 0 20, stIntegrityFail, [])
    | none => (s.macMiss.edge 0 20, stIntegrityFail, [])
/-- Read the line at window offset `off` (a multiple of 64 in the data range); a line of a fenced page gives `HW_HBM`, written or
not (R473). -/
def State.readLine (s : State) (w : WinId) (off : Nat) : State × Status × List Byte :=
  let x := s.win w
  match x.waiting.reverse.find? fun e => e.1 == off with
  | some e => (s, stOK, e.2)
  | none =>
    if x.blocked off false then (s, stUnverifiable, [])
    else if s.pageFenced (x.phys off) then (s, stHwHbm, [])
    else
      let (s, st, v) := s.node w 0 (pageOfOff off)
      if st != stOK then (s, st, [])
      else if nodeMinor v (off % 4096 / 64) = 0 then (s, stOK, List.replicate 64 0)
      else s.openLine w off v

/-! ## Writes, budgets and sweeps (R381 to R387) -/

/-- The budget of a window's key in line writes (R383). -/
def Win.budget (x : Win) : Nat := 2 ^ (if x.budgetLog2 = 0 then 36 else x.budgetLog2)
/-- Start a sweep: Markhor draws the next key into the other epoch slot, and new writes use it (R384). A window whose keys
are gone starts none. While the entropy source fails the draw waits (R418), and the sweep is due; a key whose budget is used
up then encrypts nothing more (DEDUCED, log entry 137). -/
def State.startSweep (s : State) (w : WinId) : State :=
  let x := s.win w
  if s.tahr.entropyBad then
    s.setWin w { x with sweepDue := true, epochSt := if x.budget ≤ x.writes then 2 else x.epochSt }
  else match x.slotOf (!x.epoch), s.winKeys x x.epoch with
  | some n, some _ =>
    let (s, k) := s.draw
    let s := s.setSlot n { s.slot n with valid := true, held := false, secret := bytes256 k }
    s.setWin w { x with epoch := !x.epoch, writes := 0, epochSt := 1, sweepDue := false }
  | _, _ => s
/-- Count encryptions against the current key, and act at 7/8 of the budget and at the whole of it (Table 13.5). -/
def State.countWrites (s : State) (w : WinId) (k : Nat) : State :=
  let x := s.win w
  let n := x.writes + k
  let s := s.setWin w { x with writes := n }
  if n * 8 < 7 * x.budget then s
  else if x.epochSt = 0 then s.startSweep w
  else
    s.setWin w { x with writes := n, sweepDue := true, epochSt := if n ≥ x.budget then 2 else x.epochSt }
/-- Encrypt and store a data line under the current key and a page node. -/
def State.sealLine (s : State) (w : WinId) (off : Nat) (v : BitVec 448) (d : List Byte) : State :=
  let x := s.win w
  let l := off % 4096 / 64
  match s.winKeys x x.epoch with
  | none => s
  | some (ke, km) =>
    let c := lineCrypt ke (off / 64) (nodeMajor v) (nodeMinor v l) d
    let m := lineMac km (lineBlock (off / 64) (nodeMajor v) (nodeMinor v l) true 0) c
    (s.hbmStore (x.phys off) c x.epoch).hbmStore (x.phys (macOff x.size off)) m x.epoch
/-- Note a whole-line write for the subtrees being re-seeded; a complete one is gone, and without subtrees the window is
LIVE (R392). -/
def State.noteSeed (s : State) (w : WinId) (off : Nat) : State :=
  let x := s.win w
  if x.subs.isEmpty then s
  else
    let subs := x.subs.map fun t =>
      if t.reseeding && t.covers x.size (pageOfOff off) && !t.written.contains (off / 64) then
        { t with written := t.written ++ [off / 64] } else t
    let left := subs.filter fun t => !(t.reseeding && t.written.length ≥ t.lines x.size)
    s.setWin w { x with subs := left, st := if left.isEmpty then 1 else x.st }
/-- Re-encrypt the written lines of a page under a new page node (R382); a line that cannot be read stays as it is and
fails later. Answers the number of encryptions. -/
def State.recryptPage (s : State) (w : WinId) (base : Nat) (old new : BitVec 448) : State × Nat :=
  (List.range 64).foldl (fun a l =>
    if nodeMinor old l = 0 then a
    else
      let (s, st, d) := a.1.openLine w (base + 64 * l) old
      if st == stOK then (s.sealLine w (base + 64 * l) new d, a.2 + 1) else (s, a.2)) (s, 0)
/-- Write the whole line at `off` (R381, R382, R387). A write that STALLED holds is accepted, hence acknowledged, at once
(DEDUCED, log entry 102). Once a write has found its page's major counter at its end during a sweep, every write of the page waits
for the sweep's end (Table 13.5). -/
def State.writeLine (s : State) (w : WinId) (off : Nat) (d : List Byte) : State × Status :=
  let x := s.win w
  let l := off % 4096 / 64
  let p := pageOfOff off
  if x.blocked off true then (s, stUnverifiable)
  else if s.pageFenced (x.phys off) || s.pageFenced (x.phys (macOff x.size off)) then (s, stHwHbm)
  else if x.epochSt = 2 || x.waiting.any (fun e => pageOfOff e.1 == p) then (s.setWin w { x with waiting := x.waiting ++ [(off, sliceBytes d 0 64)] }, stOK)
  else
    let (s, st, v) := s.node w 0 p
    if st != stOK then (s, st)
    else if nodeMinor v l < 63 then
      let v' := setMinor v l (nodeMinor v l + 1)
      let s := ((s.sealLine w off v' d).cachePut w 0 p v').noteSeed w off
      (s.countWrites w 1, stOK)
    else if nodeMajor v = 2 ^ 64 - 1 && (x.epochSt = 1 || s.tahr.entropyBad) then
      let x := s.win w
      (s.setWin w { x with waiting := x.waiting ++ [(off, sliceBytes d 0 64)] }, stOK)
    else
      let last := nodeMajor v = 2 ^ 64 - 1
      let s := if last then s.startSweep w else s
      let v' := freshPage v (if last then 0 else nodeMajor v + 1)
      let (s, k) := s.recryptPage w (off / 4096 * 4096) (setMinor v l 0) v'
      let s := ((s.sealLine w off v' d).cachePut w 0 p v').noteSeed w off
      (s.countWrites w (k + 1), stOK)
/-- Write bytes of a line from byte `o`: a partial write first reads the line (R381). -/
def State.writePart (s : State) (w : WinId) (off o : Nat) (d : List Byte) : State × Status :=
  if d.length ≥ 64 then s.writeLine w off d
  else
    let (s, st, old) := s.readLine w off
    if st != stOK then (s, st)
    else s.writeLine w off (old.take o ++ d ++ old.drop (o + d.length))

/-- A node stands in a subtree that is unverifiable and not being re-seeded (R385). -/
def Win.lost (x : Win) (l n : Nat) : Bool :=
  x.subs.any fun t => !t.reseeding && (t.whole ||
    (if l = 0 then t.covers x.size n else t.level != 0 && t.level ≤ l && n / 8 ^ (l - t.level) == t.idx))
/-- The sweep's visit of one page: every written line still under the old epoch is rewritten under the current key with
the same counters (R384), and counts as a write under that key (R383). -/
def State.sweepPage (s : State) (w : WinId) (p : Nat) : State :=
  let x := s.win w
  let base := 57344 * (p / 14) + 4096 * (p % 14)
  if x.lost 0 p then s
  else
    let (s, st, v) := s.node w 0 p
    if st != stOK then s
    else
      (List.range 64).foldl (fun s l =>
        let off := base + 64 * l
        if nodeMinor v l = 0 || s.lineEpoch.get false (x.phys off) == x.epoch then s
        else
          let (s, st, d) := s.openLine w off v
          if st == stOK then (s.sealLine w off v d).countWrites w 1 else s) s
/-- The sweep's visit of a node: one that has been written is verified, and written back with its MAC under the current
key and the same parent counter (R384). -/
def State.sweepNode (s : State) (w : WinId) (l n : Nat) : State :=
  let x := s.win w
  if x.lost l n then s
  else
    let (s, st, v) := s.node w l n
    let (pl, pn, ps) := parentOf x.size l n
    let (s, st, pv) := if st != stOK || pl = 0 then (s, st, (0 : BitVec 448)) else s.node w pl pn
    let c := if pl = 0 then x.root.get 0 ps else nodeCtr pv ps
    if st != stOK || c = 0 || s.pageFenced (x.phys (nodeOff x.size l n)) then s
    else
      match s.winKeys x x.epoch with
      | none => s
      | some (_, km) =>
        let body := leBytes 56 v.toNat
        s.hbmStore (x.phys (nodeOff x.size l n)) (body ++ lineMac km (nodeBlock l n c) body) x.epoch
/-- The nodes of a window in ascending order of their addresses (Table 13.1): the upper tree levels, then granule by granule the
page nodes and the leaf tree nodes. -/
def nodesOf (size : Nat) : List (Nat × Nat) :=
  let ls := levelsOf size
  (ls.dropLast.zipIdx.flatMap fun e => (List.range e.1).map fun n => (e.2 + 1, n)) ++
    (List.range (size / 65536)).flatMap fun i =>
      ((List.range 14).map fun k => (0, 14 * i + k)) ++ [(ls.length, 2 * i), (ls.length, 2 * i + 1)]
/-- The whole sweep of a window (R384, R385), in ascending address order: the data lines with their MACs, then the nodes. -/
def State.sweep (s : State) (w : WinId) : State :=
  let x := s.win w
  let s := (List.range (dataSize x.size / 4096)).foldl (fun s p => s.sweepPage w p) s
  (nodesOf x.size).foldl (fun s e => s.sweepNode w e.1 e.2) s

/-- Take up the writes that waited for a sweep's end (Table 13.5). -/
def State.resume (s : State) (w : WinId) : State :=
  let q := (s.win w).waiting
  let s := s.setWin w { s.win w with waiting := [] }
  q.foldl (fun s e => (s.writeLine w e.1 e.2).1) s

/-- A sweep is in progress: the key of the other epoch is still held. -/
def State.sweeping (s : State) (w : WinId) : Bool :=
  ((s.win w).slotOf (!(s.win w).epoch)).any fun n => (s.slot n).valid
/-- The entropy source has recovered: a sweep that waited for its key starts, and the writes that waited for it go on. -/
def State.wakeSweep (s : State) (w : WinId) : State :=
  if s.sweeping w then s else (if (s.win w).sweepDue then s.startSweep w else s).resume w
/-- Free a window's keys: both slots return to the pool (R413), and nothing of the window is left (R355). -/
def State.dropWin (s : State) (w : WinId) : State :=
  let x := s.win w
  let s := match x.slot0 with | some n => s.zeroSlot n false | none => s
  let s := match x.slot1 with | some n => s.zeroSlot n false | none => s
  let s := x.rotations.foldl (fun s e => s.done e.1 stKeyRetired) s
  s.setWin w {}

end Sys2Proof.Machine
end

