-- ==== Sys2Proof/Machine/Access.lean ====
section
/-!
DEFINITION. Accesses of a herd's requesters to device memory: the address map (R52 to R54), the checks at a bank, a
block arbiter and Nyala (R60, R61, R350, R394), and the reads and writes that every engine is made of.
-/
namespace Sys2Proof.Machine

/-- Where a device address lies (Table 02.1). -/
inductive Place where
  | lot (l off : Nat) | scratch (b off : Nat) | win (w : WinId) (off : Nat) | nowhere
deriving DecidableEq, Repr

def storeBase : Nat := 0x1000_0000_0000
def scratchBase : Nat := 0x3000_0000_0000
/-- 2 MiB: a lot, and the scratch of a block. -/
def lotBytes : Nat := 0x20_0000
/-- Device address of byte `off` of a lot. -/
def lotAddr (l off : Nat) : Nat := storeBase + l * lotBytes + off
/-- Device address of byte `off` of a block's scratch. -/
def scratchAddr (b off : Nat) : Nat := scratchBase + b * lotBytes + off

/-- The allocated window that covers a stack-linear address. -/
def State.winAt (s : State) (l : Nat) : Option (WinId × Nat) :=
  allWins.findSome? fun w => (((s.win w).offOf l).map fun o => (w, o))
/-- Where a device address lies. -/
def State.place (s : State) (a : Nat) : Place :=
  if isInter a then
    match s.winAt (linOf a) with | some (w, o) => .win w o | none => .nowhere
  else if isLin a then
    match s.winAt a with | some (w, o) => .win w o | none => .nowhere
  else if storeBase ≤ a && a < storeBase + 1024 * lotBytes then .lot ((a - storeBase) / lotBytes) ((a - storeBase) % lotBytes)
  else if scratchBase ≤ a && a < scratchBase + 384 * lotBytes then
    .scratch ((a - scratchBase) / lotBytes) ((a - scratchBase) % lotBytes)
  else .nowhere

/-- The bank and row of the central store that hold a store offset (R55; the row is a[30:20], DESIGN CHOICE, log entry 36). -/
def csRowOf (o : Nat) : Nat × Nat := ((bits o 8 8) ^^^ (bits o 16 8), bits o 20 11)
/-- The herd's tag and world match a lot's, and the lot is assigned and not being cleared (R60, R61). -/
def State.lotOk (s : State) (h : HerdId) (l : Nat) : Bool :=
  let x := s.lot l
  l < 1008 && x.assigned && !x.clearing && x.herd.toNat == h.val && x.secure == (s.herd h).secure
/-- The herd holds a block (R350), whose group is not retired (R18, Table 06.6). -/
def State.blockOk (s : State) (h : HerdId) (b : Nat) : Bool :=
  b < 384 && (s.herd h).hasGroup (b / 8) && !s.repair.groupRetired.get false (b / 8)
/-- The herd's tag and world match a window's (R350). -/
def State.winOk (s : State) (h : HerdId) (w : WinId) : Bool :=
  let x := s.win w
  x.st != 0 && x.herd.toNat == h.val && x.secure == (s.herd h).secure

/-- Every byte of [a, a + n) lies in an allocation of the herd and its world; a window must not be DAMAGED (R54, R73). -/
def State.held (s : State) (h : HerdId) (a n : Nat) : Bool :=
  (List.range (cdiv (a % 4096 + n) 4096)).all fun k =>
    let lo := if k = 0 then a else a / 4096 * 4096 + 4096 * k
    let hi := min (a + n) (a / 4096 * 4096 + 4096 * (k + 1)) - 1
    let ok := fun (p : Place) => match p with
      | .lot l _ => s.lotOk h l
      | .scratch b _ => s.blockOk h b
      | .win w o => s.winOk h w && (s.win w).st != 2 && o < dataSize (s.win w).size
      | .nowhere => false
    ok (s.place lo) && ok (s.place hi)

/-- Refuse a request at a bank (R60). -/
def State.deny (s : State) : State := { s with denied := satAdd s.denied 1 }
/-- An uncorrectable error in a row of the central store has had no verdict yet: what the row holds is bad (R471, R474). -/
def State.rowBad (s : State) (b r : Nat) : Bool :=
  s.repair.tests.any fun t => t.status != 0 && match t.part with
    | .csRow k w _ => k.toNat = b && w.toNat = r
    | _ => false
/-- A byte of a lot lies in a row that is lost for good (R472), or that holds bad data. -/
def State.rowLost (s : State) (l off n : Nat) : Bool :=
  n != 0 && !(s.repair.lotLost.entries.isEmpty && s.repair.tests.isEmpty) &&
    (List.range n).any fun k =>
      let (b, r) := csRowOf (l * lotBytes + off + k)
      s.repair.lotLost.get false (b * 2048 + r) || s.rowBad b r

/-- Read the piece [a, a + n) of one 64-byte line for a herd. -/
def State.rdPiece (s : State) (h : HerdId) (a n : Nat) : State × Status × List Byte :=
  match s.place a with
  | .lot l off =>
    if !s.lotOk h l then (s.deny, stNounBounds, [])
    else if s.rowLost l off n then (s, stHwCs, [])
    else (s, stOK, s.mem.readBytes a n)
  | .scratch b _ =>
    if !s.blockOk h b then (s, stNounBounds, [])
    else if (s.blocks.get {} b).fenced then (s, (s.blocks.get {} b).fault, [])
    else (s, stOK, s.mem.readBytes a n)
  | .win w o =>
    if !s.winOk h w || dataSize (s.win w).size ≤ o then (s, stNounBounds, [])
    else
      let s := s.meter h fun m => { m with hbmBytes := satAdd m.hbmBytes 64 }
      let (s, st, d) := s.readLine w (o / 64 * 64)
      (s, st, sliceBytes d (o % 64) n)
  | .nowhere => (s, stNounBounds, [])
/-- Write a piece of one 64-byte line for a herd. -/
def State.wrPiece (s : State) (h : HerdId) (a : Nat) (d : List Byte) : State × Status :=
  match s.place a with
  | .lot l off =>
    if !s.lotOk h l then (s.deny, stNounBounds)
    else if s.rowLost l off d.length then (s, stHwCs)
    else ({ s with mem := s.mem.writeBytes a d }, stOK)
  | .scratch b _ =>
    if !s.blockOk h b then (s, stNounBounds)
    else if (s.blocks.get {} b).fenced then (s, (s.blocks.get {} b).fault)
    else ({ s with mem := s.mem.writeBytes a d }, stOK)
  | .win w o =>
    if !s.winOk h w || dataSize (s.win w).size ≤ o then (s, stNounBounds)
    else
      let s := s.meter h fun m => { m with hbmBytes := satAdd m.hbmBytes 64 }
      s.writePart w (o / 64 * 64) (o % 64) d
  | .nowhere => (s, stNounBounds)

/-- Read `n` bytes from `a`, line by line, stopping at the first line that fails (`f` bounds the lines). -/
def State.rdLines : Nat → State → HerdId → Nat → Nat → List Byte → State × Status × List Byte
  | 0, s, _, _, _, acc => (s, stOK, acc)
  | f + 1, s, h, a, n, acc =>
    if n = 0 then (s, stOK, acc)
    else
      let k := min n (64 - a % 64)
      let (s, st, d) := s.rdPiece h a k
      if st != stOK then (s, st, acc) else State.rdLines f s h (a + k) (n - k) (acc ++ d)
/-- Read `n` bytes from device address `a` for a herd: the bytes, or the status that refuses them and what was read. -/
def State.rd (s : State) (h : HerdId) (a n : Nat) : State × Status × List Byte := State.rdLines (n / 64 + 2) s h a n []
/-- Write bytes line by line, stopping at the first line that fails. -/
def State.wrLines : Nat → State → HerdId → Nat → List Byte → State × Status
  | 0, s, _, _, _ => (s, stOK)
  | f + 1, s, h, a, d =>
    if d.isEmpty then (s, stOK)
    else
      let k := 64 - a % 64
      let (s, st) := s.wrPiece h a (d.take k)
      if st != stOK then (s, st) else State.wrLines f s h (a + k) (d.drop k)
/-- Write bytes at device address `a` for a herd. -/
def State.wr (s : State) (h : HerdId) (a : Nat) (d : List Byte) : State × Status :=
  State.wrLines (d.length / 64 + 2) s h a d
/-- Note a range that the run in progress writes (R229); a range that follows the last one extends it. -/
def State.noteWrite (s : State) (h : HerdId) (a n : Nat) : State :=
  match (s.herd h).run with
  | some r =>
    let w := match r.wrote with
      | (b, k) :: rest => if b + k = a then (b, k + n) :: rest else (a, n) :: r.wrote
      | [] => [(a, n)]
    s.modHerd h fun x => { x with run := some { r with wrote := w } }
  | none => s
/-- Two byte ranges share a byte. -/
def meets (a b : Nat × Nat) : Bool := a.1 < b.2 && b.1 < a.2
/-- The ranges of one page each that a device range covers, with HBM pages at their stack-linear addresses (R67). -/
def physRanges (a n : Nat) : List (Nat × Nat) :=
  (List.range (cdiv (a % 4096 + n) 4096)).map fun k =>
    let lo := if k = 0 then a else a / 4096 * 4096 + 4096 * k
    let hi := min (a + n) (a / 4096 * 4096 + 4096 * (k + 1))
    if isInter lo then (linOf lo, linOf lo + (hi - lo)) else (lo, hi)
/-- Two device ranges share a byte, in whichever view they are given (R73). -/
def rangesMeet (a n b m : Nat) : Bool :=
  if isInter a == isInter b then meets (a, a + n) (b, b + m)
  else (physRanges a n).any fun p => (physRanges b m).any fun q => meets p q
/-- The stack-linear address of an address of either HBM view; other addresses as they are. -/
def devAddr (a : Nat) : Nat := if isInter a then linOf a else a
/-- The transfer unit of an address (R55): HBM pages at their stack-linear addresses. -/
def devUnit (a : Nat) : Nat := devAddr a / 256 * 256
/-- The transfer units that a device range touches, as addresses of the range's own view. -/
def unitsOf (a n : Nat) : List Nat := (List.range (cdiv (a % 256 + n) 256)).map fun k => a / 256 * 256 + 256 * k
/-- A copy keeps the units of its source that the run is about to write as they are, and notes what the run writes of its
destination (R75). -/
def State.copyMeets (s : State) (h : HerdId) (a n : Nat) (j : CopyJob) : CopyJob :=
  if j.herd != h || j.status.isSome then j
  else
    let us := (unitsOf a n).filter fun u =>
      (j.src.any fun r => rangesMeet u 256 r.1 r.2) && !j.old.any fun e => e.1 == devUnit u
    { j with
      old := j.old ++ us.filterMap fun u =>
        let (_, st, d) := s.rd h u 256
        if st == stOK then some (devUnit u, d) else none
      met := if j.dst.any fun r => rangesMeet a n r.1 r.2 then j.met ++ [(a, n)] else j.met }
/-- A write of a participant of the run, as copies meet it. -/
def State.runPut (s : State) (h : HerdId) (a : Nat) (d : List Byte) : State × Status :=
  ({ s with copies := s.copies.map (s.copyMeets h a d.length) }).wr h a d
/-- A write of a participant of the run. -/
def State.runWr (s : State) (h : HerdId) (a : Nat) (d : List Byte) : State × Status := (s.noteWrite h a d.length).runPut h a d
/-- Write bytes below the fence of a block: what is there is undefined, fenced or not (R77). -/
def State.spoilPiece (s : State) (h : HerdId) (a : Nat) (d : List Byte) : State :=
  match s.place a with
  | .scratch b _ => if s.blockOk h b then { s with mem := s.mem.writeBytes a d } else s
  | _ => (s.wrPiece h a d).1
/-- The range [a, a + n) becomes undefined: free bytes, as far as it can be written (R77, R229). No meter counts it. -/
def State.spoil (s : State) (h : HerdId) (a n : Nat) : State :=
  { (List.range (n / 64 + 2)).foldl (fun s k =>
      let lo := if k = 0 then a else a / 64 * 64 + 64 * k
      let hi := min (a + n) (a / 64 * 64 + 64 * (k + 1))
      if lo < hi then
        let (s, d) := s.freeBytes (hi - lo)
        s.spoilPiece h lo d
      else s) s with meterDue := s.meterDue }

/-- Little-endian number of `k` bytes in memory, for a herd. -/
def State.rdLe (s : State) (h : HerdId) (a k : Nat) : State × Status × Nat :=
  let (s, st, d) := s.rd h a k
  (s, st, leNat d)

/-- Set every byte of a range of device memory to zero, below every check (R61, R149). -/
def State.wipe (s : State) (a n : Nat) : State :=
  { s with mem := s.mem.filter fun k => !(a ≤ k && k < a + n) }

end Sys2Proof.Machine
end

