-- ==== Sys2Proof/Machine/Nouns.lean ====
section
/-!
DEFINITION. Nouns (chapter 06): descriptors (R174, R175), local pieces and addresses (R180 to R188), footprints and
creation checks (R189 to R193), element loads and stores (R194, R196), creation and destruction (R176, Table 06.6).
-/
namespace Sys2Proof.Machine

/-! ## Descriptors -/

/-- Bits per element of an ELEM code below 9 (Table 06.3). -/
def elemBits (e : BitVec 4) : Nat :=
  match e.toNat with
  | 0 => 32 | 1 => 16 | 2 => 16 | 3 => 8 | 4 => 8 | 5 => 4 | 6 => 32 | 7 => 8 | _ => 4
/-- TC: elements per 64 bytes. -/
def elemTc (e : BitVec 4) : Nat := 512 / elemBits e
/-- SCALE 0b01 is allowed (Table 06.3). -/
def elemScaled (e : BitVec 4) : Bool := 3 ≤ e.toNat && e.toNat ≤ 5
/-- Bytes that hold one element. -/
def elemBytes (e : BitVec 4) : Nat := max 1 (elemBits e / 8)
/-- Dimension word of a descriptor (Table 06.2). -/
def nounDimOf (w : Nat) : NounDim :=
  { extM1 := BitVec.ofNat 18 (bits w 0 18), stride := BitVec.ofNat 28 (bits w 18 28), lead := BitVec.ofNat 5 (bits w 46 5)
    tail := BitVec.ofNat 7 (bits w 51 7), rule := BitVec.ofNat 2 (bits w 58 2), k := BitVec.ofNat 4 (bits w 60 4) }
/-- The descriptor that 64 bytes hold; the Device fields take the herd and its world (Table 06.1). -/
def nounOf (d : List Byte) (h : HerdId) (secure : Bool) : Noun :=
  let a := fieldLe d 0 8
  let b := fieldLe d 8 8
  let rank := bits a 50 3
  { kind := BitVec.ofNat 2 a, alloc := BitVec.ofNat 10 (bits a 2 10), offset := BitVec.ofNat 34 (bits a 12 34)
    elem := BitVec.ofNat 4 (bits a 46 4), rank := BitVec.ofNat 3 rank, isGlobal := bit a 53, residual := bit a 54
    haloShare := bit a 55, maskz := bit a 56, secure := secure, herd := BitVec.ofNat 5 h.val, live := true
    tile := BitVec.ofNat 2 b, sofs := BitVec.ofNat 34 (bits b 2 34), scale := BitVec.ofNat 2 (bits b 36 2)
    sdim := BitVec.ofNat 3 (bits b 38 3), hdrRes := BitVec.ofNat 23 (bits b 41 23)
    dims := (List.range (min rank 6)).map fun i => nounDimOf (fieldLe d (0x10 + 8 * i) 8) }
/-- The extent of a dimension. -/
def NounDim.ext (d : NounDim) : Nat := d.extM1.toNat + 1
/-- The size of a dimension's valid extent (R192). -/
def NounDim.validSize (d : NounDim) : Nat := d.ext - (d.lead.toNat + d.tail.toNat)
/-- The Noun has a scale array. -/
def Noun.scaled (n : Noun) : Bool := n.scale == 1

/-! ## The local piece (R186) -/

/-- A Noun as one unit sees it: the herd that uses it, the device address of byte 0 of its allocation, its local extents
and the part index of each dimension. -/
structure Piece where
  noun : Noun
  herd : HerdId
  base : Nat
  loc : List Nat
  part : List Nat
deriving DecidableEq, Repr

/-- The number that the first `k` bits spell, the first as the most significant. -/
def msbNat (l : List Bool) : Nat := l.foldl (fun a b => 2 * a + b2n b) 0
/-- The part indices of the dimensions, which take the slice bits in turn (R186). -/
def partsOf : List NounDim → List Bool → List Nat
  | [], _ => []
  | d :: r, l => msbNat (l.take d.k.toNat) :: partsOf r (l.drop d.k.toNat)
/-- This unit's cube-address bits in the slice dimensions of a herd, ascending. -/
def State.sliceBits (s : State) (x : Herd) : List Bool := x.dims.map fun d => s.cubeAddr.getLsbD d.val
/-- The device address of byte 0 of an allocation (R52). -/
def State.allocBase (s : State) (kind : BitVec 2) (alloc : BitVec 10) : Nat :=
  if kind = 0 then scratchAddr alloc.toNat 0
  else if kind = 1 then lotAddr alloc.toNat 0
  else (s.wins.get {} alloc.toNat).base
/-- The piece of a Noun that this unit holds. An extent that 2^K does not divide, which check 0x04 refuses, has no local extent
for check 0x03: it is rounded down there (DESIGN CHOICE, log entry 162). -/
def State.piece (s : State) (n : Noun) : Piece :=
  let h : HerdId := ⟨n.herd.toNat, n.herd.isLt⟩
  { noun := n, herd := h, base := s.allocBase n.kind n.alloc
    loc := n.dims.map fun d => if n.isGlobal then d.ext / 2 ^ d.k.toNat else d.ext
    part := if n.isGlobal then partsOf n.dims (s.sliceBits (s.herd h)) else n.dims.map fun _ => 0 }

/-- The global coordinate of local coordinate `l` in a dimension (R186). -/
def globOf (isGlobal : Bool) (d : NounDim) (e p l : Nat) : Nat :=
  if !isGlobal then l else if d.rule = 1 then p * e + l else if d.rule = 2 then l * 2 ^ d.k.toNat + p else l
/-- The local coordinates of a dimension that lie in the valid extent and in this piece, as first and end (R192, R196). -/
def validRange (isGlobal : Bool) (d : NounDim) (e p : Nat) : Nat × Nat :=
  let a := d.lead.toNat
  let b := d.ext - d.tail.toNat
  let (a, b) :=
    if !isGlobal then (a, b)
    else if d.rule = 1 then (a - p * e, b - p * e)
    else if d.rule = 2 then
      let k := 2 ^ d.k.toNat
      ((a - p + k - 1) / k, (b - p + k - 1) / k)
    else (a, b)
  (a, min b e)
/-- The valid ranges of a piece, dimension by dimension. -/
def Piece.ranges (p : Piece) : List (Nat × Nat) :=
  (p.noun.dims.zip (p.loc.zip p.part)).map fun e => validRange p.noun.isGlobal e.1 e.2.1 e.2.2
/-- A coordinate lies inside the extents of the piece. -/
def Piece.inside (p : Piece) (c : List Nat) : Bool := c.length = p.loc.length && (c.zip p.loc).all fun e => e.1 < e.2
/-- A coordinate lies in the valid extent. -/
def Piece.valid (p : Piece) (c : List Nat) : Bool :=
  p.inside c && (c.zip p.ranges).all fun e => e.2.1 ≤ e.1 && e.1 < e.2.2
/-- The coordinate clamped to the valid extent, if that has one in this piece (R196). -/
def Piece.clamp (p : Piece) (c : List Int) : Option (List Nat) :=
  if p.ranges.all fun r => r.1 < r.2 then
    some ((c.zip p.ranges).map fun e => (max (e.2.1 : Int) (min e.1 ((e.2.2 : Int) - 1))).toNat)
  else none
/-- Product of a list. -/
def prodOf (l : List Nat) : Nat := l.foldl (· * ·) 1
/-- The row-major index of a coordinate over extents (R179). -/
def rowMajor (ext c : List Nat) : Nat := (c.zip ext).foldl (fun a e => a * e.2 + e.1) 0
/-- The coordinate of a row-major index. -/
def unRowMajor : List Nat → Nat → List Nat
  | [], _ => []
  | e :: r, i =>
    let k := prodOf r
    (i / k % max e 1) :: unRowMajor r (i % max k 1)
/-- The extents over which the linear index runs: global for a GLOBAL Noun (R179). -/
def Piece.shape (p : Piece) : List Nat := if p.noun.isGlobal then p.noun.dims.map NounDim.ext else p.loc
/-- The global coordinate of a local one. -/
def Piece.glob (p : Piece) (c : List Nat) : List Nat :=
  (c.zip (p.noun.dims.zip (p.loc.zip p.part))).map fun e => globOf p.noun.isGlobal e.2.1 e.2.2.1 e.2.2.2 e.1
/-- The local coordinate of a global one, when that lies in this unit's piece (R186). -/
def Piece.ofGlob (p : Piece) (g : List Nat) : Option (List Nat) :=
  let l := (g.zip (p.noun.dims.zip (p.loc.zip p.part))).map fun e =>
    let (g, d, n, q) := e
    if !p.noun.isGlobal then (g, true)
    else if d.rule = 1 then (g % max n 1, g / max n 1 == q)
    else if d.rule = 2 then (g / 2 ^ d.k.toNat, g % 2 ^ d.k.toNat == q)
    else (g, true)
  if l.all (·.2) then some (l.map (·.1)) else none
/-- The linear index of a local coordinate (R122, R179). -/
def Piece.lin (p : Piece) (c : List Nat) : Nat := rowMajor p.shape (p.glob c)
/-- The local coordinate of a linear index, when the index lies in the shape and in this unit's piece (R160). -/
def Piece.ofLin (p : Piece) (i : Nat) : Option (List Nat) :=
  if prodOf p.shape ≤ i then none else p.ofGlob (unRowMajor p.shape i)

/-! ## Element and scale addresses (R180, R183) -/

/-- Rows of a tile. -/
def tileRows (tile : BitVec 2) : Nat := if tile = 1 then 16 else 128
/-- Sum of coordinate times stride. -/
def dotStride (c : List Nat) (d : List NounDim) : Nat := (c.zip d).foldl (fun a e => a + e.1 * e.2.stride.toNat) 0
/-- The element offset of a coordinate. -/
def Noun.off (n : Noun) (c : List Nat) : Nat :=
  if n.tile = 0 then dotStride c n.dims
  else
    let tr := tileRows n.tile
    let tc := elemTc n.elem
    let r := n.dims.length - 2
    let cr := c.getD r 0
    let cq := c.getD (r + 1) 0
    dotStride (c.take r ++ [cr / tr, cq / tc]) n.dims + cr % tr * tc + cq % tc
/-- The byte of an element in its allocation. -/
def Noun.byteOf (n : Noun) (c : List Nat) : Nat := 64 * n.offset.toNat + n.off c * elemBits n.elem / 8
/-- Device address of an element's byte. -/
def Piece.addr (p : Piece) (c : List Nat) : Nat := p.base + p.noun.byteOf c
/-- Extents of the scale blocks. -/
def Piece.scaleExt (p : Piece) : List Nat :=
  p.loc.zipIdx.map fun e => if e.2 = p.noun.sdim.toNat then cdiv e.1 32 else e.1
/-- The scale block of a coordinate. -/
def Piece.scaleBlock (p : Piece) (c : List Nat) : Nat :=
  rowMajor p.scaleExt (c.zipIdx.map fun e => if e.2 = p.noun.sdim.toNat then e.1 / 32 else e.1)
/-- Device address of a scale block's byte. -/
def Piece.scaleAddr (p : Piece) (b : Nat) : Nat := p.base + 64 * p.noun.sofs.toNat + b
/-- The element and scale footprints, as first byte and end within the allocation (R189). -/
def Piece.foots (p : Piece) : List (Nat × Nat) :=
  let a := 64 * p.noun.offset.toNat
  let t := p.noun.byteOf (p.loc.map (· - 1)) + elemBytes p.noun.elem
  if p.noun.scaled then
    let b := 64 * p.noun.sofs.toNat
    [(a, t), (b, b + prodOf p.scaleExt)]
  else [(a, t)]

/-! ## Loads and stores of one element -/

/-- Read the code of one element; the piece's herd asks. -/
def State.ldElem (s : State) (p : Piece) (c : List Nat) : State × Status × Nat :=
  let (s, st, v) := s.rdLe p.herd (p.addr c) (elemBytes p.noun.elem)
  (s, st, if elemBits p.noun.elem = 4 then v / 16 ^ (p.noun.off c % 2) % 16 else v)
/-- Count dropped halo writes (R194). -/
def State.haloDrop (s : State) (h : HerdId) (n : Nat) : State :=
  s.modHerd h fun x => { x with haloDrops := satAdd x.haloDrops n }
/-- Write one element in the valid extent; a write outside it is dropped, and counted for HALO_SHARE inside the extents
(R194). `run` tells a write of the run in progress (R229). -/
def State.stElem (s : State) (run : Bool) (p : Piece) (c : List Nat) (v : Nat) : State × Status :=
  if !p.valid c then (if p.inside c && p.noun.haloShare then s.haloDrop p.herd 1 else s, stOK)
  else
    let a := p.addr c
    let w := fun (s : State) d => if run then s.runWr p.herd a d else s.wr p.herd a d
    if elemBits p.noun.elem = 4 then
      let (s, st, old) := s.rdLe p.herd a 1
      if st != stOK then (s, st)
      else
        let k := 16 ^ (p.noun.off c % 2)
        w s [BitVec.ofNat 8 (old - old / k % 16 * k + v % 16 * k)]
    else w s (leBytes (elemBytes p.noun.elem) v)
/-- Read a scale code. -/
def State.ldScale (s : State) (p : Piece) (b : Nat) : State × Status × Byte :=
  let (s, st, v) := s.rdLe p.herd (p.scaleAddr b) 1
  (s, st, BitVec.ofNat 8 v)
/-- Write a scale code. -/
def State.stScale (s : State) (run : Bool) (p : Piece) (b : Nat) (v : Byte) : State × Status :=
  if run then s.runWr p.herd (p.scaleAddr b) [v] else s.wr p.herd (p.scaleAddr b) [v]
/-- Write scale codes of the run in order, keeping the first failure. -/
def State.stScales (s : State) (p : Piece) (ks : List (Nat × Byte)) : State × Status :=
  ks.foldl (fun (a : State × Status) e => if a.2 != stOK then a else a.1.stScale true p e.1 e.2) (s, stOK)
/-- A verb ceased before its end: the elements and scale codes of its destination are undefined (R77, R227). -/
def State.cease (s : State) (p : Piece) (els : List (List Nat)) (ks : List Nat) : State :=
  let s := ((els.filter p.valid).map p.addr).eraseDups.foldl (fun s a => s.spoil p.herd a (elemBytes p.noun.elem)) s
  ks.foldl (fun s k => s.spoil p.herd (p.scaleAddr k) 1) s

/-! ## Noun tables -/

/-- The live Noun in an entry of a block. -/
def State.nounAt (s : State) (b : BlockId) (e : BitVec 6) : Option Noun :=
  let n := (s.block b).nouns.get {} e.toNat
  if n.live then some n else none
/-- The live Nouns of a herd, each once. -/
def State.liveNouns (s : State) (h : HerdId) : List Noun :=
  ((s.blocksOf h).flatMap fun b => (s.block b).nouns.entries.map (·.2) |>.filter (·.live)).eraseDups
/-- A live Noun of the herd names an allocation. -/
def State.nounNames (s : State) (h : HerdId) (kind : BitVec 2) (alloc : Nat) : Bool :=
  (s.liveNouns h).any fun n => n.kind == kind && n.alloc.toNat == alloc

/-! ## Creation checks (Table 06.4) -/

/-- The qualifying dimension o of check 0x06: the one with the largest STRIDE, the lowest-numbered on a tie. -/
def Piece.haloDim (p : Piece) : Option Nat :=
  let ds := p.noun.dims.zip p.loc
  let q := (ds.zipIdx).filter fun e =>
    (ds.zipIdx.foldl (fun a f => if f.2 = e.2 then a else a + (f.1.2 - 1) * f.1.1.stride.toNat) 0) < e.1.1.stride.toNat
  (q.foldl (fun (a : Option (Nat × Nat)) e =>
    match a with
    | none => some (e.1.1.stride.toNat, e.2)
    | some (m, _) => if m < e.1.1.stride.toNat then some (e.1.1.stride.toNat, e.2) else a) none).map (·.2)
/-- Two Nouns overlap (R191). -/
def overlaps (p q : Piece) : Bool :=
  p.noun.kind == q.noun.kind && p.noun.alloc == q.noun.alloc && p.foots.any fun a => q.foots.any fun b => meets a b
/-- The check that an overlap with a live Noun fails: 0x14 or 0x15, or 0 (R193). -/
def overlapCheck (p q : Piece) : BitVec 8 :=
  if !overlaps p q then 0
  else
    let (lo, hi) := if p.noun.offset.toNat ≤ q.noun.offset.toNat then (p, q) else (q, p)
    match lo.haloDim, hi.haloDim with
    | some o, some o' =>
      let so := ((lo.noun.dims.getD o {}).stride).toNat
      let dBits := 512 * (hi.noun.offset.toNat - lo.noun.offset.toNat)
      let w := elemBits lo.noun.elem
      let cong := lo.noun.haloShare && hi.noun.haloShare && o == o' && lo.noun.elem == hi.noun.elem
        && lo.noun.rank == hi.noun.rank
        && (lo.noun.dims.map (·.stride)) == (hi.noun.dims.map (·.stride))
        && ((lo.loc.zip hi.loc).zipIdx.all fun e => e.2 == o || e.1.1 == e.1.2)
        && dBits % w = 0 && dBits / w % so = 0
      if !cong then 0x14
      else
        let δ := dBits / w / so
        let apart := ((lo.ranges.zip hi.ranges).zipIdx).any fun e =>
          let b := if e.2 = o then (e.1.2.1 + δ, e.1.2.2 + δ) else e.1.2
          !meets e.1.1 b
        if apart then 0 else 0x15
    | _, _ => 0x14
/-- The descriptor offset of the first reserved field (check 0x02). -/
def Noun.reservedAt (n : Noun) : Option Nat :=
  if n.kind = 3 || 9 ≤ n.elem.toNat || n.rank = 0 || n.rank = 7 then some 0
  else if n.tile = 3 || 2 ≤ n.scale.toNat || n.hdrRes != 0 then some 8
  else if n.scaled && (!elemScaled n.elem || n.rank.toNat ≤ n.sdim.toNat) then some 8
  else (n.dims.zipIdx.find? fun e => e.1.rule = 3).map fun e => 0x10 + 8 * e.2
/-- The dimension word that fails check 0x03: LEAD + TAIL, then R182. -/
def Piece.tileAt (p : Piece) : Option Nat :=
  match p.noun.dims.zipIdx.find? fun e => e.1.ext ≤ e.1.lead.toNat + e.1.tail.toNat with
  | some e => some (0x10 + 8 * e.2)
  | none =>
    if p.noun.tile = 0 then none
    else if p.loc.length < 2 then some 8
    else
      let tr := tileRows p.noun.tile
      let tc := elemTc p.noun.elem
      let r := p.loc.length - 2
      let bad := fun i (u : Nat) => p.loc.getD i 0 % u != 0 || (p.noun.dims.getD i {}).stride.toNat % (tr * tc) != 0
      if bad r tr then some (0x10 + 8 * r) else if bad (r + 1) tc then some (0x10 + 8 * (r + 1)) else none
/-- The dimension word that fails check 0x04 (R185, R187) with `j` slice dimensions. -/
def Noun.shardAt (n : Noun) (j : Nat) : Option Nat :=
  (n.dims.zipIdx.find? fun e =>
    let d := e.1
    if !n.isGlobal then d.rule != 0 || d.k != 0
    else (d.rule = 0 && d.k != 0) || j < ((n.dims.take (e.2 + 1)).map (·.k.toNat)).sum || d.ext % 2 ^ d.k.toNat != 0).map
    fun e => 0x10 + 8 * e.2
/-- The herd and its world hold the allocation, which is in range and not DAMAGED (check 0x10). -/
def State.allocHeld (s : State) (h : HerdId) (n : Noun) : Bool :=
  let a := n.alloc.toNat
  if n.kind = 0 then s.blockOk h a
  else if n.kind = 1 then s.lotOk h a
  else if hw : a < 64 then s.winOk h ⟨a, hw⟩ && (s.win ⟨a, hw⟩).st != 2 else false
/-- The bytes of the allocation that a Noun may cover. -/
def State.allocSize (s : State) (n : Noun) : Nat :=
  if n.kind = 2 then dataSize (s.wins.get {} n.alloc.toNat).size else lotBytes

/-- Checks 0x01 to 0x13 (R190): the Noun, or status, code and offset. -/
def State.nounChecks (s : State) (h : HerdId) (e : BitVec 6) (set : List Nat) (desc : List Byte) :
    Except (Status × BitVec 8 × Nat) Noun :=
  let n := nounOf desc h (s.herd h).secure
  let p := s.piece n
  let cfg := fun (c : BitVec 8) o => Except.error (stCfgInvalid, c, o)
  let nb := fun (c : BitVec 8) o => Except.error (stNounBounds, c, o)
  if set.isEmpty || set.any fun i => (s.blockAt h i).isNone then cfg 1 0x40
  else if set.any fun i => match s.blockAt h i with | some b => (s.nounAt b e).isSome | none => false then cfg 1 0x70
  else match n.reservedAt with
  | some o => cfg 2 o
  | none => match p.tileAt with
  | some o => cfg 3 o
  | none => match n.shardAt (s.herd h).dims.length with
  | some o => cfg 4 o
  | none =>
    if n.residual && n.elem != 0 then cfg 5 0
    else if n.haloShare && (elemBits n.elem = 4 || n.scale != 0 || n.tile != 0 || n.isGlobal || p.haloDim.isNone) then cfg 6 0
    else if !s.allocHeld h n then nb 0x10 0
    else
      let size := s.allocSize n
      let f := p.foots
      if (f.getD 0 (0, 0)).2 > size then nb 0x11 0
      else if n.scaled && (f.getD 1 (0, 0)).2 > size then nb 0x12 8
      else if n.scaled && meets (f.getD 0 (0, 0)) (f.getD 1 (0, 0)) then nb 0x13 8
      else .ok n

/-- A `NOUN_CREATE` record (Table 11.12): entry, block set, descriptor; none when a reserved bit is set. -/
def nounRecord (l : List Byte) : Option (BitVec 6 × List Nat × List Byte) :=
  if fieldLe l 0x70 1 < 64 && (l.drop 0x71).all (· == 0) then
    some (BitVec.ofNat 6 (fieldLe l 0x70 1),
      (List.range 384).filter fun i => bit (fieldLe l (0x40 + i / 8) 1) (i % 8), l.take 64)
  else none
/-- Checks 0x14 and 0x15 against live Nouns and against the peers of the batch (R191, R193, Table 06.6). -/
def State.nounOverlap (s : State) (h : HerdId) (n : Noun) (peers : List Noun) : BitVec 8 :=
  let p := s.piece n
  let l := (s.liveNouns h ++ peers).map fun q => overlapCheck p (s.piece q)
  if l.contains 0x14 then 0x14 else if l.contains 0x15 then 0x15 else 0
/-- Write a Noun into an entry of the named blocks (R176). -/
def State.putNoun (s : State) (h : HerdId) (e : BitVec 6) (set : List Nat) (n : Noun) : State :=
  set.foldl (fun s i => match s.blockAt h i with
    | some b => s.modBlock b fun x => { x with nouns := x.nouns.set {} e.toNat n }
    | none => s) s
/-- The Noun that a peer record of the same batch would create: its order executes, and it passes checks 0x01 to 0x13 itself
(Table 06.6). -/
def State.peerNoun (s : State) (h : HerdId) (arg : W64) : Option Noun :=
  if (s.herd h).busy || arg.toNat % 64 != 0 then none
  else match nounRecord (s.hostRead arg.toNat 128) with
  | some (e, set, d) => match s.nounChecks h e set d with | .ok n => some n | .error _ => none
  | none => none
/-- The status of the fault of the first fenced block among those named: nothing reaches its Noun table (R464; the status is a
DESIGN CHOICE, log entry 156). -/
def State.tableFault (s : State) (l : List BlockId) : Option Status := (l.find? fun b => (s.block b).fenced).map fun b => (s.block b).fault
/-- `NOUN_CREATE` of a live herd; `peers` are the Nouns of the other creations of the batch. -/
def State.nounCreate (s : State) (ref : OrderRef) (h : HerdId) (arg : W64) (peers : List Noun) : State :=
  if (s.herd h).busy || arg.toNat % 64 != 0 then s.done ref stCfgInvalid
  else match nounRecord (s.hostRead arg.toNat 128) with
  | none => s.done ref stCfgInvalid
  | some (e, set, d) =>
    match s.nounChecks h e set d with
    | .error (st, c, o) => s.complete ref st c (BitVec.ofNat 64 o)
    | .ok n =>
      let c := s.nounOverlap h n peers
      if c != 0 then s.complete ref stNounBounds c 0
      else match s.tableFault (set.filterMap fun i => s.blockAt h i) with
      | some st => s.done ref st
      | none => (s.putNoun h e set n).done ref stOK

/-! ## Destruction -/

/-- The Nouns that an unfinished copy of the herd names. -/
def State.copyNouns (s : State) (h : HerdId) : List Noun :=
  (s.copies.filter fun j => j.herd == h).flatMap fun j =>
    match j.op with
    | .copy sa da _ _ _ true =>
      [sa, da].filterMap fun a => (s.blockAt h (bits a.toNat 6 9)).bind fun b => s.nounAt b (BitVec.ofNat 6 a.toNat)
    | _ => []
/-- The blocks that hold a copy of a Noun (R176): copies share entry and descriptor. -/
def State.nounBlocks (s : State) (h : HerdId) (e : BitVec 6) (n : Noun) : List BlockId :=
  (s.blocksOf h).filter fun b => (s.block b).nouns.get {} e.toNat == n
/-- Clear every copy of a Noun. -/
def State.dropNoun (s : State) (h : HerdId) (e : BitVec 6) (n : Noun) : State :=
  (s.nounBlocks h e n).foldl (fun s b => s.modBlock b fun x => { x with nouns := x.nouns.set {} e.toNat {} }) s
/-- `NOUN_DESTROY` of a live herd, when no unfinished copy names the Noun; answers whether it must wait. -/
def State.nounDestroy (s : State) (ref : OrderRef) (h : HerdId) (e : BitVec 6) (blk : BitVec 9) : State × Bool :=
  if (s.herd h).busy then (s.done ref stCfgInvalid, false)
  else match (s.blockAt h blk.toNat).bind fun b => s.nounAt b e with
  | none => (s.done ref stCfgInvalid, false)
  | some n =>
    if (s.copyNouns h).contains n then (s, true)
    else match s.tableFault (s.nounBlocks h e n) with
    | some st => (s.done ref st, false)
    | none => ((s.dropNoun h e n).done ref stOK, false)

end Sys2Proof.Machine
end

