-- ==== Sys2Proof/Machine/Kem.lean ====
section
/-!
DEFINITION. ML-KEM-1024 (FIPS 203) with the Keccak functions it stands on (FIPS 202): the key pair of a 64-byte seed d ‖ z,
encapsulation and decapsulation (R336, R356, R430, Table 13.8). PRESUMED in the standards' details (log entry 2): the spec
names the standards and does not print them.
-/
namespace Sys2Proof.Machine

/-! ## Keccak: the state is 25 lanes, lane (x, y) at x + 5y -/

/-- Lane (x, y), with both taken modulo 5. -/
def lane25 (a : List W64) (x y : Nat) : W64 := a.getD (x % 5 + 5 * (y % 5)) 0
/-- A state from its lanes. -/
def mk25 (f : Nat → Nat → W64) : List W64 := (List.range 25).map fun i => f (i % 5) (i / 5)
/-- Rotation of a lane: the number of the step at which the walk (x, y) → (y, 2x + 3y) from (1, 0) meets it says how far. -/
def rhoAux (x y : Nat) : Nat → Nat → Nat → Nat → Nat
  | 0, _, _, _ => 0
  | n + 1, t, u, v => if u = x ∧ v = y then (t + 1) * (t + 2) / 2 % 64 else rhoAux x y n (t + 1) v ((2 * u + 3 * v) % 5)
def rhoOf (x y : Nat) : Nat := rhoAux x y 24 0 1 0
/-- The bit after `n` steps of the register x^8 + x^6 + x^5 + x^4 + 1. -/
def lfsr8 : Nat → Nat → Nat
  | 0, r => r % 2
  | n + 1, r => lfsr8 n (if 128 ≤ r then (2 * r) % 256 ^^^ 0x71 else 2 * r)
/-- The constant of round `i`: bit 2^j - 1 is bit j + 7i of the register's sequence. -/
def iotaOf (i : Nat) : W64 :=
  (List.range 7).foldl (fun a j => a ||| BitVec.ofNat 64 (lfsr8 (j + 7 * i) 1 * 2 ^ (2 ^ j - 1))) 0
/-- One round of Keccak-f[1600]. -/
def keccakRound (a : List W64) (i : Nat) : List W64 :=
  let col := fun x => (List.range 5).foldl (fun c y => c ^^^ lane25 a x y) 0
  let b := mk25 fun x y => lane25 a x y ^^^ col ((x + 4) % 5) ^^^ (col ((x + 1) % 5)).rotateLeft 1
  let c := mk25 fun x y => (lane25 b (x + 3 * y) x).rotateLeft (rhoOf ((x + 3 * y) % 5) x)
  let d := mk25 fun x y => lane25 c x y ^^^ (~~~(lane25 c (x + 1) y) &&& lane25 c (x + 2) y)
  d.set 0 (d.headD 0 ^^^ iotaOf i)
/-- Keccak-f[1600]. -/
def keccakF (a : List W64) : List W64 := (List.range 24).foldl keccakRound a
/-- Absorb blocks of `rate` bytes. -/
def absorb (rate : Nat) : Nat → List W64 → List Byte → List W64
  | 0, a, _ => a
  | n + 1, a, m =>
    absorb rate n (keccakF ((a.zipIdx).map fun e =>
      e.1 ^^^ (if 8 * e.2 < rate then BitVec.ofNat 64 (fieldLe m (8 * e.2) 8) else 0))) (m.drop rate)
/-- Squeeze `n` blocks. -/
def squeeze (rate : Nat) : Nat → List W64 → List Byte
  | 0, _ => []
  | n + 1, a => (a.flatMap fun w => leBytes 8 w.toNat).take rate ++ squeeze rate n (keccakF a)
/-- The sponge: capacity by `rate`, the domain byte `dom` (0x06 for SHA3, 0x1F for SHAKE), `len` bytes out. -/
def sponge (rate dom len : Nat) (m : List Byte) : List Byte :=
  let z := rate - 1 - m.length % rate
  let p := if z = 0 then m ++ [BitVec.ofNat 8 (dom + 128)]
    else m ++ BitVec.ofNat 8 dom :: (List.replicate (z - 1) 0 ++ [128])
  (squeeze rate (cdiv len rate) (absorb rate (p.length / rate) (List.replicate 25 0) p)).take len
def sha3_256 (m : List Byte) : List Byte := sponge 136 6 32 m
def sha3_512 (m : List Byte) : List Byte := sponge 72 6 64 m
def shake128 (len : Nat) (m : List Byte) : List Byte := sponge 168 0x1F len m
def shake256 (len : Nat) (m : List Byte) : List Byte := sponge 136 0x1F len m

/-! ## Polynomials: 256 coefficients modulo 3,329 -/

/-- A polynomial, or its transform: 256 numbers below 3,329. -/
abbrev Poly := List Nat
/-- The modulus. -/
def kyQ : Nat := 3329
/-- The seven low bits of `i` in reverse. -/
def rev7 (i : Nat) : Nat := (List.range 7).foldl (fun a k => 2 * a + i / 2 ^ k % 2) 0
/-- A power of 17, the 256th root of unity. -/
def zeta (e : Nat) : Nat := 17 ^ (e % 256) % kyQ
/-- Coefficient-wise sum. -/
def polyAdd (a b : Poly) : Poly := List.zipWith (fun x y => (x + y) % kyQ) a b
/-- Coefficient-wise difference. -/
def polySub (a b : Poly) : Poly := List.zipWith (fun x y => (x + kyQ - y) % kyQ) a b
/-- The transform: entries 2i and 2i + 1 are the residue of `f` modulo X² - ζ^(2 rev(i) + 1). -/
def ntt (f : Poly) : Poly :=
  (List.range 256).map fun k =>
    let e := 2 * rev7 (k / 2) + 1
    ((List.range 128).foldl (fun a j => a + f.getD (2 * j + k % 2) 0 * zeta (e * j)) 0) % kyQ
/-- Its inverse; 3,303 is the inverse of 128. -/
def nttInv (f : Poly) : Poly :=
  (List.range 256).map fun k =>
    (3303 * (List.range 128).foldl (fun a i => a + f.getD (2 * i + k % 2) 0 * zeta (255 * (2 * rev7 i + 1) * (k / 2))) 0) % kyQ
/-- The product of transforms: pairs are multiplied modulo their X² - ζ^(2 rev(i) + 1). -/
def nttMul (a b : Poly) : Poly :=
  (List.range 256).map fun k =>
    let i := k / 2
    let a0 := a.getD (2 * i) 0
    let a1 := a.getD (2 * i + 1) 0
    let b0 := b.getD (2 * i) 0
    let b1 := b.getD (2 * i + 1) 0
    (if k % 2 = 0 then a0 * b0 + a1 * b1 % kyQ * zeta (2 * rev7 i + 1) else a0 * b1 + a1 * b0) % kyQ
/-- The inner product of vectors of transforms. -/
def nttDot (a b : List Poly) : Poly :=
  (List.zipWith nttMul a b).foldl polyAdd (List.replicate 256 0)

/-! ## Codes -/

/-- `n` numbers of `d` bits each from bytes, low bits first. -/
def unpackBits (d n : Nat) (m : List Byte) : List Nat := let v := leNat m; (List.range n).map fun i => bits v (d * i) d
/-- Numbers of `d` bits each as bytes. -/
def packBits (d : Nat) (l : List Nat) : List Byte :=
  leBytes (d * l.length / 8) (l.reverse.foldl (fun a x => a * 2 ^ d + x % 2 ^ d) 0)
/-- Round a coefficient to `d` bits. -/
def compress (d x : Nat) : Nat := (2 ^ (d + 1) * x + kyQ) / (2 * kyQ) % 2 ^ d
/-- The coefficient that `d` bits stand for. -/
def decompress (d y : Nat) : Nat := (2 * kyQ * y + 2 ^ d) / 2 ^ (d + 1)
/-- Uniform coefficients by rejection: each three bytes give two candidates. -/
def candidates (m : List Byte) : List Nat := (unpackBits 12 (m.length * 2 / 3) m).filter (· < kyQ)
/-- Entry (i, j) of the matrix, from rho: 280 draws of three bytes. -/
def sampleA (rho : List Byte) (i j : Nat) : Poly := (candidates (shake128 840 (rho ++ leBytes 1 j ++ leBytes 1 i))).take 256
/-- A small polynomial: each coefficient the difference of two sums of two bits. -/
def sampleSmall (seed : List Byte) (n : Nat) : Poly :=
  (unpackBits 4 256 (shake256 128 (seed ++ leBytes 1 n))).map fun v => (v % 2 + v / 2 % 2 + kyQ - (v / 4 % 2 + v / 8)) % kyQ
/-- Four small polynomials from number `n` on. -/
def small4 (seed : List Byte) (n : Nat) : List Poly := (List.range 4).map fun i => sampleSmall seed (n + i)

/-! ## ML-KEM-1024 -/

/-- A key pair: the encapsulation key and the secret vector's transform. -/
def kemKeys (d : List Byte) : List Byte × List Poly :=
  let g := sha3_512 (d ++ [4])
  let rho := g.take 32
  let s := (small4 (g.drop 32) 0).map ntt
  let e := (small4 (g.drop 32) 4).map ntt
  let t := (List.range 4).map fun i => polyAdd (nttDot ((List.range 4).map (sampleA rho i)) s) (e.getD i [])
  ((t.flatMap fun p => packBits 12 p) ++ rho, s)
/-- Encrypt 32 bytes under an encapsulation key with the coins `r`. -/
def kemEncrypt (ek m r : List Byte) : List Byte :=
  let t := (List.range 4).map fun i => (unpackBits 12 256 (sliceBytes ek (384 * i) 384)).map (· % kyQ)
  let rho := sliceBytes ek 1536 32
  let y := (small4 r 0).map ntt
  let u := (List.range 4).map fun i =>
    polyAdd (nttInv (nttDot ((List.range 4).map fun j => sampleA rho j i) y)) (sampleSmall r (4 + i))
  let mu := (unpackBits 1 256 m).map (decompress 1)
  let v := polyAdd (polyAdd (nttInv (nttDot t y)) (sampleSmall r 8)) mu
  (u.flatMap fun p => packBits 11 (p.map (compress 11))) ++ packBits 5 (v.map (compress 5))
/-- Decrypt with the secret vector's transform. -/
def kemDecrypt (s : List Poly) (ct : List Byte) : List Byte :=
  let u := (List.range 4).map fun i => ntt ((unpackBits 11 256 (sliceBytes ct (352 * i) 352)).map (decompress 11))
  let v := (unpackBits 5 256 (sliceBytes ct 1408 160)).map (decompress 5)
  packBits 1 ((polySub v (nttInv (nttDot s u))).map (compress 1))
/-- The encapsulation key of a seed d ‖ z, 1,568 bytes. -/
def kemPublic (seed : List Byte) : List Byte := (kemKeys (seed.take 32)).1
/-- Encapsulation to a key with 32 random bytes: the ciphertext and the shared secret. -/
def kemEncaps (ek : List Byte) (m : W256) : List Byte × W256 :=
  let g := sha3_512 (bytes256 m ++ sha3_256 ek)
  (kemEncrypt ek (bytes256 m) (g.drop 32), word256 (g.take 32))
/-- Decapsulation with the seed d ‖ z: a ciphertext that does not encrypt again to itself gives a secret of z and itself. -/
def kemDecaps (seed ct : List Byte) : W256 :=
  let (ek, s) := kemKeys (seed.take 32)
  let m := kemDecrypt s ct
  let g := sha3_512 (m ++ sha3_256 ek)
  word256 (if kemEncrypt ek m (g.drop 32) = ct then g.take 32 else shake256 32 (seed.drop 32 ++ ct))

end Sys2Proof.Machine
end

