-- ==== Sys2Proof/Machine/Lms.lean ====
section
/-!
DEFINITION. LMS and HSS with SHA-256 (RFC 8554) in the sets of Table 14.9: LMS_SHA256_M32_H10 over LMOTS_SHA256_N32_W4 (R425),
the keys by the pseudorandom method of RFC 8554, Appendix A (R416), signatures and their check. PRESUMED in the standard's
details (log entry 2): the spec names the standard and does not print it.
-/
namespace Sys2Proof.Machine

/-- A tree of one-time keys: its 16-byte identifier and its 32-byte seed. -/
structure LmsTree where
  ident : List Byte
  seed : List Byte
deriving DecidableEq, Repr

/-- The prefix of every hash of a tree: the identifier, a leaf or node number, and 16 bits that say what is hashed. -/
def lmsPrefix (ident : List Byte) (q what : Nat) : List Byte := ident ++ beBytes 4 q ++ beBytes 2 what
/-- `n` steps of hash chain `i` of leaf `q`, from step `j` on. -/
def otsChain (ident : List Byte) (q i : Nat) : Nat → Nat → List Byte → List Byte
  | 0, _, v => v
  | n + 1, j, v => otsChain ident q i n (j + 1) (sha256 (lmsPrefix ident q i ++ beBytes 1 j ++ v))
/-- The start of chain `i` of leaf `q` (Appendix A). -/
def otsStart (t : LmsTree) (q i : Nat) : List Byte := sha256 (lmsPrefix t.ident q i ++ [0xFF] ++ t.seed)
/-- The hash of the ends of all 67 chains. -/
def otsHash (ident : List Byte) (q : Nat) (ends : List (List Byte)) : List Byte :=
  sha256 (lmsPrefix ident q 0x8080 ++ ends.flatten)
/-- The one-time public key of leaf `q`. -/
def otsPublic (t : LmsTree) (q : Nat) : List Byte :=
  otsHash t.ident q ((List.range 67).map fun i => otsChain t.ident q i 15 0 (otsStart t q i))
/-- The 67 digits of a message: 64 of its hash and 3 of their checksum. -/
def otsDigits (ident : List Byte) (q : Nat) (c m : List Byte) : List Nat :=
  let h := sha256 (lmsPrefix ident q 0x8181 ++ c ++ m)
  let d := h.flatMap fun b => [b.toNat / 16, b.toNat % 16]
  let k := (d.map fun x => 15 - x).sum
  d ++ [k / 256, k / 16 % 16, k % 16]
/-- A one-time signature with the randomizer `c`. -/
def otsSign (t : LmsTree) (q : Nat) (c m : List Byte) : List Byte :=
  beBytes 4 3 ++ c ++ ((otsDigits t.ident q c m).zipIdx.flatMap fun e => otsChain t.ident q e.2 e.1 0 (otsStart t q e.2))
/-- The public key that a one-time signature leads to; none of another type. -/
def otsRecover (ident : List Byte) (q : Nat) (m sig : List Byte) : Option (List Byte) :=
  if beNat (sliceBytes sig 0 4) != 3 then none
  else
    let d := otsDigits ident q (sliceBytes sig 4 32) m
    some (otsHash ident q (d.zipIdx.map fun e =>
      otsChain ident q e.2 (15 - e.1) e.1 (sliceBytes sig (36 + 32 * e.2) 32)))
/-- A leaf node, and an inner node over its two children. -/
def lmsLeaf (ident : List Byte) (r : Nat) (pub : List Byte) : List Byte := sha256 (lmsPrefix ident r 0x8282 ++ pub)
def lmsInner (ident : List Byte) (r : Nat) (a b : List Byte) : List Byte := sha256 (lmsPrefix ident r 0x8383 ++ a ++ b)
/-- Node `r` of a tree, `k` levels above the leaves. -/
def lmsNode (t : LmsTree) : Nat → Nat → List Byte
  | 0, r => lmsLeaf t.ident r (otsPublic t (r - 1024))
  | k + 1, r => lmsInner t.ident r (lmsNode t k (2 * r)) (lmsNode t k (2 * r + 1))
/-- The public key of a tree, 56 bytes. -/
def lmsPublic (t : LmsTree) : List Byte := beBytes 4 6 ++ beBytes 4 3 ++ t.ident ++ lmsNode t 10 1
/-- A signature with leaf `q`, 2,508 bytes. -/
def lmsSign (t : LmsTree) (q : Nat) (c m : List Byte) : List Byte :=
  beBytes 4 q ++ otsSign t q c m ++ beBytes 4 6
    ++ (List.range 10).flatMap fun k => lmsNode t k (((1024 + q) >>> k) ^^^ 1)
/-- Climb from a node to the root along a path. -/
def lmsClimb (ident : List Byte) : List (List Byte) → Nat → List Byte → List Byte
  | [], _, v => v
  | p :: l, r, v => lmsClimb ident l (r / 2) (if r % 2 = 0 then lmsInner ident (r / 2) v p else lmsInner ident (r / 2) p v)
/-- Whether a signature holds under a public key: only the types of Table 14.9 are accepted. -/
def lmsVerify (pub m sig : List Byte) : Bool :=
  let q := beNat (sliceBytes sig 0 4)
  let ident := sliceBytes pub 8 16
  pub.length = 56 && sig.length = 2508 && beNat (sliceBytes pub 0 4) = 6 && beNat (sliceBytes pub 4 4) = 3
    && beNat (sliceBytes sig 2184 4) = 6 && q < 1024
    && match otsRecover ident q m (sliceBytes sig 4 2180) with
      | some k =>
        lmsClimb ident ((List.range 10).map fun i => sliceBytes sig (2188 + 32 * i) 32) (1024 + q) (lmsLeaf ident (1024 + q) k)
          == sliceBytes pub 24 32
      | none => false
/-- The public key of a two-level hierarchy, 60 bytes. -/
def hssPublic (top : LmsTree) : List Byte := beBytes 4 2 ++ lmsPublic top
/-- A signature with leaf `q` of the hierarchy: bottom tree q / 1,024 is signed by that leaf of the top tree, and signs the
message with its leaf q mod 1,024. `c` gives the randomizer of a leaf of a tree. -/
def hssSign (tree : Nat → LmsTree) (c : List Byte → Nat → List Byte) (q : Nat) (m : List Byte) : List Byte :=
  let top := tree 0
  let low := tree (q / 1024 + 1)
  let pub := lmsPublic low
  beBytes 4 1 ++ lmsSign top (q / 1024) (c top.ident (q / 1024)) pub ++ pub
    ++ lmsSign low (q % 1024) (c low.ident (q % 1024)) m
/-- Whether a signature of the hierarchy holds. -/
def hssVerify (pub m sig : List Byte) : Bool :=
  let key := sliceBytes sig 2512 56
  pub.length = 60 && sig.length = 5076 && beNat (sliceBytes pub 0 4) = 2 && beNat (sliceBytes sig 0 4) = 1
    && lmsVerify (sliceBytes pub 4 56) key (sliceBytes sig 4 2508) && lmsVerify key m (sliceBytes sig 2568 2508)

end Sys2Proof.Machine
end

