-- ==== Sys2Proof/Machine/PowerLoop.lean ====
section
/-!
DEFINITION. The performance point and the governor's two loops (R28 to R37, R497), chapter 01.
-/
namespace Sys2Proof.Machine

/-- An internal event needs a powered unit (R479) and the condition that the spec gives it. DESIGN CHOICE (log entry 122): where
either does not hold, the event does not take place, and its command changes nothing. -/
def State.ifOnly (s : State) (c : Bool) (f : State → State) : Out := if s.pins.pwrGood && c then .next (f s) else .next s

/-- The lower of two points. -/
def pointMin (a b : Point) : Point := if a.val ≤ b.val then a else b
/-- The effective point (R28). -/
def Power.effective (p : Power) : Point := pointMin p.point (pointMin p.powerPoint p.thermalPoint)
/-- GATE_DUTY: the lower of the two duties (R37). -/
def Power.gateDuty (p : Power) : Nat := min p.powerDuty p.thermalDuty
/-- POWER_CAPPED and THERMAL_CAPPED (Table 01.5). -/
def Power.powerCapped (p : Power) : Bool := p.powerPoint < p.point || p.powerDuty < 100
def Power.thermalCapped (p : Power) : Bool := p.thermalPoint < p.point || p.thermalDuty < 100
/-- VDD of a point in mV (Table 00.3). -/
def vddOf (p : Point) : Nat := if p = 0 then 600 else if p = 1 then 660 else if p = 2 then 720 else 800
/-- The power state after a change: a new effective point starts, or turns, a slew (R29, R30); a new effective point or
capping is edge source 46. -/
def State.setPower (s : State) (p : Power) : State :=
  let o := s.power
  let p := if p.effective != o.effective then { p with slewing := p.slewing || p.supplyMv != vddOf p.effective } else p
  let s := { s with power := p }
  if p.effective != o.effective || p.powerCapped != o.powerCapped || p.thermalCapped != o.thermalCapped then s.edge 0 46
  else s
/-- The limit the governor uses, in hundredths of a watt: LIMIT_W, or 72 A times the input voltage when that is lower (R497). -/
def governorLimit (limitW : BitVec 12) (p56 : BitVec 16) : Nat := min (100 * limitW.toNat) (72 * p56.toNat)
/-- One evaluation of the power duty (R31): the input power in watts, the limit in hundredths of a watt. -/
def dutyStep (duty inputW limit : Nat) : Nat :=
  if limit < 100 * inputW then max 25 (duty - 6)
  else if 10000 * inputW < 95 * limit then min 100 (duty + 3) else duty

/-- The step rate of a point in 10 M steps a second (Table 00.3). -/
def stepRate (p : Point) : Nat := if p = 0 then 100 else if p = 1 then 125 else if p = 2 then 150 else 180
/-- GOVERNOR_EVAL (R31). -/
def execGovernorEval (inputW : BitVec 12) (p56 : BitVec 16) (s : State) : Out :=
  s.ifOnly true fun s => s.setPower { s.power with
    inputW := inputW, p56 := p56, powerDuty := dutyStep s.power.powerDuty inputW.toNat (governorLimit s.power.limitW p56) }
/-- A point one step lower, not below P0. -/
def pointDown (p : Point) : Point := if p = 0 then 0 else p - 1
/-- A point one step higher, not above P3. -/
def pointUp (p : Point) : Point := if p = 3 then 3 else p + 1
/-- POWER_POINT_DOWN (R32). At P0 there is no lower step, and the point and the power duty both stay (DEDUCED, log entry 3). -/
def execPowerPointDown (s : State) : Out :=
  s.ifOnly (s.power.powerDuty < 75) fun s =>
    if s.power.powerPoint = 0 then s
    else s.setPower { s.power with powerPoint := pointDown s.power.powerPoint, powerDuty := 100 }
/-- The input power, scaled to the step rate of the point above the power loop's own, stays below 95 % of the limit (R33). -/
def Power.roomAbove (p : Power) : Bool :=
  10000 * p.inputW.toNat * stepRate (pointUp p.powerPoint)
    < 95 * governorLimit p.limitW p.p56 * stepRate p.powerPoint
/-- POWER_POINT_UP (R33). -/
def execPowerPointUp (s : State) : Out :=
  s.ifOnly (s.power.powerPoint < s.power.point && s.power.roomAbove) fun s =>
    s.setPower { s.power with powerPoint := pointUp s.power.powerPoint }
/-- THERMAL_THROTTLE_TICK (R35): the hottest sensor reads 95 °C or more. -/
def execThermalThrottleTick (s : State) : Out :=
  s.ifOnly true fun s =>
    let s := { s with pins := { s.pins with hot95 := true } }.icNote
    if s.power.thermalPoint = 0 then s.setPower { s.power with thermalDuty := max 25 (s.power.thermalDuty - 6) }
    else s.setPower { s.power with thermalPoint := pointDown s.power.thermalPoint }
/-- THERMAL_RECOVER_TICK (R36): the hottest sensor has read 90 °C or less for 10 ms. The thermal loop holds the point while its
own is below the one requested. -/
def execThermalRecoverTick (s : State) : Out :=
  s.ifOnly true fun s =>
    let s := { s with pins := { s.pins with hot95 := false } }
    if s.power.thermalDuty < 100 then s.setPower { s.power with thermalDuty := 100 }
    else if s.power.thermalPoint < s.power.point then
      s.setPower { s.power with thermalPoint := pointUp s.power.thermalPoint }
    else s
/-- SLEW_DONE (R29): the supply has reached the VDD of the effective point. -/
def execSlewDone (s : State) : Out :=
  s.ifOnly s.power.slewing fun s =>
    { s with power := { s.power with slewing := false, supplyMv := vddOf s.power.effective } }

end Sys2Proof.Machine
end

