-- ==== Sys2Proof/Machine/Timebase.lean ====
section
/-!
DEFINITION. The timebase and the string position (R45 to R51, Table 01.9, R278, R280).
-/
namespace Sys2Proof.Machine

/-- One nanosecond of the counter while the queue is empty. While an offset is still to be slewed, every 10,000th nanosecond
corrects it by one, which is the 100 ppm of R46. -/
def Timebase.tick (t : Timebase) : Timebase :=
  if t.slewNs = 0 then { t with now := t.now + 1, slewPhase := 0 }
  else if t.slewPhase + 1 < 10000 then { t with now := t.now + 1, slewPhase := t.slewPhase + 1 }
  else if 0 < t.slewNs then { t with now := t.now + 2, slewNs := t.slewNs - 1, slewPhase := 0 }
  else { t with slewNs := t.slewNs + 1, slewPhase := 0 }

/-- The counter steps (R46). -/
def Timebase.step (t : Timebase) (v : W64) : Timebase := { t with now := v, stepped := true, slewNs := 0 }
/-- A new timebase; a change of state is edge source 48. -/
def State.setTb (s : State) (t : Timebase) : State :=
  if t.mode != s.tb.mode then { s with tb := t }.edge 0 48 else { s with tb := t }
/-- OFFSET_NS: two's complement, saturating (Table 01.11). -/
def offsetByte (o : Int) : BitVec 8 := BitVec.ofInt 8 (max (-128) (min 127 o))

/-- A TEST land that does not read low leaves every laser dark (R504). -/
def State.lasersOff (s : State) : Bool := s.tahr.st == 4 && s.tahr.fail == 9
/-- TB_SYNC_SEND (R46): the sync message carries this unit's counter and, once it has a position, its beacon (R278). -/
def execTbSyncSend (s : State) : Out :=
  s.ifOnly (!s.lasersOff) fun s =>
    { s with tb := { s.tb with sent := some (s.tb.now, if s.tb.posValid then some s.tb.position else none) } }

/-- The string position a beacon gives (R278): none while STRING_FAULT is set; after the commit it stays (R280). A valid beacon
also shows that the string is sound, for the next PERST_n (Table 09.11). -/
def State.takeBeacon (s : State) (b : Option (BitVec 5)) : State :=
  match b with
  | none => s
  | some p =>
    let s := { s with tb := { s.tb with beacon := if p = 31 then none else some p } }
    if s.cfg.st = 2 || s.tb.stringFault then s
    else if p = 31 then { s with tb := { s.tb with stringFault := true, posValid := false } }
    else { s with tb := { s.tb with position := p + 1, posValid := true } }

/-- TB_SYNC_RECEIVE (Table 01.9, E1 and E2). -/
def execTbSyncReceive (head offset : W64) (beacon : Option (BitVec 5)) (s : State) : Out :=
  s.ifOnly (s.tb.light && s.tb.mode != .master) fun s =>
    let o := offset.toInt
    let near := -50 ≤ o && o ≤ 50
    let t := { s.tb with offsetNs := offsetByte o }
    let slewed := { t with slewNs := -o }
    let t' : Timebase :=
      if near then
        if t.mode == .free && !s.anyHerd then { t.step head with mode := .locked } else { slewed with mode := .locked }
      else if s.anyHerd then { slewed with mode := .adrift }
      else { t.step head with mode := .locked }
    (s.setTb t').takeBeacon beacon
/-- TB_SYNC_TIMEOUT (Table 01.9, E3). -/
def execTbSyncTimeout (s : State) : Out :=
  s.ifOnly true fun s =>
    if s.tb.mode == .locked then s.setTb { s.tb with mode := .adrift } else s
/-- S_IN_LIGHT_CHANGE (Table 01.9, E4; R278, R280). A unit that takes images from the string and waits for one asks its new
neighbour (R483, R484). The spec does not say what becomes of an offset that is still being slewed: the counter goes on slewing it
out in every state (DESIGN CHOICE, log entry 150). -/
def execSInLightChange (lit : Bool) (s : State) : Out :=
  s.ifOnly (lit != s.tb.light) fun s =>
    let m : TbMode := if lit then (if s.anyHerd then .adrift else .free) else .master
    let s := s.setTb { s.tb with light := lit, mode := m, beacon := none }
    let s := if lit && s.pins.bootSrcString && s.tahr.st = 1 then s.askImage else s
    if s.cfg.st = 2 then
      ({ s with tb := { s.tb with stringFault := true } }.evtPf 0 0x0010 0 []).edge 0 49
    else { s with tb := { s.tb with posValid := !lit && !s.tb.stringFault, position := if lit then s.tb.position else 0 } }
/-- STRING_BEACON_TIMEOUT (R278): light for 100 ms without a valid beacon. -/
def execStringBeaconTimeout (s : State) : Out :=
  s.ifOnly (s.tb.light && s.tb.beacon.isNone) fun s => { s with tb := { s.tb with stringFault := true, posValid := false } }

/-- A write of `TAHR_TB_NOW` by its RWL rule (Table 01.9 E5, R530). -/
def State.writeTbNow (s : State) (who : Who) (v : W64) : State :=
  if s.tb.mode == .master && !s.anyHerd then { s with tb := s.tb.step v }
  else if v = s.tb.now then s
  else s.lockedWrite who 0x0005_0000

end Sys2Proof.Machine
end

