-- ==== Sys2Proof/Machine/TahrCore.lean ====
section
/-!
DEFINITION. Tahr's keys and reports: the life-cycle state (R439), slots (Tables 14.4 to 14.6), the leaf-state record and
alias signatures (R425 to R429), the KEM key (R430), attestation reports (R432, R433) and Serow's erasure (R421).
-/
namespace Sys2Proof.Machine

/-! ## Life-cycle state (R438 to R440) -/

/-- Field `k` (1 to 4) of a fuse word. -/
def fuseField (w : W64) (k : Nat) : BitVec 16 := w.extractLsb' (16 * (k - 1)) 16
/-- The decoded state: 0 MAKER, 1 INTEGRATOR, 2 FIELDED, 3 RETURNED, 4 SCRAPPED, 5 INVALID (Table 15.2). -/
def lcDecode (w : W64) : Nat :=
  let wr := fun k => fuseField w k == 0x5A3C
  let bl := fun k => fuseField w k == 0
  if [1, 2, 3, 4].any fun k => !(wr k) && !(bl k) then 5
  else if wr 4 then 4
  else if wr 1 && wr 2 && wr 3 && bl 4 then 3
  else if wr 1 && wr 2 && bl 3 && bl 4 then 2
  else if wr 1 && bl 2 && bl 3 && bl 4 then 1
  else if bl 1 && bl 2 && bl 3 && bl 4 then 0
  else 5
/-- The present life-cycle state. -/
def State.lcState (s : State) : Nat := lcDecode s.lc.fuseState
/-- MIN_SVN: bits blown in SVN_FUSE (R410). -/
def State.minSvn (s : State) : Nat := ((List.range 64).filter fun i => s.lc.svnFuse.getLsbD i).length

/-! ## Slots -/

/-- The attribute word of a slot (Table 14.5). -/
def Slot.attr (x : Slot) : Nat :=
  b2n x.valid + b2n x.tenant * 2 + x.type.toNat * 4 + b2n x.derived * 2 ^ 6 + x.owner.toNat * 2 ^ 8
    + x.herd.toNat * 2 ^ 10 + x.party.toNat * 2 ^ 15 + x.index.toNat * 2 ^ 18 + b2n x.epoch * 2 ^ 24 + b2n x.held * 2 ^ 25
/-- Pool slots reserved without a secret (Table 14.6). -/
def State.heldSlots (s : State) : Nat := ((rangeFrom 32 224).filter fun n => (s.slot n).held).length
/-- Zeroize every TENANT slot (R421). -/
def State.zeroTenant (s : State) : State := { s with slots := ⟨s.slots.entries.filter fun e => !e.2.tenant⟩ }

/-! ## DeviceID and the leaf-state record -/

/-- The bytes that the CRC of a leaf-state record covers: the spec does not lay the record out (PRESUMED, log entry 136). -/
def LeafRec.bytes (r : LeafRec) : List Byte :=
  leBytes 4 r.devid ++ leBytes 4 r.aliasLeaf ++ leBytes 4 r.aliasIdx ++ leBytes 4 r.boot.toNat ++ leBytes 4 r.seq.toNat
/-- A copy is valid: its CRC holds (R428). -/
def LeafRec.ok (r : LeafRec) : Bool := r.crc == crc32c r.bytes
/-- A record with its CRC. -/
def LeafRec.sealed (r : LeafRec) : LeafRec := { r with crc := crc32c r.bytes }
/-- I[x] and SEED[x] of tree `x` of a DeviceID (R416), `x` least significant byte first (PRESUMED, log entry 135). -/
def devidTree (dk : List Byte) (x : Nat) : LmsTree :=
  { ident := (hkdfExpand dk (ascii "FV20-DEVID-I" ++ leBytes 4 x)).take 16
    seed := hkdfExpand dk (ascii "FV20-DEVID-SEED" ++ leBytes 4 x) }
/-- A tree as a slot holds it: seed, then identifier (R412, R426). -/
def LmsTree.secret (t : LmsTree) : List Byte := t.seed ++ t.ident
/-- The tree that a slot holds. -/
def Slot.tree (x : Slot) : LmsTree := { ident := (x.secret.drop 32).take 16, seed := x.secret.take 32 }
/-- dk of a life-cycle state (R416); a blown kill fuse makes the root zero (R440). -/
def State.deviceKey (s : State) (k : Fin 4) : List Byte :=
  hkdfExtract (ascii "FV20-DEVID") (if s.lc.kill.getLsbD k.val then List.replicate 32 0 else bytes256 (Config.root k))
/-- The key of the present state, with which DeviceID signs. -/
def State.devidKey (s : State) : List Byte := s.deviceKey ⟨s.lcState % 4, Nat.mod_lt _ (by decide)⟩
/-- DeviceID can be used: its slot is VALID, and the kill bit of the present root is not blown (R415). -/
def State.devidAble (s : State) : Bool := (s.slot 0).valid && !s.lc.kill.getLsbD (s.lcState % 4)
/-- Tree `x` of DeviceID: the top tree from slot 0, a bottom tree from dk. -/
def State.devidAt (s : State) (x : Nat) : LmsTree := if x = 0 then (s.slot 0).tree else devidTree s.devidKey x
/-- The newer valid copy of the leaf-state record of the present state (R428), with its place. -/
def State.leafRec (s : State) : Option (Nat × LeafRec) :=
  let a := s.tahr.recs.get {} (s.lcState * 2)
  let b := s.tahr.recs.get {} (s.lcState * 2 + 1)
  if a.ok && (!b.ok || b.seq.toNat ≤ a.seq.toNat) then some (0, a) else if b.ok then some (1, b) else none
/-- Write the next record into the copy with the older sequence number (R428). The write reads back as written: the spec gives
an MRAM write that fails no effect but at boot (R406; DEDUCED, log entry 23). -/
def State.putLeaf (s : State) (f : LeafRec → LeafRec) : State :=
  match s.leafRec with
  | some (c, r) =>
    let r' := (f { r with seq := r.seq + 1 }).sealed
    { s with tahr := { s.tahr with recs := s.tahr.recs.set {} (s.lcState * 2 + (1 - c)) r' } }
  | none => s
/-- DeviceID leaves used. -/
def State.devidLeaf (s : State) : Nat := (s.leafRec.map (·.2.devid)).getD 1048576
/-- Sign with DeviceID: a fresh leaf, recorded before the signature is released (R428). -/
def State.devidSign (s : State) (m : List Byte) : State × Option (List Byte) :=
  match s.leafRec with
  | some (_, r) =>
    if r.devid < 1048576 && s.devidAble then
      (s.putLeaf (fun r => { r with devid := r.devid + 1 }), some (hssSign s.devidAt Config.otsC r.devid m))
    else (s, none)
  | none => (s, none)

/-! ## Alias keys (R426, R427) -/

/-- The current alias slot: 9 or 10. -/
def State.aliasSlot (s : State) : Nat := if s.tahr.aliasSlot10 then 10 else 9
/-- Signatures the current alias has released. -/
def State.aliasLeaf (s : State) : Nat := (s.leafRec.map (·.2.aliasLeaf)).getD 1024
/-- An alias leaf is free now. -/
def State.canSign (s : State) : Bool := s.tahr.aliasOk && (s.slot s.aliasSlot).valid && s.aliasLeaf < 1024
/-- No alias leaf is free, and none will be (R422, R429). -/
def State.signGone (s : State) : Bool :=
  !s.canSign && (!(s.tahr.aliasOk && (s.slot s.aliasSlot).valid) || s.leafRec.isNone ||
    (!s.tahr.altReady && s.devidLeaf ≥ 1048576))
/-- The 136-byte alias certificate body (Table 14.11). -/
def State.aliasBody (s : State) (pub : List Byte) (idx : Nat) : List Byte :=
  sliceBytes pub 0 56 ++ leBytes 8 Config.serial.toNat ++ leBytes 4 s.tahr.bootCount.toNat ++ leBytes 4 idx
    ++ bytes256 Config.romDigest ++ sliceBytes s.tahr.mFw 0 32
/-- Draw an alias seed and identifier into a slot and certify it with DeviceID: the certificate, if a leaf was left. -/
def State.makeAlias (s : State) (slot10 : Bool) (idx : Nat) : State × Option (List Byte) :=
  let (s, k1) := s.draw
  let (s, k2) := s.draw
  let t : LmsTree := { seed := bytes256 k1, ident := (bytes256 k2).take 16 }
  let body := s.aliasBody (lmsPublic t) idx
  let (s, sig) := s.devidSign body
  match sig with
  | some g =>
    (s.setSlot (if slot10 then 10 else 9) { valid := true, tenant := true, type := 2, secret := t.secret },
      some (body ++ sliceBytes g 0 5076))
  | none => (s, none)
/-- After the current alias's 1,024th signature the next alias becomes current (R427). -/
def State.rollAlias (s : State) : State :=
  if s.aliasLeaf ≥ 1024 && s.tahr.altReady then
    let old := s.aliasSlot
    let s := s.setSlot old {}
    let t := s.tahr
    let s := { s with tahr := { t with aliasSlot10 := !t.aliasSlot10, altReady := false, aliasCert := t.altCert, altCert := [] } }
    s.putLeaf fun r => { r with aliasLeaf := 0, aliasIdx := r.aliasIdx + 1, boot := s.tahr.bootCount }
  else s
/-- Sign with the alias: a fresh leaf, recorded before the signature is released (R428). -/
def State.aliasSign (s : State) (m : List Byte) : State × List Byte :=
  let leaf := s.aliasLeaf
  let t := (s.slot s.aliasSlot).tree
  let sig := lmsSign t leaf (sliceBytes (Config.otsC t.ident leaf) 0 32) m
  ((s.putLeaf fun r => { r with aliasLeaf := r.aliasLeaf + 1 }).rollAlias, sig)

/-! ## Attestation reports (Table 14.11) -/

/-- A digest as the measurement registers hold it: 32 bytes, zeros when none is taken. -/
def digest (m : List Byte) : List Byte := sliceBytes m 0 32
/-- The number of parties, policy and k − 1 of a herd as `HUB_HERD_STATUS_h` shows them. -/
def Herd.parties (x : Herd) : Nat := (x.form.map (·.n)).getD 0
def Herd.policy (x : Herd) : Bool := (x.form.map (·.quorum)).getD false
def Herd.kM1 (x : Herd) : Nat := (x.form.map (·.kM1.toNat)).getD 0
/-- STATE of the herd's Sentence (Table 07.14). -/
def Herd.seqCode (x : Herd) : Nat :=
  match x.seq with
  | .empty => 0
  | .loading => 1
  | .ready => 2
  | .running => 3
  | .stopping => 4
/-- The Sentence that the registers show: none while EMPTY or LOADING. -/
def Herd.shownSentence (x : Herd) : Option Sentence := if 2 ≤ x.seqCode then x.sentence else none
/-- STATE of a herd (Table 12.12). -/
def Herd.stCode (x : Herd) : Nat := match x.st with | .absent => 0 | .live => 1 | .revoking => 2
/-- The ML-KEM encapsulation key of this boot (R430); zeros once the key is gone. -/
def State.kemEk (s : State) : List Byte :=
  if (s.slot 11).valid then kemPublic (s.slot 11).secret else List.replicate 1568 0
/-- The slots a report lists (R432). -/
def State.reportSlots (s : State) (h : Option HerdId) : List Nat :=
  (List.range 256).filter fun n =>
    let x := s.slot n
    (x.valid || x.held) && (match h with
      | none => x.owner != 2
      | some h => x.owner == 2 && x.herd.toNat == h.val)
/-- LENGTH of a report with `n` key entries (Table 14.11). -/
def reportLength (n : Nat) : Nat := 14740 + 8 * n
/-- Bytes 0 to C + 10,367 of a report: everything that SIGNATURE covers. -/
def State.reportBody (s : State) (h : Option HerdId) (nonce : List Byte) : List Byte :=
  let slots := s.reportSlots h
  let n := slots.length
  let herdPart := match h with
    | none => List.replicate 0x80 0
    | some h =>
      let x := s.herd h
      leBytes 4 (h.val + b2n x.secure * 32 + x.parties * 64 + b2n x.policy * 1024 + x.kM1 * 2 ^ 11 + x.stCode * 2 ^ 14)
        ++ leBytes 4 x.span.toNat ++ leBytes 8 x.groups.toNat ++ leBytes 8 ((x.form.map (·.seq.toNat)).getD 0)
        ++ List.replicate 8 0
        ++ bytes256 ((x.form.map (·.fnonce)).getD 0) ++ digest ((x.form.map (·.meas)).getD [])
        ++ digest ((x.shownSentence.map (·.meas)).getD [])
  leBytes 4 0x46564154 ++ leBytes 4 (0x0001 + (if h.isSome then 2 else 1) * 2 ^ 16) ++ leBytes 4 (reportLength n)
    ++ leBytes 4 s.tahr.bootCount.toNat ++ leBytes 8 Config.serial.toNat
    ++ leBytes 4 (s.lcState + s.tahr.svn.toNat * 2 ^ 8 + s.cubeAddr.toNat * 2 ^ 16 + b2n s.addrValid * 2 ^ 31)
    ++ leBytes 4 (s.serow.tamperCount.toNat + b2n s.tahr.rootNew * 2 ^ 16 + b2n (s.lc.rights != 0) * 2 ^ 17)
    ++ sliceBytes nonce 0 32 ++ bytes256 Config.romDigest ++ digest s.tahr.mFw ++ digest s.tahr.mCfg ++ s.kemEk
    ++ herdPart ++ leBytes 8 n
    ++ slots.flatMap (fun k => leBytes 4 k ++ leBytes 4 (s.slot k).attr)
    ++ sliceBytes s.tahr.devidCerts (5156 * s.lcState) 5156 ++ sliceBytes s.tahr.aliasCert 0 5212
/-- A signed report; an alias leaf must be free. -/
def State.report (s : State) (h : Option HerdId) (nonce : List Byte) : State × List Byte :=
  let body := s.reportBody h nonce
  let (s, sig) := s.aliasSign body
  (s, body ++ sig)

/-- Whether a device report verifies (R433, steps 1 to 4). -/
def reportOk (r : List Byte) : Bool :=
  let n := fieldLe r 0x740 2
  let c := 0x748 + 8 * n
  let dcert := sliceBytes r c 80
  let acert := sliceBytes r (c + 5156) 136
  fieldLe r 0 4 = 0x46564154 && fieldLe r 4 2 = 1 && (fieldLe r 6 1 = 1 || fieldLe r 6 1 = 2)
    && fieldLe r 8 4 = reportLength n && r.length = reportLength n
    && hssVerify (Config.romKey 1) dcert (sliceBytes r (c + 80) 5076)
    && sliceBytes dcert 0 8 == sliceBytes r 0x10 8 && fieldLe dcert 8 4 = fieldLe r 0x18 1 % 8
    && hssVerify (sliceBytes dcert 16 60) acert (sliceBytes r (c + 5292) 5076)
    && sliceBytes acert 56 8 == sliceBytes r 0x10 8 && sliceBytes acert 64 4 == sliceBytes r 0xC 4
    && sliceBytes acert 72 64 == sliceBytes r 0x40 64
    && lmsVerify (sliceBytes acert 0 56) (r.take (c + 10368)) (sliceBytes r (c + 10368) 2508)

end Sys2Proof.Machine
end

