-- ==== Sys2Proof/Machine/Copies.lean ====
section
/-!
DEFINITION. The copy engine (R72 to R77, R198, R199): the checks of a copy, the export policy (R360, R361), and the
movement of its data.
-/
namespace Sys2Proof.Machine

/-- The order names a herd. Orders of a VF always name their own (Table 11.10). Of the PF's and Tahr's, a `FENCE` names
none, and an `ATTEST` only with HERD_REPORT. -/
def namesHerd (o : Order) : Bool :=
  match o.src, o.op with
  | .ring (.vf _), _ => true
  | _, .fence => false
  | _, .attest _ _ hr _ => hr
  | _, _ => true
/-- The reference under which an order completes. -/
def refOf (o : Order) : OrderRef :=
  { src := o.src, tag := o.tag, gen := o.gen, seq := o.seq, herd := if namesHerd o then some o.herd else none }

/-- The places that a device range touches, 4 KiB page by page. -/
def State.placesOf (s : State) (a n : Nat) : List Place :=
  (List.range (cdiv (a % 4096 + n) 4096)).map fun k => s.place (if k = 0 then a else a / 4096 * 4096 + 4096 * k)
/-- The party tags of the windows a range touches (Table 12.2). -/
def State.tagsOf (s : State) (a n : Nat) : List (BitVec 4) :=
  (s.placesOf a n).filterMap fun p => match p with | .win w _ => some (s.win w).tag | _ => none
/-- A range touches a PARTY or COALITION window. -/
def State.partyData (s : State) (a n : Nat) : Bool := (s.tagsOf a n).any fun t => t.toNat ≤ 8
/-- A range lies in the health lot or in the ledger range (R360). -/
def State.exportable (s : State) (h : HerdId) (a n : Nat) : Bool :=
  let x := s.herd h
  let l := lotAddr x.healthLot.toNat 0
  let b := x.ledgerBase.toNat
  (x.healthValid && l ≤ a && a + n ≤ l + lotBytes) || (b ≤ a && a + n ≤ b + 16 * x.ledgerCap.toNat)
/-- The export policy refuses a copy between a device range and host memory (R360). -/
def State.exportDenied (s : State) (h : HerdId) (a n : Nat) (toHost : Bool) : Bool :=
  let x := s.herd h
  x.secure && !(toHost && s.exportable h a n) &&
    (s.partyData a n || (2 ≤ x.parties &&
      (s.placesOf a n).any fun p => match p with | .lot _ _ => true | .scratch _ _ => true | _ => false))
/-- The export policy refuses a copy between two device ranges (R361). -/
def State.moveDenied (s : State) (h : HerdId) (sa sn da dn : Nat) : Bool :=
  let src := (s.tagsOf sa sn).filter fun t => t.toNat ≤ 8
  (s.herd h).secure && !src.isEmpty &&
    !((s.placesOf da dn).all fun p => match p with | .win w _ => src.all fun t => (s.win w).tag == t | _ => false)
/-! ## Noun copies (R198, R199) -/

/-- The piece a Noun copy names: ENTRY in [5:0], BLOCK in [14:6]. -/
def State.copyPiece (s : State) (h : HerdId) (a : W64) : Option Piece :=
  ((s.blockAt h (bits a.toNat 6 9)).bind fun b => s.nounAt b (BitVec.ofNat 6 a.toNat)).map s.piece
/-- Device ranges of a piece's footprints. -/
def Piece.devRanges (p : Piece) : List (Nat × Nat) := p.foots.map fun f => (p.base + f.1, f.2 - f.1)
/-- Two Nouns may be copied into one another (R198, R199). -/
def copyable (p q : Piece) : Bool :=
  let a := p.noun
  let b := q.noun
  a.elem == b.elem && a.rank == b.rank
    && a.dims.map NounDim.validSize == b.dims.map NounDim.validSize
    && a.scaled == b.scaled
    && (!a.scaled || (a.sdim == b.sdim && (a.dims.getD a.sdim.toNat {}).lead.toNat % 32 = 0
          && (b.dims.getD b.sdim.toNat {}).lead.toNat % 32 = 0))
    && (!(a.isGlobal && b.isGlobal) || (a.dims.map fun d => (d.rule, d.k)) == b.dims.map fun d => (d.rule, d.k))
/-- The source coordinate of a destination coordinate: the one at the same position relative to the valid extent (R198), when it
lies in this unit's piece of the source (R199). -/
def copySource (p q : Piece) (c : List Nat) : Option (List Nat) :=
  p.ofGlob (((q.glob c).zip (p.noun.dims.zip q.noun.dims)).map fun e => e.1 - e.2.2.lead.toNat + e.2.1.lead.toNat)
/-- Copy the element at a destination coordinate, and the scale block that starts there. An element whose source lies on another
unit stays as it is (DESIGN CHOICE, log entry 103). -/
def State.copyElem (s : State) (p q : Piece) (dc : List Nat) : State × Status :=
  match copySource p q dc with
  | none => (s, stOK)
  | some sc =>
    let (s, st, x) := s.ldElem p sc
    if st != stOK then (s, st)
    else
      let (s, st) := s.stElem false q dc x
      if st != stOK then (s, st)
      else if p.noun.scaled && (dc.getD q.noun.sdim.toNat 0 % 32 = 0 || dc.getD q.noun.sdim.toNat 0 == (q.ranges.getD q.noun.sdim.toNat (0, 0)).1) then
        let (s, st, c) := s.ldScale p (p.scaleBlock sc)
        if st != stOK then (s, st) else s.stScale false q (q.scaleBlock dc) c
      else (s, stOK)
/-- Copy the elements of the destination's valid extent in row-major order; `f` counts down. -/
def State.copyElems (p q : Piece) (shape : List Nat) : Nat → Nat → State → State × Status
  | 0, _, s => (s, stOK)
  | f + 1, i, s =>
    let (s, st) := s.copyElem p q (((unRowMajor shape i).zip q.ranges).map fun e => e.1 + e.2.1)
    if st != stOK then (s, st) else State.copyElems p q shape f (i + 1) s

/-! ## Issue (R73) -/

/-- The status that refuses a copy when it is issued, if any. -/
def State.copyCheck (s : State) (h : HerdId) (op : OrderOp) : Option Status :=
  match op with
  | .copy sa da n sh dh noun =>
    if noun then
      if sh || dh || 2 ^ 15 ≤ sa.toNat || 2 ^ 15 ≤ da.toNat then some stCfgInvalid
      else match s.copyPiece h sa, s.copyPiece h da with
      | some p, some q =>
        if !copyable p q then some stCfgInvalid
        else if !(s.allocHeld h p.noun && s.allocHeld h q.noun) then some stNounBounds
        else if overlaps p q then some stCfgInvalid
        else if p.devRanges.any fun a => q.devRanges.any fun b => s.moveDenied h a.1 a.2 b.1 b.2 then some stNotPermitted
        else none
      | _, _ => some stCfgInvalid
    else if (sh && dh) || n = 0 || n.toNat % 64 != 0 || sa.toNat % 64 != 0 || da.toNat % 64 != 0 then some stCfgInvalid
    else
      let a := sa.toNat
      let b := da.toNat
      let k := n.toNat
      if !(sh || s.held h a k) || !(dh || s.held h b k) then some stNounBounds
      else if !sh && !dh && rangesMeet a k b k then some stCfgInvalid
      else if (sh && s.exportDenied h b k false) || (dh && s.exportDenied h a k true)
          || (!sh && !dh && s.moveDenied h a k b k) then some stNotPermitted
      else if (sh || dh) && s.protected_ h && (s.ideAt (ideOf h)).st != .secure then some stKeyRetired
      else none
  | _ => some stCfgInvalid
/-- The device ranges of a copy's source and destination: nothing for a host end. -/
def State.copyRanges (s : State) (h : HerdId) (op : OrderOp) : List (Nat × Nat) × List (Nat × Nat) :=
  match op with
  | .copy sa da n sh dh noun =>
    if noun then (((s.copyPiece h sa).map Piece.devRanges).getD [], ((s.copyPiece h da).map Piece.devRanges).getD [])
    else (if sh then [] else [(sa.toNat, n.toNat)], if dh then [] else [(da.toNat, n.toNat)])
  | _ => ([], [])
/-- Issue a copy: it joins its herd's copies, already decided when a check refuses it; a refused copy with none before it
completes at once (R74). -/
def State.copyIssue (s : State) (ref : OrderRef) (h : HerdId) (op : OrderOp) : State :=
  let st := s.copyCheck h op
  match st, s.copies.any fun j => j.herd == h with
  | some c, false => s.done ref c
  | _, _ =>
    let r := s.copyRanges h op
    { s with copies := s.copies ++ [{ ref := ref, herd := h, op := op, status := st, quiet := st.isSome, src := r.1, dst := r.2 }] }

/-! ## Movement and completion -/

/-- A copy has a host end. -/
def CopyJob.hostEnd (j : CopyJob) : Bool := match j.op with | .copy _ _ _ sh dh _ => sh || dh | _ => false
/-- A copy reads host memory. -/
def CopyJob.hostSource (j : CopyJob) : Bool := match j.op with | .copy _ _ _ sh _ _ => sh | _ => false
/-- A host range becomes undefined (R77). -/
def State.hostSpoil (s : State) (a n : Nat) : State :=
  let (s, d) := s.freeBytes n
  s.hostWrite a d
/-- The whole destination of a copy becomes undefined (R77); of a Noun copy, its whole footprint with padding and halo
(DEDUCED, log entry 126). -/
def State.copySpoil (s : State) (j : CopyJob) : State :=
  match j.op with
  | .copy _ da n _ dh noun =>
    if noun then
      match s.copyPiece j.herd da with
      | some q => q.devRanges.foldl (fun s r => s.spoil j.herd r.1 r.2) s
      | none => s
    else if dh then s.hostSpoil da.toNat n.toNat
    else s.spoil j.herd da.toNat n.toNat
  | _ => s
/-- The bytes that a copy reads from device address `a`: of each transfer unit that the run has written meanwhile, the
whole old or the whole new value (R62, R75), a FREE VALUE for each. -/
def State.copySeen (s : State) (j : CopyJob) (a : Nat) (d : List Byte) : State × List Byte :=
  j.old.foldl (fun q u =>
    let (s, f) := q.1.freeBytes 1
    if (f.headD 0).getLsbD 0 then
      (s, q.2.zipIdx.map fun e => if devUnit (a + e.2) == u.1 then u.2.getD ((a + e.2) % 256) e.1 else e.1)
    else (s, q.2)) (s, d)
/-- The bytes that stay at destination address `a` after a copy writes `d` over `now`: where the run has written meanwhile,
one of the two values in each byte (R62, R75), a FREE VALUE for each. -/
def State.copyKept (s : State) (j : CopyJob) (a : Nat) (now d : List Byte) : State × List Byte :=
  let (s, f) := s.freeBytes d.length
  (s, d.zipIdx.map fun e =>
    if (f.getD e.2 0).getLsbD 0 && j.met.any fun r => meets (devAddr (a + e.2), devAddr (a + e.2) + 1) (devAddr r.1, devAddr r.1 + r.2) then
      now.getD e.2 e.1 else e.1)
/-- Write `d` over a device range of the copy's destination. -/
def State.copyPut (s : State) (j : CopyJob) (a : Nat) (d : List Byte) : State × Status :=
  if j.met.isEmpty then s.wr j.herd a d
  else
    let (s, st, now) := s.rd j.herd a d.length
    if st != stOK then (s, st)
    else
      let (s, d) := s.copyKept j a now d
      s.wr j.herd a d
/-- Give the footprints of a Noun copy's destination, as `now` holds them, back the bytes that the run has written (R62). -/
def State.copyBack (s : State) (j : CopyJob) (now : List (Nat × List Byte)) : State × Status :=
  now.foldl (fun q e =>
    if q.2 != stOK then q
    else
      let (s, st, d) := q.1.rd j.herd e.1 e.2.length
      if st != stOK then (s, st)
      else
        let (s, d) := s.copyKept j e.1 e.2 d
        s.wr j.herd e.1 d) (s, stOK)
/-- The memory as a Noun copy reads it: each transfer unit of its source that the run has written meanwhile is whole old or
whole new (R62, R75), a FREE VALUE for each. -/
def State.copyView (s : State) (j : CopyJob) : State :=
  j.old.foldl (fun s u =>
    let (s, f) := s.freeBytes 1
    if (f.headD 0).getLsbD 0 then (s.wr j.herd u.1 u.2).1 else s) s
/-- Move the elements of a Noun copy. Those of source units that the run has written meanwhile are taken from the view that the
copy has of them. -/
def State.copyNoun (s : State) (j : CopyJob) (p q : Piece) : State × Status :=
  let shape := q.ranges.map fun r => r.2 - r.1
  let now := if j.met.isEmpty then [] else q.devRanges.map fun r => (r.1, (s.rd j.herd r.1 r.2).2.2)
  let (t, st) := State.copyElems p q shape (prodOf shape) 0 s
  if st != stOK then (t, st)
  else
    let v := (State.copyElems p q shape (prodOf shape) 0 (s.copyView j)).1
    let t := if j.old.isEmpty then t else q.devRanges.foldl (fun t r => (t.wr j.herd r.1 (v.rd j.herd r.1 r.2).2.2).1)
      { t with freeCtr := v.freeCtr }
    t.copyBack j now
/-- Move the data of a copy. -/
def State.copyMove (s : State) (j : CopyJob) : State × Status :=
  match j.op with
  | .copy sa da n sh dh noun =>
    if noun then
      match s.copyPiece j.herd sa, s.copyPiece j.herd da with
      | some p, some q => s.copyNoun j p q
      | _, _ => (s, stCfgInvalid)
    else
      let (s, st, d) := if sh then (s, stOK, s.hostRead sa.toNat n.toNat) else s.rd j.herd sa.toNat n.toNat
      if st != stOK then (s, st)
      else
        let (s, d) := s.copySeen j sa.toNat d
        if dh then (s.hostWrite da.toNat d, stOK) else s.copyPut j da.toNat d
  | _ => (s, stCfgInvalid)
/-- The bytes of a device range that lie in windows, in whole lines. -/
def State.winBytes (s : State) (a n : Nat) : Nat :=
  ((physRanges a n).map fun r => match s.place r.1 with | .win _ _ => 64 * (cdiv r.2 64 - r.1 / 64) | _ => 0).sum
/-- A copy is metered at its BYTES, for each end that lies in windows (R347). -/
def State.copyMeter (s : State) (j : CopyJob) : State :=
  let n := ((j.src ++ j.dst).map fun r => s.winBytes r.1 r.2).sum
  s.meter j.herd fun m => { m with hbmBytes := satAdd m.hbmBytes n }
/-- A copy that had started ends: it is metered, and its destination becomes undefined unless it ends `OK`. -/
def State.copyOver (s : State) (j : CopyJob) (st : Status) : State :=
  if j.quiet then s else (if st != stOK then s.copySpoil j else s).copyMeter j
/-- A copy ends with a status. -/
def State.copyEnd (s : State) (j : CopyJob) (st : Status) : State :=
  { s.copyOver j st with copies := s.copies.erase j }.done j.ref st
/-- The copies of a herd whose end is decided complete, as far as none before them is in progress (R74); `f` bounds them. -/
def State.copyDrain : Nat → State → HerdId → State
  | 0, s, _ => s
  | f + 1, s, h =>
    match s.copies.find? fun j => j.herd == h with
    | some j => match j.status with | some st => State.copyDrain f (s.copyEnd j st) h | none => s
    | none => s
/-- The oldest copy of a herd moves its data and completes, and with it the copies behind it that are decided (R74). -/
def State.copyFinish (s : State) (j : CopyJob) : State :=
  match j.status with
  | some _ => State.copyDrain s.copies.length s j.herd
  | none =>
    let (t, st) := s.copyMove j
    let s := { t with meterDue := s.meterDue }.copyEnd j st
    State.copyDrain s.copies.length s j.herd
/-- An event decides copies in progress: each ends with `st`, in its herd's order (R74, R76). -/
def State.copyStop (s : State) (st : Status) (p : CopyJob → Bool) : State :=
  let hs := (((s.copies.filter fun j => j.status.isNone && p j).map (·.herd)).eraseDups)
  let s := { s with copies := s.copies.map fun j => if j.status.isNone && p j then { j with status := some st } else j }
  hs.foldl (fun s h => State.copyDrain s.copies.length s h) s

end Sys2Proof.Machine
end

