-- ==== Sys2Proof/Machine/FabricCore.lean ====
section
/-!
DEFINITION. The fabric engine's shared operations (chapters 09 and 13): lane profiles, lane states, hop keys, herd
subkeys, frames in and out.
-/
namespace Sys2Proof.Machine

/-! ## Lane profiles (R275, R276) -/

/-- The dimension and the spare index of a lane under a profile (Table 09.3). -/
def laneMap (profile : BitVec 2) (d : Nat) (n : Nat) : Option Nat × Option Nat :=
  match profile.toNat with
  | 0 => if n < 40 then (some (n / 8), none) else if n < 60 then (some (5 + (n - 40) / 2), none) else (none, some (n - 60))
  | 1 => if n < 32 then (some (n / 16), none) else if n < 44 then (some (2 + (n - 32) / 4), none)
         else (some (5 + (n - 44) / 2), none)
  | 2 => if n < 60 then (some (n / 4), none) else (none, some (n - 60))
  | _ =>
    if d = 0 then (none, none)
    else
      let p := 60 / d
      if n < d * p then (some (n / p), none) else (none, some (n - d * p))
/-- SPAREk of `FAB_SPARE_DIM`. -/
def State.spareOf (s : State) (k : Nat) : Nat := bits s.spareDim.toNat (4 * k) 4
/-- A dimension's lanes are enabled (R276). -/
def State.dimOn (s : State) (d : Nat) : Bool := if s.profile = 3 then d < s.smallD.toNat else s.dimEn.getLsbD d
/-- A lane's dimension (15: none), whether it is a spare, and whether it is enabled (R276). -/
def State.laneInfo (s : State) (n : LaneId) : Nat × Bool × Bool :=
  match laneMap s.profile s.smallD.toNat n.val with
  | (some d, _) => (d, false, s.dimOn d)
  | (none, some k) => if k < 8 && s.spareOf k < 15 then (s.spareOf k, true, true) else (15, true, false)
  | (none, none) => (15, false, false)
/-- The lanes of a dimension. -/
def State.lanesOf (s : State) (d : Nat) : List LaneId := allLanes.filter fun n => (s.laneAt n).dim.toNat == d
/-- A lane holds the boundaries of the frames it receives (R270). -/
def Lane.synced (x : Lane) : Bool := !x.hunting
/-- The ACTIVE lanes of a dimension. -/
def State.activeLanes (s : State) (d : Nat) : List LaneId := (s.lanesOf d).filter fun n => (s.laneAt n).st == .active
/-- A dimension is UP (R285). -/
def State.dimUp (s : State) (d : Nat) : Bool := !(s.activeLanes d).isEmpty
/-- The dimension of a lane as an index. -/
def Lane.dimId (x : Lane) : Option DimId := if h : x.dim.toNat < 15 then some ⟨x.dim.toNat, h⟩ else none
/-- The lane receives frames: it has codeword lock. -/
def Lane.locked (x : Lane) : Bool :=
  x.st == .probe || x.st == .ready || x.st == .active || x.st == .standby || x.st == .mismatch

/-! ## Herd subkeys (R399 to R402) -/

/-- LINKID of a herd, as its 8 bytes (R399). -/
def State.linkId (s : State) (h : HerdId) : List Byte :=
  match (s.herd h).form with
  | some f => (hkdfExpand (s.slot f.kcSlot).secret (ascii "FV20-LINK-ID")).take 8
  | none => leBytes 8 (s.linkIds.get 0 h.val).toNat
/-- LK of a herd (R399). -/
def State.linkKey (s : State) (h : HerdId) : List Byte :=
  match (s.herd h).form with
  | some f => hkdfExpand (s.slot f.kcSlot).secret (ascii "FV20-LINK")
  | none => List.replicate 32 0
/-- dir of frames this unit sends on a dimension: its cube-address bit (R401). -/
def State.dirOut (s : State) (d : DimId) : Nat := b2n (s.cubeAddr.getLsbD d.val)
/-- SK of a herd on a dimension, direction and generation (R401). -/
def State.subKey (s : State) (hk : W256) (h : HerdId) (dir g : Nat) : List Byte :=
  hkdfExpand (hkdfExtract (s.linkKey h) (bytes256 hk))
    (ascii "FV20-GER" ++ s.linkId h ++ leBytes 1 dir ++ leBytes 2 g)
/-- CK of a direction and generation (R397). -/
def ctlKey (hk : W256) (dir g : Nat) : List Byte :=
  hkdfExpand (bytes256 hk) (ascii "FV20-GER-CTL" ++ leBytes 1 dir ++ leBytes 2 g)
/-- The GCM IV of a frame (R402, Table 13.9). -/
def frameIv (d dir herd kind ctr : Nat) : List Byte :=
  beBytes 4 (d * 2 ^ 28 + dir * 2 ^ 27 + herd * 2 ^ 22 + kind * 2 ^ 20) ++ beBytes 8 ctr
/-- Bytes 0x000 to 0x007 of a frame (Table 09.2). -/
def frameHead (f : Frame) : List Byte :=
  leBytes 4 (f.type.toNat + f.herd.toNat * 16 + b2n f.last * 2 ^ 9 + f.item.toNat * 2 ^ 12) ++ leBytes 4 f.offset.toNat
/-- Bytes 0x220 to 0x223 of a frame. -/
def ackWord (f : Frame) : List Byte := leBytes 4 (f.ack.toNat + b2n f.ackV * 2 ^ 26 + f.ackHerd.toNat * 2 ^ 27)
/-- The 552 bytes of a frame (Table 09.2), its CRC-32C last. -/
def frameBytes (f : Frame) : List Byte :=
  let b := frameHead f ++ leBytes 8 f.counter.toNat ++ sliceBytes f.payload 0 512 ++ sliceBytes f.tag 0 16 ++ ackWord f
  b ++ leBytes 4 (crc32c b).toNat
/-- The payload of a PROBE frame (Table 09.5). -/
def probeBytes (p : Probe) : List Byte :=
  leBytes 4 (p.addr.toNat + p.lane.toNat * 2 ^ 15 + p.dim.toNat * 2 ^ 21 + p.profile.toNat * 2 ^ 25 + p.smallD.toNat * 2 ^ 27
    + b2n p.echoV * 2 ^ 31)
    ++ leBytes 4 (p.echoAddr.toNat + p.echoLane.toNat * 2 ^ 15) ++ List.replicate 504 0
/-- A frame of a type that no stream carries: its TAG is zero (R269). -/
def bareFrame (type : BitVec 4) (payload : List Byte) : Frame :=
  { type := type, herd := 0, last := false, item := 0, offset := 0, counter := 0, payload := payload
    tag := List.replicate 16 0, ack := 0, ackV := false, ackHerd := 0 }
/-- The frame that goes out. -/
def Tx.sent : Tx → Frame
  | .idle => bareFrame 0 (List.replicate 512 0)
  | .probe p => bareFrame 5 (probeBytes p)
  | .frame f => f
/-- The IV kind of a frame type: 0 for DATA, REDUCE and BEAT, 1 CONTROL, 2 KEYX (Table 13.9). -/
def ivKind (ty : BitVec 4) : Nat := if ty = 4 then 1 else if ty = 6 then 2 else 0

/-! ## Sending -/

/-- Queue a message on a dimension. -/
def State.sendOn (s : State) (d : DimId) (f : OutFrame) : State := s.modDim d fun x => { x with queue := x.queue ++ [f] }
/-- A 512-byte payload. -/
def pay512 (l : List Byte) : List Byte := sliceBytes l 0 512
/-- The frames of a KEYX message: one when it fits 512 bytes, else fragments of 510 bytes, each after its 16-bit number
(R397). -/
def keyxFrames (msg : List Byte) (clear : Bool) : List OutFrame :=
  let mk := fun (last : Bool) (p : List Byte) =>
    ({ type := 6, clear := clear, herd := 0, last := last, item := 0, offset := 0, payload := pay512 p } : OutFrame)
  if msg.length ≤ 512 then [mk true msg]
  else
    let k := cdiv msg.length 510
    (List.range k).map fun i => mk (i + 1 == k) (leBytes 2 i ++ (msg.drop (510 * i)).take 510)
/-- Send a KEYX message on a dimension. -/
def State.sendKeyx (s : State) (d : DimId) (msg : List Byte) (clear : Bool) : State :=
  (keyxFrames msg clear).foldl (fun s f => s.sendOn d f) s
/-- Send a sealed CONTROL message. -/
def State.sendControl (s : State) (d : DimId) (msg : List Byte) : State :=
  s.sendOn d { type := 4, herd := 0, last := true, item := 0, offset := 0, payload := pay512 msg }

/-- Seal a queued message into a frame: a herd's frame takes the next counter of its stream (R269, R271); CONTROL and
KEYX frames take the dimension's control counter (R397). None while the key it needs is missing. -/
def State.seal (s : State) (d : DimId) (o : OutFrame) : State × Option Frame :=
  let x := s.dimAt d
  let dir := s.dirOut d
  let mk := fun (herd : Nat) (ctr : Nat) (key : Option (List Byte)) =>
    let f : Frame := { type := o.type, herd := BitVec.ofNat 5 herd, last := o.last, item := o.item, offset := o.offset,
                       counter := BitVec.ofNat 64 ctr, payload := o.payload, tag := List.replicate 16 0,
                       ack := 0, ackV := false, ackHerd := 0 }
    match key with
    | none => f
    | some k =>
      let (ct, tg) := gcmSeal k (frameIv d.val dir herd (ivKind o.type) ctr) (frameHead f) o.payload
      { f with payload := ct, tag := tg }
  if o.type = 4 || o.type = 6 then
    let c := x.ctlSent.toNat + 1
    if o.clear then ({ s with dims := s.dims.set {} d.val { x with ctlSent := BitVec.ofNat 64 c } }, some (mk 0 c none))
    else match x.hk with
      | none => (s, none)
      | some hk => (s.setDim d { x with ctlSent := BitVec.ofNat 64 c }, some (mk 0 c (some (ctlKey hk dir (c / 2 ^ 48)))))
  else
    match x.hk with
    | none => (s, none)
    | some hk =>
      let st := s.stream d o.herd
      let c := st.sendCtr.toNat
      (s.setStream d o.herd { st with sendCtr := st.sendCtr + 1 },
        some (mk o.herd.val c (some (s.subKey hk o.herd dir (c / 2 ^ 48)))))

/-- Put the ACK word of a stream whose E changed into a frame going back (R272). -/
def State.addAck (s : State) (d : DimId) (f : Frame) : State × Frame :=
  let x := s.dimAt d
  match x.ackDue with
  | p :: r =>
    let e := (s.streams.get {} (d.val * 32 + p.toNat)).e
    (s.setDim d { x with ackDue := r }, { f with ack := e.setWidth 26, ackV := true, ackHerd := p })
  | [] => (s, { f with ack := 0, ackV := false, ackHerd := 0 })
/-- A lane sends a PROBE. -/
def Tx.isProbe : Tx → Bool
  | .probe _ => true
  | _ => false
/-- A frame goes out on the lane, through its line code. -/
def Lane.put (x : Lane) (t : Tx) : Lane :=
  let b := frameBytes t.sent
  { x with out := some b, sentCount := x.sentCount + 1, line := x.line.push b }
/-- The probe a lane sends (Table 09.5). -/
def State.probeOf (s : State) (n : LaneId) : Probe :=
  let x := s.laneAt n
  { addr := s.cubeAddr, lane := BitVec.ofNat 6 n.val, dim := x.dim, profile := s.profile, smallD := s.smallD
    echoV := x.last.isSome, echoAddr := (x.last.map (·.1)).getD 0, echoLane := (x.last.map (·.2)).getD 0 }
/-- Put a frame on a lane. Where the lane's next frame is the 1,024th, a PROBE goes out before any other (R274). -/
def State.putOut (s : State) (n : LaneId) (t : Tx) : State :=
  let x := s.laneAt n
  if x.sentCount % 1024 = 1023 && !t.isProbe then s.setLane n ((x.put (.probe (s.probeOf n))).put t) else s.setLane n (x.put t)
/-- The next ACTIVE lane of a dimension after a lane, in rotation. -/
def State.nextActive (s : State) (d : Nat) (n : LaneId) : Option LaneId :=
  let l := s.activeLanes d
  match l.find? fun m => n.val < m.val with
  | some m => some m
  | none => l.head?
/-- Send the `k`-th held frame of a dimension again on the next ACTIVE lane (R272). -/
def State.resend (s : State) (d : DimId) (k : Nat) : State :=
  match (s.dimAt d).held[k]? with
  | none => s
  | some hf =>
    match s.nextActive d.val hf.lane with
    | none => s
    | some m =>
      let (s, f) := s.addAck d hf.frame
      let s := s.modDim d fun x => { x with held := x.held.set k { hf with lane := m } }
      (s.putOut m (.frame f)).meter hf.herd fun mt => { mt with linkBytes := satAdd mt.linkBytes 552 }
/-- Send again every frame that a lane held (R282). -/
def State.resendLane (s : State) (d : DimId) (n : LaneId) : State :=
  (List.range (s.dimAt d).held.length).foldl (fun s k =>
    match (s.dimAt d).held[k]? with
    | some hf => if hf.lane = n then s.resend d k else s
    | none => s) s

/-! ## The ways of routes (R290, R293) -/

/-- The dimensions of DELTA, as slice-position bits, in the order they are crossed. -/
def routeOrder (r : RouteEnt) : List Nat :=
  let l := (List.range 15).filter fun b => r.delta.getLsbD b
  if r.descending then l.reverse else l
/-- The dimension of a slice-position bit. -/
def Herd.sliceDim (x : Herd) (b : Nat) : Option DimId := x.dims[b]?
/-- The dimension of a slice-position bit is UP. -/
def State.bitUp (s : State) (h : HerdId) (b : Nat) : Bool := ((s.herd h).sliceDim b).any fun d => s.dimUp d.val
/-- The way of a frame with the slice-position bits `l` to cross under DET 0 (R293): a bit whose dimension is UP comes first. With all
of them DOWN it crosses another spanned dimension that is UP before the first and again after it. A frame on such a detour keeps to
it. Else it waits (DESIGN CHOICE, log entry 143). -/
def State.wayOf (s : State) (h : HerdId) (t : RouteEnt) (l : List Nat) : List Nat :=
  if l.any fun b => !(routeOrder t).contains b then l
  else match l.find? (s.bitUp h) with
  | some b => b :: l.erase b
  | none =>
    match l, (List.range (s.herd h).dims.length).find? fun b => !(routeOrder t).contains b && s.bitUp h b with
    | b :: r, some x => x :: b :: x :: r
    | _, _ => l
/-- A dimension has gone DOWN: the frames of routes under DET 0 that wait for it go another way, where there is one (R293, Table 09.8). -/
def State.detour (s : State) (d : DimId) : State :=
  let q := (s.dimAt d).queue
  let s := s.modDim d fun x => { x with queue := x.queue.filter fun o => o.path.isEmpty }
  (q.filter fun o => !o.path.isEmpty).foldl (fun s o =>
    match ((s.herd o.herd).sentence.bind fun m => m.routes[o.item.toNat]?) with
    | none => s.sendOn d o
    | some t =>
      let l := s.wayOf o.herd t o.path
      s.sendOn ((l.head?.bind (s.herd o.herd).sliceDim).getD d) { o with path := l }) s

/-! ## Lane states (Table 09.6, R284) -/

/-- The hop key of a dimension is gone: both sides zeroize it and the agreement starts again (R398). -/
def State.dropHop (s : State) (d : DimId) : State :=
  (s.modDim d fun x => { x with hop := .none, cause := 0, hk := none, ssOwn := none, ssPeer := none, ctlSent := 0,
                                ctlSeen := none, map := {}, joins := [], helloDue := false
                                encapDue := none }).setSlot (12 + d.val) {}
/-- Whether this unit can exchange hop keys (R422, Table 15.1); one that waits for its cold boot cannot (R445). -/
def State.hopAble (s : State) : Bool := s.lcState = 2 && s.tahr.st == 3 && !s.lc.reboot && !s.serow.tampered
/-- Send a KEYX HELLO on a dimension that has none of its own out (Table 13.8). While no alias leaf is free it waits (R427), whatever the
peer has sent by then; when none will be, no HELLO is sent (R429). -/
def State.helloSend (s : State) (d : DimId) : State :=
  let x := s.dimAt d
  if !(x.hop == .none || (x.helloDue && x.hop == .exchanging)) || !s.hopAble || s.signGone then s
  else if s.canSign then
    let (s, r) := s.report none []
    (s.modDim d fun x => { x with hop := .exchanging, helloDue := false }).sendKeyx d r true
  else s.modDim d fun x => { x with helloDue := true }
/-- Call a spare of a dimension (E11): the lowest in STANDBY, or else the lowest in READY or TEST, which notes it; none when
there is no such spare. -/
def State.callSpare (s : State) (d : DimId) : Option State :=
  let l := (s.lanesOf d.val).filter fun n => (s.laneAt n).spare
  match l.find? fun n => (s.laneAt n).st == .standby with
  | some n => some (s.setLane n { s.laneAt n with st := .active, called := true })
  | none =>
    (l.find? fun n => ((s.laneAt n).st == .ready || (s.laneAt n).st == .test) && !(s.laneAt n).called).map fun n =>
      s.setLane n { s.laneAt n with called := true }
/-- What a lane keeps when it takes a state: a lane that enters PROBE searches for frame boundaries (R270), one that enters TEST
leaves its CRC errors behind (R283). -/
def Lane.enter (x : Lane) (t : LaneState) : Lane :=
  let x := { x with st := t }
  if t == .probe then { x with hunting := true, goods := 0, fails := 0 } else if t == .test then { x with errs := [] } else x
/-- A lane takes a state, with what R270, R282, R284, R293, R398 and Table 13.8 tie to it. A test that a lane leaves has no verdict any
more. A working lane that has called a spare calls no other before it is ACTIVE again; one that found none calls at its next turn
(R284, DESIGN CHOICE, log entry 158). -/
def State.laneTo (s : State) (n : LaneId) (t : LaneState) : State :=
  let x := s.laneAt n
  let up := s.dimUp x.dim.toNat
  let s := s.setLane n (x.enter t)
  let s := if x.st == .test && t != .test then
      { s with repair := { s.repair with tests := s.repair.tests.filter fun q => q.part != Part.lane n } } else s
  match x.dimId with
  | none => s
  | some d =>
    let s := if x.st == t then s else s.edge 0 (29 + d.val)
    let s := if x.st == .active && t != .active then s.resendLane d n else s
    let s := if !x.spare && !x.called && x.st != t && (t == .failed || t == .mismatch || (t == .dark && x.disable)) then
        match s.callSpare d with
        | some s => s.setLane n { s.laneAt n with called := true }
        | none => s
      else s
    let s := if !x.spare && x.called && t == .active then
        let s := s.setLane n { s.laneAt n with called := false }
        match ((s.lanesOf d.val).filter fun m => (s.laneAt m).spare && (s.laneAt m).st == .active).getLast? with
        | some m => s.setLane m { s.laneAt m with toStandby := true }
        | none => s
      else s
    let s := if (s.lanesOf d.val).all fun m => !(s.laneAt m).locked && (s.laneAt m).st != .test then s.dropHop d else s
    if up && !s.dimUp d.val then s.detour d else s
/-- A lane reaches READY, and ACTIVE or STANDBY at once when the hop key exists (E4, E6). -/
def State.laneReady (s : State) (n : LaneId) : State :=
  let s := s.laneTo n .ready
  match (s.laneAt n).dimId with
  | none => s
  | some d =>
    if (s.dimAt d).hop == .keyed then
      s.laneTo n (if (s.laneAt n).spare && !(s.laneAt n).called then .standby else .active)
    else s.helloSend d
/-- E1: the laser of an enabled lane comes on. -/
def State.laneOn (s : State) (n : LaneId) : State :=
  if s.cfg.st = 2 && (s.laneInfo n).2.2 && !(s.laneAt n).disable then s.laneTo n .train else s
/-- RETRAIN (R282). -/
def State.laneRetrain (s : State) (n : LaneId) : State :=
  let x := s.laneAt n
  let s := s.setLane n { x with crcErr := 0, noPeer := false, errs := [] }
  if x.disable || s.cfg.st != 2 || !(s.laneInfo n).2.2 then s else s.laneTo n .train
/-- A write of DISABLE (R282): writing the present value changes nothing. -/
def State.laneSetDisable (s : State) (n : LaneId) (off : Bool) : State :=
  let x := s.laneAt n
  if x.disable = off then s
  else
    let s := s.setLane n { x with disable := off }
    if off then (if x.st == .dark then s else s.laneTo n .dark) else s.laneOn n

/-! ## Receiving (R270, R271) -/

/-- One CRC error of a lane (R270), with its time (R283). -/
def State.crcError (s : State) (n : LaneId) : State :=
  let x := s.laneAt n
  let now := s.tb.now
  s.setLane n { x with crcErr := satAdd x.crcErr 1, errs := (x.errs.filter fun t => (now - t).toNat < 1000000) ++ [now] }
/-- The bits of a frame have passed the descrambler (R267, R268). -/
def Lane.took (x : Lane) : Lane := { x with descram := scrambleSkip frameBits x.descram }
/-- A frame fails its CRC (R270): an error; the row of good frames ends, and the fourth failure in a row starts a search. -/
def State.frameBad (s : State) (n : LaneId) : State :=
  let s := s.crcError n
  let x := s.laneAt n
  let k := x.fails + 1
  s.setLane n { x.took with fails := if k ≥ 4 then 0 else k, hunting := x.hunting || k ≥ 4, goods := 0 }
/-- A frame passes its CRC: the row of failures ends, and the fourth in a row ends a search (R270). Answers whether the frame is
used: those that a search passes over are not (DEDUCED, log entry 139). -/
def State.frameGood (s : State) (n : LaneId) : State × Bool :=
  let x := s.laneAt n
  if x.hunting then
    (s.setLane n { x.took with fails := 0, goods := if x.goods + 1 ≥ 4 then 0 else x.goods + 1, hunting := x.goods + 1 < 4 }, false)
  else (s.setLane n { x.took with fails := 0 }, true)
/-- E moves past every counter accepted in a row. -/
def advanceE : Nat → W64 → List W64 → W64 × List W64
  | 0, e, l => (e, l)
  | k + 1, e, l => if l.contains e then advanceE k (e + 1) (l.filter (· != e)) else (e, l)
/-- Whether a DATA frame's route item counts an acknowledgement: one more frame of the item is acknowledged (R291). -/
def State.ackedFrame (s : State) (f : HeldFrame) : State :=
  if f.frame.type = 1 && !f.stale then
    let x := s.herd f.herd
    let r := x.routes.get {} f.frame.item.toNat
    s.setHerd f.herd { x with routes := x.routes.set {} f.frame.item.toNat { r with acked := r.acked + 1 } }
  else s
/-- An ACK word of a stream: held frames below it are released (R272). -/
def State.takeAck (s : State) (d : DimId) (h : HerdId) (ack : BitVec 26) : State :=
  let x := s.dimAt d
  let passed := fun (f : HeldFrame) =>
    f.herd == h && (let k := (ack - f.frame.counter.setWidth 26).toNat; 0 < k && k ≤ 2 ^ 25)
  let gone := x.held.filter passed
  gone.foldl (fun s f => s.ackedFrame f) (s.setDim d { x with held := x.held.filter fun f => !passed f })
/-- The opened payload of an accepted frame for the local herd it is mapped to, or none when it is a duplicate or dropped
(R271, R404). -/
def State.receive (s : State) (n : LaneId) (d : DimId) (f : Frame) : State × Option (HerdId × List Byte) :=
  let s := if f.ackV then s.takeAck d ⟨f.ackHerd.toNat, f.ackHerd.isLt⟩ f.ack else s
  let key := d.val * 32 + f.herd.toNat
  let st := s.streams.get {} key
  if f.counter < st.e || st.seen.contains f.counter then (s, none)
  else if st.e.toNat + 1024 ≤ f.counter.toNat then (s.crcError n, none)
  else
    let (e, seen) := advanceE 1024 st.e (f.counter :: st.seen)
    let s := { s with streams := s.streams.set {} key { st with e := e, seen := seen } }
    let s := if e != st.e then s.modDim d fun x =>
        { x with ackDue := if x.ackDue.contains f.herd then x.ackDue else x.ackDue ++ [f.herd] } else s
    let x := s.dimAt d
    match x.map.get 0 f.herd.toNat, x.hk with
    | m + 1, some hk =>
      if hm : m < 32 then
        let h : HerdId := ⟨m, hm⟩
        let dir := 1 - s.dirOut d
        let k := s.subKey hk h dir (f.counter.toNat / 2 ^ 48)
        let iv := frameIv d.val dir f.herd.toNat 0 f.counter.toNat
        let live := (s.herd h).st == .live
        match if live then gcmOpen k iv (frameHead f) f.payload f.tag else none with
        | some p => (s, some (h, p))
        | none => (s.modDim d fun x => { x with authFail := satAdd x.authFail 1 }, none)
      else (s, none)
    | _, some _ => (s, none)
    | _, none => (s.modDim d fun x => { x with authFail := satAdd x.authFail 1 }, none)
/-- The frames of a message arrive (R270, R272): each passes its CRC on its lane, and its ACK word counts. The message is there when
all of them are used. -/
def State.carry (s : State) (d : DimId) (via : List Carried) : State × Bool :=
  via.foldl (fun q c =>
    let x := q.1.laneAt c.lane
    if !x.locked || x.dimId != some d then (q.1, false)
    else
      let (s, used) := q.1.frameGood c.lane
      (match used, c.ack with | true, some a => s.takeAck d a.1 a.2 | _, _ => s, q.2 && used)) (s, !via.isEmpty)
/-- An unsealed KEYX message is accepted when its counter is above the last accepted (R397). DESIGN CHOICE: a message comes whole,
its fragments in order, with the counter of its last frame (log entry 140). -/
def State.keyxAccept (s : State) (d : DimId) (ctr : W64) : Option State :=
  match (s.dimAt d).ctlSeen with
  | some c => if c < ctr then some (s.modDim d fun x => { x with ctlSeen := some ctr }) else none
  | none => some (s.modDim d fun x => { x with ctlSeen := some ctr })
/-- A CONTROL or KEYX frame fails its authentication (R404). -/
def State.authFailed (s : State) (d : DimId) : State := s.modDim d fun x => { x with authFail := satAdd x.authFail 1 }
/-- A CONTROL or sealed KEYX frame is accepted when it opens and its counter is above the last accepted (R397). -/
def State.ctlAccept (s : State) (d : DimId) (ctr : W64) (auth : Bool) : Option State :=
  let x := s.dimAt d
  if auth && x.hk.isSome && (match x.ctlSeen with | some c => c < ctr | none => true) then
    some (s.setDim d { x with ctlSeen := some ctr })
  else none

/-! ## The herd map (R400) -/

/-- The JOIN value of a herd's LINKID and world under a hop key. -/
def joinValue (hk : W256) (linkId : List Byte) (world : Bool) : List Byte :=
  hmac (bytes256 hk) (ascii "FV20-JOIN" ++ linkId ++ leBytes 1 (b2n world))
/-- Map every JOIN received on a dimension to the local herd whose value matches. -/
def State.remap (s : State) (d : DimId) : State :=
  let x := s.dimAt d
  match x.hk with
  | none => s
  | some hk =>
    let m := x.joins.foldl (fun (t : Tbl Nat) j =>
      match allHerds.find? fun h =>
          (s.herd h).st == .live && (s.herd h).span.getLsbD d.val && (s.herd h).secure == j.2.1
            && joinValue hk (s.linkId h) j.2.1 == j.2.2 with
      | some h => t.set 0 j.1 (h.val + 1)
      | none => t.set 0 j.1 0) {}
    s.setDim d { x with map := m }
/-- Send a JOIN for a herd on a dimension that has its hop key. -/
def State.joinSend (s : State) (d : DimId) (h : HerdId) : State :=
  match (s.dimAt d).hk with
  | some hk =>
    if (s.dimAt d).hop == .keyed then
      s.sendKeyx d (leBytes 1 h.val ++ leBytes 1 (b2n (s.herd h).secure) ++ joinValue hk (s.linkId h) (s.herd h).secure) false
    else s
  | none => s
/-- A herd comes into being: JOINs on the dimensions of its SPAN, and the JOINs already received are matched again. -/
def State.herdJoins (s : State) (h : HerdId) : State :=
  ((s.herd h).dims).foldl (fun s d => (s.joinSend d h).remap d) s

end Sys2Proof.Machine
end

