-- ==== Sys2Proof/Machine/Herds.lean ====
section
/-!
DEFINITION. The resource orders and the revocation of herds (R348 to R355, R369 to R371, Tables 12.1, 12.9 and 12.11).
-/
namespace Sys2Proof.Machine

/-! ## Creation (R353) -/

/-- `HERD_CREATE` and a formation are refused for this herd number, these groups or this span. -/
def State.createRefused (s : State) (h : HerdId) (groups : W48) (span : BitVec 15) : Bool :=
  s.herdExists h || groups = 0
    || (List.range 48).any (fun g => groups.getLsbD g &&
        (s.repair.groupRetired.get false g || allHerds.any fun k => (s.herd k).hasGroup g))
    || (s.profile = 3 && (List.range 15).any fun d => span.getLsbD d && s.smallD.toNat ≤ d)
/-- A block is cleared (R103, R105, R149): everything but a fence. -/
def Block.clear (b : Block) : Block := { fenced := b.fenced, fault := b.fault }
/-- Clear the blocks of a herd with their scratch. -/
def State.clearBlocks (s : State) (h : HerdId) : State :=
  (s.blocksOf h).foldl (fun s b => (s.modBlock b Block.clear).wipe (scratchAddr b.val 0) lotBytes) s
/-- A word held or latched for a HERD register of a herd's window; those of its ring set belong to the FLR domain. -/
def ofHerdDomain (h : HerdId) (e : Who × Space × Nat × W32) : Bool := e.2.1 == Space.window h && decide (0x40 ≤ e.2.2.1)
/-- Create a herd: its HERD registers take their reset values and its blocks start cleared (R353, R12);
a low word held for them is discarded (R519). -/
def State.makeHerd (s : State) (h : HerdId) (groups : W48) (span : BitVec 15) (form : Option Formation) : State :=
  let x : Herd := { st := .live, secure := form.isSome, groups := groups, span := span, form := form
                    rings := (s.herd h).rings }
  let s := { s with
    heldLow := s.heldLow.filter fun e => !ofHerdDomain h e
    latchedHigh := s.latchedHigh.filter fun e => !ofHerdDomain h e }
  ((s.setHerd h x).clearBlocks h).herdJoins h
/-- `HERD_CREATE`. -/
def State.herdCreate (s : State) (ref : OrderRef) (h : HerdId) (groups : W48) (span : BitVec 15)
    (form : Option Formation) : State :=
  if s.createRefused h groups span then s.done ref stCfgInvalid else (s.makeHerd h groups span form).done ref stOK

/-! ## Lots (R354, R61) -/

/-- The lots of an order. -/
def lotRange (first countM1 : BitVec 10) : List Nat := rangeFrom first.toNat (countM1.toNat + 1)
/-- `LOT_ASSIGN` of an existing herd. -/
def State.lotAssign (s : State) (ref : OrderRef) (h : HerdId) (first countM1 : BitVec 10) : State :=
  let l := lotRange first countM1
  if l.any fun n => 1008 ≤ n || (s.lot n).assigned || (s.lot n).clearing || s.repair.lotRetired.get false n then
    s.done ref stCfgInvalid
  else
    (l.foldl (fun s n => s.setLot n
      { herd := BitVec.ofNat 5 h.val, secure := (s.herd h).secure, assigned := true, since := s.tb.now }) s).done ref stOK
/-- The herd holds a lot that is not being cleared. -/
def State.holdsLot (s : State) (h : HerdId) (n : Nat) : Bool :=
  n < 1008 && (s.lot n).assigned && !(s.lot n).clearing && (s.lot n).herd.toNat == h.val
/-- µs a lot has been held. -/
def State.lotHeldUs (s : State) (n : Nat) : Nat := (s.tb.now.toNat - (s.lot n).since.toNat) / 1000
/-- A lot leaves its herd: its time is metered (R347) and it is cleared (R61). -/
def State.releaseLot (s : State) (h : HerdId) (n : Nat) : State :=
  let m := s.meters.get {} h.val
  ({ s with meters := s.meters.set {} h.val { m with lotUs := satAdd m.lotUs (s.lotHeldUs n) } }).setLot n
    { s.lot n with clearing := true }
/-- A place lies in one of the named lots or in the named window. -/
def Place.isIn (lots : List Nat) (win : Option WinId) : Place → Bool
  | .lot l _ => lots.contains l
  | .win w _ => win == some w
  | _ => false
/-- An unfinished copy of the herd names one of the lots, or the window (R354). -/
def State.copyUses (s : State) (h : HerdId) (lots : List Nat) (win : Option WinId) : Bool :=
  s.copies.any fun j => j.herd == h && match j.op with
    | .copy sa da n sh dh noun =>
      if noun then [sa, da].any fun a => match s.copyPiece h a with
        | some p => (p.noun.kind = 1 && lots.contains p.noun.alloc.toNat)
            || (p.noun.kind = 2 && win.map (·.val) == some p.noun.alloc.toNat)
        | none => false
      else (!sh && (s.placesOf sa.toNat n.toNat).any (·.isIn lots win))
        || (!dh && (s.placesOf da.toNat n.toNat).any (·.isIn lots win))
    | _ => false
/-- `LOT_RELEASE` of an existing herd; answers whether it must wait for a copy. -/
def State.lotRelease (s : State) (ref : OrderRef) (h : HerdId) (first countM1 : BitVec 10) : State × Bool :=
  let l := lotRange first countM1
  if !(l.all fun n => s.holdsLot h n) || l.any (fun n => s.nounNames h 1 n) || (s.herd h).busy then
    (s.done ref stCfgInvalid, false)
  else if s.copyUses h l none then (s, true)
  else ((l.foldl (fun s n => s.releaseLot h n) s).done ref stOK, false)

/-! ## Windows (R355, R69 to R71, R413) -/

/-- A window range lies in one view, in one stack when pinned (R53, R69), of stacks that serve it (R71). -/
def State.rangeServed (s : State) (base size : Nat) : Bool :=
  base % 65536 = 0 && size % 65536 = 0 && size != 0 &&
  (if isInter base then base + size ≤ 0x00C0_0000_0000 && s.interleavedOk
   else isLin base &&
     (let k := (base - linBase) / 0x10_0000_0000
      base + size ≤ linBase + (k + 1) * 0x10_0000_0000 && (s.hbm.get {} k).st == 1))
/-- The pages of a range: first and end; interleaved page numbers, or local pages of stack `k`. -/
def pagesOf (base size : Nat) : Nat × Nat :=
  let p := if isInter base then base / 4096 else (base - linBase) % 0x10_0000_0000 / 4096
  (p, p + size / 4096)
/-- The stack of a stack-linear address. -/
def stackOf (base : Nat) : Nat := (base - linBase) / 0x10_0000_0000
/-- A pinned range and an interleaved one overlap (R70). -/
def pinMeets (pin inter : Nat × Nat) (k : Nat) : Bool :=
  let q := max pin.1 ((inter.1 - k + 11) / 12)
  q < pin.2 && 12 * q + k < inter.2
/-- Two window ranges overlap, in either view (R70). -/
def winMeets (b1 n1 b2 n2 : Nat) : Bool :=
  match isInter b1, isInter b2 with
  | true, true => meets (pagesOf b1 n1) (pagesOf b2 n2)
  | false, false => stackOf b1 == stackOf b2 && meets (pagesOf b1 n1) (pagesOf b2 n2)
  | false, true => pinMeets (pagesOf b1 n1) (pagesOf b2 n2) (stackOf b1)
  | true, false => pinMeets (pagesOf b2 n2) (pagesOf b1 n1) (stackOf b2)
/-- A range covers an interleaved page. -/
def coversPage (base size p : Nat) : Bool :=
  let r := pagesOf base size
  if isInter base then r.1 ≤ p && p < r.2 else p % 12 = stackOf base && r.1 ≤ p / 12 && p / 12 < r.2
/-- TAG is allowed for the herd (Table 12.2). -/
def Herd.tagOk (x : Herd) (tag : BitVec 4) : Bool :=
  if tag.toNat ≤ 7 then x.secure && tag.toNat < x.parties else if tag = 8 then x.secure else tag = 9
/-- `WINDOW_ALLOC` of an existing herd. -/
def State.windowAlloc (s : State) (ref : OrderRef) (h : HerdId) (w : WinId) (tag : BitVec 4) (base size budget : Nat) :
    State :=
  let bad := (s.win w).st != 0 || !s.rangeServed base size
    || allWins.any (fun v => (s.win v).st != 0 && winMeets base size (s.win v).base (s.win v).size)
    || s.repair.pages.any (coversPage base size)
    || !(s.herd h).tagOk tag || (budget != 0 && (budget < 24 || 36 < budget))
  if bad then s.done ref stCfgInvalid
  else match s.freeSlots with
  | a :: b :: _ =>
    let (s, k) := s.draw
    let slot := { herdSlot h 5 with index := BitVec.ofNat 6 w.val }
    let s := (s.setSlot a { slot with valid := true, secret := bytes256 k }).setSlot b { slot with held := true, epoch := true }
    (s.setWin w { st := 1, herd := BitVec.ofNat 5 h.val, secure := (s.herd h).secure, tag := tag, pinned := !isInter base
                  base := base, size := size, budgetLog2 := budget, slot0 := some a, slot1 := some b }).done ref stOK
  | _ => s.complete ref stCfgInvalid 0 0xFFFF_FF01
/-- The herd holds a window. -/
def State.holdsWin (s : State) (h : HerdId) (w : WinId) : Bool := (s.win w).st != 0 && (s.win w).herd.toNat == h.val
/-- `WINDOW_FREE` of an existing herd; answers whether it must wait for a copy. -/
def State.windowFree (s : State) (ref : OrderRef) (h : HerdId) (w : WinId) : State × Bool :=
  if !s.holdsWin h w || s.nounNames h 2 w.val || (s.herd h).busy then (s.done ref stCfgInvalid, false)
  else if s.copyUses h [] (some w) then (s, true)
  else ((s.dropWin w).done ref stOK, false)

/-! ## Key rotation of windows and links (R388, R392, R403) -/

/-- `KEY_ROTATE` with ACTION ROTATE: a sweep starts in STEADY; the order completes at its end. -/
def State.rotate (s : State) (ref : OrderRef) (h : HerdId) (w : WinId) : State :=
  if !s.holdsWin h w || (s.win w).epochSt != 0 then s.done ref stCfgInvalid
  else
    let s := s.startSweep w
    s.setWin w { s.win w with rotations := (s.win w).rotations ++ [(ref, s.tb.now)] }
/-- A cache key of a node that stands beneath node `n` of level `l`. -/
def beneath (size l n key : Nat) : Bool :=
  let m := key / 2 ^ 40
  let i := key % 2 ^ 40
  l != 0 && if m = 0 then nodeCovers size l n i else decide (l < m) && i / 8 ^ (m - l) == n
/-- Replace a bad node by a fresh one whose counters are all 0, and advance its parent's counter (R392): what the cache holds
beneath it belongs to the old tree (R378). -/
def State.freshNode (s : State) (w : WinId) (t : SubTree) : State :=
  let x := s.win w
  if t.whole then s.setWin w { x with root := {}, cache := {} }
  else
    let s := s.setWin w { x with cache := x.cache.filter fun k => !beneath x.size t.level t.idx k }
    let s := (s.bumpParent w t.level t.idx).1
    s.cachePut w t.level t.idx 0
/-- `KEY_ROTATE` with ACTION RESEED (R392). -/
def State.reseed (s : State) (ref : OrderRef) (h : HerdId) (w : WinId) : State :=
  if !s.holdsWin h w || (s.win w).st != 2 then s.done ref stCfgInvalid
  else
    let s := ((s.win w).subs.filter fun t => !t.reseeding).foldl (fun s t => s.freshNode w t) s
    let x := s.win w
    (s.setWin w { x with st := 3, subs := x.subs.map fun t => { t with reseeding := true } }).done ref stOK
/-- `KEY_ROTATE` with ACTION LINK: the herd's sending stream on every dimension of its SPAN advances, on one that is DOWN once it
is UP (R403, R405); with an empty SPAN the order completes at once. -/
def State.rotateLinks (s : State) (ref : OrderRef) (h : HerdId) : State :=
  let ds := (s.herd h).dims
  if ds.isEmpty then s.done ref stOK
  else
    let s := ds.foldl (fun s d => s.setStream d h { s.stream d h with advancing := true }) s
    s.modHerd h fun x => { x with rotLinks := x.rotLinks ++ [ref] }

/-! ## Revocation (Table 12.9) -/

/-- A fetched PF order names a herd: the orders of a herd, `FENCE`, `HERD_CREATE`, an `ATTEST` without HERD_REPORT and reserved
opcodes apart. -/
def Fetched.names (f : Fetched) (h : HerdId) : Bool :=
  let op := fieldLe f.bytes 0 1
  2 ≤ op && op ≤ 0x11 && op != 0x0F && (op != 0x0C || bit (fieldLe f.bytes 0x10 8) 32) && fieldLe f.bytes 1 1 % 32 = h.val
/-- The place of orders that no batch has taken: after every order that one has. -/
def laterBatch : Nat := 2 ^ 64
/-- The reference of a fetched order. -/
def fetchedRef (r : RingId) (f : Fetched) : OrderRef :=
  { src := .ring r, tag := BitVec.ofNat 32 (fieldLe f.bytes 4 4), gen := f.gen, seq := laterBatch
    herd := match r with | .vf h => some h | .pf _ => some ⟨fieldLe f.bytes 1 1 % 32, Nat.mod_lt _ (by decide)⟩ }
/-- Orders of a herd fetched for later batches end `HERD_REVOKED`. -/
def State.endFetched (s : State) (h : HerdId) : State :=
  let pf := (List.finRange 4).foldl (fun s k =>
    let x := s.ring (.pf k)
    let s := s.setRing (.pf k) { x with fetched := x.fetched.filter fun f => !f.names h }
    (x.fetched.filter fun f => f.names h).foldl (fun s f => s.done (fetchedRef (.pf k) f) stHerdRevoked) s) s
  let x := pf.ring (.vf h)
  let s := pf.setRing (.vf h) { x with fetched := [] }
  let s := x.fetched.foldl (fun s f => s.done (fetchedRef (.vf h) f) stHerdRevoked) s
  let mine := s.tahr.orders.filter fun o => o.herd == h && (match o.op with | .herdCreate _ _ => false | _ => true)
  let s := { s with tahr := { s.tahr with orders := s.tahr.orders.filter fun o => !mine.contains o } }
  mine.foldl (fun s o => s.done (refOf o) stHerdRevoked) s
/-- The first beat after the stop beat of a run (R227): the beat in progress, or the one that ended as the run stopped. -/
def Herd.afterStop (x : Herd) (r : Run) : W48 := if r.between then x.beatNow else x.beatNow + 1
/-- Each `FENCE` of the herd's own ring that waits ends `HERD_REVOKED`. -/
def State.endFences (s : State) (h : HerdId) : State :=
  let l := (s.ring (.vf h)).fences
  l.foldl (fun s f => s.done f stHerdRevoked) (s.setRing (.vf h) { s.ring (.vf h) with fences := [] })
/-- DETAIL of a `SENTENCE_RUN` (Table 11.13): the steps completed and the last beat ended. -/
def Herd.runDetail (x : Herd) (r : Run) : W64 :=
  BitVec.ofNat 64 (r.done.toNat % 2 ^ 32 + (x.beatNow.toNat + 2 ^ 48 - 1) % 2 ^ 32 * 2 ^ 32)
/-- The herd's orders in progress end `HERD_REVOKED` (R534): fences, run, load, copies, rotations, links, reports, waiting
orders. The run's last beat is its stop beat (R227). -/
def State.endOrders (s : State) (h : HerdId) : State :=
  let s := s.endFences h
  let x := s.herd h
  let s := match x.run with
    | some r =>
      if r.closed then s
      else
        let s := s.modHerd h fun x => { x with run := x.run.map fun (q : Run) => { q with closed := true } }
        (r.quiesces.foldl (fun s q => s.done q stHerdRevoked) (s.complete r.ref stHerdRevoked 0 ({ x with beatNow := x.afterStop r }.runDetail r)))
    | none => s
  let s := match x.load with | some l => s.done l.ref stHerdRevoked | none => s
  let s := (x.loadQueue ++ x.deferred).foldl (fun s o => s.done (refOf o) stHerdRevoked) s
  let s := x.rotLinks.foldl (fun s r => s.done r stHerdRevoked) s
  let s := s.modHerd h fun x => { x with load := none, loadQueue := [], deferred := [], rotLinks := [] }
  let cs := s.copies.filter fun j => j.herd == h
  let s := cs.foldl (fun s j => (s.copyOver j stHerdRevoked).done j.ref stHerdRevoked) s
  let s := { s with copies := s.copies.filter fun j => j.herd != h }
  let s := allWins.foldl (fun s w =>
    let y := s.win w
    if s.holdsWin h w then y.rotations.foldl (fun s e => s.done e.1 stHerdRevoked) (s.setWin w { y with rotations := [] })
    else s) s
  let mine := s.waitFree.filter fun o => o.herd == h
  let s := mine.foldl (fun s o => s.done (refOf o) stHerdRevoked) { s with waitFree := s.waitFree.filter fun o => o.herd != h }
  let at_ := s.tahr.waitAttests.filter fun o => namesHerd o && o.herd == h
  at_.foldl (fun s o => s.done (refOf o) stHerdRevoked)
    { s with tahr := { s.tahr with waitAttests := s.tahr.waitAttests.filter fun o => !at_.contains o } }
/-- The fabric engine discards the herd's unsent frames. -/
def State.dropFrames (s : State) (h : HerdId) : State :=
  allDims.foldl (fun s d => s.modDim d fun x =>
    { x with queue := x.queue.filter fun o => !(o.herd == h && o.type.toNat ≤ 3) }) s
/-- Execute, for a live herd: `ref` is the order that completes at the end of the revocation. Late blocks that a completed run
left behind (R309) halt as those of a run do. -/
def State.revoke (s : State) (ref : OrderRef) (h : HerdId) : State :=
  let s := s.stopHere h stHerdRevoked 0
  let s := if (s.herd h).tail.isSome then (s.haltBlocks h).modHerd h fun x => { x with tail := none } else s
  let s := s.modHerd h fun x =>
    { x with st := .revoking, rev := some { stage := .executed, t0 := s.tb.now, tOff := 0, refs := [ref], lasts := [] } }
  ((s.endFetched h).endOrders h).dropFrames h
/-- `HERD_REVOKE` (Table 12.11). -/
def State.herdRevoke (s : State) (ref : OrderRef) (h : HerdId) : State :=
  match (s.herd h).st with
  | .absent => s.done ref stCfgInvalid
  | .revoking => s.done ref stHerdRevoked
  | .live => s.revoke ref h

/-- The revocation of a herd stands at a stage. -/
def State.atStage (s : State) (h : HerdId) (g : RevStage) : Bool := (s.herd h).rev.map (·.stage) == some g
/-- Move a revocation to a stage. -/
def State.setStage (s : State) (h : HerdId) (g : RevStage) : State :=
  s.modHerd h fun x => { x with rev := x.rev.map fun r => { r with stage := g } }
/-- Zeroize every slot the herd owns, those of its stream's keys only when `ide` (R414). -/
def State.zeroOwned (s : State) (h : HerdId) (ide : Bool) : State :=
  { s with slots := ⟨s.slots.entries.filter fun e =>
      !(e.2.owner == 2 && e.2.herd.toNat == h.val && (ide || e.2.type != 6))⟩ }
/-- Zeroize: keys, binding, nonce and commit entry are gone; windows keep no slot, and a sweep and the writes it held are
abandoned with them (Table 13.5). -/
def State.zeroizeHerd (s : State) (h : HerdId) : State :=
  let s := s.zeroOwned h false
  let s := allWins.foldl (fun s w =>
    if s.holdsWin h w then
      s.setWin w { s.win w with slot0 := none, slot1 := none, waiting := [], epochSt := 0, sweepDue := false } else s) s
  let s := s.modHerd h fun x =>
    { x with form := x.form.map fun f => { f with meas := [], fnonce := 0, pkSlots := [], kcSlot := 2 } }
  { s with tahr := { s.tahr with commits := s.tahr.commits.set none h.val none } }
/-- Whether an order came from the herd's own VF. -/
def OrderRef.isVf (r : OrderRef) : Bool := match r.src with | .ring (.vf _) => true | _ => false
/-- The stream of a herd is DISABLED and its keys are zeroized. -/
def State.streamDown (s : State) (k : Fin 33) : State :=
  { s.setIde k {} with slots := ⟨s.slots.entries.filter fun e => !(e.2.type == 6 && e.2.index.toNat == k.val)⟩ }
/-- Stream off. -/
def State.keysOff (s : State) (h : HerdId) : State :=
  let s := s.streamDown (ideOf h)
  let s := s.modHerd h fun x =>
    { x with keysGone := true, rev := x.rev.map fun r => { r with stage := .streamOff, tOff := s.tb.now }
             rings := { x.rings with heldCpl := [], heldEvt := [], lostSince := 0 } }
  s
/-- Clear: blocks, lots and windows. -/
def State.clearHerd (s : State) (h : HerdId) : State :=
  let s := s.clearBlocks h
  let s := (List.range 1008).foldl (fun s n => if s.holdsLot h n then s.releaseLot h n else s) s
  let s := allWins.foldl (fun s w => if s.holdsWin h w then s.dropWin w else s) s
  s.setStage h .cleared

/-- REVOKE_ZEROIZE (Table 12.9). -/
def execRevokeZeroize (h : HerdId) (s : State) : Out :=
  s.ifOnly (s.atStage h .executed) fun s => (s.zeroizeHerd h).setStage h .zeroized
/-- Last entries: the completions kept since Execute, and that of a VF's own `HERD_REVOKE`, go to the VF rings. -/
def State.lastEntries (s : State) (h : HerdId) : State :=
  match (s.herd h).rev with
  | none => s
  | some r =>
    let own := (r.refs.filter OrderRef.isVf).filter fun f => f.gen == (s.ring (.vf h)).gen
    let mine := own.map fun f => ({ tag := f.tag, status := stOK, check := 0, detail := 0, place := f.seq } : Cpl)
    let cs := (r.lasts ++ mine).foldl (fun l c => insertCpl c l) []
    let x := s.ring (.vf h)
    let s := s.setRing (.vf h) { x with heldCpl := x.heldCpl ++ cs, reserved := x.reserved - own.length }
    (s.flushCpl (.vf h)).modHerd h fun y =>
      { y with rev := some { r with stage := .lastWritten, lasts := [], refs := r.refs.filter fun f => !f.isVf } }
/-- REVOKE_LAST_ENTRIES (Table 12.9). -/
def execRevokeLastEntries (h : HerdId) (s : State) : Out :=
  s.ifOnly (s.atStage h .zeroized) fun s => s.lastEntries h
/-- Revocation at once, to Stream off (R371): a live herd, or one that is being revoked. -/
def State.revokeNow (s : State) (h : HerdId) : State :=
  let s := if (s.herd h).st == .live then
      let s := s.revoke { src := .tahr, tag := 0 } h
      s.modHerd h fun x => { x with rev := x.rev.map fun (r : Revocation) => { r with refs := [] } }
    else s
  if s.atStage h .executed || s.atStage h .zeroized || s.atStage h .lastWritten then
    (((s.zeroizeHerd h).setStage h .zeroized).lastEntries h).keysOff h
  else s
/-- REVOKE_STREAM_OFF: once the last entries are written, or 50 µs after Execute. -/
def execRevokeStreamOff (h : HerdId) (s : State) : Out :=
  s.ifOnly (s.atStage h .lastWritten || ((s.atStage h .executed || s.atStage h .zeroized) &&
      (match (s.herd h).rev with | some r => r.t0.toNat + 50000 ≤ s.tb.now.toNat | none => false))) fun s =>
    (if s.atStage h .executed then s.zeroizeHerd h else s).keysOff h
/-- The block a part belongs to. -/
def partBlock : Part → Option BlockId
  | .scratchRow b _ _ => some b
  | .seqRow b _ => some b
  | .cell b _ => some b
  | .vcell b _ => some b
  | .blockChan b => some b
  | _ => none
/-- A block of the herd is under test (Table 16.17). -/
def State.testing (s : State) (h : HerdId) : Bool :=
  s.repair.tests.any fun t => match partBlock t.part with | some b => s.owner b == some h | none => false
/-- REVOKE_CLEAR: every operation of the herd has ended, and no test of its blocks runs. -/
def execRevokeClear (h : HerdId) (s : State) : Out :=
  s.ifOnly (s.atStage h .streamOff && (s.herd h).run.isNone && (s.herd h).tail.isNone && !s.testing h) fun s => s.clearHerd h
/-- REVOKE_FREE: clearing is done. The herd number is free, and a PF or Tahr `HERD_REVOKE` completes. -/
def execRevokeFree (h : HerdId) (s : State) : Out :=
  s.ifOnly (s.atStage h .cleared && !s.lots.entries.any fun e => e.2.assigned && e.2.herd.toNat == h.val) fun s =>
    let r := (s.herd h).rev
    let s := s.setHerd h { rings := (s.herd h).rings, keysGone := true }
    match r with
    | some r => (r.refs.filter fun f => !f.isVf).foldl (fun s f =>
        s.complete f stOK 0 (BitVec.ofNat 64 ((r.tOff.toNat - r.t0.toNat) % 2 ^ 32))) s
    | none => s
/-- LOT_CLEAR_DONE (R61): every byte is zero, and the lot is free. -/
def execLotClearDone (l : LotId) (s : State) : Out :=
  s.ifOnly (s.lot l.val).clearing fun s =>
    let s := (s.wipe (lotAddr l.val 0) lotBytes).setLot l.val {}
    { s with healthRo := s.healthRo.filter fun k => k / 2 ^ 19 != l.val }

end Sys2Proof.Machine
end

