-- ==== Sys2Proof/Machine/HostIf.lean ====
section
/-!
DEFINITION. The host link, doorbells, ring enables, vectors and IDE streams (chapter 11).
-/
namespace Sys2Proof.Machine

/-! ## Doorbells and rings (R337 to R342, R531) -/

/-- Who owns a ring set. -/
def ringWho : RingId → Who
  | .pf _ => .pf
  | .vf h => .vf h
/-- A function's number: 0 the PF, h + 1 VF h + 1 (R328). -/
def fnOf : Who → Nat
  | .vf h => h.val + 1
  | _ => 0
/-- A function takes memory TLPs: it is reached, and it is in D0 (Table 11.1). -/
def State.awake (s : State) (w : Who) : Bool := s.reach w && !s.d3hot.get false (fnOf w)
/-- The IDE stream that a function's TLPs travel in: a protected herd's own, else the link stream (R334). -/
def State.streamOf (s : State) : Who → Fin 33
  | .vf h => if s.protected_ h then ideOf h else 0
  | _ => 0
/-- A function's TLP passes its stream (R334, Table 11.7): one of a protected herd travels in a SECURE stream, and one under the
other key set comes while that set is accepted. -/
def State.tlpOk (s : State) (w : Who) (t : Tlp) : Bool :=
  let x := s.ideAt (s.streamOf w)
  (t != .old || (x.st == .secure && x.both)) && match w with
    | .vf h => !s.protected_ h || (t != .clear && x.st == .secure)
    | _ => true
/-- A write of a function to its doorbell page or window acts: a VF's while its herd is LIVE (R331, R522), and a protected
herd's while its stream is SECURE (R334). -/
def State.barOpen (s : State) (w : Who) : Bool :=
  s.awake w && s.tlpOk w .active && match w with
    | .vf h => (s.herd h).st == .live
    | _ => true
/-- A doorbell value of N or above sets RING_ERR and is reported (R338). -/
def State.ringError (s : State) (r : RingId) (off value : Nat) : State :=
  let s := s.setRing r { s.ring r with ringErr := true }
  let p := leBytes 4 off ++ leBytes 2 value
  match r with
  | .pf k => s.evtPf k 0x000A 0 p
  | .vf h => s.evtHerd h 0x000A p
/-- The slot that holds the prk of a key set. -/
def State.prkSlot (s : State) (k : Fin 33) (set : Bool) : Option Nat :=
  (s.slots.entries.find? fun e => e.2.type == 6 && e.2.index.toNat == k.val && e.2.epoch == set).map (·.1)
/-- The first TLP of a stream under a new key set: the old set is zeroized (Table 11.7). -/
def State.ideTouch (s : State) (k : Fin 33) : State :=
  let x := s.ideAt k
  if x.st == .secure && x.both then
    let s := match s.prkSlot k (!x.active) with | some n => s.setSlot n {} | none => s
    s.setIde k (if x.active then { x with set0 := [], both := false } else { x with set1 := [], both := false })
  else s
/-- A TLP of a function arrives under the active key set of its stream (R334, Table 11.7); Tahr and the region controllers send
none. -/
def State.touchStream (s : State) (who : Who) (t : Tlp) : State :=
  match who with
  | .vf _ => if t == .active then s.ideTouch (s.streamOf who) else s
  | .pf => if t == .active then s.ideTouch 0 else s
  | _ => s
/-- A DOE object arrives in the PF's mailbox: its TLPs travel in the link stream. -/
def State.doe (s : State) (f : State → State) : Out := .next (if s.reach .pf then f (s.ideTouch 0) else s)
/-- A doorbell takes a value (R338): `ring` is the ring it belongs to, `put` stores it, `after` follows. -/
def State.ringDoor (s : State) (r : RingId) (off v : Nat) (ring : RingSet → Ring)
    (put : RingSet → Ring → RingSet) (after : State → State) : State :=
  let x := s.ring r
  if (ring x).size ≤ v then s.ringError r off v
  else after (s.setRing r (put x { ring x with door := BitVec.ofNat 16 v }))
/-- A doorbell of a ring set, written in its stream. -/
def State.doorbell (s : State) (r : RingId) (value : W32) (door : State → RingId → Nat → State) : State :=
  if !s.barOpen (ringWho r) then s else door (s.touchStream (ringWho r) .active) r (bits value.toNat 0 16)
/-- `ORD_TAIL` takes a value. -/
def State.ordDoor (s : State) (r : RingId) (v : Nat) : State := s.ringDoor r 0x000 v (·.ord) (fun x y => { x with ord := y }) (·.icNote)
/-- `CPL_HEAD` takes a value: completions that were held are written. -/
def State.cplDoor (s : State) (r : RingId) (v : Nat) : State :=
  s.ringDoor r 0x004 v (·.cpl) (fun x y => { x with cpl := y }) fun s => s.flushCpl r
/-- ORD_TAIL: the host places what the device may read, then rings. -/
def execOrdTail (r : RingId) (value : W32) (hostData : HostData) (s : State) : Out :=
  .next ((s.hostPlace hostData).doorbell r value State.ordDoor)
/-- CPL_HEAD. -/
def execCplHead (r : RingId) (value : W32) (s : State) : Out :=
  .next (s.doorbell r value State.cplDoor)
/-- Write the lost-events entry that is due, and the events held. -/
def State.freeEvt (s : State) (r : RingId) : State := (s.putLost r).flushEvt r
/-- `EVT_HEAD` takes a value: room for events is there again. -/
def State.evtDoor (s : State) (r : RingId) (v : Nat) : State :=
  s.ringDoor r 0x008 v (·.evt) (fun x y => { x with evt := y }) fun s => s.freeEvt r
/-- EVT_HEAD. -/
def execEvtHead (r : RingId) (value : W32) (s : State) : Out :=
  .next (s.doorbell r value State.evtDoor)
/-- A ring as it starts a new first pass (R531). -/
def Ring.start (x : Ring) : Ring := { x with en := true, idx := 0, door := 0, phase := true }
/-- A ring with EN written. -/
def Ring.enable (x : Ring) (on : Bool) : Ring := if on then (if x.en then x else x.start) else { x with en := false }
/-- Write EN of a ring: 0 order, 1 completion, 2 event. -/
def State.setRingEn (s : State) (r : RingId) (which : Fin 3) (on : Bool) : State :=
  let x := s.ring r
  if which = 0 then s.setRing r { x with ord := x.ord.enable on }
  else if which = 1 then (s.setRing r { x with cpl := x.cpl.enable on }).flushCpl r
  else (s.setRing r { x with evt := x.evt.enable on }).freeEvt r
/-- RING_EN_WRITE (R531). -/
def execRingEnWrite (r : RingId) (which : Fin 3) (on : Bool) (s : State) : Out :=
  .next (if s.barOpen (ringWho r) then (s.touchStream (ringWho r) .active).setRingEn r which on else s)
/-- MSIX_HOLDOFF_EXPIRY (R342). -/
def execMsixHoldoffExpiry (r : RingId) (s : State) : Out :=
  s.ifOnly (s.ring r).vecBusy fun s =>
    let x := { s.ring r with vecBusy := false }
    s.setRing r (if x.vecDue then ({ x with vecDue := false } : RingSet).vector else x)

/-! ## IDE streams (R333 to R336, Table 11.7) -/

/-- The herd of a selective stream. -/
def ideHerd (k : Fin 33) : Option HerdId := if h : 0 < k.val then some ⟨k.val - 1, by omega⟩ else none
/-- Write what the stream's rings hold, as far as their TLPs can be sent. -/
def State.flushStream (s : State) (k : Fin 33) : State :=
  match ideHerd k with
  | some h => (s.flushCpl (.vf h)).freeEvt (.vf h)
  | none => s
/-- A stream leaves KEYED or SECURE: keys are zeroized, a SECURE stream's loss is reported, and the copies whose TLPs
travelled in it complete `KEY_RETIRED` at once; what a non-secure herd's rings held goes out outside it (R334). -/
def State.streamLost (s : State) (k : Fin 33) (cause : Nat) : State :=
  let st := (s.ideAt k).st
  if st == .disabled then s
  else
    let s := s.streamDown k
    let p := leBytes 1 k.val ++ leBytes 1 cause
    let s := if st == .secure then
        let s := s.evtPf 0 0x000B (((ideHerd k).map (·.val)).getD 0) p
        match ideHerd k with | some h => s.evtHerd h 0x000B p | none => s
      else s
    match ideHerd k with
    | none => s
    | some h => (s.copyStop stKeyRetired fun j => j.herd == h && j.hostEnd).flushStream k
/-- The 8-byte header of a KEY_EXCHANGE message. -/
def ideHeader (code stream : Nat) (set : Bool) : List Byte :=
  leBytes 1 code ++ leBytes 1 stream ++ leBytes 1 (b2n set) ++ List.replicate 5 0
/-- A STATUS answer (Table 11.6). -/
def State.ideStatus (s : State) (stream : Nat) (set : Bool) (code : Nat) : State :=
  { s with reply := ideHeader 0x06 stream set ++ leBytes 4 code }
/-- The stream-authorisation key of a secure herd (R356). -/
def State.sak (s : State) (h : HerdId) : List Byte :=
  match (s.herd h).form with
  | some f => hkdfExpand (s.slot (f.pkSlots.getD f.lead.toNat 2)).secret (ascii "FV20-IDE-AUTH" ++ leBytes 1 h.val)
  | none => []
/-- The lead's party key, from which sak comes, is held. -/
def State.sakHeld (s : State) (h : HerdId) : Bool :=
  (s.herd h).form.any fun f => (s.slot (f.pkSlots.getD f.lead.toNat 2)).valid
/-- The AUTH tag, for a secure herd's stream, is right (R335). -/
def State.ideAuthOk (s : State) (k : Fin 33) (msg : List Byte) (auth : Option W256) : Bool :=
  match ideHerd k with
  | none => true
  | some h =>
    s.herdExists h && (!(s.herd h).secure || (s.sakHeld h && auth.map bytes256 == some (hmac (s.sak h) msg)))
/-- A DOE discovery answer for an index: vendor, object type and next index (R325). PCIe's discovery object itself comes first,
then KEY_EXCHANGE, DEBUG and RECOVERY; an index past the last names no vendor (PRESUMED, log entry 151). -/
def doeEntry (i : Nat) : List Byte :=
  if i = 0 then leBytes 4 (0x0001 + 1 * 2 ^ 24)
  else if i ≤ 3 then leBytes 4 (Config.vendorId.toNat + i * 2 ^ 16 + (i + 1) % 4 * 2 ^ 24)
  else leBytes 4 0xFFFF
/-- REPORT_REQ: a device report with the nonce, or a wait for an alias leaf (R427). `doe` is the object's type and `code` its message
code: a reserved code is answered STATUS REFUSED (Table 11.6), and an object of a type that the mailbox does not carry sets its
Error bit (R325). The other messages have commands of their own. -/
def execReportReq (doe code : BitVec 8) (nonce : W256) (s : State) : Out :=
  s.doe fun s =>
    if 3 < doe.toNat then { s with doeError := true }
    else if doe = 0 then { s with reply := doeEntry code.toNat }
    else if doe != 1 then s
    else if code = 0 || 8 ≤ code.toNat then s.ideStatus 0 false 1
    else if code != 1 then s
    else if s.canSign then
      let (s, r) := s.report none (bytes256 nonce)
      { s with reply := ideHeader 0x07 0 false ++ r }
    else if s.signGone then s.ideStatus 0 false 1
    else { s with tahr := { s.tahr with waitReports := s.tahr.waitReports ++ [nonce] } }
/-- The six keys of a prk (R336), dir 0 then dir 1, each posted, non-posted, completion. -/
def ideKeys (prk : List Byte) (stream : Nat) (set : Bool) : List W256 :=
  (List.range 6).map fun i => word256 (hkdfExpand prk
    (ascii "FV20-IDE" ++ leBytes 1 stream ++ leBytes 1 (b2n set) ++ leBytes 1 (i % 3) ++ leBytes 1 (i / 3)))
/-- A key offer (R335, R336). A non-secure herd uses its stream from here on: a copy of it with a host end completes `KEY_RETIRED`
(R334). -/
def State.keyOffer (s : State) (stream : Fin 33) (set : Bool) (ct : List Byte) (salt : W256) (auth : Option W256) : State :=
  let x := s.ideAt stream
  let msg := ideHeader 0x02 stream.val set ++ ct ++ bytes256 salt
  let slot := match s.prkSlot stream set with | some n => some n | none => s.freeSlots.head?
  match slot with
  | none => s.ideStatus stream.val set 1
  | some n =>
    if ct.length != 1568 || !s.ideAuthOk stream msg auth || (x.st == .secure && x.active == set) || s.serow.tampered
        || s.signGone || !(s.slot 11).valid then s.ideStatus stream.val set 1
    else
      let prk := hkdfExtract (bytes256 salt) (bytes256 (kemDecaps (s.slot 11).secret ct))
      let keys := ideKeys prk stream.val set
      let conf := hmac (hkdfExpand prk (ascii "FV20-IDE-CONF" ++ leBytes 1 stream.val ++ leBytes 1 (b2n set))) msg
      let s := s.setSlot n
        { valid := true, tenant := true, type := 6, derived := true, owner := if stream = 0 then 1 else 2
          herd := BitVec.ofNat 5 (stream.val - 1), index := BitVec.ofNat 6 stream.val, epoch := set, secret := prk }
      let st : IdeState := if x.st == .disabled then .keyed else x.st
      let y := if set then { x with st := st, set1 := keys, both := false } else { x with st := st, set0 := keys, both := false }
      let s := s.setIde stream y
      let s := match ideHerd stream with
        | some h => if x.st == IdeState.disabled then s.copyStop stKeyRetired fun j => j.herd == h && j.hostEnd else s
        | none => s
      { s with reply := ideHeader 0x03 stream.val set ++ conf }
/-- KEY_GO (Table 11.7). -/
def execKeyGo (stream : Fin 33) (set : Bool) (s : State) : Out :=
  s.doe fun s =>
      let x := s.ideAt stream
      let keyed := !(if set then x.set1 else x.set0).isEmpty
      if x.st == .disabled || !keyed then s.ideStatus stream.val set 1
      else
        let y := if x.st == .keyed then { x with st := .secure, active := set, both := false }
          else if x.active == set then x else { x with active := set, both := true }
        ((s.setIde stream y).flushStream stream).ideStatus stream.val set 0

/-! ## The link (R327, R329) -/

/-- DL_DOWN (R327): every stream enters DISABLED. -/
def State.linkDown (s : State) : State :=
  let s := { s with linkUp := false, linkSpeed := 0, linkWidth := 0 }
  ((List.finRange 33).foldl (fun s k => s.streamLost k 2) s).icNote
/-- Every ring set. -/
def allRings : List RingId := (List.finRange 4).map .pf ++ allHerds.map .vf
/-- What SR-IOV control and NumVFs take (R329): VF Enable only once the configuration is committed, NumVFs while it is 0. -/
def State.putSriov (s : State) (num : BitVec 16) (on : Bool) : State :=
  { s with numVfs := if s.vfEnable then s.numVfs else num, vfEnable := on && s.cfg.st == 2 }
/-- VF_ENABLE_WRITE (R329). NumVFs takes a value only while VF Enable is 0. -/
def execVfEnableWrite (num : BitVec 16) (on : Bool) (s : State) : Out :=
  .next (
    if !s.reach .pf then s
    else s.putSriov num on)

end Sys2Proof.Machine
end

