-- ==== Sys2Proof/Machine/Attest.lean ====
section
/-!
DEFINITION. `ATTEST` (R431, R432, R427, R429) and the requests that wait for an alias leaf.
-/
namespace Sys2Proof.Machine

/-- The report of an `ATTEST` is signed and written: DETAIL is LENGTH; too little room writes nothing. -/
def State.attestNow (s : State) (ref : OrderRef) (h : Option HerdId) (dst : W64) (room : W32) (nonce : W256) : State :=
  let len := reportLength (s.reportSlots h).length
  if room.toNat < len then s.complete ref stCfgInvalid 0 (BitVec.ofNat 64 len)
  else
    let (s, r) := s.report h (bytes256 nonce)
    (s.hostWrite dst.toNat r).complete ref stOK 0 (BitVec.ofNat 64 len)
/-- A report can be written for an order's source: the link is up, and a VF's TLPs can be sent (R327, R334). -/
def State.canReport (s : State) (src : OrderSrc) : Bool :=
  match src with
  | .ring (.vf v) => s.hostReach v
  | _ => s.linkUp
/-- `ATTEST` by an order's source: it completes, or waits for an alias leaf (R427) or for the link (R327; DEDUCED, log entry
142). A report of a protected herd's VF needs its stream (R334). -/
def State.attest (s : State) (o : Order) (dst : W64) (room : W32) (herdReport : Bool) (nonce : W256) : State :=
  let ref := refOf o
  let h := if herdReport then some o.herd else none
  let dark := match o.src with
    | .ring (.vf v) => s.protected_ v && (s.ideAt (ideOf v)).st != .secure
    | _ => false
  if dst.toNat % 64 != 0 || (herdReport && !s.herdExists o.herd) then s.done ref stCfgInvalid
  else if s.serow.tampered || s.signGone || dark then s.done ref stKeyRetired
  else if s.canSign && s.canReport o.src then s.attestNow ref h dst room nonce
  else { s with tahr := { s.tahr with waitAttests := s.tahr.waitAttests ++ [o] } }
/-- Answer the requests that waited for an alias leaf, in order. -/
def State.retrySign (s : State) : State :=
  let orders := s.tahr.waitAttests
  let reps := s.tahr.waitReports
  let s := { s with tahr := { s.tahr with waitAttests := [], waitReports := [] } }
  let s := orders.foldl (fun s o => match o.op with
    | .attest dst room hr n => s.attest o dst room hr n
    | _ => s) s
  reps.foldl (fun s n =>
    if s.canSign then
      let (s, r) := s.report none (bytes256 n)
      { s with reply := ideHeader 0x07 0 false ++ r }
    else if s.signGone then s.ideStatus 0 false 1
    else { s with tahr := { s.tahr with waitReports := s.tahr.waitReports ++ [n] } }) s
/-- The next alias is certified in the other slot (R427); without a DeviceID leaf there is none (R429). -/
def State.nextAlias (s : State) : State :=
  let (t, cert) := s.makeAlias (!s.tahr.aliasSlot10) (((s.leafRec.map (·.2.aliasIdx)).getD 0) + 1)
  match cert with
  | some c => ({ t with tahr := { t.tahr with altReady := true, altCert := c } }.rollAlias)
  | none => s
/-- 896 signatures of the current alias have been released and no next one is certified. -/
def State.aliasDue (s : State) : Bool :=
  s.tahr.st = 3 && s.tahr.aliasOk && !s.tahr.altReady && 896 ≤ s.aliasLeaf && !s.tahr.entropyBad && !s.serow.tampered

end Sys2Proof.Machine
end

