-- ==== Sys2Proof/Machine/Fp.lean ====
section
/-!
DEFINITION. Floating-point formats, exact values, and rounding (chapter 04, R115 to R129; R153, R165).
Operands are widened to exact values, computed exactly, and rounded once.
-/
namespace Sys2Proof.Machine

/-- How a format encodes what is not finite (Table 04.1): as IEEE 754, as E4M3 (no infinity, one NaN), or not at all. -/
inductive FpKind where
  | ieee | e4m3 | finite
deriving DecidableEq, Repr

/-- A float format (Table 04.1). -/
structure Fmt where
  ebits : Nat
  fbits : Nat
  bias : Nat
  kind : FpKind
deriving DecidableEq, Repr

def Fmt.fp32 : Fmt := ⟨8, 23, 127, .ieee⟩
def Fmt.w48 : Fmt := ⟨8, 39, 127, .ieee⟩
def Fmt.bf16 : Fmt := ⟨8, 7, 127, .ieee⟩
def Fmt.fp16 : Fmt := ⟨5, 10, 15, .ieee⟩
def Fmt.e4m3 : Fmt := ⟨4, 3, 7, .e4m3⟩
def Fmt.e5m2 : Fmt := ⟨5, 2, 15, .ieee⟩
def Fmt.e2m1 : Fmt := ⟨2, 1, 1, .finite⟩

/-- An exact value: NaN, an infinity, or (−1)^neg · m · 2^e; `m = 0` is a signed zero. -/
inductive Fv where
  | nan
  | inf (neg : Bool)
  | fin (neg : Bool) (m : Nat) (e : Int)
deriving DecidableEq, Repr

/-- The width of a format. -/
def Fmt.width (f : Fmt) : Nat := 1 + f.ebits + f.fbits
/-- The exponent of the subnormal spacing. -/
def Fmt.umin (f : Fmt) : Int := 1 - (f.bias : Int) - f.fbits
/-- The largest normal exponent, emax (R115). -/
def Fmt.emax (f : Fmt) : Int :=
  match f.kind with
  | .ieee => (2 ^ f.ebits - 2 : Nat) - (f.bias : Int)
  | _ => (2 ^ f.ebits - 1 : Nat) - (f.bias : Int)
/-- The significand of the largest finite value, in units of 2^(emax − fbits). -/
def Fmt.maxSig (f : Fmt) : Nat :=
  match f.kind with
  | .e4m3 => 2 ^ (f.fbits + 1) - 2
  | _ => 2 ^ (f.fbits + 1) - 1
/-- The default NaN (Table 04.1); a format without NaN has +0 (R125 gives its conversions apart). -/
def Fmt.defaultNan (f : Fmt) : Nat :=
  match f.kind with
  | .ieee => (2 ^ f.ebits - 1) * 2 ^ f.fbits + 2 ^ (f.fbits - 1)
  | .e4m3 => 2 ^ (f.ebits + f.fbits) - 1
  | .finite => 0
/-- The sign bit. -/
def Fmt.signBit (f : Fmt) (neg : Bool) : Nat := if neg then 2 ^ (f.ebits + f.fbits) else 0
/-- An infinity; in a format without one, the default NaN. -/
def Fmt.infBits (f : Fmt) (neg : Bool) : Nat :=
  match f.kind with
  | .ieee => f.signBit neg + (2 ^ f.ebits - 1) * 2 ^ f.fbits
  | _ => f.defaultNan
/-- The largest finite value with a sign. -/
def Fmt.maxBits (f : Fmt) (neg : Bool) : Nat :=
  f.signBit neg + (f.emax + f.bias).toNat * 2 ^ f.fbits + (f.maxSig - 2 ^ f.fbits)

/-- Read a word of a format (R115, R116). -/
def Fmt.decode (f : Fmt) (w : Nat) : Fv :=
  let neg := bit w (f.ebits + f.fbits)
  let x := bits w f.fbits f.ebits
  let m := bits w 0 f.fbits
  if f.kind = .ieee ∧ x = 2 ^ f.ebits - 1 then
    if m = 0 then .inf neg else .nan
  else if f.kind = .e4m3 ∧ x = 2 ^ f.ebits - 1 ∧ m = 2 ^ f.fbits - 1 then .nan
  else if x = 0 then .fin neg m f.umin
  else .fin neg (2 ^ f.fbits + m) ((x : Int) - f.bias - f.fbits)

/-- The rounding modes (R120, R121): to nearest even, or stochastic with a 32-bit random word. -/
inductive Rnd where
  | rne | sr (r : W32)
deriving DecidableEq, Repr

/-- A magnitude rounded with the exponent range unbounded above: value m · 2^e, whether it differs from the source. -/
structure Rounded where
  m : Nat
  e : Int
  inexact : Bool
deriving DecidableEq, Repr

/-- Keep a magnitude whose leading bit lies far below `q` from needing a long shift: anything more than 40 places below
the unit rounds as 2^(q − 41) does. -/
def clampLow (m : Nat) (e q : Int) : Nat × Int :=
  if m ≠ 0 ∧ (bitLen m : Int) - 1 + e < q - 40 then (1, q - 41) else (m, e)

/-- Round m · 2^e (plus less than one unit of 2^e when `sticky`) to a multiple of 2^q. -/
def roundAt (mode : Rnd) (m : Nat) (e : Int) (sticky : Bool) (q : Int) : Rounded :=
  let (m, e') := clampLow m e q
  let sticky := sticky || decide (e' ≠ e)
  let e := e'
  if q ≤ e then ⟨m, e, sticky⟩
  else
    let sh := (q - e).toNat
    let lo := m >>> sh
    let rem := m % 2 ^ sh
    let up :=
      match mode with
      | .rne =>
        let half := 2 ^ (sh - 1)
        decide (half < rem) || (rem == half && (sticky || lo % 2 == 1))
      | .sr r => decide (r.toNat < (rem <<< 32) >>> sh)
    ⟨lo + b2n up, q, rem != 0 || sticky⟩

/-- The exponent of the unit in the last place of a format for a magnitude: its own, or the subnormal spacing. -/
def Fmt.unit (f : Fmt) (m : Nat) (e : Int) : Int :=
  max ((bitLen m : Int) - 1 + e - f.fbits) f.umin

/-- Is m · 2^e above m' · 2^e'? -/
def magLt (m : Nat) (e : Int) (m' : Nat) (e' : Int) : Bool :=
  if m' = 0 then false
  else if m = 0 then true
  else
    let x := (bitLen m : Int) + e
    let x' := (bitLen m' : Int) + e'
    if x < x' then true else if x' < x then false
    else if e ≤ e' then decide (m < m' <<< (e' - e).toNat) else decide (m <<< (e - e').toNat < m')

/-- The bits of a representable magnitude. -/
def Fmt.pack (f : Fmt) (neg : Bool) (m : Nat) (e : Int) : Nat :=
  if m = 0 then f.signBit neg
  else
    let x := (bitLen m : Int) - 1 + e
    let q := f.unit m e
    let sig := if e ≤ q then m >>> (q - e).toNat else m <<< (e - q).toNat
    if x < 1 - (f.bias : Int) then f.signBit neg + sig
    else f.signBit neg + (x + f.bias).toNat * 2 ^ f.fbits + (sig - 2 ^ f.fbits)

/-- The lane flags in the bit order of Table 05.10: INV, OVF, UNF, INX, SAT. -/
structure Flags where
  inv : Bool := false
  ovf : Bool := false
  unf : Bool := false
  inx : Bool := false
  sat : Bool := false
deriving DecidableEq, Repr

/-- The OR of flags. -/
def Flags.or (a b : Flags) : Flags :=
  ⟨a.inv || b.inv, a.ovf || b.ovf, a.unf || b.unf, a.inx || b.inx, a.sat || b.sat⟩

/-- Flags as the five-bit word of Table 05.10. -/
def Flags.word (a : Flags) : BitVec 5 :=
  BitVec.ofNat 5 (b2n a.inv + 2 * b2n a.ovf + 4 * b2n a.unf + 8 * b2n a.inx + 16 * b2n a.sat)

/-- Below the smallest normal magnitude and not zero (the UNF condition of Table 05.10, before rounding). -/
def Fmt.tiny (f : Fmt) (m : Nat) (e : Int) : Bool :=
  m != 0 && decide ((bitLen m : Int) - 1 + e < 1 - (f.bias : Int))

/-- Round an exact value for arithmetic (R89, R90, R153): an overflow gives the infinity of its sign. -/
def Fmt.arith (f : Fmt) (v : Fv) (sticky : Bool := false) : Nat × Flags :=
  match v with
  | .nan => (f.defaultNan, {})
  | .inf neg => (f.infBits neg, {})
  | .fin neg m e =>
    if m = 0 then (f.signBit neg, {})
    else
      let r := roundAt .rne m e sticky (f.unit m e)
      if magLt f.maxSig (f.emax - f.fbits) r.m r.e then (f.infBits neg, { ovf := true, inx := true })
      else (f.pack neg r.m r.e, { unf := f.tiny m e && r.inexact, inx := r.inexact })

/-- What a conversion of one element counts (Table 04.3). -/
structure Count where
  nonfinite : Nat := 0
  sat : Nat := 0
  flush : Nat := 0
deriving DecidableEq, Repr

/-- The sum of two counts. -/
def Count.add (a b : Count) : Count := ⟨a.nonfinite + b.nonfinite, a.sat + b.sat, a.flush + b.flush⟩

/-- Convert an exact value into a float format (R120 to R125): saturating, counting; Table 04.2 for what is not finite. An
infinity that E4M3 makes a NaN sets INV (Table 05.10); one that meets a range limit sets no flag (DESIGN CHOICE, log entry
129). -/
def Fmt.conv (f : Fmt) (mode : Rnd) (v : Fv) : Nat × Flags × Count :=
  match v with
  | .nan => (f.defaultNan, {}, { nonfinite := 1 })
  | .inf neg =>
    match f.kind with
    | .finite => (f.maxBits neg, {}, { nonfinite := 1 })
    | .e4m3 => (f.infBits neg, { inv := true }, { nonfinite := 1 })
    | _ => (f.infBits neg, {}, { nonfinite := 1 })
  | .fin neg m e =>
    if m = 0 then (f.signBit neg, {}, {})
    else
      let tooHigh :=
        match mode with
        | .rne => let r := roundAt .rne m e false (f.unit m e); magLt f.maxSig (f.emax - f.fbits) r.m r.e
        | .sr _ => magLt f.maxSig (f.emax - f.fbits) m e
      if tooHigh then (f.maxBits neg, { sat := true, inx := true }, { sat := 1 })
      else
        let r := roundAt mode m e false (f.unit m e)
        (f.pack neg r.m r.e, { unf := f.tiny m e && r.inexact, inx := r.inexact },
          if r.m = 0 then { flush := 1 } else {})

/-- The value of a signed integer. -/
def Fv.ofInt (i : Int) : Fv := .fin (decide (i < 0)) i.natAbs 0

/-- Convert an exact value to an integer within [lo, hi] (R126, R127; Table 04.2). An infinity meets a limit and sets no flag
(DESIGN CHOICE, log entry 129). -/
def convInt (lo hi : Int) (mode : Rnd) (v : Fv) : Int × Flags × Count :=
  match v with
  | .nan => (0, {}, { nonfinite := 1 })
  | .inf neg => (if neg then lo else hi, {}, { nonfinite := 1 })
  | .fin neg m e =>
    if decide (64 < (bitLen m : Int) + e) then (if neg then lo else hi, { sat := true, inx := true }, { sat := 1 })
    else
      let r := roundAt mode m e false 0
      let mag : Int := if r.e ≤ 0 then r.m else ((r.m <<< r.e.toNat : Nat) : Int)
      let i := if neg then -mag else mag
      if i < lo then (lo, { sat := true, inx := true }, { sat := 1 })
      else if hi < i then (hi, { sat := true, inx := true }, { sat := 1 })
      else (i, { inx := r.inexact }, {})

/-- A signed integer as a 32-bit word. -/
def w32OfInt (i : Int) : W32 := BitVec.ofInt 32 i

/-- The INT32 bounds of R93, R127 and R155. -/
def int32Max : Int := 2147483647

/-- Saturate to the bounds of R93 and R155; says whether it acted. -/
def satInt32 (i : Int) : Int × Bool :=
  if i < -int32Max then (-int32Max, true) else if int32Max < i then (int32Max, true) else (i, false)

/-- Negate an exact value. -/
def Fv.neg : Fv → Fv
  | .nan => .nan
  | .inf n => .inf !n
  | .fin n m e => .fin (!n) m e

/-- The exact sum, and whether the operation is invalid (∞ − ∞). The sum of two zeros of one sign keeps it; any other
exact zero is +0 (IEEE 754 under round to nearest). -/
def Fv.add : Fv → Fv → Fv × Bool
  | .nan, _ => (.nan, false)
  | _, .nan => (.nan, false)
  | .inf a, .inf b => if a = b then (.inf a, false) else (.nan, true)
  | .inf a, _ => (.inf a, false)
  | _, .inf b => (.inf b, false)
  | .fin a m e, .fin b n g =>
    if m = 0 ∧ n = 0 then (.fin (a && b) 0 0, false)
    else if m = 0 then (.fin b n g, false)
    else if n = 0 then (.fin a m e, false)
    else
      let lo := min e g
      let x : Int := ((m <<< (e - lo).toNat : Nat) : Int) * (if a then -1 else 1)
      let y : Int := ((n <<< (g - lo).toNat : Nat) : Int) * (if b then -1 else 1)
      let z := x + y
      if z = 0 then (.fin false 0 0, false) else (.fin (decide (z < 0)) z.natAbs lo, false)

/-- The exact product, and whether the operation is invalid (0 × ∞). -/
def Fv.mul : Fv → Fv → Fv × Bool
  | .nan, _ => (.nan, false)
  | _, .nan => (.nan, false)
  | .inf a, .inf b => (.inf (a != b), false)
  | .inf a, .fin b m _ => if m = 0 then (.nan, true) else (.inf (a != b), false)
  | .fin b m _, .inf a => if m = 0 then (.nan, true) else (.inf (a != b), false)
  | .fin a m e, .fin b n g => (.fin (a != b) (m * n) (e + g), false)

/-- Multiply by 2^k exactly (R88, R138, R157). -/
def Fv.scale (v : Fv) (k : Int) : Fv :=
  match v with
  | .fin n m e => if m = 0 then v else .fin n m (e + k)
  | v => v

/-- FP32 word to exact value. -/
def f32 (w : W32) : Fv := Fmt.fp32.decode w.toNat
/-- Round an exact value to an FP32 word. -/
def toF32 (v : Fv) : W32 := BitVec.ofNat 32 (Fmt.fp32.arith v).1

/-- FP32 addition, one rounding (R153, R167). -/
def fAdd (a b : W32) : W32 := toF32 ((f32 a).add (f32 b)).1
/-- FP32 subtraction, one rounding. -/
def fSub (a b : W32) : W32 := toF32 ((f32 a).add (f32 b).neg).1
/-- FP32 multiplication, one rounding. -/
def fMul (a b : W32) : W32 := toF32 ((f32 a).mul (f32 b)).1

/-- Is an FP32 word finite? -/
def isFinite32 (w : W32) : Bool := bits w.toNat 23 8 != 255
/-- Is an FP32 word a zero? -/
def isZero32 (w : W32) : Bool := bits w.toNat 0 31 == 0
/-- Is an FP32 word a NaN? -/
def isNan32 (w : W32) : Bool := bits w.toNat 23 8 == 255 && bits w.toNat 0 23 != 0
/-- The default NaN of FP32 (Table 04.1). -/
def nan32 : W32 := 0x7FC00000
/-- FP32 one. -/
def one32 : W32 := 0x3F800000

/-- A key that orders FP32 words other than NaN by value, with +0 above −0 (R154, R166). -/
def ordKey32 (w : W32) : Int :=
  if w.toNat < 2 ^ 31 then (w.toNat : Int) else -((w.toNat - 2 ^ 31 : Nat) : Int) - 1

/-- Compare FP32 words other than NaN by value, +0 equal to −0. -/
def fLt (a b : W32) : Bool :=
  if isNan32 a || isNan32 b then false
  else if isZero32 a && isZero32 b then false else decide (ordKey32 a < ordKey32 b)

/-- Larger of two FP32 words (R154). -/
def fMax (a b : W32) : W32 :=
  if isNan32 a || isNan32 b then nan32 else if ordKey32 a < ordKey32 b then b else a
/-- Smaller of two FP32 words (R154). -/
def fMin (a b : W32) : W32 :=
  if isNan32 a || isNan32 b then nan32 else if ordKey32 b < ordKey32 a then b else a

end Sys2Proof.Machine
end

