-- ==== Sys2Proof/Machine/Flags.lean ====
section
/-!
DEFINITION. Lane flags, the cell flag word and the block flag word (R99, R165, R229, Table 05.10, Table 07.16), and the
increments of a layer's health counters (R130).
-/
namespace Sys2Proof.Machine

/-- Raise flags in one lane of a vector cell: they stay set (R165). -/
def VCell.raise (c : VCell) (l : Nat) (f : Flags) : VCell :=
  { c with flags := c.flags.set 0 l (c.flags.get 0 l ||| f.word) }
/-- The OR of a list of flags. -/
def orFlags (l : List Flags) : Flags := l.foldl Flags.or {}
/-- The flag word of a block takes what its cells raise: bits 5 to 1 in the order of Table 05.10 (Table 07.16). -/
def Block.raise (b : Block) (f : Flags) : Block := { b with flags := b.flags ||| (f.word.setWidth 6 <<< 1) }
/-- MSAT of a block's flag word (R99). -/
def Block.msat (b : Block) (on : Bool) : Block := if on then { b with flags := b.flags ||| 1 } else b
/-- The OR of the flag words of a herd's blocks: `HRD_FLAGS` (R229). -/
def State.herdFlags (s : State) (h : HerdId) : BitVec 6 := (s.blocksOf h).foldl (fun a b => a ||| (s.block b).flags) 0

/-- Add to a layer's increments of the step in progress (R130). -/
def State.layerInc (s : State) (h : HerdId) (layer : BitVec 12) (f : LayerInc → LayerInc) : State :=
  s.modHerd h fun x => { x with incs := x.incs.set {} layer.toNat (f (x.incs.get {} layer.toNat)) }
/-- Count what a conversion met into a layer (Table 04.3). -/
def State.count (s : State) (h : HerdId) (layer : BitVec 12) (c : Count) : State :=
  if c.nonfinite = 0 && c.sat = 0 && c.flush = 0 then s
  else s.layerInc h layer fun i =>
    { i with nonfinite := i.nonfinite + c.nonfinite, sat := i.sat + c.sat, flush := i.flush + c.flush }

end Sys2Proof.Machine
end

