-- ==== Sys2Proof/Machine/FpFun.lean ====
section
/-!
DEFINITION. The four-period functions of the vector cells and the square roots of the health and declension units
(R153, Table 05.4, R145, R239): each computes enough bits of the exact result and rounds once.
Square root, reciprocal and reciprocal root are exact up to their last bit; 2^x and log2 x are evaluated in 192-bit fixed
point (DEDUCED, log entry 112).
-/
namespace Sys2Proof.Machine

/-- The integer square root, bit by bit from bit `i - 1` down, on top of root `r`. -/
def isqrtAux (n : Nat) : Nat → Nat → Nat
  | 0, r => r
  | i + 1, r => let t := r + 2 ^ i; isqrtAux n i (if t * t ≤ n then t else r)

/-- The largest r with r * r ≤ n. -/
def isqrt (n : Nat) : Nat := isqrtAux n (bitLen n / 2 + 1) 0

/-- A root with at least 40 bits: s · 2^k with whether it is inexact. -/
def sqrtParts (m : Nat) (e : Int) : Nat × Int × Bool :=
  let m2 := if e % 2 = 0 then m else 2 * m
  let e2 := if e % 2 = 0 then e else e - 1
  let n := m2 <<< 96
  let s := isqrt n
  (s, e2 / 2 - 48, s * s != n)

/-- Correctly rounded FP32 square root (R145, R239). A negative operand gives the default NaN. -/
def fSqrt (a : W32) : W32 :=
  match f32 a with
  | .nan => nan32
  | .inf neg => if neg then nan32 else a
  | .fin neg m e =>
    if m = 0 then a
    else if neg then nan32
    else
      let (s, k, st) := sqrtParts m e
      BitVec.ofNat 32 (Fmt.fp32.arith (.fin false s k) st).1

/-- Correctly rounded FP32 quotient (R243, R252). -/
def fDiv (a b : W32) : W32 :=
  match f32 a, f32 b with
  | .nan, _ => nan32
  | _, .nan => nan32
  | .inf _, .inf _ => nan32
  | .inf x, .fin y _ _ => BitVec.ofNat 32 (Fmt.fp32.infBits (x != y))
  | .fin x _ _, .inf y => BitVec.ofNat 32 (Fmt.fp32.signBit (x != y))
  | .fin x m e, .fin y n g =>
    if n = 0 then (if m = 0 then nan32 else BitVec.ofNat 32 (Fmt.fp32.infBits (x != y)))
    else
      let q := m * 2 ^ 72
      BitVec.ofNat 32 (Fmt.fp32.arith (.fin (x != y) (q / n) (e - g - 72)) (q % n != 0)).1

/-- `VRCP` (R153, Table 05.4). -/
def fRcp (a : W32) : W32 × Flags :=
  match f32 a with
  | .nan => (nan32, {})
  | .inf neg => (BitVec.ofNat 32 (Fmt.fp32.signBit neg), {})
  | .fin neg m e =>
    if m = 0 then (BitVec.ofNat 32 (Fmt.fp32.infBits neg), {})
    else
      let n := 2 ^ 72
      let r := Fmt.fp32.arith (.fin neg (n / m) (-72 - e)) (n % m != 0)
      (BitVec.ofNat 32 r.1, r.2)

/-- `VRSQRT` (R153, Table 05.4). -/
def fRsqrt (a : W32) : W32 × Flags :=
  match f32 a with
  | .nan => (nan32, {})
  | .inf neg => if neg then (nan32, { inv := true }) else (0, {})
  | .fin neg m e =>
    if m = 0 then (BitVec.ofNat 32 (Fmt.fp32.infBits neg), {})
    else if neg then (nan32, { inv := true })
    else
      let m2 := if e % 2 = 0 then m else 2 * m
      let e2 := if e % 2 = 0 then e else e - 1
      let n := 2 ^ 144
      let s := isqrt (n / m2)
      let r := Fmt.fp32.arith (.fin false s (-72 - e2 / 2)) (s * s * m2 != n)
      (BitVec.ofNat 32 r.1, r.2)

/-- Fixed-point places of 2^x and log2 x. -/
def fixP : Nat := 192

/-- ln 2 in fixed point: the sum of 1 / (k 2^k). -/
def ln2Aux : Nat → Nat
  | 0 => 0
  | k + 1 => ln2Aux k + 2 ^ (fixP + 16) / ((k + 1) * 2 ^ (k + 1))
/-- ln 2, `fixP` places. -/
def ln2Fix : Nat := ln2Aux (fixP + 16) / 2 ^ 16

/-- The exponential series from term `k` for `n` terms: `t` is the present term. -/
def expAux (y : Nat) : Nat → Nat → Nat → Nat
  | 0, _, _ => 0
  | n + 1, k, t => t + expAux y n (k + 1) (t * y / 2 ^ fixP / k)

/-- 2^(f / 2^fixP) in fixed point, for f below 2^fixP. -/
def exp2Fix (f : Nat) : Nat := expAux (f * ln2Fix / 2 ^ fixP) 60 1 (2 ^ fixP)

/-- `VEXP2` (R153, Table 05.4). -/
def fExp2 (a : W32) : W32 × Flags :=
  match f32 a with
  | .nan => (nan32, {})
  | .inf neg => if neg then (0, {}) else (BitVec.ofNat 32 (Fmt.fp32.infBits false), {})
  | .fin neg m e =>
    if m = 0 then (one32, {})
    else if decide (12 < (bitLen m : Int) + e) then
      if neg then (0, { unf := true, inx := true }) else (BitVec.ofNat 32 (Fmt.fp32.infBits false), { ovf := true, inx := true })
    else
      let x : Int := ((m <<< (e + fixP).toNat : Nat) : Int) * (if neg then -1 else 1)
      let n := Int.fdiv x (2 ^ fixP : Nat)
      let f := (x - n * (2 ^ fixP : Nat)).toNat
      let r := if f = 0 then Fmt.fp32.arith (.fin false 1 n) false
        else Fmt.fp32.arith (.fin false (exp2Fix f) (n - fixP)) true
      (BitVec.ofNat 32 r.1, r.2)

/-- The series of the inverse hyperbolic tangent: `z2` is z squared, `t` the present power of z. -/
def atanhAux (z2 : Nat) : Nat → Nat → Nat → Nat
  | 0, _, _ => 0
  | n + 1, k, t => t / (2 * k + 1) + atanhAux z2 n (k + 1) (t * z2 / 2 ^ fixP)

/-- log2 of a significand y / 2^fixP in [1, 2), in fixed point. -/
def log2Fix (y : Nat) : Nat :=
  let one := 2 ^ fixP
  let z := (y - one) * one / (y + one)
  2 * atanhAux (z * z / one) 80 0 z * one / ln2Fix

/-- `VLOG2` (R153, Table 05.4). -/
def fLog2 (a : W32) : W32 × Flags :=
  match f32 a with
  | .nan => (nan32, {})
  | .inf neg => if neg then (nan32, { inv := true }) else (a, {})
  | .fin neg m e =>
    if m = 0 then (BitVec.ofNat 32 (Fmt.fp32.infBits true), {})
    else if neg then (nan32, { inv := true })
    else
      let k := bitLen m - 1
      let n : Int := (k : Int) + e
      let y := m <<< (fixP - k)
      if y = 2 ^ fixP then
        let r := Fmt.fp32.arith (Fv.ofInt n) false
        (BitVec.ofNat 32 r.1, r.2)
      else
        let v : Int := n * (2 ^ fixP : Nat) + log2Fix y
        let r := Fmt.fp32.arith (.fin (decide (v < 0)) v.natAbs (-(fixP : Int))) true
        (BitVec.ofNat 32 r.1, r.2)

end Sys2Proof.Machine
end

