-- ==== Sys2Proof/Machine/Operands.lean ====
section
/-!
DEFINITION. Operands that the verbs and engines share: element values by format (Table 06.3), scales (R118, R128, R161),
vector registers and cursors (R148, R159, R160), random words (R169 to R171) and the step number (R170).
-/
namespace Sys2Proof.Machine

/-! ## Element values -/

/-- An exact value is NaN. -/
def Fv.isNan : Fv → Bool | .nan => true | _ => false

/-- The float format of an ELEM code, if it is one. -/
def elemFmt (e : BitVec 4) : Option Fmt :=
  match e.toNat with
  | 0 => some .fp32 | 1 => some .bf16 | 2 => some .fp16 | 3 => some .e4m3 | 4 => some .e5m2 | 5 => some .e2m1 | _ => none
/-- Read a `w`-bit number as two's complement. -/
def signedOf (w v : Nat) : Int := if bit v (w - 1) then (v : Int) - 2 ^ w else v
/-- The value of an element code. -/
def elemVal (e : BitVec 4) (code : Nat) : Fv :=
  match elemFmt e with
  | some f => f.decode code
  | none => Fv.ofInt (signedOf (elemBits e) code)
/-- The value of an element with its scale code (R118): 0xFF makes it NaN. -/
def scaled (v : Fv) (code : Byte) : Fv := if code = 0xFF then .nan else v.scale ((code.toNat : Int) - 127)
/-- Widen a value to FP32, exactly or, beyond the range, to the largest finite value (R128); says whether that happened. -/
def widen32 (v : Fv) : W32 × Bool :=
  let r := Fmt.fp32.conv .rne v
  (BitVec.ofNat 32 r.1, r.2.1.sat)
/-- The range of an integer element format for conversions (R127). -/
def intRange (e : BitVec 4) : Int × Int := if e = 6 then (-int32Max, int32Max) else if e = 7 then (-128, 127) else (-8, 7)
/-- A signed number as the code of an element. -/
def intCode (e : BitVec 4) (i : Int) : Nat := (BitVec.ofInt (elemBits e) i).toNat
/-- Convert a value into an element format (R120 to R127). -/
def narrow (e : BitVec 4) (mode : Rnd) (v : Fv) : Nat × Flags × Count :=
  match elemFmt e with
  | some f => f.conv mode v
  | none =>
    let r := convInt (intRange e).1 (intRange e).2 mode v
    (intCode e r.1, r.2)
/-- The code is not finite in its format (R163). -/
def nonFinite (e : BitVec 4) (code : Nat) : Bool :=
  match elemFmt e with
  | some f => match f.decode code with | .fin _ _ _ => false | _ => true
  | none => false

/-! ## Scales computed at a store (R129) -/

/-- floor(log2 x) of a magnitude m · 2^e. -/
def log2Of (m : Nat) (e : Int) : Int := (bitLen m : Int) - 1 + e
/-- The larger of two magnitudes. -/
def magMax (a b : Nat × Int) : Nat × Int := if magLt a.1 a.2 b.1 b.2 then b else a
/-- The scale code, codes, flags and counts of a group of values, each with its rounding (R129). A group with
a non-finite value sets no lane flag (DESIGN CHOICE, log entry 129). -/
def mxGroup (f : Fmt) (vals : List (Fv × Rnd)) : Byte × List Nat × List Flags × Count :=
  let bad := vals.filter fun v => match v.1 with | .fin _ _ _ => false | _ => true
  if !bad.isEmpty then (0xFF, vals.map fun _ => 0, vals.map fun _ => {}, { nonfinite := bad.length })
  else
    let amax := vals.foldl (fun a v => match v.1 with | .fin _ m e => magMax a (m, e) | _ => a) (0, 0)
    if amax.1 = 0 then
      (0x7F, vals.map fun v => match v.1 with | .fin n _ _ => f.signBit n | _ => 0, vals.map fun _ => {}, {})
    else
      let e := log2Of amax.1 amax.2 - f.emax
      let e := if magLt f.maxSig (f.emax - f.fbits) amax.1 (amax.2 - e) then e + 1 else e
      let e := min (max e (-127)) 127
      let r := vals.map fun v => f.conv v.2 (v.1.scale (-e))
      (BitVec.ofInt 8 (e + 127), r.map (·.1), r.map (·.2.1), r.foldl (fun a x => a.add x.2.2) {})

/-! ## Random words (R169, Table 05.13) -/

/-- The random word of an element: seed, stream, layer, step, DRAW and element index. -/
def randWord (seed : W64) (stream : BitVec 6) (layer : BitVec 12) (step : W48) (draw : BitVec 16) (e : Nat) : W32 :=
  let q := e % 2 ^ 48 / 4
  let c0 := BitVec.ofNat 32 q
  let c1 := BitVec.ofNat 32 (q / 2 ^ 32 + layer.toNat * 2 ^ 14 + stream.toNat * 2 ^ 26)
  let c2 := step.setWidth 32
  let c3 := BitVec.ofNat 32 (step.toNat / 2 ^ 32 + draw.toNat * 2 ^ 16)
  let o := philox seed (c0, c1, c2, c3)
  match e % 4 with
  | 0 => o.1 | 1 => o.2.1 | 2 => o.2.2.1 | _ => o.2.2.2
/-- A key of the RO words of a lot's health table. -/
def roKey (lot off : Nat) : Nat := lot * 2 ^ 19 + off / 4
/-- An RO word of a herd's health table, as the health unit last wrote it (R132). -/
def State.roWord (s : State) (h : HerdId) (off : Nat) : W32 := s.healthRo.get 0 (roKey (s.herd h).healthLot.toNat off)
/-- STEPS of the herd block (Table 04.7). -/
def State.steps (s : State) (h : HerdId) : W64 := s.roWord h 0x8_001C ++ s.roWord h 0x8_0018
/-- The step number (R170). A late block's draws take it as it stands when the verb issues (DESIGN CHOICE, log entry 161). -/
def State.stepNo (s : State) (h : HerdId) : W48 := (s.steps h).setWidth 48
/-- The rounding of a store under RND (R122): the random word of its stream, layer, step and element. -/
def rndOf (rnd : BitVec 2) (seed : W64) (stream : BitVec 6) (layer : BitVec 12) (step : W48) (e : Nat) : Rnd :=
  if rnd = 1 then .sr (randWord seed stream layer step 0xFFFF e) else .rne

/-! ## Vector registers and cursors (R148, R159, R160) -/

/-- Lane numbers. -/
def lanes64 : List Nat := List.range 64
/-- One lane of a register. -/
def VCell.lane (c : VCell) (r : BitVec 5) (l : Nat) : W32 := c.regs.get 0 (r.toNat * 64 + l)
/-- A whole register. -/
def VCell.reg (c : VCell) (r : BitVec 5) : List W32 := lanes64.map fun l => c.lane r l
/-- Write a register, lane by lane. -/
def VCell.setReg (c : VCell) (r : BitVec 5) (v : List W32) : VCell :=
  { c with regs := (v.take 64).zipIdx.foldl (fun t e => t.set 0 (r.toNat * 64 + e.2) e.1) c.regs }
/-- Raise flags lane by lane. -/
def VCell.raiseAll (c : VCell) (f : List Flags) : VCell := (f.zipIdx).foldl (fun c e => c.raise e.2 e.1) c
/-- A vector cell of a block. -/
def Block.vcell (b : Block) (c : BitVec 2) : VCell := b.vcells.get {} c.toNat
def Block.setVcell (b : Block) (c : BitVec 2) (v : VCell) : Block := { b with vcells := b.vcells.set {} c.toNat v }
/-- A cursor of a cell. -/
def VCell.cursor (c : VCell) (k : BitVec 2) : Cursor := c.curs.get {} k.toNat
def VCell.setCursor (c : VCell) (k : BitVec 2) (v : Cursor) : VCell := { c with curs := c.curs.set {} k.toNat v }
/-- The element index of a position (R159). -/
def Cursor.at_ (c : Cursor) (l : Nat) : Nat := (c.base + c.lane.signExtend 48 * BitVec.ofNat 48 l).toNat
/-- The cursor after an access that advances it. -/
def Cursor.next (c : Cursor) : Cursor := { c with base := c.base + c.step.signExtend 48 }
/-- Advance a cursor when INC is 1. -/
def VCell.advance (c : VCell) (k : BitVec 2) (inc : BitVec 1) : VCell :=
  if inc = 1 then c.setCursor k (c.cursor k).next else c
/-- The seed of a stream in a block (R172). -/
def Block.seed (b : Block) (stream : BitVec 6) : W64 := b.seeds.get 0 stream.toNat

/-! ## Metered lines (R347) -/

/-- A verb that goes element by element is metered by the 64-byte lines of windows that it touches, each once: `old` is
the state before it, `addrs` the device addresses it touched. -/
def State.remeter (old s : State) (h : HerdId) (addrs : List Nat) : State :=
  let n := (((addrs.map (· / 64)).eraseDups).filter fun l => match s.place (64 * l) with | .win _ _ => true | _ => false).length
  let m := { s.meterDue.get {} h.val with hbmBytes := satAdd (old.meterDue.get {} h.val).hbmBytes (64 * n) }
  { s with meterDue := s.meterDue.set {} h.val m }

end Sys2Proof.Machine
end

