-- ==== Sys2Proof/Machine/Health.lean ====
section
/-!
DEFINITION. The health unit: increments and their combination over the slice (R130, R533), the actions of a step
boundary (R132 to R137, R142, R143, Tables 04.6 and 04.7), the loss-spike detector (R144 to R146), and what an abandoned
step adds (R135).
-/
namespace Sys2Proof.Machine

/-! ## Increments -/

/-- The increments of two units in one layer, summed exactly (R533). -/
def addInc (a b : LayerInc) : LayerInc :=
  { nonfinite := a.nonfinite + b.nonfinite, sat := a.sat + b.sat, flush := a.flush + b.flush, read := a.read || b.read
    gcount := a.gcount + b.gcount, gzero := a.gzero + b.gzero
    gmax := match a.gmax, b.gmax with
      | some x, some y => some (max x y)
      | some x, none => some x
      | none, y => y
    hist := if a.hist.isEmpty then b.hist else if b.hist.isEmpty then a.hist else List.zipWith (· + ·) a.hist b.hist
    fmt := if a.read then a.fmt else b.fmt }
/-- Add the increments that tokens carry to those of this unit (R533). -/
def Herd.combine (x : Herd) (toks : List BeatToken) : Herd :=
  { x with incs := (toks.flatMap (·.incs)).foldl (fun t e => t.set {} e.1 (addInc (t.get {} e.1) e.2)) x.incs }

/-! ## The health lot -/

/-- Device address of an offset of the health lot. -/
def Herd.healthAddr (x : Herd) (off : Nat) : Nat := lotAddr x.healthLot.toNat off
/-- An offset of the health lot is a word the health unit writes (Tables 04.6 and 04.7). -/
def isRoOff (o : Nat) : Bool := (o < 0x8_0000 && o % 128 < 0x60) || (0x8_0008 ≤ o && o < 0x8_0020)
/-- A word of the health lot as it stands. -/
def State.healthWord (s : State) (h : HerdId) (off : Nat) : W32 :=
  BitVec.ofNat 32 (leNat (s.mem.readBytes ((s.herd h).healthAddr off) 4))
/-- Write a word of the health lot that the herd writes too (RW in Tables 04.6 and 04.7). -/
def State.putHealth (s : State) (h : HerdId) (off : Nat) (v : W32) : State :=
  { s with mem := s.mem.writeBytes ((s.herd h).healthAddr off) (leBytes 4 v.toNat) }
/-- Write an RO word of the health lot: what the herd wrote over it is lost (R132). -/
def State.putRo (s : State) (h : HerdId) (off : Nat) (v : W32) : State :=
  { s.putHealth h off v with healthRo := s.healthRo.set 0 (roKey (s.herd h).healthLot.toNat off) v }
/-- Put `n` RO words back to what the device holds: what the herd wrote over them is lost (R132, Table 04.8). -/
def State.restoreRo (s : State) (h : HerdId) (off n : Nat) : State :=
  (List.range n).foldl (fun s k => s.putHealth h (off + 4 * k) (s.roWord h (off + 4 * k))) s
/-- The layers whose entry a boundary can change: those with increments or with anything in their entry. -/
def State.healthLayers (s : State) (h : HerdId) : List Nat :=
  let x := s.herd h
  let base := x.healthAddr 0
  let ks := x.incs.keys
    ++ ((s.mem.keys.filter fun a => base ≤ a && a < base + 0x8_0000).map fun a => (a - base) / 128)
    ++ ((s.healthRo.keys.filter fun k => k / 2 ^ 19 = x.healthLot.toNat && k % 2 ^ 19 < 0x2_0000).map
          fun k => k % 2 ^ 19 / 32)
  (ks.foldl (fun (t : Tbl Bool) l => t.set false l true) {}).keys
/-- Add an increment to a 32-bit RO counter. -/
def State.bumpRo (s : State) (h : HerdId) (off n : Nat) : State := s.putRo h off (satAdd (s.roWord h off) n)

/-! ## Gradient scales (R133, R137) -/

/-- A field in which 0 stands for a default. -/
def orElse0 (v d : Nat) : Nat := if v = 0 then d else v
/-- The value lies outside -64 to 63. -/
def outOfScale (v : Int) : Bool := v < -64 || 63 < v
/-- The limits of s_L, and whether S_MIN and S_MAX are invalid (R133); one that is drops both (DESIGN CHOICE, log entry
131). -/
def scaleLimits (w60 w64 : Nat) : Int × Int × Bool :=
  let lo := signedOf 8 (bits w64 16 8)
  let hi := signedOf 8 (bits w64 24 8)
  let bad := outOfScale lo || outOfScale hi || (bit w60 3 && hi < lo)
  if bit w60 3 && !bad then (lo, hi, bad) else (-32, 32, bad)
/-- The configuration words hold an invalid value (R133). -/
def scaleBad (w60 w64 : Nat) : Bool := (bit w60 2 && outOfScale (signedOf 8 (bits w60 8 8))) || (scaleLimits w60 w64).2.2
/-- The largest normal exponent of a gradient format. -/
def gradEmax (f : BitVec 4) : Int := (elemFmt f).elim 0 Fmt.emax
/-- The choice from the gradient's statistics alone. -/
def scaleFromGrad (w64 : Nat) (s : Int) (i : LayerInc) : Int :=
  match if i.read then i.gmax else none with
  | none => s
  | some g =>
    let hd := (orElse0 (bits w64 0 4) 2 : Int)
    let h := gradEmax i.fmt - g
    if h < hd then s - (hd - h)
    else if hd < h && (0 < i.flush || hd + 2 < h) then s + min (h - hd) (orElse0 (bits w64 8 4) 1 : Nat)
    else s
/-- The next s_L (R137). -/
def nextScale (w60 w64 : Nat) (s : Int) (i : LayerInc) : Int :=
  let sset := signedOf 8 (bits w60 8 8)
  let v :=
    if bit w60 2 && !outOfScale sset then sset
    else if bit w60 0 then s
    else if 0 < i.sat + i.nonfinite then s - (orElse0 (bits w64 4 4) 2 : Nat)
    else scaleFromGrad w64 s i
  let lim := scaleLimits w60 w64
  min (max v lim.1) lim.2.1
/-- S_CUR of a layer in the step (Table 04.6). -/
def State.sCur (s : State) (h : HerdId) (layer : BitVec 12) : Int :=
  signedOf 8 (bits (s.roWord h (128 * layer.toNat + 0x10)).toNat 0 8)

/-! ## The boundary (R134) -/

/-- A 32-bit field that saturates. -/
def sat32 (n : Nat) : W32 := satAdd (0 : W32) n
/-- Actions 1 to 4 and 6 for one layer. -/
def State.layerBoundary (s : State) (h : HerdId) (l : Nat) : State :=
  let o := 128 * l
  let s := s.restoreRo h o 24
  let i := (s.herd h).incs.get {} l
  let w60 := (s.healthWord h (o + 0x60)).toNat
  let w64 := (s.healthWord h (o + 0x64)).toNat
  let clr := bit w60 1
  let put := fun (s : State) (k n : Nat) => if clr then s.putRo h (o + k) 0 else s.bumpRo h (o + k) n
  let s := put (put (put s 0 i.nonfinite) 4 i.sat) 8 i.flush
  let old10 := (s.roWord h (o + 0x10)).toNat
  let next := nextScale w60 w64 (signedOf 8 (bits old10 0 8)) i
  let gexp := if i.read then (BitVec.ofInt 16 (i.gmax.getD (-32768))).toNat else bits old10 16 16
  let s := if i.read then
      let s := (((s.putRo h (o + 0x14) (sat32 i.gzero)).putRo h (o + 0x18) (sat32 i.gcount)).putRo h (o + 0x1C)
        (sat32 i.flush))
      (List.range 16).foldl (fun s k => s.putRo h (o + 0x20 + 4 * k) (sat32 (i.hist.getD k 0))) s
    else s
  let old0C := (s.roWord h (o + 0x0C)).toNat
  let quiet := if !i.read then bits old0C 0 16
    else if i.gzero = i.gcount then min (bits old0C 0 16 + 1) 65535 else 0
  let raised := bit old0C 16 && !(i.read && i.gzero != i.gcount)
  let alarm := !raised && orElse0 (bits w60 16 16) 64 ≤ quiet
  let s := if alarm then
      s.evtHerd h 0x0003 (leBytes 4 l ++ leBytes 8 (s.stepNo h).toNat ++ leBytes 2 quiet)
    else s
  let s := s.putRo h (o + 0x0C) (BitVec.ofNat 32
    (quiet + b2n (raised || alarm) * 2 ^ 16 + b2n (scaleBad w60 w64) * 2 ^ 17))
  let s := s.putRo h (o + 0x10) (BitVec.ofNat 32 ((BitVec.ofInt 8 next).toNat + gexp * 2 ^ 16))
  if bit w60 1 || bit w60 2 then s.putHealth h (o + 0x60) (BitVec.ofNat 32 w60 &&& 0xFFFF_FFF9) else s

/-- 2^-k as FP32. -/
def pow2Neg (k : Nat) : W32 := toF32 (.fin false 1 (-(k : Int)))
/-- The threshold multiple K, unsigned 4.4 (Table 04.5). -/
def lossMultiple (k : BitVec 8) : W32 := toF32 (.fin false k.toNat (-4))
/-- The loss-spike detector (R145, R146). -/
def State.lossBoundary (s : State) (h : HerdId) : State :=
  let x := s.herd h
  let o := 0x8_0000
  if !x.lossEn || s.healthWord h (o + 4) = 0 then s
  else
    let v := s.healthWord h o
    let mean := s.roWord h (o + 8)
    let var := s.roWord h (o + 0x0C)
    let n := (s.roWord h (o + 0x10)).toNat
    let thr := fAdd mean (fMul (lossMultiple x.lossK) (fSqrt var))
    let s' := s.putHealth h (o + 4) 0
    if !isFinite32 v || (x.warmup.toNat ≤ n && fLt thr v) then
      (s'.bumpRo h (o + 0x14) 1).evtHerd h 0x0004
        (leBytes 8 ((s.stepNo h).toNat + b2n (!isFinite32 v) * 2 ^ 48) ++ leBytes 4 v.toNat ++ leBytes 4 mean.toNat
          ++ leBytes 4 thr.toNat)
    else
      let a := pow2Neg x.alphaShift.toNat
      let d := fSub v mean
      let mean' := if n = 0 then v else fAdd mean (fMul a d)
      let var' := if n = 0 then 0 else fMul (fSub one32 a) (fAdd var (fMul (fMul a d) d))
      ((s'.putRo h (o + 8) mean').putRo h (o + 0x0C) var').bumpRo h (o + 0x10) 1
/-- STEPS takes a value. -/
def State.putSteps (s : State) (h : HerdId) (v : W64) : State :=
  (s.putRo h 0x8_0018 (v.setWidth 32)).putRo h 0x8_001C ((v >>> (32 : Nat)).setWidth 32)
/-- A row that the boundary needs is lost (R472). -/
def State.healthLost (s : State) (h : HerdId) : Bool :=
  (0x1000 :: s.healthLayers h).any fun l => s.rowLost (s.herd h).healthLot.toNat (128 * l) 128
/-- The actions of a step boundary, on the increments combined over the slice (R134). -/
def State.healthBoundary (s : State) (h : HerdId) : State × Status :=
  if s.healthLost h then (s, stHwCs)
  else
    let s := (s.healthLayers h).foldl (fun s l => s.layerBoundary h l) s
    let s := (s.restoreRo h 0x8_0008 4).lossBoundary h
    let s := s.putSteps h (s.steps h + 1)
    (s.modHerd h fun x => { x with incs := {} }, stOK)
/-- The increments of an abandoned step reach the counters and nothing else (R135). -/
def State.healthAbandon (s : State) (h : HerdId) : State :=
  let s := (s.herd h).incs.entries.foldl (fun s e =>
    ((s.bumpRo h (128 * e.1) e.2.nonfinite).bumpRo h (128 * e.1 + 4) e.2.sat).bumpRo h (128 * e.1 + 8) e.2.flush) s
  s.modHerd h fun x => { x with incs := {} }

end Sys2Proof.Machine
end

