-- ==== Sys2Proof/Machine/VerbWord.lean ====
section
/-!
DEFINITION. The verb word: the load checks of one verb's own fields (R94, R151, R210, R217, R254), its decoding and its
encoding (Table 07.6 and the operand tables of chapters 03, 05, 07 and 08).
-/
namespace Sys2Proof.Machine

/-! ## Opcodes of the register verbs (Table 05.2) -/

/-- The opcode of a register verb. -/
def regCode : RegFn → BitVec 8
  | .vadd => 0x01 | .vsub => 0x02 | .vmul => 0x03 | .vfma => 0x04 | .vfnma => 0x05 | .vmax => 0x06 | .vmin => 0x07
  | .vabs => 0x08 | .vneg => 0x09 | .vrcp => 0x0A | .vdivs => 0x0B | .vrsqrt => 0x0C | .vexp2 => 0x0D | .vlog2 => 0x0E
  | .vldexp => 0x0F | .vcmp => 0x10 | .vsel => 0x11 | .vand => 0x12 | .vor => 0x13 | .vxor => 0x14 | .vshl => 0x15
  | .vsrl => 0x16 | .vsra => 0x17 | .viadd => 0x18 | .visub => 0x19 | .vimul => 0x1A | .vimax => 0x1B | .vimin => 0x1C
  | .vexpadd => 0x1E | .vpadd => 0x1F | .vpmul => 0x20 | .vpfma => 0x21 | .vmov => 0x22 | .vsplat => 0x23
  | .vlimm => 0x24 | .vlane => 0x25 | .vargmax => 0x26 | .vargmin => 0x27 | .vgetf => 0x28 | .vclrf => 0x29
/-- The register verb of an opcode. -/
def regFnOf (c : BitVec 8) : Option RegFn :=
  match c.toNat with
  | 0x01 => some .vadd | 0x02 => some .vsub | 0x03 => some .vmul | 0x04 => some .vfma | 0x05 => some .vfnma
  | 0x06 => some .vmax | 0x07 => some .vmin | 0x08 => some .vabs | 0x09 => some .vneg | 0x0A => some .vrcp
  | 0x0B => some .vdivs | 0x0C => some .vrsqrt | 0x0D => some .vexp2 | 0x0E => some .vlog2 | 0x0F => some .vldexp
  | 0x10 => some .vcmp | 0x11 => some .vsel | 0x12 => some .vand | 0x13 => some .vor | 0x14 => some .vxor
  | 0x15 => some .vshl | 0x16 => some .vsrl | 0x17 => some .vsra | 0x18 => some .viadd | 0x19 => some .visub
  | 0x1A => some .vimul | 0x1B => some .vimax | 0x1C => some .vimin | 0x1E => some .vexpadd | 0x1F => some .vpadd
  | 0x20 => some .vpmul | 0x21 => some .vpfma | 0x22 => some .vmov | 0x23 => some .vsplat | 0x24 => some .vlimm
  | 0x25 => some .vlane | 0x26 => some .vargmax | 0x27 => some .vargmin | 0x28 => some .vgetf | 0x29 => some .vclrf
  | _ => none

/-! ## Load checks on a verb's own fields -/

/-- SUB of a register verb (Table 05.1): COND of `VCMP`, the lane of `VSPLAT`, F16 of the packed verbs, else reserved. -/
def regSubOk (f : RegFn) (sub : BitVec 6) : Bool :=
  match f with
  | .vcmp => sub.extractLsb' 3 3 != 7 && sub.extractLsb' 0 3 == 0
  | .vsplat => true
  | .vpadd | .vpmul | .vpfma => sub.extractLsb' 1 5 == 0
  | _ => sub == 0
/-- IMM of a register verb: `VLIMM` alone has one (Table 05.1). -/
def regImmOk (f : RegFn) (imm : W32) : Bool := f == .vlimm || imm == 0
/-- Table 05.11 OP codes. -/
def redOpOk (op : BitVec 3) : Bool := op.toNat < 6

/-- The load checks that a verb's own fields decide: reserved codes and the combinations refused at load. -/
def verbOk : Verb → Bool
  | .mma o => o.pairs != 0 && o.aAg != o.bAg && o.fmt.toNat < 5 && !(o.fmt == 1 && o.lcode.getLsbD 0 == false)
  | .mst o => o.pairs != 0 && o.outFmt.toNat < 7 && (o.outFmt == 6 || o.rnd.toNat < 2)
  | .mclr p => p != 0
  | .agBind o =>
    (o.mode == 2 || (o.rowDim.toNat < 6 && o.colDim.toNat < 6 && o.rowDim != o.colDim)) && (o.mode == 3 || o.oob != 3)
  | .agOrigin o => o.valid != 0
  | .agConv o =>
    o.dimN != o.dimC && o.dimN != o.dimH && o.dimN != o.dimW && o.dimC != o.dimH && o.dimC != o.dimW && o.dimH != o.dimW
  | .reg f o => regSubOk f o.sub && regImmOk f o.imm
  | .vcvt o => o.conv.toNat < 8 && (4 ≤ o.conv.toNat || o.rnd.toNat < 2)
  | .vld o => o.form.toNat < 4
  | .vst o => o.form.toNat < 4 && o.rnd.toNat < 2
  | .vcur _ => true
  | .vloop _ => true
  | .vred o => redOpOk o.op
  | .bred o => redOpOk o.op && o.cells != 0 && !(o.lanewise == 1 && (o.op == 3 || o.op == 4))
  | .vrng o => o.form.toNat < 2 && o.draw != 0xFFFF
  | .rseed _ => true
  | .mov o => o.od0.toNat < 6 && o.od1.toNat < 6 && !(o.od0 == o.od1 && o.org1 != 0)
  | .bend _ => true
  | .setr o =>
    o.offset.toNat < 0xF000 && o.offset.extractLsb' 0 2 == 0 && (o.wide == 0 || o.offset.getLsbD 2 == false)
      && (o.fromNoun == 1 || (o.noun == 0 && o.index == 0))
  | .dcoef _ => true
  | .dtouch _ => true

/-! ## Encoding (Tables 03.5, 03.6, 03.10 to 03.12, 05.1, 05.5 to 05.7, 05.11, 05.12, 07.8, 07.9, 08.4) -/

/-- CLASS and OPCODE of a verb. -/
def verbCode : Verb → BitVec 4 × BitVec 8
  | .mma _ => (0, 1) | .mst _ => (0, 2) | .mclr _ => (0, 3)
  | .agBind _ => (4, 1) | .agOrigin _ => (4, 2) | .agConv _ => (4, 3)
  | .reg f _ => (1, regCode f) | .vcvt _ => (1, 0x1D) | .vld _ => (1, 0x30) | .vst _ => (1, 0x31)
  | .vcur _ => (1, 0x32) | .vloop _ => (1, 0x33)
  | .vred _ => (5, 1) | .bred _ => (5, 2) | .vrng _ => (6, 1) | .rseed _ => (6, 2)
  | .mov _ => (2, 1) | .bend _ => (3, 1) | .setr _ => (3, 2) | .dcoef _ => (7, 1) | .dtouch _ => (7, 2)
/-- The operand bits [111:0] of a verb, highest field first. -/
def verbOperands : Verb → BitVec 112
  | .mma o => o.pairs ++ o.arrange ++ o.aAg ++ o.bAg ++ o.fmt ++ o.lcode ++ o.start ++ o.mSweep ++ o.ksteps ++ 0#58
  | .mst o =>
    o.pairs ++ o.cAg ++ o.outFmt ++ o.rnd ++ o.srStream ++ o.keep ++ o.scaleAxis ++ o.layer ++ 0#76
  | .mclr p => p ++ 0#104
  | .agBind o => o.ag ++ o.mode ++ o.noun ++ o.rowDim ++ o.colDim ++ o.oob ++ 0#94
  | .agOrigin o =>
    o.ag ++ o.dim0 ++ o.dim1 ++ o.dim2 ++ o.valid ++ 0#2 ++ o.coord0 ++ o.coord1 ++ o.coord2
  | .agConv o =>
    o.ag ++ o.kh ++ o.kw ++ o.sh ++ o.sw ++ o.dh ++ o.dw ++ o.padT ++ o.padL ++ o.groups ++ o.oh ++ o.ow ++ o.dimN
      ++ o.dimC ++ o.dimH ++ o.dimW ++ 0#12
  | .reg _ o => o.cell ++ o.vd ++ o.sa ++ o.sb ++ o.sc ++ o.sub ++ o.imm ++ 0#52
  | .vcvt o =>
    o.cell ++ o.vd ++ o.sa ++ o.sb ++ o.sc ++ o.conv ++ o.rnd ++ o.srStream ++ o.layer ++ o.cur ++ 0#64
  | .vld o => o.cell ++ o.vd ++ o.noun ++ o.cur ++ o.inc ++ o.form ++ 0#92
  | .vst o =>
    o.cell ++ o.sa ++ o.noun ++ o.cur ++ o.inc ++ o.form ++ o.rnd ++ o.srStream ++ o.layer ++ o.maskEn ++ o.mreg ++ 0#66
  | .vcur o => o.cell ++ o.cur ++ o.base ++ o.lane ++ o.step ++ 0#4
  | .vloop o => o.cell ++ o.body ++ o.count ++ 0#81
  | .vred o => o.cell ++ o.vd ++ o.sa ++ o.sb ++ o.op ++ 0#92
  | .bred o => o.dest ++ o.vd ++ o.sa ++ 0#5 ++ o.op ++ o.cells ++ o.lanewise ++ 0#87
  | .vrng o => o.cell ++ o.vd ++ o.cur ++ o.inc ++ o.stream ++ o.layer ++ o.draw ++ o.form ++ 0#66
  | .rseed o => o.stream ++ o.seed ++ 0#42
  | .mov o => o.src ++ o.dst ++ o.od0 ++ o.od1 ++ o.org0 ++ o.org1 ++ o.scales ++ 0#33
  | .bend k => k ++ 0#108
  | .setr o => o.offset ++ o.imm ++ o.wide ++ o.fromNoun ++ o.noun ++ o.index
  | .dcoef o => o.cell ++ o.vd ++ o.row ++ o.checkK ++ o.kExpect ++ 0#93
  | .dtouch o => o.cell ++ o.sa ++ o.item ++ 0#81
/-- The 128-bit word of a verb (Table 07.6). -/
def encodeVerb (v : VerbWord) : W128 :=
  (verbCode v.verb).1 ++ (verbCode v.verb).2 ++ BitVec.ofBool v.issue.last ++ v.issue.wait ++ verbOperands v.verb

/-! ## Decoding -/

/-- The operands of a class and opcode; none for a reserved opcode or a reserved operand bit that is set. -/
def decodeOperands (cls : BitVec 4) (op : BitVec 8) (x : BitVec 112) : Option Verb :=
  match cls.toNat, op.toNat with
  | 0, 1 =>
    if x.extractLsb' 0 58 == 0 then
      some (.mma { pairs := x.extractLsb' 104 8, arrange := x.extractLsb' 102 2, aAg := x.extractLsb' 100 2,
                   bAg := x.extractLsb' 98 2, fmt := x.extractLsb' 94 4, lcode := x.extractLsb' 86 8,
                   start := x.extractLsb' 85 1, mSweep := x.extractLsb' 78 7, ksteps := x.extractLsb' 58 20 })
    else none
  | 0, 2 =>
    if x.extractLsb' 0 76 == 0 then
      some (.mst { pairs := x.extractLsb' 104 8, cAg := x.extractLsb' 102 2, outFmt := x.extractLsb' 98 4,
                   rnd := x.extractLsb' 96 2, srStream := x.extractLsb' 90 6, keep := x.extractLsb' 89 1,
                   scaleAxis := x.extractLsb' 88 1, layer := x.extractLsb' 76 12 })
    else none
  | 0, 3 => if x.extractLsb' 0 104 == 0 then some (.mclr (x.extractLsb' 104 8)) else none
  | 4, 1 =>
    if x.extractLsb' 0 94 == 0 then
      some (.agBind { ag := x.extractLsb' 110 2, mode := x.extractLsb' 108 2, noun := x.extractLsb' 102 6,
                      rowDim := x.extractLsb' 99 3, colDim := x.extractLsb' 96 3, oob := x.extractLsb' 94 2 })
    else none
  | 4, 2 =>
    if x.extractLsb' 96 2 == 0 then
      some (.agOrigin { ag := x.extractLsb' 110 2, dim0 := x.extractLsb' 107 3, dim1 := x.extractLsb' 104 3,
                        dim2 := x.extractLsb' 101 3, valid := x.extractLsb' 98 3, coord0 := x.extractLsb' 64 32,
                        coord1 := x.extractLsb' 32 32, coord2 := x.extractLsb' 0 32 })
    else none
  | 4, 3 =>
    if x.extractLsb' 0 12 == 0 then
      some (.agConv { ag := x.extractLsb' 110 2, kh := x.extractLsb' 105 5, kw := x.extractLsb' 100 5,
                      sh := x.extractLsb' 96 4, sw := x.extractLsb' 92 4, dh := x.extractLsb' 88 4,
                      dw := x.extractLsb' 84 4, padT := x.extractLsb' 80 4, padL := x.extractLsb' 76 4,
                      groups := x.extractLsb' 60 16, oh := x.extractLsb' 42 18, ow := x.extractLsb' 24 18,
                      dimN := x.extractLsb' 21 3, dimC := x.extractLsb' 18 3, dimH := x.extractLsb' 15 3,
                      dimW := x.extractLsb' 12 3 })
    else none
  | 1, 0x1D =>
    if x.extractLsb' 0 64 == 0 then
      some (.vcvt { cell := x.extractLsb' 110 2, vd := x.extractLsb' 105 5, sa := x.extractLsb' 100 5,
                    sb := x.extractLsb' 95 5, sc := x.extractLsb' 90 5, conv := x.extractLsb' 86 4,
                    rnd := x.extractLsb' 84 2, srStream := x.extractLsb' 78 6, layer := x.extractLsb' 66 12,
                    cur := x.extractLsb' 64 2 })
    else none
  | 1, 0x30 =>
    if x.extractLsb' 0 92 == 0 then
      some (.vld { cell := x.extractLsb' 110 2, vd := x.extractLsb' 105 5, noun := x.extractLsb' 99 6,
                   cur := x.extractLsb' 97 2, inc := x.extractLsb' 96 1, form := x.extractLsb' 92 4 })
    else none
  | 1, 0x31 =>
    if x.extractLsb' 0 66 == 0 then
      some (.vst { cell := x.extractLsb' 110 2, sa := x.extractLsb' 105 5, noun := x.extractLsb' 99 6,
                   cur := x.extractLsb' 97 2, inc := x.extractLsb' 96 1, form := x.extractLsb' 92 4,
                   rnd := x.extractLsb' 90 2, srStream := x.extractLsb' 84 6, layer := x.extractLsb' 72 12,
                   maskEn := x.extractLsb' 71 1, mreg := x.extractLsb' 66 5 })
    else none
  | 1, 0x32 =>
    if x.extractLsb' 0 4 == 0 then
      some (.vcur { cell := x.extractLsb' 110 2, cur := x.extractLsb' 108 2, base := x.extractLsb' 60 48,
                    lane := x.extractLsb' 36 24, step := x.extractLsb' 4 32 })
    else none
  | 1, 0x33 =>
    if x.extractLsb' 0 81 == 0 then
      some (.vloop { cell := x.extractLsb' 110 2, body := x.extractLsb' 105 5, count := x.extractLsb' 81 24 })
    else none
  | 1, _ =>
    match regFnOf op with
    | none => none
    | some f =>
      if x.extractLsb' 0 52 == 0 then
        some (.reg f { cell := x.extractLsb' 110 2, vd := x.extractLsb' 105 5, sa := x.extractLsb' 100 5,
                       sb := x.extractLsb' 95 5, sc := x.extractLsb' 90 5, sub := x.extractLsb' 84 6,
                       imm := x.extractLsb' 52 32 })
      else none
  | 5, 1 =>
    if x.extractLsb' 0 92 == 0 then
      some (.vred { cell := x.extractLsb' 110 2, vd := x.extractLsb' 105 5, sa := x.extractLsb' 100 5,
                    sb := x.extractLsb' 95 5, op := x.extractLsb' 92 3 })
    else none
  | 5, 2 =>
    if x.extractLsb' 0 87 == 0 && x.extractLsb' 95 5 == 0 then
      some (.bred { dest := x.extractLsb' 110 2, vd := x.extractLsb' 105 5, sa := x.extractLsb' 100 5,
                    op := x.extractLsb' 92 3, cells := x.extractLsb' 88 4, lanewise := x.extractLsb' 87 1 })
    else none
  | 6, 1 =>
    if x.extractLsb' 0 66 == 0 then
      some (.vrng { cell := x.extractLsb' 110 2, vd := x.extractLsb' 105 5, cur := x.extractLsb' 103 2,
                    inc := x.extractLsb' 102 1, stream := x.extractLsb' 96 6, layer := x.extractLsb' 84 12,
                    draw := x.extractLsb' 68 16, form := x.extractLsb' 66 2 })
    else none
  | 6, 2 =>
    if x.extractLsb' 0 42 == 0 then
      some (.rseed { stream := x.extractLsb' 106 6, seed := x.extractLsb' 42 64 })
    else none
  | 2, 1 =>
    if x.extractLsb' 0 33 == 0 then
      some (.mov { src := x.extractLsb' 106 6, dst := x.extractLsb' 100 6, od0 := x.extractLsb' 97 3,
                   od1 := x.extractLsb' 94 3, org0 := x.extractLsb' 64 30, org1 := x.extractLsb' 34 30,
                   scales := x.extractLsb' 33 1 })
    else none
  | 3, 1 => if x.extractLsb' 0 108 == 0 then some (.bend (x.extractLsb' 108 4)) else none
  | 3, 2 =>
    some (.setr { offset := x.extractLsb' 96 16, imm := x.extractLsb' 32 64, wide := x.extractLsb' 31 1,
                  fromNoun := x.extractLsb' 30 1, noun := x.extractLsb' 24 6, index := x.extractLsb' 0 24 })
  | 7, 1 =>
    if x.extractLsb' 0 93 == 0 then
      some (.dcoef { cell := x.extractLsb' 110 2, vd := x.extractLsb' 105 5, row := x.extractLsb' 99 6,
                     checkK := x.extractLsb' 98 1, kExpect := x.extractLsb' 93 5 })
    else none
  | 7, 2 =>
    if x.extractLsb' 0 81 == 0 then
      some (.dtouch { cell := x.extractLsb' 110 2, sa := x.extractLsb' 105 5, item := x.extractLsb' 81 24 })
    else none
  | _, _ => none

/-- The verb of a 128-bit word; none when a load check on the word alone fails (R94, R151, R209, R210, R254). -/
def decodeVerb (w : W128) : Option VerbWord :=
  match decodeOperands (w.extractLsb' 124 4) (w.extractLsb' 116 8) (w.extractLsb' 0 112) with
  | some v =>
    if verbOk v then some { verb := v, issue := { last := w.getLsbD 115, wait := w.extractLsb' 112 3 } } else none
  | none => none

/-- The matrix or vector cell that a verb of class 0x1, 0x5 or 0x6 names (R164); none for the other classes, `BRED`,
`RSEED` and `VLOOP`. -/
def loopCell : Verb → Option (BitVec 2)
  | .reg _ o => some o.cell
  | .vcvt o => some o.cell
  | .vld o => some o.cell
  | .vst o => some o.cell
  | .vcur o => some o.cell
  | .vred o => some o.cell
  | .vrng o => some o.cell
  | _ => none

/-- Segments that a verb word ends (R215). -/
def segEnds (w : VerbWord) : Nat :=
  (match w.verb with | .bend k => k.toNat + 1 | _ => 0) + (if w.issue.last then 1 else 0)

end Sys2Proof.Machine
end

