-- ==== Sys2Proof/Machine/Sentence.lean ====
section
/-!
DEFINITION. The Sentence image: header and directory (Tables 07.1, 07.2), Clause table, Clauses, beat plan, route plan,
reduction plan and declension section, the load checks 0x20 to 0x27 in their order (Table 07.5, R249, R289, R298, R318),
and the Sentence an image stands for. An image is its bytes; a failed check names the byte offset of its field.
-/
namespace Sys2Proof.Machine

/-- Image bytes. -/
abbrev Img := List Byte
/-- `k` bytes at an offset, little-endian. -/
def u (m : Img) (o k : Nat) : Nat := fieldLe m o k
/-- The first field that fails: pairs of a failing condition and the field's offset. -/
def firstBad (l : List (Bool × Nat)) : Option Nat := (l.find? (·.1)).map (·.2)
/-- The bytes of a reserved range, each of which must be 0. -/
def reservedBytes (m : Img) (o k : Nat) : List (Bool × Nat) :=
  (sliceBytes m o k).zipIdx.map fun e => (e.1 != 0, o + e.2)
/-- Some byte of a range is not zero. -/
def nonZero (m : Img) (o k : Nat) : Bool := (sliceBytes m o k).any (· != 0)

/-! ## Header and directory (check 0x21) -/

/-- A section: its type, offset and length, with the offset of its directory entry. -/
structure Section where
  type : Nat
  off : Nat
  len : Nat
  dir : Nat
deriving DecidableEq, Repr

/-- The sections of an image, in directory order, unused entries left out. -/
def sections (m : Img) : List Section :=
  ((List.range 8).map fun i =>
    let d := 0x40 + 16 * i
    { type := u m d 4, off := u m (d + 8) 4, len := u m (d + 12) 4, dir := d : Section }).filter fun x => x.type != 0
/-- The section of a type; an absent one has length 0. -/
def sectionOf (m : Img) (t : Nat) : Section := ((sections m).find? fun x => x.type = t).getD ⟨t, 0x100, 0, 0x40⟩
/-- A section's bytes. -/
def Section.bytes (x : Section) (m : Img) : Img := sliceBytes m x.off x.len
/-- What is wrong with one directory entry, given those before it. -/
def dirBad (m : Img) (before : List Section) (x : Section) : List (Bool × Nat) :=
  [(6 < x.type, x.dir), (before.any fun y => y.type = x.type, x.dir),
   (x.off % 64 != 0 || x.off < 0x100, x.dir + 8), (m.length < x.off + x.len, x.dir + 8),
   (before.any fun y => 0 < x.len && 0 < y.len && x.off < y.off + y.len && y.off < x.off + x.len, x.dir + 8)]
/-- The entries of the directory, each judged against those before it. -/
def dirsBad (m : Img) : List Section → List Section → List (Bool × Nat)
  | _, [] => []
  | before, x :: r => dirBad m before x ++ dirsBad m (before ++ [x]) r
/-- Sections other than CLAUSE_TABLE and CLAUSES past 512 KiB: the entry at which the sum passes it. -/
def bigAt : Nat → List Section → List (Bool × Nat)
  | _, [] => []
  | n, x :: r =>
    let n' := if 3 ≤ x.type then n + x.len else n
    (0x80000 < n', x.dir + 12) :: bigAt n' r
/-- Check 0x21: `bytes` is the order's BYTES. -/
def headBad (m : Img) (bytes : Nat) : Option Nat :=
  let n := u m 0x08 4
  let c := bits (u m 0x0C 4) 4 9
  let ss := sections m
  firstBad ([(u m 0 4 != 0x46565331, 0), (u m 4 2 != 1, 4), (u m 4 4 / 2 ^ 18 != 0, 4),
    (n % 64 != 0 || n < 256 || 134217728 < n || n != bytes, 8), (c = 0 || 384 < c, 0xC), (u m 0xC 4 / 2 ^ 13 != 0, 0xC),
    (u m 0x10 4 = 0, 0x10)] ++ reservedBytes m 0x18 40 ++
    ((List.range 8).map fun i => (nonZero m (0x44 + 16 * i) 4, 0x44 + 16 * i)) ++ reservedBytes m 0xC0 64 ++
    dirsBad m [] ss ++
    [(([1, 2, 3] : List Nat).any fun t => !(ss.any fun x => x.type = t), 0x40),
     ((sectionOf m 1).len != 16 * c, (sectionOf m 1).dir + 12)] ++ bigAt 0 ss)

/-! ## Clause table (check 0x23) -/

/-- The Clause table entries: image offset and bytes. -/
def clauseRows (m : Img) : List (Nat × Img) :=
  let x := sectionOf m 1
  (List.range (x.len / 16)).map fun i => (x.off + 16 * i, sliceBytes m (x.off + 16 * i) 16)
/-- Two patterns over slice positions below 2^j select a common position. -/
def compatible (j m1 v1 m2 v2 : Nat) : Bool := v1 / 2 ^ j = 0 && v2 / 2 ^ j = 0 && ((v1 ^^^ v2) &&& m1 &&& m2) = 0
/-- What is wrong with one Clause table entry, given those before it: `j` is SLICE_J, `blocks` the herd's block count. -/
def clauseBad (m : Img) (j blocks : Nat) (before : List (Nat × Img)) (e : Nat × Img) : List (Bool × Nat) :=
  let r := e.2
  let blk := bits (u r 0 4) 0 9
  let mk := bits (u r 4 4) 0 15
  let mt := bits (u r 4 4) 16 15
  let off := u r 8 4
  let n := u r 12 2
  [(u r 0 4 / 512 != 0 || blocks ≤ blk, e.1), (bit (u r 4 4) 15 || bit (u r 4 4) 31 || mt &&& mk != mt, e.1 + 4),
   (off % 16 != 0 || (sectionOf m 2).len < off + 16 * n, e.1 + 8), (n = 0 || 16384 < n || u r 14 2 != 0, e.1 + 12),
   (before.any fun q => bits (u q.2 0 4) 0 9 = blk
      && compatible j mk mt (bits (u q.2 4 4) 0 15) (bits (u q.2 4 4) 16 15), e.1)]
/-- Every entry against those before it. -/
def clausesBad (m : Img) (j blocks : Nat) : List (Nat × Img) → List (Nat × Img) → List (Bool × Nat)
  | _, [] => []
  | before, e :: r => clauseBad m j blocks before e ++ clausesBad m j blocks (before ++ [e]) r
/-- Check 0x23. -/
def tableBad (m : Img) (j blocks : Nat) : Option Nat :=
  firstBad ((bits (u m 0xC 4) 0 4 != j, 0xC) :: clausesBad m j blocks [] (clauseRows m))

/-! ## Clauses (checks 0x24 and 0x26) -/

/-- The verb words of a Clause, with their image offsets. -/
def clauseWords (m : Img) (r : Img) : List (Nat × W128) :=
  let o := (sectionOf m 2).off + u r 8 4
  (List.range (u r 12 2)).map fun i => (o + 16 * i, BitVec.ofNat 128 (u m (o + 16 * i) 16))
/-- The body verbs of a loop keep R164. -/
def bodyOk (cell : BitVec 2) (w : VerbWord) : Bool := loopCell w.verb == some cell && !w.issue.last
/-- The item of a `DTOUCH` exists and is sparse (R254); `sparse` tells it of each item. -/
def touchOk (sparse : List Bool) : Verb → Bool
  | .dtouch o => sparse.getD o.item.toNat false
  | _ => true
/-- The first verb of a Clause that fails check 0x24. -/
def verbsBad (sparse : List Bool) : List (Nat × W128) → Option Nat
  | [] => none
  | (o, w) :: r =>
    match decodeVerb w with
    | none => some o
    | some v =>
      if !touchOk sparse v.verb then some o
      else match v.verb with
      | .vloop l =>
        let n := l.body.toNat + 1
        if r.length < n then some o
        else match (r.take n).find? fun e => !((decodeVerb e.2).map (bodyOk l.cell)).getD false with
          | some e => some e.1
          | none => verbsBad sparse r
      | _ => verbsBad sparse r
/-- SPARSE of each declension item. -/
def sparseOf (m : Img) : List Bool :=
  let x := sectionOf m 6
  (List.range (x.len / 128)).map fun i => bit (u m (x.off + 128 * i) 8) 20
/-- Check 0x24. -/
def verbBad (m : Img) : Option Nat := (clauseRows m).findSome? fun e => verbsBad (sparseOf m) (clauseWords m e.2)
/-- The verbs of a Clause. -/
def clauseVerbs (m : Img) (r : Img) : List VerbWord := (clauseWords m r).filterMap fun e => decodeVerb e.2
/-- Check 0x26 on one Clause: exactly `beats` segment ends, the last at the last verb. -/
def endsOk (beats : Nat) (l : List VerbWord) : Bool :=
  (l.map segEnds).sum = beats && (match l.getLast? with | some w => 0 < segEnds w | none => false)
/-- Check 0x26. -/
def endsBad (m : Img) : Option Nat :=
  firstBad ((clauseRows m).map fun e => (!endsOk (u m 0x10 4) (clauseVerbs m e.2), e.1 + 12))

/-! ## Beat plan (check 0x25) -/

/-- The beat plan's entries: image offset and entry. -/
def planRows (m : Img) : List (Nat × PlanEntry) :=
  let x := sectionOf m 3
  (List.range (x.len / 16)).map fun i =>
    let o := x.off + 16 * i
    (o, { beat := u m o 4, kind := BitVec.ofNat 8 (u m (o + 4) 1), item := u m (o + 4) 4 / 256 })
/-- Items of the reduction plan by its length, and of the declension section. -/
def redCount (m : Img) : Nat := (sectionOf m 5).len / 64 - 1
def dclCount (m : Img) : Nat := (sectionOf m 6).len / 128
/-- What is wrong with one entry, given the one before it. -/
def planBad (m : Img) (beats : Nat) (prev : Nat) (e : Nat × PlanEntry) : List (Bool × Nat) :=
  let k := e.2.kind
  [(beats ≤ e.2.beat || e.2.beat < prev, e.1), (k = 0 || 3 < k.toNat, e.1 + 4),
   ((k = 1 && redCount m ≤ e.2.item) || (k = 2 && dclCount m ≤ e.2.item), e.1 + 4), (nonZero m (e.1 + 8) 8, e.1 + 8)]
/-- Every entry against the one before it. -/
def plansBad (m : Img) (beats : Nat) : Nat → List (Nat × PlanEntry) → List (Bool × Nat)
  | _, [] => []
  | prev, e :: r => planBad m beats prev e ++ plansBad m beats e.2.beat r
/-- Check 0x25, with R318. -/
def beatBad (m : Img) : Option Nat :=
  let x := sectionOf m 3
  let beats := u m 0x10 4
  let rows := planRows m
  let commits := rows.filter fun e => e.2.kind = 3
  let commit := bit (u m 4 4) 17
  firstBad ((x.len % 16 != 0, x.dir + 12) :: plansBad m beats 0 rows ++
    [(commit && commits.length != 1, ((commits[1]?).map (·.1)).getD x.off),
     (!commit && !commits.isEmpty, ((commits.head?).map (·.1)).getD x.off)] ++
    (rows.map fun e => (commit && (if e.2.kind = 3 then e.2.beat + 1 != beats else e.2.kind = 2 && beats ≤ e.2.beat + 1), e.1)))

/-! ## Route plan (check 0x27, R289) -/

/-- The route entries: image offset and entry. -/
def routeRows (m : Img) : List (Nat × RouteEnt) :=
  let x := sectionOf m 4
  (List.range (x.len / 32)).map fun i =>
    let o := x.off + 32 * i
    let mm := u m (o + 4) 4
    (o, { beat := u m o 4, mask := BitVec.ofNat 15 mm, mtch := BitVec.ofNat 15 (mm / 2 ^ 16)
          delta := BitVec.ofNat 15 (u m (o + 8) 4), descending := bit (u m (o + 8) 4) 15, bytes := u m (o + 12) 4
          src := u m (o + 16) 6, dst := u m (o + 24) 6 })
/-- The receivers of an entry, as mask and match. -/
def routeRecv (r : RouteEnt) : Nat × Nat := (r.mask.toNat, (r.mtch ^^^ (r.delta &&& r.mask)).toNat)
/-- What is wrong with one route entry, given those before it. -/
def routeBad (m : Img) (j beats : Nat) (before : List (Nat × RouteEnt)) (e : Nat × RouteEnt) : List (Bool × Nat) :=
  let r := e.2
  let o := e.1
  let w := u m (o + 4) 4
  [(beats ≤ r.beat || (match before.getLast? with | some q => r.beat < q.2.beat | none => false), o),
   (bit w 15 || bit w 31 || r.mtch &&& r.mask != r.mtch || r.mask.toNat / 2 ^ j != 0 || r.mtch.toNat / 2 ^ j != 0, o + 4),
   (u m (o + 10) 2 != 0 || r.delta = 0 || r.delta.toNat / 2 ^ j != 0, o + 8),
   (r.bytes = 0 || r.bytes % 64 != 0, o + 12), (u m (o + 22) 2 != 0, o + 16), (u m (o + 30) 2 != 0, o + 24),
   (before.any fun q => q.2.beat = r.beat && compatible j (routeRecv q.2).1 (routeRecv q.2).2 (routeRecv r).1 (routeRecv r).2
      && meets (q.2.dst, q.2.dst + q.2.bytes) (r.dst, r.dst + r.bytes), o + 24)]
/-- Every route entry against those before it. -/
def routesBad (m : Img) (j beats : Nat) : List (Nat × RouteEnt) → List (Nat × RouteEnt) → List (Bool × Nat)
  | _, [] => []
  | before, e :: r => routeBad m j beats before e ++ routesBad m j beats (before ++ [e]) r

/-! ## Reduction plan (check 0x27, R298) -/

/-- The reduction items: image offset and item. -/
def redRows (m : Img) : List (Nat × RedItem) :=
  let x := sectionOf m 5
  (List.range (x.len / 64 - 1)).map fun i =>
    let o := x.off + 64 * (i + 1)
    let a := u m o 4
    (o, { op := BitVec.ofNat 4 a, elem := BitVec.ofNat 4 (a / 16), scaled := bit a 8, wire := bit a 9, ring := bit a 10
          patient := bit a 11, drop := bit a 12, normEn := bit a 13, normSlot := BitVec.ofNat 4 (a / 2 ^ 14)
          layer := BitVec.ofNat 12 (a / 2 ^ 18), groupMask := BitVec.ofNat 15 (u m (o + 4) 4), n := u m (o + 8) 4
          patienceUs := BitVec.ofNat 32 (u m (o + 12) 4), src := u m (o + 16) 6, dst := u m (o + 24) 6
          ssrc := u m (o + 32) 6, sdst := u m (o + 40) 6, cbuf := u m (o + 48) 6 })
/-- The first four operations, which move N elements in parts. -/
def redParted (i : RedItem) : Bool := 1 ≤ i.op.toNat && i.op.toNat ≤ 4
/-- REDUCE_SCATTER or ALL_REDUCE. -/
def redSums (i : RedItem) : Bool := i.op == 1 || i.op == 3
/-- Number of set bits. -/
def popCount (n : Nat) : Nat := ((List.range 48).filter fun i => n.testBit i).length
/-- M: members of the group. -/
def redMembers (i : RedItem) : Nat := 2 ^ popCount i.groupMask.toNat
/-- What is wrong with one reduction item. -/
def redBad (m : Img) (j carryD : Nat) (e : Nat × RedItem) : List (Bool × Nat) :=
  let i := e.2
  let o := e.1
  let unit := if elemBits i.elem = 4 then 128 else 64
  let p := i.n / redMembers i
  [(i.op = 0 || 6 < i.op.toNat || 9 ≤ i.elem.toNat || u m o 4 / 2 ^ 30 != 0, o),
   (redSums i && (i.elem = 5 || 7 ≤ i.elem.toNat), o),
   (i.scaled && (!(i.elem = 3 || i.elem = 4) || !redParted i || (redSums i && i.wire)), o),
   (i.patient && !redSums i, o), (i.patient && !i.drop && carryD = 0, o), (i.normEn && !redSums i, o),
   (u m (o + 4) 4 / 2 ^ 15 != 0 || i.groupMask.toNat / 2 ^ j != 0, o + 4),
   (redParted i && (i.n = 0 || 2 ^ 31 < i.n || i.n % redMembers i != 0 || p % unit != 0), o + 8),
   (i.op = 5 && (i.n = 0 || 16 < i.n), o + 8), (i.patient && i.patienceUs = 0, o + 12)]
    ++ (([0x10, 0x18, 0x20, 0x28, 0x30] : List Nat).map fun k => (u m (o + k + 6) 2 != 0, o + k)) ++ [(nonZero m (o + 0x38) 8, o + 0x38)]
/-- The beats in which the plan names an item of a kind. -/
def namedIn (m : Img) (kind : BitVec 8) (item : Nat) : List Nat :=
  ((planRows m).filter fun e => e.2.kind = kind && e.2.item = item).map fun e => e.2.beat
/-- What is wrong with the norm slots and with the naming of items (R298). -/
def redNormBad (m : Img) (rows : List (Nat × RedItem)) : List (Bool × Nat) :=
  (rows.zipIdx).flatMap fun (e : (Nat × RedItem) × Nat) =>
    let i := e.1.2
    let fins := (rows.zipIdx).filter fun (f : (Nat × RedItem) × Nat) => f.1.2.op = 6 && f.1.2.normSlot = i.normSlot
    let b := fun k => (namedIn m 1 k).headD 0
    [((namedIn m 1 e.2).length != 1, e.1.1),
     (i.op = 6 && fins.any fun f => f.2 < e.2, e.1.1),
     (i.normEn && fins.any fun f => b f.2 ≤ b e.2, e.1.1)]
/-- The reduction plan. -/
def redsBad (m : Img) (j : Nat) : List (Bool × Nat) :=
  let x := sectionOf m 5
  if (sections m).any fun y => y.type = 5 then
    let n := u m x.off 4
    let d := u m (x.off + 4) 4
    let rows := redRows m
    [(n = 0 || 65536 < n, x.off), (x.len != 64 * (n + 1), x.dir + 12), (64 < d, x.off + 4), (nonZero m (x.off + 8) 56, x.off + 8)]
      ++ (rows.flatMap fun e => redBad m j (d % 128) e) ++ redNormBad m rows
  else []

/-! ## Declension section (check 0x27, R249) -/

/-- The declension items: image offset and item. -/
def dclRows (m : Img) : List (Nat × DclItem) :=
  let x := sectionOf m 6
  (List.range (x.len / 128)).map fun k =>
    let o := x.off + 128 * k
    let a := u m o 8
    let b := u m (o + 8) 8
    let ad := fun f => u m (o + f) 6
    (o, { layer := BitVec.ofNat 12 a, row := BitVec.ofNat 6 (a / 2 ^ 12), phase := BitVec.ofNat 2 (a / 2 ^ 18)
          sparse := bit a 20, mix := bit a 21, trust := BitVec.ofNat 2 (a / 2 ^ 22), gFmt := BitVec.ofNat 4 (a / 2 ^ 24)
          gScaled := bit a 28, wFmt := BitVec.ofNat 4 (a / 2 ^ 29), sFmt := BitVec.ofNat 4 (a / 2 ^ 33), wSr := bit a 37
          srStream := BitVec.ofNat 6 (a / 2 ^ 38), rows := bits b 0 24 + 1, rowLen := bits b 24 24 + 1
          gBase := ad 0x10, gSBase := ad 0x18, wBase := ad 0x20, mBase := ad 0x28, vBase := ad 0x30, lastBase := ad 0x38
          maskBase := ad 0x40, tStride := ad 0x48, gnormAddr := ad 0x50, gnormEn := bit (u m (o + 0x50) 8) 63
          xbuf := ad 0x58 })
/-- What is wrong with one declension item by itself. -/
def dclBad (m : Img) (e : Nat × DclItem) : List (Bool × Nat) :=
  let i := e.2
  let o := e.1
  [(i.phase = 3 || i.trust = 3 || 4 < i.gFmt.toNat || 1 < i.wFmt.toNat || 1 < i.sFmt.toNat || u m o 8 / 2 ^ 44 != 0, o),
   (i.gScaled && (!(i.gFmt = 3 || i.gFmt = 4) || i.rowLen % 32 != 0), o),
   (if i.phase = 0 then i.mix || i.trust = 2 else !(i.mix || i.trust = 2), o),
   (i.mix && (i.trust != 0 || i.sparse), o),
   (u m (o + 14) 2 != 0 || 2 ^ 32 < i.rows * i.rowLen, o + 8)]
    ++ (([0x10, 0x18, 0x20, 0x28, 0x30, 0x38, 0x40, 0x48, 0x58] : List Nat).map fun k => (u m (o + k + 6) 2 != 0, o + k))
    ++ [(i.tStride % 64 != 0, o + 0x48), (u m (o + 0x56) 2 % 2 ^ 15 != 0, o + 0x50), (nonZero m (o + 0x60) 32, o + 0x60)]
/-- Two items match but for their PHASE. -/
def dclMatch (a b : DclItem) : Bool := { a with phase := 0 } == { b with phase := 0 }
/-- What is wrong among the declension items: naming, pairs of phases, layers. -/
def dclsBad (m : Img) : List (Bool × Nat) :=
  let x := sectionOf m 6
  let rows := dclRows m
  let z := rows.zipIdx
  let b := fun k => (namedIn m 2 k).headD 0
  let pair := fun (e f : (Nat × DclItem) × Nat) => e.1.2.phase = 1 && f.1.2.phase = 2 && dclMatch e.1.2 f.1.2
  (x.len % 128 != 0, x.dir + 12) :: (rows.flatMap fun e => dclBad m e) ++ z.flatMap fun e =>
    let posts := z.filter fun f => pair e f && b e.2 < b f.2
    let gap := if e.1.2.mix then 2 else 1
    [((namedIn m 2 e.2).length != 1, e.1.1),
     (e.1.2.phase = 1 && (posts.length != 1 || posts.any fun f => b f.2 < b e.2 + gap), e.1.1),
     (e.1.2.phase = 2 && !(z.any fun f => pair f e && b f.2 < b e.2), e.1.1),
     (z.any fun f => f.2 < e.2 && f.1.2.layer = e.1.2.layer && !pair f e && !pair e f, e.1.1)]

/-! ## The load (R207) -/

/-- Check 0x27. -/
def itemsBad (m : Img) (j : Nat) : Option Nat :=
  firstBad (((sectionOf m 4).len % 32 != 0, (sectionOf m 4).dir + 12) :: routesBad m j (u m 0x10 4) [] (routeRows m)
    ++ redsBad m j ++ dclsBad m)
/-- The first check that an image fails for a herd: status, code and offset. Checks 0x20 and 0x22 name no field and give offset 0
(DESIGN CHOICE, log entry 165). -/
def State.loadBad (s : State) (h : HerdId) (m : Img) (bytes : Nat) : Option (Status × BitVec 8 × Nat) :=
  let x := s.herd h
  let cfg := fun (c : BitVec 8) (o : Nat) => (stCfgInvalid, c, o)
  let retired := (List.range 48).any fun g => x.hasGroup g && s.repair.groupRetired.get false g
  if retired then some (stCapacityChanged, 0x20, 0)
  else match headBad m bytes with
  | some o => some (cfg 0x21 o)
  | none =>
    let bound := (x.form.map (·.meas)).getD []
    if !bound.isEmpty && sha256 m != bound then some (stMeasMismatch, 0x22, 0)
    else match tableBad m x.dims.length (s.blocksOf h).length with
    | some o => some (cfg 0x23 o)
    | none => match verbBad m with
    | some o => some (cfg 0x24 o)
    | none => match beatBad m with
    | some o => some (cfg 0x25 o)
    | none => match endsBad m with
    | some o => some (cfg 0x26 o)
    | none => (itemsBad m x.dims.length).map (cfg 0x27)
/-- The Sentence of an image that passes. -/
def sentenceOf (m : Img) : Sentence :=
  { det := bit (u m 4 4) 16, commit := bit (u m 4 4) 17, sliceJ := bits (u m 0xC 4) 0 4, beats := u m 0x10 4
    beatLimitMs := u m 0x14 4, meas := sha256 m
    clauses := (clauseRows m).map fun e =>
      { herdBlock := bits (u e.2 0 4) 0 9, mask := BitVec.ofNat 15 (u e.2 4 4), mtch := BitVec.ofNat 15 (u e.2 4 4 / 2 ^ 16)
        verbs := clauseVerbs m e.2 }
    plan := (planRows m).map (·.2), routes := (routeRows m).map (·.2)
    carryD := if (sections m).any (fun y => y.type = 5) then u m ((sectionOf m 5).off + 4) 4 else 0
    reds := (redRows m).map (·.2), dcls := (dclRows m).map (·.2) }
/-- The load of an image at a host address (R207): what it will end with. -/
def State.loadOf (s : State) (h : HerdId) (ref : OrderRef) (addr bytes : Nat) : LoadRun :=
  let n := fieldLe (s.hostRead addr 12) 8 4
  let m := s.hostRead addr (if n = bytes then n else 256)
  match s.loadBad h m bytes with
  | some (st, c, o) => { ref := ref, result := none, status := st.setWidth 8, code := c, where_ := BitVec.ofNat 32 o }
  | none => { ref := ref, result := some (sentenceOf m), status := 0, code := 0, where_ := 0 }

end Sys2Proof.Machine
end

