-- ==== Sys2Proof/Machine/Matrix.lean ====
section
/-!
DEFINITION. Matrix cells (chapter 03): address generators (R106 to R111), the steps of a cell pair and its accumulation
tiers (R78 to R93, Table 03.2), run-time checks (Table 03.8), and the fused store (R98, R99, R112, R113, R129).
-/
namespace Sys2Proof.Machine

/-! ## Formats (Table 03.1) -/

/-- G: elements per chunk. -/
def fmtG (fmt : BitVec 4) : Nat := if fmt = 1 || fmt = 4 then 32 else if fmt = 2 then 8 else 16
/-- Integer mode. -/
def fmtInt (fmt : BitVec 4) : Bool := fmt == 3 || fmt == 4
/-- An element format belongs to FMT. -/
def fmtTakes (fmt e : BitVec 4) : Bool :=
  match fmt.toNat with
  | 0 => e == 3 || e == 4
  | 1 => e == 5
  | 2 => e == 1 || e == 2
  | 3 => e == 7
  | _ => e == 8
/-- L: the chunk length. -/
def chunkLen (lcode : BitVec 8) : Nat := 16 * (lcode.toNat + 1)

/-! ## Address generators -/

/-- A generator of a block. -/
def Block.ag (b : Block) (k : BitVec 2) : Ag := b.ags.get {} k.toNat
def Block.setAg (b : Block) (k : BitVec 2) (a : Ag) : Block := { b with ags := b.ags.set {} k.toNat a }
/-- The origin along a dimension code. -/
def Ag.org (a : Ag) (d : Nat) : Int := a.origin.get 0 d
/-- The dimension code that counts the reduction: COL_DIM in mode A, ROW_DIM in mode B, K itself in mode CONV_A. -/
def Ag.kCode (a : Ag) : Nat := if a.mode = 0 then a.colDim.toNat else if a.mode = 1 then a.rowDim.toNat else 6
/-- The Noun dimension that the generator uses as K (R184): DIM_C in mode CONV_A. -/
def Ag.kDim (a : Ag) : Nat := if a.mode = 2 then (a.conv.map fun c => c.dimC.toNat).getD 6 else a.kCode
/-- Out-of-bounds rows, columns and positions are zero rather than clamped (R110, R196). -/
def Ag.zeroes (a : Ag) (n : Noun) : Bool := a.oob == 2 || (a.oob == 0 && n.maskz)
/-- The element at a coordinate, of which dimension `kd` is the reduction; none: delivered as zero (R110, R196). -/
def Piece.resolve (p : Piece) (kd : Nat) (zero : Bool) (c : List Int) : Option (List Nat) :=
  let inR := fun (x : Int) (r : Nat × Nat) => decide ((r.1 : Int) ≤ x) && decide (x < (r.2 : Int))
  if !(p.ranges.all fun r => r.1 < r.2) || !inR (c.getD kd 0) (p.ranges.getD kd (0, 0)) then none
  else if (c.zip p.ranges).all fun e => inR e.1 e.2 then some (c.map Int.toNat)
  else if zero then none else p.clamp c
/-- Coordinates with every dimension at its origin, but for those a position gives. -/
def Ag.coords (a : Ag) (rank : Nat) (set : List (Nat × Int)) : List Int :=
  (List.range rank).map fun d => match set.find? fun e => e.1 = d with | some e => e.2 | none => a.org d
/-- The element that a generator in mode A, B or CONV_A delivers at row or column `x` and reduction index `k`, both
counted as R106 and R109 count them; none: zero. Division and remainder of a negative count round towards minus infinity (DESIGN
CHOICE, log entry 159). -/
def Ag.element (a : Ag) (p : Piece) (x k : Int) : Option (List Nat) :=
  let rank := p.loc.length
  if a.mode = 2 then
    match a.conv with
    | none => none
    | some v =>
      let cg : Int := (p.loc.getD v.dimC.toNat 0 / (v.groups.toNat + 1) : Nat)
      let (kh, kw) : Int × Int := (v.kh.toNat + 1, v.kw.toNat + 1)
      let (oh, ow) : Int × Int := (v.oh.toNat + 1, v.ow.toNat + 1)
      if k < 0 || kh * kw * cg ≤ k then none
      else
        let col := x.fmod ow
        let row := (x.fdiv ow).fmod oh
        let nb := x.fdiv (ow * oh)
        let c := a.org v.dimC.toNat + k.fmod cg
        let iw := (k.fdiv cg).fmod kw
        let ih := k.fdiv (cg * kw)
        let h := row * (v.sh.toNat + 1) - v.padT.toNat + ih * (v.dh.toNat + 1)
        let w := col * (v.sw.toNat + 1) - v.padL.toNat + iw * (v.dw.toNat + 1)
        p.resolve v.dimC.toNat (a.zeroes p.noun)
          (a.coords rank [(v.dimN.toNat, nb), (v.dimC.toNat, c), (v.dimH.toNat, h), (v.dimW.toNat, w)])
  else
    let other := if a.mode = 0 then a.rowDim.toNat else a.colDim.toNat
    p.resolve a.kCode (a.zeroes p.noun) (a.coords rank [(other, x), (a.kCode, k)])

/-- Fetch elements one by one, packing their codes from the low bits up. -/
def State.fetchEls (p : Piece) : List (Option (List Nat)) → Nat → State → State × Status × Nat
  | [], _, s => (s, stOK, 0)
  | e :: r, sh, s =>
    match e with
    | none => State.fetchEls p r (sh + elemBits p.noun.elem) s
    | some c =>
      let (s, st, v) := s.ldElem p c
      if st != stOK then (s, st, 0)
      else
        let (s, st, x) := State.fetchEls p r (sh + elemBits p.noun.elem) s
        (s, st, v * 2 ^ sh + x)
/-- The scale code of the elements fetched (R88): 127 when there is none or no scale array, the code of their one block,
or, where they lie in several, a free value (DESIGN CHOICE, log entry 49). -/
def State.fetchScale (s : State) (p : Piece) (els : List (Option (List Nat))) : State × Status × Byte :=
  if !p.noun.scaled then (s, stOK, 127)
  else match ((els.filterMap id).map p.scaleBlock).eraseDups with
  | [] => (s, stOK, 127)
  | [k] => s.ldScale p k
  | _ => let (s, l) := s.freeBytes 1; (s, stOK, l.headD 0)
/-- The G elements of one row or column in one k-group, packed, with their scale. -/
def State.fetchGroup (s : State) (a : Ag) (p : Piece) (g : Nat) (x k : Int) : State × Status × W128 × Byte :=
  let els := (List.range g).map fun (i : Nat) => a.element p x (k + (i : Int))
  let (s, st, d) := State.fetchEls p els 0 s
  if st != stOK then (s, st, 0, 0)
  else let (s, st, c) := s.fetchScale p els; (s, st, BitVec.ofNat 128 d, c)

/-! ## Generator set-up verbs (Tables 03.10 to 03.12) -/

/-- `AG_BIND`. -/
def State.runAgBind (s : State) (b : BlockId) (o : AgBindOp) : State × Status :=
  match s.nounAt b o.noun with
  | none => (s, stCfgInvalid)
  | some n =>
    if o.mode != 2 && (n.rank.toNat ≤ o.rowDim.toNat || n.rank.toNat ≤ o.colDim.toNat) then (s, stCfgInvalid)
    else (s.modBlock b fun x => x.setAg o.ag
      { bound := true, noun := o.noun, mode := o.mode, rowDim := o.rowDim, colDim := o.colDim, oob := o.oob }, stOK)
/-- The slots of an `AG_ORIGIN` that apply, in order. -/
def originSlots (o : AgOriginOp) : List (Nat × Int) :=
  ((List.zip [0, 1, 2] [(o.dim0, o.coord0), (o.dim1, o.coord1), (o.dim2, o.coord2)]).filter fun e =>
    o.valid.getLsbD e.1).map fun e => (e.2.1.toNat, e.2.2.toInt)
/-- `AG_ORIGIN`. -/
def State.runAgOrigin (s : State) (b : BlockId) (o : AgOriginOp) : State × Status :=
  let a := (s.block b).ag o.ag
  match if a.bound then s.nounAt b a.noun else none with
  | none => (s, stCfgInvalid)
  | some n =>
    let sl := originSlots o
    if sl.any fun e => if 6 ≤ e.1 then a.mode != 2 else n.rank.toNat ≤ e.1 then (s, stCfgInvalid)
    else (s.modBlock b fun x => x.setAg o.ag { a with origin := sl.foldl (fun t e => t.set 0 e.1 e.2) a.origin }, stOK)
/-- `AG_CONV`. -/
def State.runAgConv (s : State) (b : BlockId) (o : AgConvOp) : State × Status :=
  let a := (s.block b).ag o.ag
  match if a.bound && a.mode == 2 then s.nounAt b a.noun else none with
  | none => (s, stCfgInvalid)
  | some n =>
    let p := s.piece n
    let big := fun (d : BitVec 3) => n.rank.toNat ≤ d.toNat
    if big o.dimN || big o.dimC || big o.dimH || big o.dimW
        || p.loc.getD o.dimC.toNat 0 % (o.groups.toNat + 1) != 0 then (s, stCfgInvalid)
    else (s.modBlock b fun x => x.setAg o.ag { a with conv := some o }, stOK)

/-! ## Pairs -/

/-- All cell pairs. -/
def allPairs : List PairId := List.finRange 8
def Block.pair (b : Block) (p : PairId) : Pair := b.pairs.get {} p.val
def Block.setPair (b : Block) (p : PairId) (v : Pair) : Block := { b with pairs := b.pairs.set {} p.val v }
/-- The pairs that a PAIRS field names, rising. -/
def pairsOf (m : BitVec 8) : List PairId := allPairs.filter fun p => m.getLsbD p.val
/-- The key of a lane's output in row m. -/
def outKey (lane m : Nat) : Nat := lane * 128 + m
/-- Grid columns of an ARRANGE code (R96). -/
def gridCols (a : BitVec 2) : Nat := 8 / 2 ^ a.toNat
/-- A pair or a generator is in use by an `MMA` in progress (R102). -/
def Block.pairBusy (b : Block) (m : BitVec 8) : Bool := (pairsOf m).any fun p => (b.pair p).run.isSome
def Block.agBusy (b : Block) (k : BitVec 2) : Bool :=
  allPairs.any fun p => match (b.pair p).run with | some r => r.op.aAg == k || r.op.bAg == k | none => false

/-! ## `MMA`: checks and start (Tables 03.5 and 03.8) -/

/-- An operand Noun of an `MMA` through a generator passes Table 03.8 and R184. -/
def State.operandOk (s : State) (b : BlockId) (o : MmaOp) (a : Ag) (aSide : Bool) : Bool :=
  a.bound && (if aSide then a.mode == 0 || (a.mode == 2 && a.conv.isSome) else a.mode == 1) &&
  match s.nounAt b a.noun with
  | none => false
  | some n =>
    n.kind == 0 && n.alloc.toNat == b.val && fmtTakes o.fmt n.elem
      && (!n.scaled || (o.fmt.toNat < 2 && n.sdim.toNat == a.kDim && a.org a.kCode % (fmtG o.fmt : Int) == 0))
      && (match if a.mode = 2 then a.conv else none with
          | some v =>
            let cg := (s.piece n).loc.getD v.dimC.toNat 0 / (v.groups.toNat + 1)
            a.org v.dimC.toNat % (cg : Int) == 0
          | none => true)
/-- The open accumulation of a pair lets an `MMA` with START 0 go on (Table 03.8). -/
def contOk (o : MmaOp) (p : Pair) : Bool :=
  match p.acc with
  | none => false
  | some x =>
    x.fmt == o.fmt && (fmtInt o.fmt || x.lcode == o.lcode) && x.arrange == o.arrange && x.mSweep == o.mSweep
      && x.set == o.pairs
/-- An `MMA` passes its run-time checks. -/
def State.mmaOk (s : State) (b : BlockId) (o : MmaOp) : Bool :=
  let x := s.block b
  s.operandOk b o (x.ag o.aAg) true && s.operandOk b o (x.ag o.bAg) false
    && (o.start == 1 || (pairsOf o.pairs).all fun p => contOk o (x.pair p))
/-- Open the `MMA` on its pairs (R95, R96); `seg` is the segment it was issued in. -/
def Block.startMma (x : Block) (o : MmaOp) (seg : Nat) : Block :=
  let a := x.ag o.aAg
  let g := x.ag o.bAg
  let c := gridCols o.arrange
  ((pairsOf o.pairs).zipIdx).foldl (fun x e =>
    let p := x.pair e.1
    let p := if o.start = 1 then
        { p.clear with acc := some { fmt := o.fmt, lcode := o.lcode, arrange := o.arrange, mSweep := o.mSweep, set := o.pairs,
                                     gridRow := e.2 / c, gridCol := e.2 % c, kCount := 0 } }
      else p
    let (gr, gc) := match p.acc with | some q => (q.gridRow, q.gridCol) | none => (0, 0)
    x.setPair e.1 { p with
      cur := {}, next := {}
      run := some { op := o, seg := seg, m0 := a.org (if a.mode = 2 then 7 else a.rowDim.toNat) + gr * (o.mSweep.toNat + 1)
                    kA := a.org a.kCode, kB := g.org g.kCode, n0 := g.org g.colDim.toNat + 128 * gc
                    group := 0, inGroup := false, row := 0, offer := none, acks := 0, nextFull := false } }) x
/-- `MMA`. -/
def State.runMma (s : State) (b : BlockId) (o : MmaOp) (seg : Nat) : State × Status :=
  if s.mmaOk b o then (s.modBlock b fun x => x.startMma o seg, stOK) else (s, stCfgInvalid)

/-! ## One step of a lane (R86 to R93) -/

/-- The G element codes of a packed chunk. -/
def unpack (w : Nat) (g : Nat) (d : W128) : List Nat := (List.range g).map fun i => bits d.toNat (w * i) w
/-- Tier 1 (R86, R87): the sum of the products of a step, each truncated at 2^(E − 32). -/
def treeSum (prods : List (Fv × Bool)) : Fv :=
  if prods.any fun p => p.2 || p.1.isNan then .nan
  else
    let infs := prods.filterMap fun p => match p.1 with | .inf n => some n | _ => none
    match infs with
    | n :: r => if r.all (· == n) then .inf n else .nan
    | [] =>
      let es := prods.filterMap fun p => match p.1 with | .fin _ m e => if m = 0 then none else some (log2Of m e) | _ => none
      match es with
      | [] => .fin false 0 0
      | e0 :: r =>
        let lo := r.foldl max e0 - 32
        let t := prods.foldl (fun (a : Int) p => match p.1 with
          | .fin n m e =>
            let k : Nat := if lo ≤ e then m <<< (e - lo).toNat else m >>> (lo - e).toNat
            if n then a - k else a + k
          | _ => a) 0
        .fin (decide (t < 0)) t.natAbs lo
/-- Scale the tree sum (R88). -/
def scaleSum (t : Fv) (ea eb : Byte) : Fv :=
  if ea = 0xFF || eb = 0xFF then .nan else t.scale ((ea.toNat : Int) + eb.toNat - 254)
/-- A step of one lane on the output of row `m`: tiers 1 to 3, or the integer add. -/
def Pair.laneStep (p : Pair) (acc : OpenAcc) (eA eB : BitVec 4) (a : AOffer) (lane m : Nat) : Pair :=
  let g := fmtG acc.fmt
  let b := p.cur.get {} lane
  let k := outKey lane m
  let xs := (unpack (elemBits eA) g a.data).map (elemVal eA)
  let ys := (unpack (elemBits eB) g b.data).map (elemVal eB)
  let prods := (xs.zip ys).map fun e => e.1.mul e.2
  if fmtInt acc.fmt then
    let t := prods.foldl (fun (s : Int) q => match q.1 with | .fin n v _ => if n then s - v else s + v | _ => s) 0
    let r := satInt32 (((p.total.get 0 k).setWidth 32).toInt + t)
    let p := { p with total := p.total.set 0 k ((w32OfInt r.1).setWidth 48) }
    if r.2 then
      let p := { p with sticky := p.sticky ||| BitVec.ofNat 128 (2 ^ lane) }
      if lane < 64 then { p with sat0 := satAdd p.sat0 1 } else { p with sat1 := satAdd p.sat1 1 }
    else p
  else
    let t := scaleSum (treeSum prods) a.scale b.scale
    let c := toF32 ((f32 (p.chunk.get 0 k)).add t).1
    if acc.kCount + g = chunkLen acc.lcode then
      let w := (Fmt.w48.arith ((Fmt.w48.decode (p.total.get 0 k).toNat).add (f32 c)).1).1
      { p with chunk := p.chunk.set 0 k 0, total := p.total.set 0 k (BitVec.ofNat 48 w) }
    else { p with chunk := p.chunk.set 0 k c }
/-- The count of R90 after a group. -/
def OpenAcc.groupDone (x : OpenAcc) : OpenAcc :=
  if fmtInt x.fmt then x
  else
    let n := x.kCount + fmtG x.fmt
    { x with kCount := if n = chunkLen x.lcode then 0 else n }
/-- Promote the chunks that hold a non-zero count (R92). -/
def Pair.promote (p : Pair) : Pair :=
  match p.acc with
  | none => p
  | some x =>
    if fmtInt x.fmt || x.kCount = 0 then p
    else
      let tot := p.chunk.entries.foldl (fun t e =>
        t.set 0 e.1 (BitVec.ofNat 48
          (Fmt.w48.arith ((Fmt.w48.decode (t.get 0 e.1).toNat).add (f32 e.2)).1).1)) p.total
      { p with total := tot, chunk := {}, acc := some { x with kCount := 0 } }

/-! ## The events of a k-group (Table 03.2) -/

/-- The element formats of a running `MMA`'s operands. -/
def State.mmaElem (s : State) (b : BlockId) (k : BitVec 2) : BitVec 4 :=
  ((s.nounAt b ((s.block b).ag k).noun).map (·.elem)).getD 0
/-- Group start. -/
def Pair.groupStart (p : Pair) (r : MmaRun) : Pair :=
  { p with cur := p.next, next := {}
           run := some { r with inGroup := true, row := 0, offer := none, acks := 0, nextFull := false } }
/-- Fill the next chunk registers of lanes `l` onward, `n` of them, for a k-group. -/
def State.fillLanes (a : Ag) (p : Piece) (g : Nat) (n0 k : Int) :
    Nat → Nat → Tbl ChunkReg → State → State × Status × Tbl ChunkReg
  | 0, _, t, s => (s, stOK, t)
  | n + 1, l, t, s =>
    let (s, st, d, c) := s.fetchGroup a p g (n0 + l) k
    if st != stOK then (s, st, t)
    else State.fillLanes a p g n0 k n (l + 1) (t.set {} l { data := d, scale := c }) s
/-- Step complete. -/
def Pair.stepDone (p : Pair) (r : MmaRun) : Pair :=
  if r.row < r.op.mSweep.toNat then { p with run := some { r with row := r.row + 1, offer := none, acks := 0 } }
  else { p with acc := p.acc.map OpenAcc.groupDone
                run := some { r with inGroup := false, group := r.group + 1, offer := none, acks := 0 } }
/-- Verb end: the pair is free; the last pair of the verb advances the K origins (R97). The spec does not say what an origin
past 2^31 - 1 becomes: it grows without bound (DESIGN CHOICE, log entry 127). -/
def Block.verbEnd (x : Block) (p : PairId) (r : MmaRun) : Block :=
  let x := x.setPair p { x.pair p with run := none }
  if x.agBusy r.op.aAg then x
  else
    let adv := fun (x : Block) (k : BitVec 2) =>
      let a := x.ag k
      x.setAg k { a with origin := a.origin.set 0 a.kCode (a.org a.kCode + ((r.op.ksteps.toNat + 1) * fmtG r.op.fmt : Nat)) }
    adv (adv x r.op.aAg) r.op.bAg

/-! ## The store -/

/-- The rows or columns of a pair's tile along an axis of its destination, as first coordinate and length. -/
def tileSpan (a : Ag) (x : OpenAcc) (col : Bool) : Int × Nat :=
  if col then (a.org a.colDim.toNat + 128 * x.gridCol, 128)
  else (a.org a.rowDim.toNat + x.gridRow * (x.mSweep.toNat + 1), x.mSweep.toNat + 1)
/-- Every scale block that a pair's tile writes lies in the tile, as far as it is valid (Table 03.8). -/
def spanOk (t : Int × Nat) (v : Nat × Nat) : Bool :=
  let lo := max t.1 v.1
  let hi := min (t.1 + t.2) v.2
  if hi ≤ lo then true
  else
    let b0 := lo.fdiv 32
    let b1 := (hi - 1).fdiv 32
    decide (t.1 ≤ max (32 * b0) v.1) && decide (min (32 * b1 + 32) (v.2 : Int) ≤ t.1 + t.2)
/-- OUT_FMT is allowed from a tile's mode (Table 03.7). -/
def outOk (outFmt fmt : BitVec 4) : Bool := if fmtInt fmt then outFmt == 0 || outFmt == 6 else outFmt != 6
/-- A destination Noun may be stored into by a block (Table 03.8, R114). -/
def State.destOk (s : State) (h : HerdId) (b : BlockId) (n : Noun) : Bool :=
  if n.kind = 0 then n.alloc.toNat / 96 == regionOf b
  else if n.kind = 1 then s.lotOk h n.alloc.toNat
  else if hw : n.alloc.toNat < 64 then s.winOk h ⟨n.alloc.toNat, hw⟩ else false
/-- The value of an output: a W48 total, or an INT32 total. -/
def outVal (fmt : BitVec 4) (t : W48) : Fv := if fmtInt fmt then Fv.ofInt (t.setWidth 32).toInt else Fmt.w48.decode t.toNat
/-- The code of an output in the destination format, and what it counts (R120 to R128). -/
def outCode (outFmt fmt : BitVec 4) (mode : Rnd) (t : W48) : Nat × Count :=
  if outFmt = 6 then (t.toNat % 2 ^ 32, {})
  else
    let r := narrow outFmt mode (outVal fmt t)
    (r.1, if fmtInt fmt then {} else r.2.2)
/-- The destination coordinates of a pair's tile in store order (R112, R113), with lane and row; those with a negative
coordinate lie outside the Noun. -/
def tileCoords (a : Ag) (p : Piece) (x : OpenAcc) : List (List Nat × Nat × Nat) :=
  let rows := List.range (x.mSweep.toNat + 1)
  let cols := List.range 128
  let r0 := (tileSpan a x false).1
  let c0 := (tileSpan a x true).1
  let st := fun (d : BitVec 3) => (p.noun.dims.getD d.toNat {}).stride.toNat
  let at_ := fun (m l : Nat) => (a.coords p.loc.length [(a.rowDim.toNat, r0 + m), (a.colDim.toNat, c0 + l)], l, m)
  let all := if st a.colDim < st a.rowDim then rows.flatMap fun m => cols.map fun l => at_ m l
             else cols.flatMap fun l => rows.map fun m => at_ m l
  all.filterMap fun e => if e.1.all fun v => 0 ≤ v then some (e.1.map Int.toNat, e.2) else none
/-- An `MST` passes its run-time checks (Table 03.8, R184). -/
def State.mstOk (s : State) (h : HerdId) (b : BlockId) (o : MstOp) (a : Ag) (n : Noun) : Bool :=
  let p := s.piece n
  let x := s.block b
  let col := o.scaleAxis == 0
  a.bound && a.mode == 3 && n.elem == o.outFmt && s.destOk h b n
    && (!n.scaled || (n.sdim.toNat == (if col then a.colDim.toNat else a.rowDim.toNat)
          && a.org (if col then a.colDim.toNat else a.rowDim.toNat) % 32 == 0))
    && (pairsOf o.pairs).all fun q => match (x.pair q).acc with
        | none => false
        | some acc => outOk o.outFmt acc.fmt
            && (!n.scaled || spanOk (tileSpan a acc col) (p.ranges.getD n.sdim.toNat (0, 0))
                || !(tileCoords a p acc).any fun e => p.valid e.1)
/-- Store a pair's tile element by element: what it counts. -/
def State.storeEls (p : Piece) (code : List Nat → Nat → Nat → Nat × Count) :
    List (List Nat × Nat × Nat) → Count → State → State × Status × Count
  | [], cnt, s => (s, stOK, cnt)
  | (c, l, m) :: r, cnt, s =>
    let (v, k) := if p.valid c then code c l m else (0, {})
    let (s, st) := s.stElem true p c v
    if st != stOK then (s, st, cnt) else State.storeEls p code r (cnt.add k) s
/-- The scale blocks of a pair's tile (R129): number, scale code, the codes of its elements by lane and row, and what they
count. -/
def mxBlocks (p : Piece) (f : Fmt) (val : List Nat → Nat → Nat → Fv × Rnd) (els : List (List Nat × Nat × Nat))
    (ks : List Nat) : List (Nat × Byte × List ((Nat × Nat) × Nat) × Count) :=
  ks.map fun k =>
    let g := els.filter fun e => p.scaleBlock e.1 = k
    let (sc, codes, _, c) := mxGroup f (g.map fun e => val e.1 e.2.1 e.2.2)
    (k, sc, (g.map (·.2)).zip codes, c)
/-- Store a pair's tile in an MX format (R129): the scale codes, then the elements in store order (R113). -/
def State.storeMx (p : Piece) (bs : List (Nat × Byte × List ((Nat × Nat) × Nat) × Count))
    (els : List (List Nat × Nat × Nat)) (s : State) : State × Status × Count :=
  let (s, st) := s.stScales p (bs.map fun e => (e.1, e.2.1))
  if st != stOK then (s, st, {})
  else
    let codes := bs.flatMap fun e => e.2.2.1
    State.storeEls p (fun _ l m => ((codes.lookup (l, m)).getD 0, {})) els (bs.foldl (fun c e => c.add e.2.2.2) {}) s
/-- Store one pair (R99, R112). -/
def State.storePair (s : State) (h : HerdId) (b : BlockId) (o : MstOp) (a : Ag) (p : Piece) (q : PairId) :
    State × Status :=
  let x := ((s.block b).pair q).promote
  match x.acc with
  | none => (s, stCfgInvalid)
  | some acc =>
    let seed := (s.block b).seed o.srStream
    let step := s.stepNo h
    let mode := fun c => rndOf o.rnd seed o.srStream o.layer step (p.lin c)
    let els : List (List Nat × Nat × Nat) := tileCoords a p acc
    let tot := fun (l m : Nat) => x.total.get 0 (outKey l m)
    let vs : List (List Nat × Nat × Nat) := els.filter fun e => p.valid e.1
    let ks : List Nat := (vs.map fun e => p.scaleBlock e.1).eraseDups
    let (s, st, cnt) := match if p.noun.scaled then elemFmt p.noun.elem else none with
      | some f => State.storeMx p (mxBlocks p f (fun c l m => (outVal acc.fmt (tot l m), mode c)) vs ks) vs s
      | none => State.storeEls p (fun c l m => outCode o.outFmt acc.fmt (mode c) (tot l m)) els {} s
    if st != stOK then (s, st)
    else
      let s := s.count h o.layer (cnt.add { sat := x.sat0.toNat + x.sat1.toNat })
      let y := { x with sat0 := 0, sat1 := 0, sticky := 0 }
      (s.modBlock b fun z => (z.msat (x.sticky != 0)).setPair q (if o.keep = 1 then y else y.clear), stOK)
/-- The pairs of an `MST` in ascending order. -/
def State.storePairs (h : HerdId) (b : BlockId) (o : MstOp) (a : Ag) (p : Piece) : List PairId → State → State × Status
  | [], s => (s, stOK)
  | q :: r, s => let (s, st) := s.storePair h b o a p q; if st != stOK then (s, st) else State.storePairs h b o a p r s
/-- `MST`. Of one that fails, the whole destination is undefined (R227). -/
def State.runMst (s : State) (h : HerdId) (b : BlockId) (o : MstOp) : State × Status :=
  let a := (s.block b).ag o.cAg
  match s.nounAt b a.noun with
  | none => (s, stCfgInvalid)
  | some n =>
    if !s.mstOk h b o a n then (s, stCfgInvalid)
    else
      let p := s.piece n
      let cs := (pairsOf o.pairs).flatMap fun q => match ((s.block b).pair q).acc with
        | some acc => ((tileCoords a p acc).map (·.1)).filter p.valid
        | none => []
      let r := State.storePairs h b o a p (pairsOf o.pairs) s
      let r := if r.2 = stOK then r
        else (r.1.cease p cs (if n.scaled then (cs.map p.scaleBlock).eraseDups else []), r.2)
      (s.remeter r.1 h (cs.map p.addr), r.2)
/-- `MCLR` (R100). -/
def State.runMclr (s : State) (b : BlockId) (m : BitVec 8) : State :=
  s.modBlock b fun x => (pairsOf m).foldl (fun x p => x.setPair p (x.pair p).clear) x

end Sys2Proof.Machine
end

