-- ==== Sys2Proof/Machine/Stage.lean ====
section
/-!
DEFINITION. RWS fields: their words, staging and the beats at which staged values take effect (R6 to R8, R218, R221,
R234, R235, R246, R530, Tables 04.5 and 08.1).
-/
namespace Sys2Proof.Machine

/-- An FP32 field refuses a NaN or an infinity (R246). -/
def badFp (v : Nat) : Bool := bits v 23 8 = 255
/-- The reserved values of word `w` of a declension row that is one FP32 field (Table 08.1): TAU must be above 0 and
TRUST_MAX not below it. -/
def badRowWord (w v : Nat) : Bool :=
  badFp v || (w = 12 && (bit v 31 || v = 0)) || (w = 13 && bit v 31 && bits v 0 31 != 0)
/-- The RWS fields of the 32-bit word at a window offset: low bit, width, and the reserved values. -/
def rwsFields (off : Nat) : List (Nat × Nat × (Nat → Bool)) :=
  if off = 0x104 then
    [(0, 1, fun _ => false), (1, 4, fun v => v = 0), (8, 8, fun v => v = 0), (16, 16, fun v => v = 0)]
  else if 0x1000 ≤ off && off < 0x3000 && off % 4 = 0 then
    let w := (off - 0x1000) % 128 / 4
    if w < 17 then [(0, 32, badRowWord w)]
    else if w = 17 then
      [(0, 1, fun _ => false), (1, 1, fun _ => false), (2, 1, fun _ => false), (8, 5, fun v => v = 0)]
    else []
  else []
/-- The reset value of word `w` of a declension row. -/
def rowReset (w : Nat) : W32 :=
  if w = 7 || w = 9 || w = 10 || w = 12 then 0x3F80_0000 else if w = 17 then 0x0500 else 0
/-- Word `w` of declension row `q`, as it is in effect. -/
def Herd.rowWord (x : Herd) (q w : Nat) : W32 := x.dclRows.get (rowReset w) (q * 32 + w)
/-- Beat `a` comes before beat `b`, as R234 compares beats. -/
def beatBefore (a b : W48) : Bool := a != b && decide ((b - a).toNat < 2 ^ 47)
/-- The declension rows in effect in beat `b` of the run: those now in effect, or, for a beat already past, those a later
boundary replaced. -/
def Herd.rowsAt (x : Herd) (b : W48) : Tbl W32 :=
  match x.rowHist.find? fun e => beatBefore b (BitVec.ofNat 48 e.1) with
  | some e => e.2
  | none => x.dclRows
/-- Word `w` of declension row `q` in beat `b` (R255). -/
def Herd.rowWordAt (x : Herd) (b : W48) (q w : Nat) : W32 := (x.rowsAt b).get (rowReset w) (q * 32 + w)
/-- A window word with RWS fields, as it is in effect. -/
def Herd.effWord (x : Herd) (off : Nat) : W32 :=
  if off = 0x104 then
    BitVec.ofNat 32 (b2n x.lossEn + x.alphaShift.toNat * 2 + x.lossK.toNat * 2 ^ 8 + x.warmup.toNat * 2 ^ 16)
  else x.rowWord ((off - 0x1000) / 128) ((off - 0x1000) % 128 / 4)
/-- Set the bits of a mask in a window word. -/
def Herd.putWord (x : Herd) (off : Nat) (mask val : W32) : Herd :=
  let v := (x.effWord off &&& ~~~mask) ||| (val &&& mask)
  if off = 0x104 then
    { x with lossEn := v.getLsbD 0, alphaShift := v.extractLsb' 1 4, lossK := v.extractLsb' 8 8, warmup := v.extractLsb' 16 16 }
  else
    let w := (off - 0x1000) % 128 / 4
    { x with dclRows := x.dclRows.set (rowReset w) ((off - 0x1000) / 128 * 32 + w) v }
/-- The mask of a field. -/
def fieldMask (lo len : Nat) : W32 := BitVec.ofNat 32 ((2 ^ len - 1) * 2 ^ lo)
/-- What a host read of an RWS field returns (R530): the last pending host value, or the value in effect. -/
def Herd.shown (x : Herd) (off lo len : Nat) : Nat :=
  let hit := fun (l : List Staged) => l.reverse.find? fun e => e.off = off && e.mask.getLsbD lo
  let v := match hit x.heldStaged with
    | some e => e.val
    | none => match hit x.staged with
      | some e => e.val
      | none => x.effWord off
  bits v.toNat lo len
/-- A host write of an RWS field is staged, or held while ARM is 1; an earlier pending value of the field is lost (R7). -/
def Herd.stageHost (x : Herd) (off lo len v : Nat) : Herd :=
  let m := fieldMask lo len
  let e : Staged := { off := off, mask := m, val := BitVec.ofNat 32 (v * 2 ^ lo), block := 0, seq := 0 }
  let put := fun (l : List Staged) => (l.filter fun q => !(q.off = off && q.mask = m)) ++ [e]
  if x.stageArm then { x with heldStaged := put x.heldStaged } else { x with staged := put x.staged }
/-- Host values take effect, in the order written. -/
def Herd.applyAll (x : Herd) (l : List Staged) : Herd := l.foldl (fun x e => x.putWord e.off e.mask e.val) x
/-- Insert a `SETR` value so that the lowest herd block index, and within a block the last in Clause order, comes last. -/
def insertSetr (e : Staged) : List Staged → List Staged
  | [] => [e]
  | q :: r => if q.block < e.block || (q.block = e.block && e.seq < q.seq) then e :: q :: r else q :: insertSetr e r
/-- ARM is late for beat `b` (R234). -/
def Herd.armLate (x : Herd) (b : W48) : Bool := 2 ^ 47 ≤ (x.stageBeat - b).toNat
/-- The values that take effect at the start of beat `b` (R218, R234, R235): staged host values, held ones when their beat
has come, then `SETR` values. A `SETR` value of a late block (R309) whose beat has begun before it was written takes effect at
the next start of a beat (DESIGN CHOICE, log entry 128), and one for a beat that a stopped run did not reach takes effect at that
beat of a later run (DESIGN CHOICE, log entry 39). A set armed for the beat in progress waits for the start of the next run
(DESIGN CHOICE, log entry 163). -/
def Herd.applyAt (x : Herd) (b : W48) : Herd :=
  let x := { x.applyAll x.staged with staged := [] }
  let x := if x.stageArm && (x.stageDue || x.stageBeat = b) then
      { x.applyAll x.heldStaged with heldStaged := [], stageArm := false, stageDue := false }
    else x
  let due := fun (e : Staged) => !beatBefore b (BitVec.ofNat 48 e.beat)
  let now := (x.setrs.filter due).foldl (fun l e => insertSetr e l) []
  { x.applyAll now with setrs := x.setrs.filter fun e => !due e }
/-- A boundary within a run also keeps the rows it replaces, for blocks that are still in an earlier beat (R255, R309). -/
def Herd.boundary (x : Herd) (b : W48) : Herd :=
  let y := x.applyAt b
  if y.dclRows = x.dclRows then y else { y with rowHist := x.rowHist ++ [(b.toNat, x.dclRows)] }
/-- The start of a run judges ARM again (R234). -/
def Herd.runBoundary (x : Herd) (b : W48) : Herd :=
  let x := if x.stageArm && x.armLate b then { x with stageDue := true, stageLate := true } else x
  { x.applyAt b with rowHist := [] }
/-- A write of `HRD_STAGE_CTRL.ARM` (R234); the beat has been written before it. -/
def Herd.writeArm (x : Herd) (on : Bool) : Herd :=
  if on then
    let late := x.run.isSome && x.armLate x.beatNow
    { x with stageArm := true, stageDue := late, stageLate := x.stageLate || late }
  else { x with stageArm := false, stageDue := false, staged := x.staged ++ x.heldStaged, heldStaged := [] }

end Sys2Proof.Machine
end

