-- ==== Sys2Proof/Machine/Vector.lean ====
section
/-!
DEFINITION. What the verbs of classes 0x1, 0x5 and 0x6 do (chapter 05): lane arithmetic (R153 to R158), conversions
(Table 05.5), loads, stores and cursors (R159 to R163), reductions (R166 to R168) and random draws (R171, R172).
-/
namespace Sys2Proof.Machine

/-! ## Lane arithmetic -/

/-- Round an exact result for a format, with INV when the operation was invalid; a NaN operand sets no flag. -/
def finish (f : Fmt) (nanIn : Bool) (v : Fv) (invalid : Bool) : Nat × Flags :=
  if nanIn then (f.defaultNan, {})
  else if invalid then (f.defaultNan, { inv := true })
  else f.arith v
/-- Sum, product and fused product-sum in a format. -/
def opAdd (f : Fmt) (a b : Fv) : Nat × Flags := let r := a.add b; finish f (a.isNan || b.isNan) r.1 r.2
def opMul (f : Fmt) (a b : Fv) : Nat × Flags := let r := a.mul b; finish f (a.isNan || b.isNan) r.1 r.2
def opFma (f : Fmt) (a b c : Fv) : Nat × Flags :=
  let p := a.mul b
  let r := p.1.add c
  finish f (a.isNan || b.isNan || c.isNan) r.1 (p.2 || r.2)
/-- An FP32 result as a lane word. -/
def word32 (r : Nat × Flags) : W32 × Flags := (BitVec.ofNat 32 r.1, r.2)
/-- `VDIVS` (R156): q + (a − b q) e with one rounding. -/
def opDivs (e a b q : Fv) : Nat × Flags :=
  let p := b.mul q
  let r := a.add p.1.neg
  let t := r.1.mul e
  let v := q.add t.1
  finish .fp32 (e.isNan || a.isNan || b.isNan || q.isNan) v.1 (p.2 || r.2 || t.2 || v.2)
/-- Saturating INT32 result (R155). -/
def satWord (i : Int) : W32 × Flags := let r := satInt32 i; (w32OfInt r.1, { sat := r.2 })
/-- A packed verb on the two halves of a word (R153). -/
def packed (f16 : Bool) (op : Fmt → Fv → Fv → Fv → Nat × Flags) (a b c : W32) : W32 × Flags :=
  let f := if f16 then Fmt.fp16 else Fmt.bf16
  let half := fun (w : W32) (i : Nat) => f.decode (bits w.toNat (16 * i) 16)
  let lo := op f (half a 0) (half b 0) (half c 0)
  let hi := op f (half a 1) (half b 1) (half c 1)
  (BitVec.ofNat 32 (lo.1 + hi.1 * 2 ^ 16), lo.2.or hi.2)
/-- All ones when a condition holds. -/
def mask32 (p : Bool) : W32 := if p then 0xFFFF_FFFF else 0
/-- `VCMP` (Table 05.3). -/
def cmpLane (cond : Nat) (a b : W32) : W32 × Flags :=
  let nan := isNan32 a || isNan32 b
  let eq := !nan && (a == b || (isZero32 a && isZero32 b))
  match cond with
  | 0 => (mask32 eq, {})
  | 1 => (mask32 (fLt a b), { inv := nan })
  | 2 => (mask32 (fLt a b || eq), { inv := nan })
  | 3 => (mask32 nan, {})
  | 4 => (mask32 (a == b), {})
  | 5 => (mask32 (decide (a.toInt < b.toInt)), {})
  | _ => (mask32 (decide (a.toInt ≤ b.toInt)), {})
/-- `VEXPADD` (R158). -/
def expAddLane (a b : W32) : W32 × Flags :=
  let c := bits a.toNat 0 8
  if c = 255 then (255, {})
  else
    let n := (c : Int) + b.toInt
    if n < 0 then (0, { sat := true }) else if 254 < n then (254, { sat := true }) else (w32OfInt n, {})
/-- The result of a register verb in one lane, from VD, SA, SB and SC (Table 05.2); `VSPLAT`, the arg verbs and the flag
verbs stand apart. -/
def regLane (f : RegFn) (o : RegOp) (l : Nat) (d a b c : W32) : W32 × Flags :=
  match f with
  | .vadd => word32 (opAdd .fp32 (f32 a) (f32 b))
  | .vsub => word32 (opAdd .fp32 (f32 a) (f32 b).neg)
  | .vmul => word32 (opMul .fp32 (f32 a) (f32 b))
  | .vfma => word32 (opFma .fp32 (f32 a) (f32 b) (f32 c))
  | .vfnma => word32 (opFma .fp32 (f32 a).neg (f32 b) (f32 c))
  | .vmax => (fMax a b, {})
  | .vmin => (fMin a b, {})
  | .vabs => (if isNan32 a then nan32 else a &&& 0x7FFF_FFFF, {})
  | .vneg => (if isNan32 a then nan32 else a ^^^ 0x8000_0000, {})
  | .vrcp => fRcp a
  | .vdivs => word32 (opDivs (f32 d) (f32 a) (f32 b) (f32 c))
  | .vrsqrt => fRsqrt a
  | .vexp2 => fExp2 a
  | .vlog2 => fLog2 a
  | .vldexp => word32 (finish .fp32 (isNan32 a) ((f32 a).scale b.toInt) false)
  | .vcmp => cmpLane (o.sub.extractLsb' 3 3).toNat a b
  | .vsel => (if c != 0 then a else b, {})
  | .vand => (a &&& b, {})
  | .vor => (a ||| b, {})
  | .vxor => (a ^^^ b, {})
  | .vshl => (a <<< (b.toNat % 32), {})
  | .vsrl => (a >>> (b.toNat % 32), {})
  | .vsra => (a.sshiftRight (b.toNat % 32), {})
  | .viadd => satWord (a.toInt + b.toInt)
  | .visub => satWord (a.toInt - b.toInt)
  | .vimul => satWord (a.toInt * b.toInt)
  | .vimax => (if a.toInt < b.toInt then b else a, {})
  | .vimin => (if b.toInt < a.toInt then b else a, {})
  | .vexpadd => expAddLane a b
  | .vpadd => packed (o.sub.getLsbD 0) (fun f x y _ => opAdd f x y) a b c
  | .vpmul => packed (o.sub.getLsbD 0) (fun f x y _ => opMul f x y) a b c
  | .vpfma => packed (o.sub.getLsbD 0) opFma a b c
  | .vmov => (a, {})
  | .vlimm => (o.imm, {})
  | .vlane => (BitVec.ofNat 32 l, {})
  | _ => (a, {})

/-! ## Order of max and min (R166) -/

/-- The rank of a word for MAX: NaN highest, then by value with +0 above −0. -/
def rankMax (w : W32) : Int := if isNan32 w then 2 ^ 40 else ordKey32 w
/-- The rank of a word for MIN, the other way round with NaN still winning. -/
def rankMin (w : W32) : Int := if isNan32 w then 2 ^ 40 else -ordKey32 w
/-- `(a, i)` outranks `(b, j)`: a higher rank, or an equal one with the lower index. -/
def outranks (mx : Bool) (a i b j : W32) : Bool :=
  let r := fun w => if mx then rankMax w else rankMin w
  decide (r b < r a) || (r a == r b && decide (i.toNat < j.toNat))
/-- A winner as returned: a NaN as the default NaN. -/
def winner (w : W32) : W32 := if isNan32 w then nan32 else w

/-! ## Register verbs -/

/-- Free words (an `VARGMAX` or `VARGMIN` whose VD and SC are one register leaves it open which stands). -/
def State.freeWords (s : State) (n : Nat) : State × List W32 :=
  let (s, l) := s.freeBytes (4 * n)
  (s, (List.range n).map fun k => BitVec.ofNat 32 (leNat ((l.drop (4 * k)).take 4)))
/-- A register verb of class 0x1 with the operands of Table 05.1. -/
def State.runReg (s : State) (b : BlockId) (f : RegFn) (o : RegOp) : State :=
  let blk := s.block b
  let c := blk.vcell o.cell
  let put := fun (c : VCell) (fl : List Flags) => (blk.raise (orFlags fl)).setVcell o.cell (c.raiseAll fl)
  match f with
  | .vsplat => s.setBlock b (put (c.setReg o.vd (lanes64.map fun _ => c.lane o.sa o.sub.toNat)) [])
  | .vgetf => s.setBlock b (put (c.setReg o.vd (lanes64.map fun l => (c.flags.get 0 l).setWidth 32)) [])
  | .vclrf => s.setBlock b (put { c with flags := {} } [])
  | .vargmax | .vargmin =>
    let r := lanes64.map fun l =>
      let (d, a, i, j) := (c.lane o.vd l, c.lane o.sa l, c.lane o.sb l, c.lane o.sc l)
      if outranks (f == RegFn.vargmax) a i d j then (winner a, i) else (winner d, j)
    if o.vd = o.sc then
      let (s, w) := s.freeWords 64
      s.setBlock b (put (c.setReg o.vd w) [])
    else s.setBlock b (put ((c.setReg o.vd (r.map (·.1))).setReg o.sc (r.map (·.2))) [])
  | _ =>
    let r := lanes64.map fun l => regLane f o l (c.lane o.vd l) (c.lane o.sa l) (c.lane o.sb l) (c.lane o.sc l)
    s.setBlock b (put (c.setReg o.vd (r.map (·.1))) (r.map (·.2)))

/-- `VCVT` (Table 05.5). -/
def State.runVcvt (s : State) (h : HerdId) (b : BlockId) (o : VcvtOp) : State :=
  let blk := s.block b
  let c := blk.vcell o.cell
  let cur := c.cursor o.cur
  let mode := fun (l : Nat) => rndOf o.rnd (blk.seed o.srStream) o.srStream o.layer (s.stepNo h) (cur.at_ l)
  let half := fun (f : Fmt) (w : W32) (i : Nat) => (widen32 (f.decode (bits w.toNat (16 * i) 16))).1
  let pair := fun (f : Fmt) (l : Nat) =>
    let lo := f.conv (mode (2 * l)) (f32 (c.lane o.sa l))
    let hi := f.conv (mode (2 * l + 1)) (f32 (c.lane o.sb l))
    (BitVec.ofNat 32 (lo.1 + hi.1 * 2 ^ 16), lo.2.1.or hi.2.1, lo.2.2.add hi.2.2)
  let r : List (W32 × Flags × Count) := lanes64.map fun l =>
    let a := c.lane o.sa l
    match o.conv.toNat with
    | 0 => let r := convInt (-int32Max) int32Max (mode l) (f32 a); (w32OfInt r.1, r.2)
    | 1 => let r := Fmt.fp32.conv (mode l) (Fv.ofInt a.toInt); (BitVec.ofNat 32 r.1, r.2.1, {})
    | 2 => pair .bf16 l
    | 3 => pair .fp16 l
    | 4 => (half .bf16 a 0, {}, {})
    | 5 => (half .bf16 a 1, {}, {})
    | 6 => (half .fp16 a 0, {}, {})
    | _ => (half .fp16 a 1, {}, {})
  let fl := r.map (·.2.1)
  let s := s.setBlock b ((blk.raise (orFlags fl)).setVcell o.cell ((c.setReg o.vd (r.map (·.1))).raiseAll fl))
  s.count h o.layer (r.foldl (fun a x => a.add x.2.2) {})

/-! ## Loads and stores (R159 to R163, Tables 05.7 to 05.9) -/

/-- FORM matches the Noun (Table 05.8). -/
def formOk (form : BitVec 4) (n : Noun) : Bool :=
  match form.toNat with
  | 0 => n.elem == 0 || n.elem == 6
  | 1 => n.elem != 0 && n.elem != 6
  | 2 => n.elem == 1 || n.elem == 2
  | _ => n.scaled
/-- The Noun lies in the scratch of the block that runs the verb. -/
def ownScratch (b : BlockId) (n : Noun) : Bool := n.kind == 0 && n.alloc.toNat == b.val
/-- The refusals that `VLD` and `VST` share (Table 05.9). -/
def accessOk (b : BlockId) (n : Noun) (form : BitVec 4) (cur : Cursor) : Bool :=
  ownScratch b n && formOk form n && !(form == 2 && cur.lane != 1)
/-- The local coordinate of a linear index that is in bounds (R160). -/
def Piece.inBounds (p : Piece) (i : Nat) : Option (List Nat) :=
  match p.ofLin i with
  | some c => if p.valid c then some c else none
  | none => none
/-- Load one element widened (Table 05.8 WIDEN): lane word and whether it was held to the FP32 range. -/
def State.ldWide (s : State) (p : Piece) (c : List Nat) : State × Status × W32 × Bool :=
  let (s, st, v) := s.ldElem p c
  if st != stOK then (s, st, 0, false)
  else match elemFmt p.noun.elem with
  | none => (s, stOK, w32OfInt (signedOf (elemBits p.noun.elem) v), false)
  | some f =>
    if p.noun.scaled then
      let (s, st, k) := s.ldScale p (p.scaleBlock c)
      let r := widen32 (scaled (f.decode v) k)
      (s, st, r)
    else (s, stOK, (widen32 (f.decode v)).1, false)
/-- Load one element of a linear index as it is; out of bounds +0. -/
def State.ldRaw (s : State) (p : Piece) (i : Nat) : State × Status × Nat :=
  match p.inBounds i with
  | some c => s.ldElem p c
  | none => (s, stOK, 0)
/-- What a lane of a `VLD` takes: status, word, flags. -/
def State.ldLane (s : State) (p : Piece) (form : BitVec 4) (cur : Cursor) (l : Nat) : State × Status × W32 × Flags :=
  match form.toNat with
  | 0 => let (s, st, v) := s.ldRaw p (cur.at_ l); (s, st, BitVec.ofNat 32 v, {})
  | 1 =>
    match p.inBounds (cur.at_ l) with
    | some c => let (s, st, v, f) := s.ldWide p c; (s, st, v, { sat := f })
    | none => (s, stOK, 0, {})
  | 2 =>
    let (s, st, lo) := s.ldRaw p (cur.at_ (2 * l))
    if st != stOK then (s, st, 0, {})
    else let (s, st, hi) := s.ldRaw p (cur.at_ (2 * l + 1)); (s, st, BitVec.ofNat 32 (lo + hi * 2 ^ 16), {})
  | _ =>
    let k := cur.at_ l
    if k < prodOf p.scaleExt then let (s, st, v) := s.ldScale p k; (s, st, v.setWidth 32, {}) else (s, stOK, 0, {})
/-- Lanes `l` onward of a `VLD`, `n` of them. -/
def State.ldLanes (p : Piece) (form : BitVec 4) (cur : Cursor) : Nat → Nat → State → State × Status × List (W32 × Flags)
  | 0, _, s => (s, stOK, [])
  | n + 1, l, s =>
    let (s, st, w, f) := s.ldLane p form cur l
    if st != stOK then (s, st, [])
    else let (s, st, r) := State.ldLanes p form cur n (l + 1) s; (s, st, (w, f) :: r)
/-! ## Issue periods (Tables 05.2, 05.11, 05.12, R162) -/

/-- The 64-byte ranges that an access touches, each once: elements and, when it reads or writes them, scales. Lanes that a mask
switches off count as touching theirs (DESIGN CHOICE, log entry 160). -/
def Piece.lines (p : Piece) (form : BitVec 4) (cur : Cursor) : List Nat :=
  let el := fun i => match p.inBounds i with
    | some c => (p.addr c / 64) :: (if form = 1 && p.noun.scaled then [p.scaleAddr (p.scaleBlock c) / 64] else [])
    | none => []
  let idx := if form = 2 then (List.range 128).map cur.at_ else lanes64.map cur.at_
  (if form = 3 then (idx.filter (· < prodOf p.scaleExt)).map fun k => p.scaleAddr k / 64
   else idx.flatMap el).eraseDups
/-- The step periods that an access takes (R162). -/
def State.accessPeriods (s : State) (b : BlockId) (cell : BitVec 2) (noun : BitVec 6) (cur : BitVec 2) (form : BitVec 4) :
    Nat :=
  match s.nounAt b noun with
  | some n => max 1 (cdiv ((s.piece n).lines form (((s.block b).vcell cell).cursor cur)).length 4)
  | none => 1
/-- The issue periods of a verb of a vector cell. -/
def State.periods (s : State) (b : BlockId) : Verb → Nat
  | .reg f _ => if f == RegFn.vrcp || f == RegFn.vrsqrt || f == RegFn.vexp2 || f == RegFn.vlog2 then 4 else 1
  | .vld o => s.accessPeriods b o.cell o.noun o.cur o.form
  | .vst o => s.accessPeriods b o.cell o.noun o.cur o.form
  | .vred _ => 8
  | .bred _ => 4
  | .vrng _ => 2
  | _ => 1

/-! ## `VLD` and `VST` -/

/-- `VLD`. -/
def State.runVld (s : State) (h : HerdId) (b : BlockId) (o : VldOp) : State × Status :=
  match s.nounAt b o.noun with
  | none => (s, stCfgInvalid)
  | some n =>
    let c := (s.block b).vcell o.cell
    let cur := c.cursor o.cur
    if !accessOk b n o.form cur then (s, stCfgInvalid)
    else
      let (s, st, r) := State.ldLanes (s.piece n) o.form cur 64 0 (s.meterSteps h (s.periods b (.vld o)))
      if st != stOK then (s, st)
      else
        let fl := r.map (·.2)
        (s.modBlock b fun x => (x.raise (orFlags fl)).setVcell o.cell
          (((c.setReg o.vd (r.map (·.1))).raiseAll fl).advance o.cur o.inc), stOK)

/-- One element that a `VST` writes: its coordinate and code, with the flags of its lane. -/
structure Put where
  lane : Nat
  coord : List Nat
  code : Nat
  flags : Flags
deriving DecidableEq, Repr

/-- Write the elements of a store in order. -/
def State.stPuts (s : State) (p : Piece) : List Put → State × Status
  | [] => (s, stOK)
  | q :: r => let (s, st) := s.stElem true p q.coord q.code; if st != stOK then (s, st) else State.stPuts s p r
/-- Elements of one half of the lanes cover exactly one scale block (Table 05.9): its number. -/
def Piece.covers (p : Piece) (cs : List (List Nat)) : Option Nat :=
  match cs with
  | [] => none
  | c :: _ =>
    let k := p.noun.sdim.toNat
    let b := p.scaleBlock c
    let (lo, hi) := p.ranges.getD k (0, 0)
    let k0 := c.getD k 0 / 32 * 32
    if (cs.all fun d => p.scaleBlock d == b) && cs.eraseDups.length == cs.length
        && cs.length == min hi (k0 + 32) - max lo k0 then some b else none
/-- A half of the lanes of a `VST` WIDEN to a scaled Noun: the elements and the scale (R129). -/
def mxPuts (f : Fmt) (els : List (Nat × List Nat × Fv × Rnd)) : List Put × Byte × Count :=
  let (k, codes, fl, cnt) := mxGroup f (els.map fun e => e.2.2)
  (((els.zip (codes.zip fl)).map fun e => { lane := e.1.1, coord := e.1.2.1, code := e.2.1, flags := e.2.2 }), k, cnt)

/-- `VST` (R162, R163). FORM SCALES counts nothing (DESIGN CHOICE, log entry 129). Of one that fails, the whole destination is
undefined (R227). -/
def State.runVst (s : State) (h : HerdId) (b : BlockId) (o : VstOp) : State × Status :=
  match s.nounAt b o.noun with
  | none => (s, stCfgInvalid)
  | some n =>
    let blk := s.block b
    let c := blk.vcell o.cell
    let cur := c.cursor o.cur
    let p := s.piece n
    if !accessOk b n o.form cur || cur.lane == 0 || (n.residual && o.form != 0) then (s, stCfgInvalid)
    else
      let on := fun l => o.maskEn == 0 || c.lane o.mreg l != 0
      let mode := fun (cd : List Nat) => rndOf o.rnd (blk.seed o.srStream) o.srStream o.layer (s.stepNo h) (p.lin cd)
      let done := fun (s : State) (ks : List (Nat × Byte)) (puts : List Put) (cnt : Count) (fl : List (Nat × Flags)) =>
        let (s, st) := (s.meterSteps h (s.periods b (.vst o))).stScales p ks
        let (s, st) := if st != stOK then (s, st) else s.stPuts p puts
        if st != stOK then (s.cease p (puts.map (·.coord)) (ks.map (·.1)), st)
        else
          let nf := (puts.filter fun q => nonFinite n.elem q.code && o.form != 1 && p.valid q.coord).length
          let s := s.count h o.layer (cnt.add { nonfinite := nf })
          (s.modBlock b fun x => (x.raise (orFlags (fl.map (·.2)))).setVcell o.cell
            ((fl.foldl (fun c e => c.raise e.1 e.2) c).advance o.cur o.inc), stOK)
      let ls := lanes64.filter on
      match o.form.toNat with
      | 0 =>
        done s [] (ls.filterMap fun l => (p.ofLin (cur.at_ l)).map fun cd => ⟨l, cd, (c.lane o.sa l).toNat, {}⟩) {} []
      | 2 =>
        done s [] (ls.flatMap fun l => [0, 1].filterMap fun i =>
          (p.ofLin (cur.at_ (2 * l + i))).map fun cd => ⟨l, cd, bits (c.lane o.sa l).toNat (16 * i) 16, {}⟩) {} []
      | 1 =>
        if n.scaled then
          let half := fun lo => (rangeFrom lo 32).filterMap fun l =>
            (p.inBounds (cur.at_ l)).map fun cd => (l, cd, f32 (c.lane o.sa l), mode cd)
          let a := half 0
          let z := half 32
          match p.covers (a.map fun e => e.2.1), p.covers (z.map fun e => e.2.1), elemFmt n.elem with
          | some ka, some kz, some f =>
            if o.maskEn == 1 then (s, stCfgInvalid)
            else
              let (pa, sa, ca) := mxPuts f a
              let (pz, sz, cz) := mxPuts f z
              done s [(ka, sa), (kz, sz)] (pa ++ pz) (ca.add cz) ((pa ++ pz).map fun q => (q.lane, q.flags))
          | _, _, _ => (s, stCfgInvalid)
        else
          let r := ls.filterMap fun l => (p.ofLin (cur.at_ l)).map fun cd =>
            let v := match elemFmt n.elem with | some _ => f32 (c.lane o.sa l) | none => Fv.ofInt (c.lane o.sa l).toInt
            (l, cd, if p.valid cd then narrow n.elem (mode cd) v else (0, {}, {}))
          done s [] (r.map fun e => ⟨e.1, e.2.1, e.2.2.1, e.2.2.2.1⟩) (r.foldl (fun a e => a.add e.2.2.2.2) {})
            (r.map fun e => (e.1, e.2.2.2.1))
      | _ =>
        let r := ls.filterMap fun l =>
          let k := cur.at_ l
          if k < prodOf p.scaleExt then
            let i := (c.lane o.sa l).toInt
            let v := min (max i 0) 255
            some (l, k, BitVec.ofInt 8 v, v != i)
          else none
        done s (r.map fun e => (e.2.1, e.2.2.1)) [] { sat := (r.filter fun e => e.2.2.2).length }
          (r.map fun e => (e.1, { sat := e.2.2.2 }))

/-! ## Reductions (R166 to R168) -/

/-- One element of a reduction: value and index. -/
abbrev Cand := W32 × W32
/-- Combine two candidates under an OP code. -/
def redCombine (op : Nat) (x y : Cand) : Cand × Flags :=
  match op with
  | 0 => let r := word32 (opAdd .fp32 (f32 x.1) (f32 y.1)); ((r.1, 0), r.2)
  | 5 => let r := satWord (x.1.toInt + y.1.toInt); ((r.1, 0), r.2)
  | _ => (if outranks (op == 1 || op == 3) y.1 y.2 x.1 x.2 then y else x, {})
/-- One level of a pairwise tree; an odd element is carried up. -/
def redLevel (op : Nat) : List Cand → List Cand × Flags
  | x :: y :: r =>
    let (z, f) := redCombine op x y
    let (l, g) := redLevel op r
    (z :: l, f.or g)
  | l => (l, {})
/-- The tree, `k` levels. -/
def redTree (op : Nat) : Nat → List Cand → Cand × Flags
  | 0, l => (l.headD (0, 0), {})
  | k + 1, l => let (m, f) := redLevel op l; let (r, g) := redTree op k m; (r, f.or g)
/-- The result as returned: a NaN is the default NaN (R117, R166), sums have no index. -/
def redOut (op : Nat) (x : Cand) : Cand := if op = 5 then (x.1, 0) else (winner x.1, if op = 0 then 0 else x.2)
/-- The lanes of a result register: value, index, zeros. -/
def redLanes (x : Cand) : List W32 := x.1 :: x.2 :: List.replicate 62 0
/-- `VRED` (R167). -/
def State.runVred (s : State) (b : BlockId) (o : VredOp) : State :=
  let blk := s.block b
  let c := blk.vcell o.cell
  let op := o.op.toNat
  let idx := fun l => if op = 3 || op = 4 then c.lane o.sb l else BitVec.ofNat 32 l
  let (r, f) := redTree op 6 (lanes64.map fun l => (c.lane o.sa l, idx l))
  s.setBlock b ((blk.raise f).setVcell o.cell ((c.setReg o.vd (redLanes (redOut op r))).raise 0 f))
/-- `BRED` (R168). Over one cell it performs no operation, so every word but a NaN stays (DESIGN CHOICE, log entry 130). -/
def State.runBred (s : State) (b : BlockId) (o : BredOp) : State :=
  let blk := s.block b
  let d := blk.vcell o.dest
  let op := o.op.toNat
  let cs := ([0, 1, 2, 3] : List (BitVec 2)).filter fun c => o.cells.getLsbD c.toNat
  if o.lanewise = 1 then
    let r := lanes64.map fun l => redTree op 2 (cs.map fun c => ((blk.vcell c).lane o.sa l, 0))
    let fl := r.map (·.2)
    s.setBlock b ((blk.raise (orFlags fl)).setVcell o.dest
      ((d.setReg o.vd (r.map fun x => (redOut op x.1).1)).raiseAll fl))
  else
    let (r, f) := redTree op 2 (cs.map fun c => ((blk.vcell c).lane o.sa 0, (blk.vcell c).lane o.sa 1))
    s.setBlock b ((blk.raise f).setVcell o.dest ((d.setReg o.vd (redLanes (redOut op r))).raise 0 f))

/-! ## Random verbs (R171, R172) -/

/-- `VRNG`. -/
def State.runVrng (s : State) (h : HerdId) (b : BlockId) (o : VrngOp) : State :=
  let blk := s.block b
  let c := blk.vcell o.cell
  let cur := c.cursor o.cur
  let w := fun l => randWord (blk.seed o.stream) o.stream o.layer (s.stepNo h) o.draw (cur.at_ l)
  let v := lanes64.map fun l => if o.form = 1 then toF32 (.fin false ((w l).toNat / 256) (-24)) else w l
  s.setBlock b (blk.setVcell o.cell ((c.setReg o.vd v).advance o.cur o.inc))
/-- `RSEED`. -/
def State.runRseed (s : State) (b : BlockId) (o : RseedOp) : State :=
  s.modBlock b fun x => { x with seeds := x.seeds.set 0 o.stream.toNat o.seed }
/-- `VCUR` (R159). -/
def State.runVcur (s : State) (b : BlockId) (o : VcurOp) : State :=
  s.modBlock b fun x =>
    x.setVcell o.cell ((x.vcell o.cell).setCursor o.cur { base := o.base, lane := o.lane, step := o.step })

/-! ## Loop bodies (R164) -/

/-- A verb that acts on a vector cell alone. -/
def State.cellAct (s : State) (h : HerdId) (b : BlockId) : Verb → State
  | .reg f o => s.runReg b f o
  | .vcvt o => s.runVcvt h b o
  | .vcur o => s.runVcur b o
  | .vred o => s.runVred b o
  | .bred o => s.runBred b o
  | .vrng o => s.runVrng h b o
  | .rseed o => s.runRseed b o
  | _ => s
/-- A verb that a loop body may hold, with its issue periods metered (R347); one that is refused (R101) is not metered. -/
def State.runVector (s : State) (h : HerdId) (b : BlockId) : Verb → State × Status
  | .vld o => s.runVld h b o
  | .vst o => s.runVst h b o
  | v => ((s.meterSteps h (s.periods b v)).cellAct h b v, stOK)
/-- A loop body once. -/
def State.runBody (h : HerdId) (b : BlockId) : List Verb → State → State × Status
  | [], s => (s, stOK)
  | v :: r, s => let (s, st) := s.runVector h b v; if st != stOK then (s, st) else State.runBody h b r s
/-- A loop body `n` times, counting issue periods. -/
def State.runLoop (h : HerdId) (b : BlockId) (body : List Verb) : Nat → State → State × Status
  | 0, s => (s, stOK)
  | n + 1, s =>
    let (s, st) := State.runBody h b body s
    if st != stOK then (s, st) else State.runLoop h b body n s

end Sys2Proof.Machine
end

