-- ==== Sys2Proof/Machine/Verbs.lean ====
section
/-!
DEFINITION. The block sequencer (R101, R102, R209 to R220, Table 07.11): how a block issues the next verb of its Clause,
the move, staging and hand-off verbs (R212 to R218, R255, R256), and the events of a cell pair (Table 03.2).
-/
namespace Sys2Proof.Machine

/-! ## Move verbs (R212, R213) -/

/-- ORG of a `MOV` along a dimension. -/
def movOrg (o : MovOp) (d : Nat) : Nat :=
  if d = o.od0.toNat then o.org0.toNat else if d = o.od1.toNat then o.org1.toNat else 0
/-- A `MOV` from `p` to `q` is not refused (R213). -/
def movOk (b : BlockId) (o : MovOp) (p q : Piece) : Bool :=
  let n := p.noun
  let m := q.noun
  let near := fun (x : Noun) => x.kind != 0 || x.alloc.toNat / 96 == regionOf b
  let lead := fun (x : Noun) => (x.dims.getD x.sdim.toNat {}).lead.toNat % 32 == 0
  n.elem == m.elem && n.rank == m.rank && (ownScratch b n || ownScratch b m) && near n && near m
    && (o.scales == 0 || (n.scaled && m.scaled && n.sdim == m.sdim && movOrg o n.sdim.toNat % 32 == 0 && lead n && lead m))
/-- The source position of a destination coordinate, if it lies in the source's valid extent. -/
def movSource (o : MovOp) (p q : Piece) (c : List Nat) : Option (List Nat) :=
  let v : List Int := (c.zipIdx).map fun e =>
    ((p.noun.dims.getD e.2 {}).lead.toNat : Int) + e.1 - (q.noun.dims.getD e.2 {}).lead.toNat + movOrg o e.2
  if (v.all fun x => 0 ≤ x) && p.valid (v.map Int.toNat) then some (v.map Int.toNat) else none
/-- The coordinates of a piece's valid extent, row-major. -/
def Piece.validCoords (q : Piece) : List (List Nat) :=
  let sh := q.ranges.map fun r => r.2 - r.1
  (List.range (prodOf sh)).map fun i => ((unRowMajor sh i).zip q.ranges).map fun e => e.1 + e.2.1
/-- Move elements one by one. -/
def State.movEls (o : MovOp) (p q : Piece) : List (List Nat) → State → State × Status
  | [], s => (s, stOK)
  | c :: r, s =>
    let (s, st, v) := match movSource o p q c with
      | some d => s.ldElem p d
      | none => (s, stOK, 0)
    if st != stOK then (s, st)
    else
      let (s, st) := s.stElem true q c v
      if st != stOK then (s, st) else State.movEls o p q r s
/-- Move scale blocks: each destination block takes the code of the source block it comes from; one whose source positions
all lie outside takes a free value (DESIGN CHOICE, log entry 50). -/
def State.movScales (o : MovOp) (p q : Piece) (cs : List (List Nat)) : List Nat → State → State × Status
  | [], s => (s, stOK)
  | k :: r, s =>
    let src := (cs.filter fun c => q.scaleBlock c = k).findSome? (movSource o p q)
    let (s, st, v) := match src with
      | some d => s.ldScale p (p.scaleBlock d)
      | none => let (s, l) := s.freeBytes 1; (s, stOK, l.headD 0)
    if st != stOK then (s, st)
    else
      let (s, st) := s.stScale true q k v
      if st != stOK then (s, st) else State.movScales o p q cs r s
/-- `MOV`. Of one that fails, the whole destination is undefined (R227). -/
def State.runMov (s : State) (h : HerdId) (b : BlockId) (o : MovOp) : State × Status :=
  match s.nounAt b o.src, s.nounAt b o.dst with
  | some n, some m =>
    let p := s.piece n
    let q := s.piece m
    if !movOk b o p q then (s, stCfgInvalid)
    else
      let cs := q.validCoords
      let r := State.movEls o p q cs s
      let ks := if o.scales = 0 then [] else (cs.map q.scaleBlock).eraseDups
      let r := if r.2 != stOK then r else State.movScales o p q cs ks r.1
      let r := if r.2 != stOK then (r.1.cease q cs ks, r.2) else r
      (s.remeter r.1 h (cs.map q.addr ++ (cs.filterMap (movSource o p q)).map p.addr), r.2)
  | _, _ => (s, stCfgInvalid)

/-! ## `SETR` (R217, R218) -/

/-- The value that a `SETR` writes, as its low and high words. -/
def State.setrValue (s : State) (b : BlockId) (o : SetrOp) : State × Status × W32 × W32 :=
  if o.fromNoun = 0 then (s, stOK, o.imm.setWidth 32, (o.imm >>> (32 : Nat)).setWidth 32)
  else match s.nounAt b o.noun with
  | none => (s, stCfgInvalid, 0, 0)
  | some n =>
    if !ownScratch b n || !(n.elem == 0 || n.elem == 6) then (s, stCfgInvalid, 0, 0)
    else
      let p := s.piece n
      let (s, st, lo) := s.ldRaw p o.index.toNat
      if st != stOK then (s, st, 0, 0)
      else if o.wide = 0 then (s, stOK, BitVec.ofNat 32 lo, 0)
      else let (s, st, hi) := s.ldRaw p (o.index.toNat + 1); (s, st, BitVec.ofNat 32 lo, BitVec.ofNat 32 hi)
/-- Stage one word of a `SETR`: each RWS field takes effect at the start of `beat`; a reserved value is discarded and
reported (R11). -/
def State.stageWord (s : State) (h : HerdId) (b : BlockId) (beat : W48) (seq off : Nat) (v : W32) : State :=
  (rwsFields off).foldl (fun s f =>
    let x := bits v.toNat f.1 f.2.1
    if f.2.2 x then s.badValue (.vf h) off
    else s.modHerd h fun y =>
      { y with setrs := y.setrs ++ [{ off := off, mask := fieldMask f.1 f.2.1, val := v, block := s.herdIndex h b
                                      seq := seq, beat := beat.toNat }] }) s
/-- `SETR`: its value takes effect at the start of the beat after the block's own (R218). -/
def State.runSetr (s : State) (h : HerdId) (b : BlockId) (o : SetrOp) : State × Status :=
  let off := o.offset.toNat
  if (rwsFields off).isEmpty && (o.wide = 0 || (rwsFields (off + 4)).isEmpty) then (s, stCfgInvalid)
  else
    let (s', st, lo, hi) := s.setrValue b o
    if st != stOK then (s', st)
    else
      let beat := s.blockBeat h b + 1
      let seq := (s.block b).pos
      let s' := s'.stageWord h b beat seq off lo
      (if o.wide = 1 then s'.stageWord h b beat seq (off + 4) hi else s', stOK)

/-! ## Hand-off verbs (R255, R256) -/

/-- MIX_K of a row as in effect in beat `b` (Table 08.1). -/
def Herd.mixK (x : Herd) (b : W48) (q : Nat) : Nat := bits (x.rowWordAt b q 17).toNat 8 5
/-- `DCOEF`: the row as in effect at the start of the block's own beat. -/
def State.runDcoef (s : State) (h : HerdId) (b : BlockId) (o : DcoefOp) : State × Status :=
  let x := s.herd h
  let q := o.row.toNat
  let t := s.blockBeat h b
  if o.checkK = 1 && x.mixK t q != o.kExpect.toNat then (s, stCfgInvalid)
  else
    let v := (List.range 32).map fun w => if w < 18 then x.rowWordAt t q w else 0
    ((s.meterSteps h 1).modBlock b fun y => y.setVcell o.cell ((y.vcell o.cell).setReg o.vd (v ++ List.replicate 32 0)), stOK)
/-- Mask `p` of a sparse item (R248). -/
def maskAddr (i : DclItem) (p : Nat) : Nat := i.maskBase + p * 64 * cdiv i.rows 512
/-- Set the bits of rows in a mask. An abandoned step keeps them (R260, R264). -/
def State.touchRows (h : HerdId) (a : Nat) : List Nat → State → State × Status
  | [], s => (s, stOK)
  | r :: l, s =>
    let (s, st, v) := s.rd h (a + r / 8) 1
    if st != stOK then (s, st)
    else
      let (s, st) := s.runPut h (a + r / 8) [v.headD 0 ||| BitVec.ofNat 8 (2 ^ (r % 8))]
      if st != stOK then (s, st) else State.touchRows h a l s
/-- `DTOUCH`: metered as 64 lines whatever its lanes hold (R347). -/
def State.runDtouch (s : State) (h : HerdId) (b : BlockId) (o : DtouchOp) : State × Status :=
  match ((s.herd h).sentence.map (·.dcls)).bind fun l => l[o.item.toNat]? with
  | none => (s, stCfgInvalid)
  | some i =>
    let c := (s.block b).vcell o.cell
    let rows := (lanes64.map fun l => (c.lane o.sa l).toNat).filter (· < i.rows)
    let a := maskAddr i ((s.stepNo h).toNat % 2)
    let s := s.meterSteps h 1
    let r := State.touchRows h a rows s
    (s.remeter r.1 h (lanes64.map fun l => a + 64 * l), r.2)

/-! ## Issue -/

/-- Beat `k` of the pass has ended, as the block has seen it; a negative index lies in an earlier pass. -/
def Block.ended (x : Block) (k : Int) : Bool := decide (k < x.seen)
/-- WAIT and R220 let a verb of the block's segment issue. -/
def Block.waitOk (x : Block) (w : BitVec 3) : Bool :=
  x.ended ((x.seg : Int) - 8) && (w == 0 || x.ended ((x.seg : Int) - w.toNat))
/-- The operand Nouns of the `MMA` verbs in progress on a block. -/
def State.mmaPieces (s : State) (b : BlockId) : List Piece :=
  let x := s.block b
  (allPairs.filterMap fun p => (x.pair p).run).flatMap fun r =>
    [r.op.aAg, r.op.bAg].filterMap fun k => (s.nounAt b (x.ag k).noun).map s.piece
/-- A write through a Noun would meet what an `MMA` in progress reads (R102). -/
def State.meetsMma (s : State) (b : BlockId) (e : BitVec 6) : Bool :=
  match s.nounAt b e with
  | some n => (s.mmaPieces b).any fun p => overlaps p (s.piece n)
  | none => false
/-- The body of a `VLOOP` at the block's position. -/
def Block.loopBody (x : Block) (o : VloopOp) : List VerbWord := (x.clause.drop (x.pos + 1)).take (o.body.toNat + 1)
/-- R102 holds a verb: a pair or a generator is in use, or its write would overtake an `MMA`. `DCOEF` waits until the row
values of its beat are in effect (R255). -/
def State.verbHeld (s : State) (b : BlockId) (v : Verb) : Bool :=
  let x := s.block b
  match v with
  | .mma o => x.pairBusy o.pairs || x.agBusy o.aAg || x.agBusy o.bAg
  | .mst o => x.pairBusy o.pairs || x.agBusy o.cAg || s.meetsMma b (x.ag o.cAg).noun
  | .mclr p => x.pairBusy p
  | .agBind o => x.agBusy o.ag
  | .agOrigin o => x.agBusy o.ag
  | .agConv o => x.agBusy o.ag
  | .vst o => s.meetsMma b o.noun
  | .mov o => s.meetsMma b o.dst
  | .vloop o => (x.loopBody o).any fun w =>
      !x.waitOk w.issue.wait || (match w.verb with | .vst v => s.meetsMma b v.noun | _ => false)
  | .dcoef _ => !x.ended ((x.seg : Int) - 1)
  | _ => false
/-- Verb words that a verb takes with it: a loop takes its body. -/
def verbLen (v : Verb) : Nat := match v with | .vloop o => o.body.toNat + 2 | _ => 1
/-- What a verb does. -/
def State.runVerb (s : State) (h : HerdId) (b : BlockId) (v : Verb) : State × Status :=
  let seg := (s.block b).seg
  match v with
  | .mma o => s.runMma b o seg
  | .mst o => s.runMst h b o
  | .mclr p => (s.runMclr b p, stOK)
  | .agBind o => s.runAgBind b o
  | .agOrigin o => s.runAgOrigin b o
  | .agConv o => s.runAgConv b o
  | .vloop o =>
    let body := ((s.block b).loopBody o).map (·.verb)
    State.runLoop h b body (o.count.toNat + 1) (s.meterSteps h 1)
  | .mov o => s.runMov h b o
  | .bend _ => (s, stOK)
  | .setr o => s.runSetr h b o
  | .dcoef o => s.runDcoef h b o
  | .dtouch o => s.runDtouch h b o
  | v => s.runVector h b v
/-- The herd whose run lets a block issue a verb now: it is the next of its Clause. -/
def State.atVerb (s : State) (b : BlockId) (w : VerbWord) : Option HerdId :=
  let x := s.block b
  match s.owner b with
  | some h =>
    if (s.herd h).working && (x.st == .issue || x.st == .held) && x.clause[x.pos]? == some w then some h else none
  | none => none
/-- A block's next verb: held, issued, or refused (R101). -/
def State.issueVerb (s : State) (b : BlockId) (w : VerbWord) : Out :=
  match s.atVerb b w with
  | none => .next s
  | some h =>
    if !(s.block b).waitOk w.issue.wait || s.verbHeld b w.verb then .next (s.modBlock b fun x => { x with st := .held })
    else
      let (s, st) := s.runVerb h b w.verb
      if st != stOK then .next (s.stopBlock h b st)
      else .next (s.modBlock b fun x =>
        { x with st := .issue, pos := x.pos + verbLen w.verb, seg := x.seg + segEnds w })

/-! ## Verbs -/

/-- `VADD` (SA + SB). -/
def execVadd (b : BlockId) (i : Issue) (o : RegOp) (s : State) : Out := s.issueVerb b ⟨.reg .vadd o, i⟩
/-- `VSUB` (SA − SB). -/
def execVsub (b : BlockId) (i : Issue) (o : RegOp) (s : State) : Out := s.issueVerb b ⟨.reg .vsub o, i⟩
/-- `VMUL` (SA × SB). -/
def execVmul (b : BlockId) (i : Issue) (o : RegOp) (s : State) : Out := s.issueVerb b ⟨.reg .vmul o, i⟩
/-- `VFMA` (SA × SB + SC, one rounding). -/
def execVfma (b : BlockId) (i : Issue) (o : RegOp) (s : State) : Out := s.issueVerb b ⟨.reg .vfma o, i⟩
/-- `VFNMA` (SC − SA × SB, one rounding). -/
def execVfnma (b : BlockId) (i : Issue) (o : RegOp) (s : State) : Out := s.issueVerb b ⟨.reg .vfnma o, i⟩
/-- `VMAX` (R154). -/
def execVmax (b : BlockId) (i : Issue) (o : RegOp) (s : State) : Out := s.issueVerb b ⟨.reg .vmax o, i⟩
/-- `VMIN` (R154). -/
def execVmin (b : BlockId) (i : Issue) (o : RegOp) (s : State) : Out := s.issueVerb b ⟨.reg .vmin o, i⟩
/-- `VABS` (R154). -/
def execVabs (b : BlockId) (i : Issue) (o : RegOp) (s : State) : Out := s.issueVerb b ⟨.reg .vabs o, i⟩
/-- `VNEG` (R154). -/
def execVneg (b : BlockId) (i : Issue) (o : RegOp) (s : State) : Out := s.issueVerb b ⟨.reg .vneg o, i⟩
/-- `VRCP` (R153, Table 05.4). -/
def execVrcp (b : BlockId) (i : Issue) (o : RegOp) (s : State) : Out := s.issueVerb b ⟨.reg .vrcp o, i⟩
/-- `VDIVS` (R156). -/
def execVdivs (b : BlockId) (i : Issue) (o : RegOp) (s : State) : Out := s.issueVerb b ⟨.reg .vdivs o, i⟩
/-- `VRSQRT` (R153, Table 05.4). -/
def execVrsqrt (b : BlockId) (i : Issue) (o : RegOp) (s : State) : Out := s.issueVerb b ⟨.reg .vrsqrt o, i⟩
/-- `VEXP2` (R153, Table 05.4). -/
def execVexp2 (b : BlockId) (i : Issue) (o : RegOp) (s : State) : Out := s.issueVerb b ⟨.reg .vexp2 o, i⟩
/-- `VLOG2` (R153, Table 05.4). -/
def execVlog2 (b : BlockId) (i : Issue) (o : RegOp) (s : State) : Out := s.issueVerb b ⟨.reg .vlog2 o, i⟩
/-- `VLDEXP` (R157). -/
def execVldexp (b : BlockId) (i : Issue) (o : RegOp) (s : State) : Out := s.issueVerb b ⟨.reg .vldexp o, i⟩
/-- `VCMP` (Table 05.3). -/
def execVcmp (b : BlockId) (i : Issue) (o : RegOp) (s : State) : Out := s.issueVerb b ⟨.reg .vcmp o, i⟩
/-- `VSEL` (SA where SC ≠ 0, else SB). -/
def execVsel (b : BlockId) (i : Issue) (o : RegOp) (s : State) : Out := s.issueVerb b ⟨.reg .vsel o, i⟩
/-- `VAND` (Table 05.2). -/
def execVand (b : BlockId) (i : Issue) (o : RegOp) (s : State) : Out := s.issueVerb b ⟨.reg .vand o, i⟩
/-- `VOR` (Table 05.2). -/
def execVor (b : BlockId) (i : Issue) (o : RegOp) (s : State) : Out := s.issueVerb b ⟨.reg .vor o, i⟩
/-- `VXOR` (Table 05.2). -/
def execVxor (b : BlockId) (i : Issue) (o : RegOp) (s : State) : Out := s.issueVerb b ⟨.reg .vxor o, i⟩
/-- `VSHL` (Table 05.2). -/
def execVshl (b : BlockId) (i : Issue) (o : RegOp) (s : State) : Out := s.issueVerb b ⟨.reg .vshl o, i⟩
/-- `VSRL` (Table 05.2). -/
def execVsrl (b : BlockId) (i : Issue) (o : RegOp) (s : State) : Out := s.issueVerb b ⟨.reg .vsrl o, i⟩
/-- `VSRA` (Table 05.2). -/
def execVsra (b : BlockId) (i : Issue) (o : RegOp) (s : State) : Out := s.issueVerb b ⟨.reg .vsra o, i⟩
/-- `VIADD` (R155). -/
def execViadd (b : BlockId) (i : Issue) (o : RegOp) (s : State) : Out := s.issueVerb b ⟨.reg .viadd o, i⟩
/-- `VISUB` (R155). -/
def execVisub (b : BlockId) (i : Issue) (o : RegOp) (s : State) : Out := s.issueVerb b ⟨.reg .visub o, i⟩
/-- `VIMUL` (R155). -/
def execVimul (b : BlockId) (i : Issue) (o : RegOp) (s : State) : Out := s.issueVerb b ⟨.reg .vimul o, i⟩
/-- `VIMAX` (Table 05.2). -/
def execVimax (b : BlockId) (i : Issue) (o : RegOp) (s : State) : Out := s.issueVerb b ⟨.reg .vimax o, i⟩
/-- `VIMIN` (Table 05.2). -/
def execVimin (b : BlockId) (i : Issue) (o : RegOp) (s : State) : Out := s.issueVerb b ⟨.reg .vimin o, i⟩
/-- `VEXPADD` (R158). -/
def execVexpadd (b : BlockId) (i : Issue) (o : RegOp) (s : State) : Out := s.issueVerb b ⟨.reg .vexpadd o, i⟩
/-- `VPADD` (R153). -/
def execVpadd (b : BlockId) (i : Issue) (o : RegOp) (s : State) : Out := s.issueVerb b ⟨.reg .vpadd o, i⟩
/-- `VPMUL` (R153). -/
def execVpmul (b : BlockId) (i : Issue) (o : RegOp) (s : State) : Out := s.issueVerb b ⟨.reg .vpmul o, i⟩
/-- `VPFMA` (R153). -/
def execVpfma (b : BlockId) (i : Issue) (o : RegOp) (s : State) : Out := s.issueVerb b ⟨.reg .vpfma o, i⟩
/-- `VMOV` (Table 05.2). -/
def execVmov (b : BlockId) (i : Issue) (o : RegOp) (s : State) : Out := s.issueVerb b ⟨.reg .vmov o, i⟩
/-- `VSPLAT` (Table 05.2). -/
def execVsplat (b : BlockId) (i : Issue) (o : RegOp) (s : State) : Out := s.issueVerb b ⟨.reg .vsplat o, i⟩
/-- `VLIMM` (Table 05.2). -/
def execVlimm (b : BlockId) (i : Issue) (o : RegOp) (s : State) : Out := s.issueVerb b ⟨.reg .vlimm o, i⟩
/-- `VLANE` (Table 05.2). -/
def execVlane (b : BlockId) (i : Issue) (o : RegOp) (s : State) : Out := s.issueVerb b ⟨.reg .vlane o, i⟩
/-- `VARGMAX` (R166). -/
def execVargmax (b : BlockId) (i : Issue) (o : RegOp) (s : State) : Out := s.issueVerb b ⟨.reg .vargmax o, i⟩
/-- `VARGMIN` (R166). -/
def execVargmin (b : BlockId) (i : Issue) (o : RegOp) (s : State) : Out := s.issueVerb b ⟨.reg .vargmin o, i⟩
/-- `VGETF` (R165). -/
def execVgetf (b : BlockId) (i : Issue) (o : RegOp) (s : State) : Out := s.issueVerb b ⟨.reg .vgetf o, i⟩
/-- `VCLRF` (R165). -/
def execVclrf (b : BlockId) (i : Issue) (o : RegOp) (s : State) : Out := s.issueVerb b ⟨.reg .vclrf o, i⟩
/-- `MMA` (R95). -/
def execMma (b : BlockId) (i : Issue) (o : MmaOp) (s : State) : Out := s.issueVerb b ⟨.mma o, i⟩
/-- `MST` (R98). -/
def execMst (b : BlockId) (i : Issue) (o : MstOp) (s : State) : Out := s.issueVerb b ⟨.mst o, i⟩
/-- `AG_BIND` (R106). -/
def execAgBind (b : BlockId) (i : Issue) (o : AgBindOp) (s : State) : Out := s.issueVerb b ⟨.agBind o, i⟩
/-- `AG_ORIGIN` (R107). -/
def execAgOrigin (b : BlockId) (i : Issue) (o : AgOriginOp) (s : State) : Out := s.issueVerb b ⟨.agOrigin o, i⟩
/-- `AG_CONV` (R108). -/
def execAgConv (b : BlockId) (i : Issue) (o : AgConvOp) (s : State) : Out := s.issueVerb b ⟨.agConv o, i⟩
/-- `VCVT` (Table 05.5). -/
def execVcvt (b : BlockId) (i : Issue) (o : VcvtOp) (s : State) : Out := s.issueVerb b ⟨.vcvt o, i⟩
/-- `VLD` (Table 05.7). -/
def execVld (b : BlockId) (i : Issue) (o : VldOp) (s : State) : Out := s.issueVerb b ⟨.vld o, i⟩
/-- `VST` (Table 05.7). -/
def execVst (b : BlockId) (i : Issue) (o : VstOp) (s : State) : Out := s.issueVerb b ⟨.vst o, i⟩
/-- `VCUR` (R159). -/
def execVcur (b : BlockId) (i : Issue) (o : VcurOp) (s : State) : Out := s.issueVerb b ⟨.vcur o, i⟩
/-- `VLOOP` (R164). -/
def execVloop (b : BlockId) (i : Issue) (o : VloopOp) (s : State) : Out := s.issueVerb b ⟨.vloop o, i⟩
/-- `VRED` (R167). -/
def execVred (b : BlockId) (i : Issue) (o : VredOp) (s : State) : Out := s.issueVerb b ⟨.vred o, i⟩
/-- `BRED` (R168). -/
def execBred (b : BlockId) (i : Issue) (o : BredOp) (s : State) : Out := s.issueVerb b ⟨.bred o, i⟩
/-- `VRNG` (R171). -/
def execVrng (b : BlockId) (i : Issue) (o : VrngOp) (s : State) : Out := s.issueVerb b ⟨.vrng o, i⟩
/-- `RSEED` (R172). -/
def execRseed (b : BlockId) (i : Issue) (o : RseedOp) (s : State) : Out := s.issueVerb b ⟨.rseed o, i⟩
/-- `MOV` (R212). -/
def execMov (b : BlockId) (i : Issue) (o : MovOp) (s : State) : Out := s.issueVerb b ⟨.mov o, i⟩
/-- `SETR` (R217). -/
def execSetr (b : BlockId) (i : Issue) (o : SetrOp) (s : State) : Out := s.issueVerb b ⟨.setr o, i⟩
/-- `DCOEF` (R255). -/
def execDcoef (b : BlockId) (i : Issue) (o : DcoefOp) (s : State) : Out := s.issueVerb b ⟨.dcoef o, i⟩
/-- `DTOUCH` (R256). -/
def execDtouch (b : BlockId) (i : Issue) (o : DtouchOp) (s : State) : Out := s.issueVerb b ⟨.dtouch o, i⟩
/-- `MCLR` (R100). -/
def execMclr (b : BlockId) (i : Issue) (pairs : BitVec 8) (s : State) : Out := s.issueVerb b ⟨.mclr pairs, i⟩
/-- `BEND` (R215). -/
def execBend (b : BlockId) (i : Issue) (skip : BitVec 4) (s : State) : Out := s.issueVerb b ⟨.bend skip, i⟩


/-! ## The events of a cell pair (Table 03.2) -/

/-- The `MMA` in progress on a pair. -/
def State.mmaRun (s : State) (b : BlockId) (p : PairId) : Option MmaRun := ((s.block b).pair p).run
/-- Change a pair. -/
def State.modPair (s : State) (b : BlockId) (p : PairId) (f : Pair → Pair) : State :=
  s.modBlock b fun x => x.setPair p (f (x.pair p))
/-- An event of a pair whose `MMA` is in progress and whose condition holds. -/
def State.onPair (s : State) (b : BlockId) (p : PairId) (c : MmaRun → Bool) (f : MmaRun → State) : Out :=
  match s.mmaRun b p with
  | some r => if c r then .next (f r) else .next s
  | none => .next s
/-- A fetch that fails stops the herd's run (R466). -/
def State.fetchFail (s : State) (b : BlockId) (st : Status) : State :=
  match s.owner b with | some h => s.stopBlock h b st | none => s
/-- GROUP_START. -/
def execGroupStart (b : BlockId) (p : PairId) (s : State) : Out :=
  s.onPair b p (fun r => !r.inGroup && r.nextFull && r.group ≤ r.op.ksteps.toNat) fun r =>
    s.modPair b p fun q => q.groupStart r
/-- The k-group that the next chunk registers are for. -/
def MmaRun.fillGroup (r : MmaRun) : Nat := if r.inGroup then r.group + 1 else r.group
/-- REFILL_COMPLETE. -/
def execRefillComplete (b : BlockId) (p : PairId) (s : State) : Out :=
  s.onPair b p (fun r => !r.nextFull && r.fillGroup ≤ r.op.ksteps.toNat) fun r =>
    let a := (s.block b).ag r.op.bAg
    match s.nounAt b a.noun with
    | none => s.fetchFail b stCfgInvalid
    | some n =>
      let g := fmtG r.op.fmt
      let (s, st, t) := State.fillLanes a (s.piece n) g r.n0 (r.kB + (r.fillGroup * g : Nat)) 128 0 {} s
      if st != stOK then s.fetchFail b st
      else s.modPair b p fun q => { q with next := t, run := some { r with nextFull := true } }
/-- A_OFFER. -/
def execAOffer (b : BlockId) (p : PairId) (s : State) : Out :=
  s.onPair b p (fun r => r.inGroup && r.offer.isNone) fun r =>
    let a := (s.block b).ag r.op.aAg
    match s.nounAt b a.noun with
    | none => s.fetchFail b stCfgInvalid
    | some n =>
      let g := fmtG r.op.fmt
      let (s, st, d, c) := s.fetchGroup a (s.piece n) g (r.m0 + r.row) (r.kA + (r.group * g : Nat))
      if st != stOK then s.fetchFail b st
      else s.modPair b p fun q => { q with run := some { r with offer := some { data := d, scale := c } } }
/-- LANE_ACCEPT. -/
def execLaneAccept (b : BlockId) (p : PairId) (l : PairLane) (s : State) : Out :=
  s.onPair b p (fun r => r.inGroup && r.offer.isSome && !r.acks.getLsbD l.val) fun r =>
    s.modPair b p fun q =>
      match q.acc, r.offer with
      | some acc, some o =>
        let q := q.laneStep acc (s.mmaElem b r.op.aAg) (s.mmaElem b r.op.bAg) o l.val r.row
        { q with run := some { r with acks := r.acks ||| BitVec.ofNat 128 (2 ^ l.val) } }
      | _, _ => q
/-- STEP_COMPLETE: the two cells of the pair have made a step. -/
def execStepComplete (b : BlockId) (p : PairId) (s : State) : Out :=
  s.onPair b p (fun r => r.inGroup && r.acks == BitVec.allOnes 128) fun r =>
    let s := match s.owner b with | some h => s.meterSteps h 2 | none => s
    s.modPair b p fun q => q.stepDone r
/-- MMA_VERB_END. -/
def execMmaVerbEnd (b : BlockId) (p : PairId) (s : State) : Out :=
  s.onPair b p (fun r => !r.inGroup && r.op.ksteps.toNat < r.group) fun r => s.modBlock b fun x => x.verbEnd p r

end Sys2Proof.Machine
end

