-- ==== Sys2Proof/Machine/Declension.lean ====
section
/-!
DEFINITION. The declension units (R238 to R261): the rows and masks latched for a beat (R247), the recurrence (R240), norms
and trust ratios (R242, R243), non-finite events (R244), the phases of an item (R252, R253), sparse rows with their
catch-up (R259, R261), the checks at the run (R250) and the masks cleared at a boundary (R260).
-/
namespace Sys2Proof.Machine

/-! ## Arrays of an item (R248, R250) -/

/-- Elements of an item. -/
def dclElems (i : DclItem) : Nat := i.rows * i.rowLen
/-- Device address of tense `k` of an array. -/
def tensed (i : DclItem) (base : Nat) (k : Bool) : Nat := base + (if k then i.tStride else 0)
/-- Bytes of one mask. -/
def maskBytes (i : DclItem) : Nat := 64 * cdiv i.rows 512
/-- Where the mixed matrix n stands in XBUF (R252). -/
def xbufN (i : DclItem) : Nat := i.xbuf + 64 * cdiv (2 * dclElems i) 64
/-- The arrays that both tenses hold: W, M, V and, for a sparse item, LAST. -/
def tensedArrays (i : DclItem) : List (Nat × Nat) :=
  let n := dclElems i
  let w := elemBytes i.wFmt * n
  let z := elemBytes i.sFmt * n
  [false, true].flatMap fun k =>
    [(tensed i i.wBase k, w), (tensed i i.mBase k, z), (tensed i i.vBase k, z)]
      ++ (if i.sparse then [(tensed i i.lastBase k, 8 * i.rows)] else [])
/-- The other arrays of an item. -/
def otherArrays (i : DclItem) : List (Nat × Nat) :=
  let n := dclElems i
  [(i.gBase, elemBytes i.gFmt * n)] ++ (if i.gScaled then [(i.gSBase, n / 32)] else [])
    ++ (if i.sparse then [(i.maskBase, 2 * maskBytes i)] else []) ++ (if i.gnormEn then [(i.gnormAddr, 4)] else [])
    ++ (if i.mix then [(i.xbuf, xbufN i - i.xbuf + 4 * n)] else if i.trust = 2 then [(i.xbuf, 8)] else [])
/-- A range lies in lots or windows that the herd holds, in its world, not DAMAGED and outside every reserved range. -/
def State.heldArray (s : State) (h : HerdId) (a n : Nat) : Bool :=
  s.held h a n && (match s.place a with | .lot _ _ => true | .win _ _ => true | _ => false)
/-- No two ranges of a list share a byte. -/
def disjointRanges : List (Nat × Nat) → Bool
  | [] => true
  | x :: r => (r.all fun y => !rangesMeet x.1 x.2 y.1 y.2) && disjointRanges r
/-- No range of one list shares a byte with one of the lists after it. -/
def disjointLists : List (List (Nat × Nat)) → Bool
  | [] => true
  | x :: r => (r.all fun l => x.all fun a => l.all fun b => !rangesMeet a.1 a.2 b.1 b.2) && disjointLists r
/-- The checks of R250. A POST item names the arrays of its PRE item, so pairs are judged once. -/
def State.dclRunOk (s : State) (h : HerdId) (items : List DclItem) : Bool :=
  (items.all fun i =>
    let l := tensedArrays i ++ otherArrays i
    (l.all fun a => s.heldArray h a.1 a.2) && disjointRanges l)
  && disjointLists ((items.filter fun i => i.phase != 2).map tensedArrays)

/-! ## Latches (R247, R259) -/

/-- The items that the beat plan names for a kind in a beat. -/
def itemsIn (m : Sentence) (kind : BitVec 8) (beat : Nat) : List Nat :=
  (m.plan.filter fun e => e.kind = kind && e.beat = beat).map (·.item)
/-- The rows that a mask marks, ascending. -/
def maskRows (i : DclItem) (d : List Byte) : List Nat :=
  (List.range i.rows).filter fun r => (d.getD (r / 8) 0).getLsbD (r % 8)
/-- The PRE item of a POST item. -/
def preOf (m : Sentence) (k : Nat) : Nat :=
  match m.dcls[k]? with
  | some i =>
    if i.phase = 2 then (m.dcls.findIdx? fun j => j.phase = 1 && dclMatch j i).getD k else k
  | none => k
/-- The key of an item's latched mask rows. -/
def latchKey (k : Nat) : Nat := k + 2 ^ 24
/-- The key under which a PRE item leaves the elements that keep their present values (R244, NF = 1). -/
def keepKey (k : Nat) : Nat := k + 2 ^ 25
/-- The key of the status of an item's mask A, when its read failed (Table 08.6). -/
def failKey (k : Nat) : Nat := k + 3 * 2 ^ 24
/-- The step number's low bit picks the mask of the step (R256, R259). -/
def State.maskNow (s : State) (h : HerdId) (i : DclItem) : Nat := maskAddr i ((s.stepNo h).toNat % 2)
/-- Mask (t - 1) mod 2. -/
def State.maskBefore (s : State) (h : HerdId) (i : DclItem) : Nat := maskAddr i (((s.stepNo h).toNat + 1) % 2)
/-- The units latch the row and the marked rows of one item at the start of its beat; a POST item uses what was latched
for its PRE item. -/
def State.latchItem (s : State) (h : HerdId) (k : Nat) : State :=
  let x := s.herd h
  match x.sentence.bind fun m => m.dcls[k]? with
  | none => s
  | some i =>
    if i.phase = 2 then s
    else
      let row := (List.range 18).map fun w => x.rowWord i.row.toNat w
      let (s, st, mask) := if i.sparse then s.rd h (s.maskNow h i) (maskBytes i) else (s, stOK, [])
      let touched := (if i.sparse && st = stOK then maskRows i mask else []).map fun r => BitVec.ofNat 32 r
      let failed := if st = stOK then [] else [st.setWidth 32]
      s.modHerd h fun x =>
        let t := (x.latched.set [] k row).set [] (latchKey k) touched
        { x with latched := (t.set [] (keepKey k) []).set [] (failKey k) failed }
/-- The latches of the items of a beat of the pass. -/
def State.latchBeat (s : State) (h : HerdId) (beat : Nat) : State :=
  (((s.herd h).sentence.map fun m => itemsIn m 2 beat).getD []).foldl (fun s k => s.latchItem h k) s

/-! ## The recurrence (R240, R243, R261) -/

/-- A latched row. -/
abbrev DclRow := List W32
/-- Field `k` of a row, by its word (Table 08.1). -/
def rowAt (c : DclRow) (k : Nat) : W32 := c.getD k 0
/-- 2^k as FP32. -/
def pow2F (k : Int) : W32 := toF32 (.fin false 1 k)
/-- m1 and v1. -/
def dclState (c : DclRow) (g m v : W32) : W32 × W32 :=
  (fAdd (fMul (rowAt c 1) m) (fMul (rowAt c 2) g),
   fMax (fAdd (fMul (rowAt c 3) v) (fMul (rowAt c 4) (fMul g g))) (fMul (rowAt c 5) v))
/-- sign(x): +1.0, -1.0, or x itself when x is a zero or NaN. -/
def fSign (x : W32) : W32 := if isNan32 x || isZero32 x then x else if x.getLsbD 31 then 0xBF80_0000 else one32
/-- x. -/
def dclDir (c : DclRow) (m1 v1 g : W32) : W32 :=
  let x := fMul (fAdd (fMul (rowAt c 6) m1) (fMul (rowAt c 7) g)) (fRsqrt (fAdd (fMul (rowAt c 8) v1) (rowAt c 9))).1
  if (rowAt c 17).getLsbD 0 then fSign x else x
/-- r. -/
def dclSum (c : DclRow) (n w : W32) : W32 := fAdd n (fMul (rowAt c 11) w)
/-- w1, with s the gradient scale exponent and phi of R243. -/
def dclWeight (c : DclRow) (s : Int) (phi r w : W32) : W32 :=
  fSub (fMul (rowAt c 10) w) (fMul (fMul (rowAt c 0) (pow2F (-s))) (fMul (pow2F s) (fMul phi r)))
/-- clip, and whether G2 is unusable (R241). -/
def clipOf (c : DclRow) (g2 : Option W32) : W32 × Bool :=
  match g2 with
  | none => (one32, false)
  | some g =>
    if isZero32 g then (one32, false)
    else if !isFinite32 g || g.getLsbD 31 then (one32, true)
    else (fMin one32 (fMul (rowAt c 12) (fRsqrt g).1), false)
/-- phi from W2 and R2 (R243). -/
def phiOf (c : DclRow) (w2 r2 : W32) : W32 :=
  if isZero32 w2 || isZero32 r2 then one32
  else
    let q := fDiv (fSqrt w2) (fSqrt r2)
    if isZero32 (rowAt c 13) then q else fMin q (rowAt c 13)
/-- Repeated squaring: bits `i`, `i + 1`, … of `d`. -/
def powAux (d : Nat) : Nat → Nat → W32 → W32 → W32
  | 0, _, result, _ => result
  | f + 1, i, result, base => powAux d f (i + 1) (if bit d i then fMul result base else result) (fMul base base)
/-- pow(c, d) (R261). -/
def powF (c : W32) (d : Nat) : W32 := powAux d 48 0 one32 c
/-- Catch-up of the present values of a row over a gap `d` (R261). -/
def catchUp (c : DclRow) (d : Nat) (w m v : W32) : W32 × W32 × W32 :=
  if d = 0 then (w, m, v)
  else
    (fMul w (powF (fSub (rowAt c 10) (fMul (rowAt c 0) (rowAt c 11))) d), fMul m (powF (rowAt c 1) d),
     fMul v (powF (fMax (rowAt c 3) (rowAt c 5)) d))

/-! ## Norms (R242) -/

/-- Adjacent pairs added once. -/
def pairSums : List W32 → List W32
  | x :: y :: r => fAdd x y :: pairSums r
  | l => l
/-- The pairwise tree of `k` levels. -/
def treeAdd : Nat → List W32 → W32
  | 0, l => l.headD 0
  | k + 1, l => treeAdd k (pairSums l)
/-- The sum of the squares of `n` elements in blocks of 256; an element not listed is +0. -/
def sumSquares (n : Nat) (v : Tbl W32) : W32 :=
  let block := fun k => treeAdd 8 ((List.range 256).map fun j => let x := v.get 0 (256 * k + j); fMul x x)
  match (List.range (cdiv n 256)).map block with
  | [] => 0
  | b :: r => r.foldl fAdd b

/-! ## Reading an item -/

/-- One element that an item updates: its row-major index, the gradient as read, whether its scaled value lay beyond the
FP32 range, and the present values it starts from. -/
structure DclEl where
  idx : Nat
  grad : W32
  wide : Bool
  w : W32
  m : W32
  v : W32
deriving DecidableEq, Repr

/-- Numbers of `k` bytes each. -/
def codesOf (k : Nat) (d : List Byte) : List Nat := (List.range (d.length / k)).map fun i => fieldLe d (k * i) k
/-- What the beat's inputs held when the beat before ended, where `d`, read at `a` now, lies within one of them. -/
def asStood (l : List (Nat × List Byte)) (a : Nat) (d : List Byte) : List Byte :=
  match l.find? fun e => e.1 ≤ a && a + d.length ≤ e.1 + e.2.length with
  | some e => sliceBytes e.2 (a - e.1) d.length
  | none => d
/-- A read of an engine's input: what stood there when the beat before ended (R251, R291, R307). -/
def State.rdIn (s : State) (h : HerdId) (a n : Nat) : State × Status × List Byte :=
  let (s, st, d) := s.rd h a n
  (s, st, if st = stOK then asStood (s.herd h).inputs a d else d)
/-- Read `n` elements of a format as an engine's input. -/
def State.rdCodes (s : State) (h : HerdId) (e : BitVec 4) (a n : Nat) : State × Status × List Nat :=
  let (s, st, d) := s.rdIn h a (n * elemBytes e)
  (s, st, codesOf (elemBytes e) d)
/-- Read `n` elements of a format as they stand. -/
def State.rdCodesNow (s : State) (h : HerdId) (e : BitVec 4) (a n : Nat) : State × Status × List Nat :=
  let (s, st, d) := s.rd h a (n * elemBytes e)
  (s, st, codesOf (elemBytes e) d)
/-- A code as FP32. -/
def codeF (e : BitVec 4) (c : Nat) : W32 := (widen32 (elemVal e c)).1
/-- Run a read, keeping the first failure. -/
def andThen (a : State × Status) (f : State → State × Status × List Nat) : State × Status × List Nat :=
  if a.2 != stOK then (a.1, a.2, []) else f a.1
/-- The gradient of row `r` as read (R239): values, and which lay beyond the FP32 range. -/
def State.rdGrad (s : State) (h : HerdId) (i : DclItem) (r : Nat) : State × Status × List (W32 × Bool) :=
  let n := i.rowLen
  let (s, st, g) := s.rdCodes h i.gFmt (i.gBase + r * n * elemBytes i.gFmt) n
  let (s, st, sc) := if i.gScaled then andThen (s, st) fun s => s.rdCodes h 7 (i.gSBase + r * n / 32) (n / 32)
    else (s, st, [])
  (s, st, g.zipIdx.map fun e =>
    let v := elemVal i.gFmt e.1
    widen32 (if i.gScaled then scaled v (BitVec.ofNat 8 (sc.getD (e.2 / 32) 0)) else v))
/-- Read row `r`: `readG` reads the gradient, `t` the tense of m and v; a sparse row is caught up from its LAST. -/
def State.rdRow (s : State) (h : HerdId) (i : DclItem) (c : DclRow) (readG : Bool) (stTense : Bool) (r : Nat) :
    State × Status × List DclEl :=
  let n := i.rowLen
  let p := (s.herd h).present
  let (s, st, g) := if readG then s.rdGrad h i r else (s, stOK, [])
  let (s, st, w) := andThen (s, st) fun s => s.rdCodes h i.wFmt (tensed i i.wBase p + r * n * elemBytes i.wFmt) n
  let (s, st, m) := andThen (s, st) fun s => s.rdCodes h i.sFmt (tensed i i.mBase stTense + r * n * elemBytes i.sFmt) n
  let (s, st, v) := andThen (s, st) fun s => s.rdCodes h i.sFmt (tensed i i.vBase stTense + r * n * elemBytes i.sFmt) n
  let (s, st, l) := if i.sparse then andThen (s, st) fun s =>
      let (s, st, d) := s.rdIn h (tensed i i.lastBase p + 8 * r) 8
      (s, st, [leNat d % 2 ^ 48])
    else (s, st, [])
  let gap := match l with
    | last :: _ => ((s.stepNo h).toNat + 2 ^ 49 - 1 - last) % 2 ^ 48
    | [] => 0
  (s, st, (List.range n).map fun k =>
    let q := g.getD k (0, false)
    let (w', m', v') := catchUp c gap (codeF i.wFmt (w.getD k 0)) (codeF i.sFmt (m.getD k 0)) (codeF i.sFmt (v.getD k 0))
    let own := stTense != p
    { idx := r * n + k, grad := q.1, wide := q.2, w := w'
      m := if own then codeF i.sFmt (m.getD k 0) else m', v := if own then codeF i.sFmt (v.getD k 0) else v' })
/-- Read rows, keeping the first failure. -/
def State.rdRows (h : HerdId) (i : DclItem) (c : DclRow) (readG stTense : Bool) :
    List Nat → State → State × Status × List DclEl
  | [], s => (s, stOK, [])
  | r :: l, s =>
    let (s, st, a) := s.rdRow h i c readG stTense r
    if st != stOK then (s, st, [])
    else let (s, st, b) := State.rdRows h i c readG stTense l s; (s, st, a ++ b)

/-! ## Statistics (R136) -/

/-- Exponent of a non-zero finite value. -/
def expOf (v : W32) : Option Int :=
  match f32 v with
  | .fin _ m e => if m = 0 then none else some (log2Of m e)
  | _ => none
/-- Add one to a bin of a histogram. -/
def histBump (l : List Nat) (k : Nat) : List Nat :=
  let l := if l.isEmpty then List.replicate 16 0 else l
  l.set k (l.getD k 0 + 1)
/-- Record one gradient element. -/
def noteGrad (f : BitVec 4) (i : LayerInc) (v : W32) : LayerInc :=
  let i := { i with read := true, fmt := f, gcount := i.gcount + 1 }
  if isZero32 v then { i with gzero := i.gzero + 1 }
  else match expOf v with
    | none => i
    | some x =>
      { i with gmax := some (match i.gmax with | some y => max x y | none => x)
               hist := histBump i.hist (min (max (gradEmax f - x) 0) 15).toNat }
/-- Record what an item reads: statistics, non-finite elements and elements beyond the FP32 range. -/
def State.noteGrads (s : State) (h : HerdId) (i : DclItem) (els : List DclEl) : State :=
  s.layerInc h i.layer fun x => els.foldl (fun x e =>
    let x := noteGrad i.gFmt x e.grad
    { x with nonfinite := x.nonfinite + b2n (!isFinite32 e.grad), sat := x.sat + b2n e.wide }) x

/-! ## Writing an item -/

/-- Copy a range of bytes from one tense to the other. -/
def State.dclCopy (s : State) (h : HerdId) (sa da n : Nat) : State × Status :=
  let (s, st, d) := s.rdIn h sa n
  if st != stOK then (s, st) else s.runWr h da d
/-- Do each in turn until one fails. -/
def State.each {α : Type} (f : State → α → State × Status) : List α → State → State × Status
  | [], s => (s, stOK)
  | x :: l, s => let (s, st) := f s x; if st != stOK then (s, st) else State.each f l s
/-- Copy rows from the present tense to the past: w when `w`, m, v and LAST when `z` (R244, R258, R259). -/
def State.keepRows (s : State) (h : HerdId) (i : DclItem) (w z : Bool) (rows : List Nat) : State × Status :=
  let p := (s.herd h).present
  let n := i.rowLen
  let parts := fun r =>
    (if w then [(i.wBase, r * n * elemBytes i.wFmt, n * elemBytes i.wFmt)] else [])
      ++ (if z then [(i.mBase, r * n * elemBytes i.sFmt, n * elemBytes i.sFmt),
                     (i.vBase, r * n * elemBytes i.sFmt, n * elemBytes i.sFmt)]
            ++ (if i.sparse then [(i.lastBase, 8 * r, 8)] else []) else [])
  State.each (fun s e => s.dclCopy h (tensed i e.1 p + e.2.1) (tensed i e.1 (!p) + e.2.1) e.2.2) (rows.flatMap parts) s
/-- Write one result into the past tense of an array: its format, and the random word of R245 when it is drawn. -/
def State.putEl (s : State) (h : HerdId) (i : DclItem) (base : Nat) (fmt : BitVec 4) (mode : Rnd) (idx : Nat) (v : W32) :
    State × Status :=
  let (code, c) := if fmt = 0 then (v.toNat, ({} : Count)) else let r := narrow fmt mode (f32 v); (r.1, r.2.2)
  (s.count h i.layer c).runWr h (tensed i base (!(s.herd h).present) + idx * elemBytes fmt) (leBytes (elemBytes fmt) code)
/-- The rounding of a weight (R245). -/
def State.weightRnd (s : State) (h : HerdId) (i : DclItem) (idx : Nat) : Rnd :=
  if i.wSr && i.wFmt = 1 then
    .sr (randWord ((s.herd h).unitSeeds.get 0 i.srStream.toNat) i.srStream i.layer (s.stepNo h) 0xFFFF idx)
  else .rne
/-- Set LAST of updated rows to the step (R259). -/
def State.putLasts (s : State) (h : HerdId) (i : DclItem) (rows : List Nat) : State × Status :=
  if i.sparse then
    State.each (fun s r => s.runWr h (tensed i i.lastBase (!(s.herd h).present) + 8 * r) (leBytes 8 (s.stepNo h).toNat)) rows s
  else (s, stOK)
/-- A non-finite event under NF = 0 (R244): event and count. -/
def State.dclSkip (s : State) (h : HerdId) (i : DclItem) (pre : Nat) : State :=
  let s := s.evtHerd h 0x0005 (leBytes 4 i.layer.toNat ++ leBytes 8 (s.stepNo h).toNat)
  s.modHerd h fun x =>
    { x with dclSkips := satAdd x.dclSkips 1, latched := x.latched.set [] pre (x.latched.get [] pre ++ [1]) }

/-! ## The item -/

/-- What the recurrence makes of one element: m1, v1, r and n; none when it is neither evaluated nor counted. -/
structure DclOut where
  el : DclEl
  m1 : W32
  v1 : W32
  n : W32
  r : W32
deriving DecidableEq, Repr

/-- Non-finite results among those an item writes. -/
def badCount (l : List W32) : Nat := (l.filter fun v => !isFinite32 v).length
/-- Evaluate one element (R240, R244): `skip` is NF = 0, `bad` an unusable G2. With `own`, m and v are m1 and v1 already
(R253). -/
def dclEval (c : DclRow) (s : Int) (clip : W32) (skip bad own : Bool) (e : DclEl) : Option DclOut :=
  if skip && (bad || !isFinite32 e.grad) then none
  else
    let gr := if isFinite32 e.grad then e.grad else 0
    let g := fMul (fMul gr (pow2F (-s))) clip
    let (m1, v1) := if own then (e.m, e.v) else dclState c g e.m e.v
    let n := dclDir c m1 v1 g
    some { el := e, m1 := m1, v1 := v1, n := n, r := dclSum c n e.w }
/-- The values of outputs by index. -/
def byIdx (f : DclOut → W32) (l : List DclOut) : Tbl W32 := l.foldl (fun t o => t.set 0 o.el.idx (f o)) {}
/-- A read that yields one word. -/
def State.rdWord (s : State) (h : HerdId) (a : Nat) : State × Status × W32 :=
  let (s, st, d) := s.rdIn h a 4
  (s, st, BitVec.ofNat 32 (leNat d))
/-- G2 of an item, when its row clips (R241). -/
def State.rdG2 (s : State) (h : HerdId) (i : DclItem) (c : DclRow) : State × Status × Option W32 :=
  if (rowAt c 17).getLsbD 1 && i.gnormEn then let (s, st, v) := s.rdWord h i.gnormAddr; (s, st, some v)
  else (s, stOK, none)
/-- The results of an element that an item writes: m1 and v1 when `z`, and w1 where there is one. -/
def DclOut.results (z : Bool) (w1 : DclOut → Option W32) (o : DclOut) : List W32 :=
  (if z then [o.m1, o.v1] else []) ++ (w1 o).toList
/-- Write the results of updated elements; one that holds a non-finite result, or did in the PRE item (`kept`), keeps its
present values (NF = 1). `w1` is none in a PRE item, `z` tells that m1 and v1 are written. -/
def State.putOuts (s : State) (h : HerdId) (i : DclItem) (z : Bool) (w1 : DclOut → Option W32) (kept : List Nat)
    (outs : List DclOut) : State × Status :=
  State.each (fun s o =>
    if badCount (o.results z w1) = 0 && !kept.contains o.el.idx then
      let (s, st) := if z then s.putEl h i i.mBase i.sFmt .rne o.el.idx o.m1 else (s, stOK)
      let (s, st) := if z && st == stOK then s.putEl h i i.vBase i.sFmt .rne o.el.idx o.v1 else (s, st)
      match w1 o with
      | some v => if st != stOK then (s, st) else s.putEl h i i.wBase i.wFmt (s.weightRnd h i o.el.idx) o.el.idx v
      | none => (s, st)
    else
      let p := (s.herd h).present
      let b := fun (e : BitVec 4) => elemBytes e
      let cp := fun (base : Nat) (e : BitVec 4) => (tensed i base p + o.el.idx * b e, tensed i base (!p) + o.el.idx * b e, b e)
      State.each (fun s q => s.dclCopy h q.1 q.2.1 q.2.2)
        ([cp i.mBase i.sFmt, cp i.vBase i.sFmt] ++ (if (w1 o).isSome then [cp i.wBase i.wFmt] else [])) s) outs s
/-- The elements whose m1 or v1 was not finite in the PRE item: they keep present w, m and v (R244). -/
def State.keptEls (s : State) (h : HerdId) (pre : Nat) : List Nat :=
  ((s.herd h).latched.get [] (keepKey pre)).map (·.toNat)
/-- Leave those elements for the POST item. -/
def State.keepEls (s : State) (h : HerdId) (pre : Nat) (outs : List DclOut) : State :=
  s.modHerd h fun x => { x with latched := x.latched.set [] (keepKey pre) (outs.map fun o => BitVec.ofNat 32 o.el.idx) }
/-- X₀ of a MIX item: n / ‖n‖ in BF16 (R252). Table 04.3 counts nothing of it. -/
def State.putX0 (s : State) (h : HerdId) (i : DclItem) (outs : List DclOut) : State × Status :=
  let t := byIdx (·.n) outs
  let nn := fSqrt (sumSquares (dclElems i) t)
  State.each (fun s k =>
    let v := if isZero32 nn then .fin false 0 0 else f32 (fDiv (t.get 0 k) nn)
    let r := narrow 1 .rne v
    s.runWr h (i.xbuf + 2 * k) (leBytes 2 r.1)) (List.range (dclElems i)) s
/-- FULL and PRE items, and POST items of TRUST SLICE: `rows` are the rows updated, `kept` those copied. W2 takes in every element
read, R2 those whose r is evaluated (DESIGN CHOICE, log entry 164). -/
def State.dclUpdate (s : State) (h : HerdId) (i : DclItem) (c : DclRow) (k : Nat) (rows kept : List Nat) :
    State × Status :=
  let post := i.phase = 2
  let skip := !(rowAt c 17).getLsbD 2
  let p := (s.herd h).present
  let (s, st, els) := State.rdRows h i c true (if post then !p else p) rows s
  if st != stOK then (s, st)
  else
    let s := if post then s else s.noteGrads h i els
    let (s, st, g2) := s.rdG2 h i c
    if st != stOK then (s, st)
    else
      let (clip, bad) := clipOf c g2
      let sc := s.sCur h i.layer
      let outs := els.filterMap (dclEval c sc clip skip bad post)
      let w2 := sumSquares (dclElems i) (els.foldl (fun t e => t.set 0 e.idx e.w) {})
      let r2 := sumSquares (dclElems i) (byIdx (·.r) outs)
      let (s, st, w2, r2) := if post then
          let (s, st, a) := s.rdWord h i.xbuf
          let (s, st', b) := s.rdWord h (i.xbuf + 4)
          (s, if st != stOK then st else st', a, b)
        else (s, stOK, w2, r2)
      if st != stOK then (s, st)
      else
        let phi := if i.trust = 0 then one32 else phiOf c w2 r2
        let w1 := fun (o : DclOut) => if i.phase = 1 then none else some (dclWeight c sc phi o.r o.el.w)
        let nbad := b2n bad + (outs.map fun o => badCount (o.results (!post) w1)).sum
        let s := s.layerInc h i.layer fun x => { x with nonfinite := x.nonfinite + nbad }
        if skip && (0 < nbad || els.any fun e => !isFinite32 e.grad) then
          (s.keepRows h i (i.phase != 1) true (rows ++ kept)).map (·.dclSkip h i k) id
        else
          let (s, st) := s.putOuts h i (!post) w1 (s.keptEls h k) outs
          let s := if i.phase = 1 then s.keepEls h k (outs.filter fun o => badCount (o.results true w1) != 0) else s
          let (s, st) := if st != stOK || post then (s, st) else s.putLasts h i rows
          let (s, st) := if st != stOK then (s, st) else s.keepRows h i (i.phase != 1) (!post) kept
          if st != stOK || i.phase != 1 then (s, st)
          else if i.mix then s.putX0 h i outs
          else s.runWr h i.xbuf (leBytes 4 w2.toNat ++ leBytes 4 r2.toNat)
/-- The POST item of a MIX pair (R252): n is read from XBUF and the recurrence completed from r. -/
def State.dclMixPost (s : State) (h : HerdId) (i : DclItem) (c : DclRow) (k : Nat) : State × Status :=
  let rows := List.range i.rows
  let (s, st, els) := State.rdRows h i c false (!(s.herd h).present) rows s
  if st != stOK then (s, st)
  else
    let (s, st, ns) := s.rdCodes h 0 (xbufN i) (dclElems i)
    if st != stOK then (s, st)
    else
      let sc := s.sCur h i.layer
      let outs := els.map fun e =>
        let n := BitVec.ofNat 32 (ns.getD e.idx 0)
        ({ el := e, m1 := e.m, v1 := e.v, n := n, r := dclSum c n e.w } : DclOut)
      let w1 := fun (o : DclOut) => some (dclWeight c sc one32 o.r o.el.w)
      let nbad := badCount (outs.filterMap w1)
      let s := s.layerInc h i.layer fun x => { x with nonfinite := x.nonfinite + nbad }
      if !(rowAt c 17).getLsbD 2 && 0 < nbad then (s.keepRows h i true true rows).map (·.dclSkip h i k) id
      else s.putOuts h i false w1 (s.keptEls h k) outs
/-- The gradients of rows as read. -/
def State.rdGrads (h : HerdId) (i : DclItem) : List Nat → State → State × Status × List W32
  | [], s => (s, stOK, [])
  | r :: l, s =>
    let (s, st, a) := s.rdGrad h i r
    if st != stOK then (s, st, []) else let (s, st, b) := State.rdGrads h i l s; (s, st, a.map (·.1) ++ b)
/-- A POST item whose PRE item was skipped: present w stays. One of TRUST SLICE reads the gradient and G2 again, so that it may
meet a non-finite event of its own (R244; DEDUCED, log entry 61). -/
def State.dclSkipPost (s : State) (h : HerdId) (i : DclItem) (c : DclRow) (k : Nat) (rows kept : List Nat) : State × Status :=
  let (s, st, gs) := if i.mix then (s, stOK, []) else State.rdGrads h i rows s
  let (s, st, g2) := if i.mix || st != stOK then (s, st, none) else s.rdG2 h i c
  if st != stOK then (s, st)
  else
    let bad := (clipOf c g2).2
    let s := s.layerInc h i.layer fun x => { x with nonfinite := x.nonfinite + b2n bad }
    let s := if bad || gs.any fun g => !isFinite32 g then s.dclSkip h i k else s
    s.keepRows h i true false (rows ++ kept)
/-- What an item is metered for: its arrays at dense size (R347). -/
def State.dclMeter (old s : State) (h : HerdId) (i : DclItem) : State :=
  let p := (old.herd h).present
  let n := dclElems i
  let w := elemBytes i.wFmt * n
  let z := elemBytes i.sFmt * n
  let st := fun (k : Bool) => [(tensed i i.mBase k, z), (tensed i i.vBase k, z)]
    ++ (if i.sparse then [(tensed i i.lastBase k, 8 * i.rows)] else [])
  let grad := if i.mix && i.phase = 2 then [] else
    [(i.gBase, elemBytes i.gFmt * n)] ++ (if i.gScaled then [(i.gSBase, n / 32)] else [])
      ++ (if i.gnormEn then [(i.gnormAddr, 4)] else []) ++ (if i.sparse then [(i.maskBase, 2 * maskBytes i)] else [])
  let x := if i.phase = 0 then [] else
    if i.mix then (if i.phase = 1 then [(i.xbuf, 2 * n)] else [(xbufN i, 4 * n)]) else [(i.xbuf, 8)]
  let l := grad ++ x ++ [(tensed i i.wBase p, w)] ++ (if i.phase = 1 then [] else [(tensed i i.wBase (!p), w)])
    ++ (if i.phase = 2 then st (!p) else st p ++ st (!p))
  old.remeter s h (l.flatMap fun a => (List.range (cdiv (a.1 % 64 + a.2) 64)).map fun k => a.1 / 64 * 64 + 64 * k)
/-- Run item `k` (R240 to R259). A POST item whose PRE item was skipped keeps the present values too. -/
def State.runDcl (s : State) (h : HerdId) (m : Sentence) (k : Nat) (i : DclItem) : State × Status :=
  let pre := preOf m k
  let lat := (s.herd h).latched.get [] pre
  let c := lat.take 18
  let marked := ((s.herd h).latched.get [] (latchKey pre)).map (·.toNat)
  let maskA := ((((s.herd h).latched.get [] (failKey pre)).headD 0).setWidth 16 : Status)
  let (s', st, mb) := if maskA != stOK then (s, maskA, [])
    else if i.sparse then s.rdIn h (s.maskBefore h i) (maskBytes i) else (s, stOK, [])
  let rows := if i.sparse then marked else List.range i.rows
  let kept := if i.sparse then (maskRows i mb).filter fun r => !marked.contains r else []
  let r :=
    if st != stOK then (s', st)
    else if i.phase = 2 && 18 < lat.length then s'.dclSkipPost h i c pre rows kept
    else if i.phase = 2 && i.mix then s'.dclMixPost h i c pre
    else s'.dclUpdate h i c pre rows kept
  (s.dclMeter r.1 h i, r.2)
/-- DECLENSION_ITEM: item `k` runs in its beat. -/
def execDeclensionItem (h : HerdId) (k : Nat) (s : State) : Out :=
  let x := s.herd h
  match x.sentence, x.run with
  | some m, some r =>
    match m.dcls[k]? with
    | none => .next s
    | some i =>
      s.ifOnly (x.active && (itemsIn m 2 r.beat).contains k && !r.items.contains (2, k)) fun s =>
        let (s, st) := s.runDcl h m k i
        if st != stOK then s.stopHere h st 0
        else s.modHerd h fun x => { x with run := x.run.map fun (q : Run) => { q with items := q.items ++ [(2, k)] } }
  | _, _ => .next s

/-! ## Masks at a boundary (R260) -/

/-- Clear mask (t + 1) mod 2 of every sparse item; `t` is the step whose boundary it is. -/
def State.clearMasks (s : State) (h : HerdId) (t : Nat) : State :=
  (((s.herd h).sentence.map (·.dcls)).getD []).foldl (fun s i =>
    if i.sparse then (s.wr h (maskAddr i ((t + 1) % 2)) (List.replicate (maskBytes i) 0)).1 else s) s

end Sys2Proof.Machine
end

