-- ==== Sys2Proof/Machine/Fabric.lean ====
section
/-!
DEFINITION. The lane and frame events of chapter 09 and the hop-key and herd-key events of chapter 13.
-/
namespace Sys2Proof.Machine

/-- An event of a lane, in the states that can meet it. -/
def State.ifLane (s : State) (n : LaneId) (p : Lane → Bool) (f : State → State) : Out := s.ifOnly (p (s.laneAt n)) f

/-- LANE_LOCK (E2): the two ends agree their scrambler states and the codeword boundary (R267). -/
def execLaneLock (n : LaneId) (s : State) : Out :=
  s.ifLane n (·.st == .train) fun s =>
    ({ s with freeCtr := s.freeCtr + 2 }.setLane n
      { s.laneAt n with line := { scram := Config.lineSeed s.freeCtr }, descram := Config.lineSeed (s.freeCtr + 1) }).laneTo n .probe
/-- LANE_TRAIN_TIMEOUT (E3): training restarts. -/
def execLaneTrainTimeout (n : LaneId) (s : State) : Out :=
  s.ifLane n (·.st == .train) fun s => s.setLane n { s.laneAt n with noPeer := true }
/-- The verdict of a lane's self-test (E9, E10). -/
def State.laneVerdict (s : State) (n : LaneId) (pass : Bool) : State :=
  let s := { s with repair := { s.repair with tests := s.repair.tests.filter fun t => t.part != Part.lane n } }
  if pass then s.laneTo n .probe
  else (s.laneTo n .failed).evtPf 0 0x0012 0 (leBytes 1 n.val)
/-- LANE_LIGHT_LOST (E7). -/
def execLaneLightLost (n : LaneId) (s : State) : Out :=
  s.ifLane n (fun x => x.st != .dark && x.st != .failed) fun s =>
    match (s.laneAt n).st with
    | .test => s.laneVerdict n false
    | .mismatch => s
    | _ => s.laneTo n .train
/-- PROBE_TIMER (Table 09.4, Probe). -/
def execProbeTimer (n : LaneId) (s : State) : Out :=
  s.ifLane n (·.st == .probe) fun s => s.putOut n (.probe (s.probeOf n))

/-- The weights as the registers hold them: those of the 32 herds, then that of the non-herd slots. Table 01.6 does not say when
a written OPER_WEIGHT applies: it is latched with the others (DESIGN CHOICE, log entry 100). -/
def State.arbNow (s : State) : List Nat :=
  (allHerds.map fun h => (s.weights.get 0x10 h.val).toNat) ++ [s.operWeight.toNat]
/-- The owner of a grant position of the round or frame made of WEIGHT grants of each herd, then the non-herd grants (R40, R42).
A herd's grants lie back to back and the herds follow in rising number, in both modes (DESIGN CHOICE, log entry 100). -/
def slotOwner (ws : List Nat) (pos : Nat) : Option HerdId :=
  allHerds.find? fun h => pos < (ws.take (h.val + 1)).sum
/-- The position after `k`. -/
def slotNext (ws : List Nat) (k : Nat) : Nat := if k + 1 < ws.sum then k + 1 else 0
/-- The first position from `pos` to the end of the round whose owner has a frame waiting. -/
def slotFrom (ws : List Nat) (waits : HerdId → Bool) (pos : Nat) : Option Nat :=
  ((List.range ws.sum).drop pos).find? fun k => (slotOwner ws k).any waits
/-- The herd that takes this lane's data frame, the next position, and the weights of the round or frame of grants it lies in
(R40, R42, R274): in SLOT mode the owner of the position, in WRR mode the first owner from it that has a frame waiting.
Written weights apply from the next round or frame (Table 01.7). -/
def State.pickHerd (s : State) (waits : HerdId → Bool) (x : Lane) : Option HerdId × Nat × List Nat :=
  let ws := if x.arbPos = 0 then s.arbNow else x.arb
  if s.arbSlot then ((slotOwner ws x.arbPos).bind fun h => if waits h then some h else none, slotNext ws x.arbPos, ws)
  else match slotFrom ws waits x.arbPos with
  | some k => (slotOwner ws k, slotNext ws k, ws)
  | none =>
    match slotFrom s.arbNow waits 0 with
    | some k => (slotOwner s.arbNow k, slotNext s.arbNow k, s.arbNow)
    | none => (none, x.arbPos, ws)
/-- Take a message out of a queue. -/
def takeFirst (p : OutFrame → Bool) : List OutFrame → Option (OutFrame × List OutFrame)
  | [] => none
  | f :: r => if p f then some (f, r) else (takeFirst p r).map fun e => (e.1, f :: e.2)
/-- Send the first queued message that satisfies `p`, sealed, on a lane; frames of herd streams stay held until they are
acknowledged (R272). -/
def State.sendFirst (s : State) (n : LaneId) (d : DimId) (p : OutFrame → Bool) : Option State :=
  match takeFirst p (s.dimAt d).queue with
  | none => none
  | some (o, rest) =>
    match s.seal d o with
    | (_, none) => none
    | (s, some f) =>
      let s := s.modDim d fun x => { x with queue := rest }
      let (s, f) := s.addAck d f
      if o.type = 4 || o.type = 6 then some (s.putOut n (.frame f))
      else
        let s := s.modDim d fun x => { x with held := x.held ++ [{ herd := o.herd, frame := f, lane := n }] }
        let s := s.meter o.herd fun m => { m with linkBytes := satAdd m.linkBytes 552 }
        some (s.putOut n (.frame f))
/-- FRAME_SLOT (R274): the lane's next frame. -/
def execFrameSlot (n : LaneId) (s : State) : Out :=
  s.ifLane n Lane.locked fun s =>
    let x := s.laneAt n
    if x.st == .mismatch || x.sentCount % 1024 = 1023 then s.putOut n (.probe (s.probeOf n))
    else
      match x.dimId with
      | none => s.putOut n .idle
      | some d =>
        let ctl := if x.st == .ready || x.st == .active then
            s.sendFirst n d fun o => (o.type = 4 || o.type = 6) && (o.clear || (s.dimAt d).hk.isSome) else none
        match ctl with
        | some s => s
        | none =>
          if x.st != .active || (s.dimAt d).held.length ≥ 1024 then s.putOut n .idle
          else
            match s.sendFirst n d fun o => o.type = 3 with
            | some s => s
            | none =>
              let q := (s.dimAt d).queue
              let (h, pos, ws) := s.pickHerd (fun h => q.any fun o => (o.type = 1 || o.type = 2) && o.herd == h) x
              let s := s.setLane n { x with arbPos := pos, arb := ws }
              match h with
              | none => s.putOut n .idle
              | some h =>
                match s.sendFirst n d fun o => (o.type = 1 || o.type = 2) && o.herd == h with
                | some s => s
                | none => s.putOut n .idle

/-- Whether a probe matches (R281). -/
def State.probeMatches (s : State) (x : Lane) (n : LaneId) (p : Probe) : Bool :=
  p.addr == s.cubeAddr ^^^ (1 <<< x.dim.toNat) && p.dim == x.dim && p.profile == s.profile
    && (s.profile != 3 || p.smallD == s.smallD) && p.echoV && p.echoAddr == s.cubeAddr && p.echoLane.toNat == n.val
/-- PROBE_FRAME (R281, Table 09.6 E4 and E5). -/
def execProbeFrame (n : LaneId) (p : Probe) (rtt : Nat) (s : State) : Out :=
  s.ifLane n Lane.locked fun s =>
    let (s, used) := s.frameGood n
    if !used then s
    else
    let x := { s.laneAt n with last := some (p.addr, p.lane), peerLane := p.lane
                               rtt := if p.echoV then rtt else (s.laneAt n).rtt }
    let s := s.setLane n x
    if !p.echoV then s
    else if s.probeMatches x n p then (if x.st == .probe then s.laneReady n else s)
    else if x.st == .mismatch then s
    else (s.laneTo n .mismatch).evtPf 0 0x0011 0 (leBytes 1 n.val ++ leBytes 1 p.lane.toNat ++ [0, 0] ++ leBytes 2 p.addr.toNat)
/-- IDLE_FRAME (R269): discarded. -/
def execIdleFrame (n : LaneId) (s : State) : Out := s.ifLane n Lane.locked fun s => (s.frameGood n).1

/-- A CONTROL frame of a dimension arrives on a lane: `auth` is that it opens under the control key. It has its effect when it is
accepted (R397), and one that fails authentication is counted (R404). -/
def State.onControl (s : State) (n : LaneId) (ctr : W64) (auth : Bool) (f : State → DimId → State) : State :=
  let (s, used) := s.frameGood n
  match used, (s.laneAt n).dimId with
  | true, some d =>
    match s.ctlAccept d ctr auth with
    | some s => f s d
    | none => if auth then s else s.authFailed d
  | _, _ => s
/-- ACK_REPORT (R272). -/
def execAckReport (n : LaneId) (h : HerdId) (ack : BitVec 26) (ctr : W64) (auth : Bool) (s : State) : Out :=
  s.ifLane n Lane.locked fun s => s.onControl n ctr auth fun s d => s.takeAck d h ack
/-- ACK_TIMER (R272): a CONTROL frame carries the report. -/
def execAckTimer (d : DimId) (s : State) : Out :=
  s.ifOnly (!(s.dimAt d).ackDue.isEmpty) fun s => s.sendControl d []
/-- RESEND_TIMEOUT (R272). -/
def execResendTimeout (d : DimId) (k : Nat) (s : State) : Out :=
  s.ifOnly ((s.dimAt d).held[k]?.isSome && s.dimUp d.val) fun s => s.resend d k

/-- A lane of the dimension has reached READY, and holds the boundaries of its frames. -/
def State.hopReady (s : State) (d : DimId) : Bool :=
  (s.lanesOf d.val).any fun n => (s.laneAt n).synced
    && ((s.laneAt n).st == .ready || (s.laneAt n).st == .active || (s.laneAt n).st == .standby)
/-- A CONTROL or sealed KEYX message of a dimension arrives in the frames `via`. It has its effect when it is accepted (R397), and one that
fails authentication is counted (R404). -/
def State.onSealed (s : State) (d : DimId) (via : List Carried) (ctr : W64) (auth : Bool) (f : State → State) : State :=
  let (s, here) := s.carry d via
  if !here || !s.hopReady d then s
  else match s.ctlAccept d ctr auth with
  | some s => f s
  | none => if auth then s else s.authFailed d
/-- A lane enters TEST and its self-test is due (E8). -/
def State.laneTest (s : State) (n : LaneId) : State :=
  let s := s.laneTo n .test
  { s with repair := { s.repair with
      tests := s.repair.tests ++ [{ part := .lane n, status := 0, herds := [], again := false }] } }
/-- The states that E8 moves to TEST. -/
def Lane.testable (x : Lane) : Bool := x.st == .probe || x.st == .ready || x.st == .active || x.st == .standby
/-- TEST_REQUEST (R283) for lane `n`: ignored where E8 is, or when the CONTROL frame is not accepted. -/
def execTestRequest (n : LaneId) (via : List Carried) (ctr : W64) (auth : Bool) (s : State) : Out :=
  s.ifOnly true fun s =>
    match (s.laneAt n).dimId with
    | none => s
    | some d => s.onSealed d via ctr auth fun s => if (s.laneAt n).testable then s.laneTest n else s
/-- Send the test request of lane `n` on lane `m`: a sealed CONTROL frame that names the neighbour's end of the lane. None is
sent without a hop key. -/
def State.sendTest (s : State) (d : DimId) (n m : LaneId) : State :=
  match s.seal d { type := 4, herd := 0, last := true, item := 0, offset := 0
                   payload := pay512 (leBytes 1 (s.laneAt n).peerLane.toNat) } with
  | (s, some f) => s.putOut m (.frame f)
  | (_, none) => s
/-- CRC_LIMIT_REACHED (R283): the CRC errors of a lane within 1 ms exceed CRC_LIMIT. A test request goes out on the lane itself
and on another ACTIVE lane of its dimension. -/
def execCrcLimitReached (n : LaneId) (s : State) : Out :=
  s.ifLane n (fun x => x.testable && s.crcLimit.toNat < x.errs.length) fun s =>
    let s := match (s.laneAt n).dimId with
      | some d =>
        let s := s.sendTest d n n
        match (s.activeLanes d.val).find? (· != n) with
        | some m => s.sendTest d n m
        | none => s
      | none => s
    s.laneTest n
/-- SPARE_RETURN (R284). -/
def execSpareReturn (n : LaneId) (s : State) : Out :=
  s.ifLane n (fun x => x.spare && x.st == .active && x.toStandby && (match x.dimId with
      | some d => !(s.dimAt d).held.any fun f => f.lane == n
      | none => false)) fun s =>
    let x := s.laneAt n
    (s.setLane n { x with toStandby := false, called := false }).laneTo n .standby
/-- FRAME_CRC_FAIL (R270): a codeword that the frame touches has more wrong symbols than the decoder corrects (R267). -/
def execFrameCrcFail (n : LaneId) (errs : List (BitVec 10)) (s : State) : Out :=
  s.ifLane n (fun x => x.locked && !rsCorrects errs) fun s => s.frameBad n

/-! ## Hop keys (Table 13.8) -/

/-- Derive the hop key once both secrets are held, and send CONFIRM. -/
def State.deriveHop (s : State) (d : DimId) : State :=
  let x := s.dimAt d
  match x.ssOwn, x.ssPeer with
  | some a, some b =>
    let low := !s.cubeAddr.getLsbD d.val
    let ss := if low then bytes256 a ++ bytes256 b else bytes256 b ++ bytes256 a
    let hk := hkdfExpand (hkdfExtract (sha256 (ascii "FV20-HOP" ++ leBytes 1 d.val)) ss) (ascii "FV20-HOP-KEY")
    let s := (s.setDim d { x with hk := some (word256 hk) }).setSlot (12 + d.val)
      { valid := true, tenant := true, type := 9, derived := true, index := BitVec.ofNat 6 d.val, secret := hk }
    s.sendKeyx d (hmac hk (ascii "FV20-HOP-CONF" ++ leBytes 2 s.cubeAddr.toNat)) true
  | _, _ => s
/-- A refused peer. -/
def State.refuseHop (s : State) (d : DimId) (cause : BitVec 3) : State :=
  s.modDim d fun x => { x with hop := .refused, cause := cause }
/-- An unsealed KEYX message of a dimension has its effect when its counter is accepted (R397). -/
def State.onKeyx (s : State) (d : DimId) (via : List Carried) (ctr : W64) (f : State → State) : Out :=
  s.ifOnly true fun s =>
    let (s, here) := s.carry d via
    if !here || !s.hopReady d then s
    else match s.keyxAccept d ctr with | some s => f s | none => s
/-- Encapsulate to a peer's key (Table 13.8). While the entropy source fails, the draw waits (R418). -/
def State.encapTo (s : State) (d : DimId) (ek : List Byte) : State :=
  if s.tahr.entropyBad then s.modDim d fun x => { x with hop := .exchanging, cause := 0, encapDue := some ek }
  else
    let (s, r) := s.draw
    let (ct, ss) := kemEncaps ek r
    let s := s.modDim d fun x => { x with hop := .exchanging, cause := 0, ssOwn := some ss, encapDue := none }
    (s.sendKeyx d ct true).deriveHop d
/-- CAUSE of a peer's refusal under R396 (Table 13.13), 0 when it is accepted. -/
def State.judge (s : State) (d : DimId) (report : List Byte) : BitVec 3 :=
  if !reportOk report then 1
  else if fieldLe report 0x18 1 % 8 != 2 then 2
  else if sliceBytes report 0x40 64 != bytes256 Config.romDigest ++ digest s.tahr.mFw then 3
  else if fieldLe report 0x1A 2 != (s.cubeAddr ^^^ (1 <<< d.val)).toNat + 2 ^ 15 then 4
  else 0
/-- HELLO (R396, R433, Table 13.8 Judge and Encapsulate). -/
def execHello (d : DimId) (via : List Carried) (report : List Byte) (ctr : W64) (s : State) : Out :=
  s.onKeyx d via ctr fun s =>
    let c := s.judge d report
    if c != 0 then s.refuseHop d c
    else if !s.hopAble then s
    else s.encapTo d (sliceBytes report 0xA0 1568)
/-- ENCAP (Table 13.8, Derive). -/
def execEncap (d : DimId) (via : List Carried) (ct : List Byte) (ctr : W64) (s : State) : Out :=
  s.onKeyx d via ctr fun s =>
    if !(s.slot 11).valid || (s.dimAt d).hop == .keyed then s
    else
      (s.modDim d fun x => { x with ssPeer := some (kemDecaps (s.slot 11).secret ct) }).deriveHop d
/-- CONFIRM (Table 13.8, Keyed). -/
def execConfirm (d : DimId) (via : List Carried) (mac : List Byte) (ctr : W64) (s : State) : Out :=
  s.onKeyx d via ctr fun s =>
    match (s.dimAt d).hk with
    | none => s
    | some hk =>
      let peer := (s.cubeAddr ^^^ (1 <<< d.val)).toNat
      if hmac (bytes256 hk) (ascii "FV20-HOP-CONF" ++ leBytes 2 peer) != mac then s.refuseHop d 5
      else
        let s := s.modDim d fun x => { x with hop := .keyed, cause := 0 }
        let s := (s.lanesOf d.val).foldl (fun s n =>
          if (s.laneAt n).st == .ready then
            s.laneTo n (if (s.laneAt n).spare && !(s.laneAt n).called then .standby else .active) else s) s
        (allHerds.filter fun h => (s.herd h).st == .live && (s.herd h).span.getLsbD d.val).foldl
          (fun s h => s.joinSend d h) s
/-- JOIN (R400). -/
def execJoin (d : DimId) (via : List Carried) (peer : BitVec 5) (world : Bool) (mac : List Byte) (ctr : W64) (auth : Bool) (s : State) :
    Out :=
  s.ifOnly true fun s =>
    s.onSealed d via ctr auth fun s =>
      (s.modDim d fun x => { x with joins := (x.joins.filter fun j => j.1 != peer.toNat) ++ [(peer.toNat, world, mac)] }).remap d
/-- ADVANCE (R403): the receiver sets E and the key of the old generation is no longer used. -/
def execAdvance (d : DimId) (via : List Carried) (peer : BitVec 5) (g : BitVec 16) (ctr : W64) (auth : Bool) (s : State) : Out :=
  s.ifOnly true fun s =>
    s.onSealed d via ctr auth fun s =>
      let key := d.val * 32 + peer.toNat
      let st := s.streams.get {} key
      { s with streams := s.streams.set {} key { st with e := BitVec.ofNat 64 (g.toNat * 2 ^ 48), seen := [] } }
/-- A stream of the herd still waits to advance. -/
def State.advancing (s : State) (h : HerdId) : Bool := allDims.any fun d => (s.stream d h).advancing

end Sys2Proof.Machine
end

