-- ==== Sys2Proof/Machine/Collective.lean ====
section
/-!
DEFINITION. The fabric engine's items (chapters 09 and 10): routes (R288 to R293), the rounds of each collective in their
fixed order (R295 to R303), norms (R305, R306), patience, carries and the ledger (R307 to R315), and the DATA and REDUCE
frames they receive. A collective runs as rounds: each sends one run of frames on one dimension and takes one from another.
-/
namespace Sys2Proof.Machine

/-! ## Items and groups (R296, R297) -/

/-- The set bits of a group mask, ascending: group bits as slice-position bits. -/
def groupBits (i : RedItem) : List Nat := (List.range 15).filter fun b => i.groupMask.getLsbD b
/-- The group position of a slice position. -/
def groupPos (i : RedItem) (pos : Nat) : Nat := ((groupBits i).zipIdx).foldl (fun a e => a + b2n (bit pos e.1) * 2 ^ e.2) 0
/-- P, the elements of one part. -/
def partLen (i : RedItem) : Nat := i.n / redMembers i
/-- Bytes of `k` elements of an item. -/
def elemSpan (i : RedItem) (k : Nat) : Nat := k * elemBits i.elem / 8
/-- The dimension that a group bit crosses. -/
def Herd.groupDim (x : Herd) (i : RedItem) (b : Nat) : Option DimId := ((groupBits i)[b]?).bind fun k => x.dims[k]?
/-- The group bit that a dimension is. -/
def Herd.bitOf (x : Herd) (i : RedItem) (d : DimId) : Option Nat :=
  (List.range (groupBits i).length).find? fun b => x.groupDim i b == some d
/-- Elements in SRC and DST (Table 10.3), in elements of ELEM or FP32 words. -/
def redSpans (i : RedItem) : Nat × Nat :=
  match i.op.toNat with
  | 1 => (elemSpan i i.n, elemSpan i (partLen i))
  | 2 => (elemSpan i (partLen i), elemSpan i i.n)
  | 3 => (elemSpan i i.n, elemSpan i i.n)
  | 4 => (elemSpan i i.n, elemSpan i i.n)
  | 5 => (4 * i.n, 4 * i.n)
  | _ => (0, 4)
/-- Scale codes in SSRC and SDST. -/
def redScales (i : RedItem) : Nat × Nat :=
  if !i.scaled then (0, 0)
  else match i.op.toNat with
    | 1 => (i.n / 32, partLen i / 32)
    | 2 => (partLen i / 32, i.n / 32)
    | _ => (i.n / 32, i.n / 32)
/-- Bytes of the carry buffer (R311). -/
def carryBytes (d n : Nat) : Nat := 64 + 2 * d * (64 + 4 * n)
/-- The item keeps a carry buffer. -/
def carries (i : RedItem) : Bool := i.patient && !i.drop
/-- The ranges of an item, DST left out where it is SRC (R299). -/
def redRanges (i : RedItem) (carryD : Nat) : List (Nat × Nat) :=
  let sp := redSpans i
  let sc := redScales i
  let same := (i.op = 3 || i.op = 5) && i.src = i.dst
  ((if same then [(i.src, sp.1)] else [(i.src, sp.1), (i.dst, sp.2)]) ++ [(i.ssrc, sc.1), (i.sdst, sc.2)]
    ++ (if carries i then [(i.cbuf, carryBytes carryD i.n)] else [])).filter fun a => a.2 != 0
/-- The checks of R299 on the reduction plan. -/
def State.redRunOk (s : State) (h : HerdId) (m : Sentence) : Bool :=
  m.reds.all fun i =>
    let l := redRanges i m.carryD
    (l.all fun a => s.heldArray h a.1 a.2) && disjointRanges l

/-! ## Rounds (R301 to R303) -/

/-- A round: the group bits it sends over and receives over, the parts (or blocks) it sends and receives in order, and the
bytes of each. -/
structure RedRound where
  sums : Bool
  sendBit : Nat
  recvBit : Nat
  send : List Nat
  recv : List Nat
  unit : Nat
deriving DecidableEq, Repr

/-- The ring member at group position `p`: g(k) = k XOR (k >> 1) (R287). -/
def gray (k : Nat) : Nat := k ^^^ (k >>> 1)
/-- The ring member of a group position. -/
def ringIdx (mm p : Nat) : Nat := ((List.range mm).find? fun k => gray k = p).getD 0
/-- The lowest set bit of a number below 2^16. -/
def lowBit (n : Nat) : Nat := ((List.range 16).find? fun b => bit n b).getD 0
/-- Bytes of one element of a partial as it travels. -/
def wireBytes (i : RedItem) : Nat := if i.wire then elemBytes i.elem else 4
/-- Bytes of one part with its scales. -/
def partBytes (i : RedItem) : Nat := elemSpan i (partLen i) + (if i.scaled then partLen i / 32 else 0)
/-- The rounds that sum (R301, R302). -/
def sumRounds (i : RedItem) (p : Nat) : List RedRound :=
  let mm := redMembers i
  let jj := (groupBits i).length
  let k := ringIdx mm p
  let unit := partLen i * wireBytes i
  if i.ring then
    (List.range (mm - 1)).map fun t =>
      { sums := true, sendBit := if k + 1 = mm then jj - 1 else lowBit (k + 1), recvBit := if k = 0 then jj - 1 else lowBit k
        send := [gray ((k + 2 * mm - 1 - t) % mm)], recv := [gray ((k + 2 * mm - 2 - t) % mm)], unit := unit }
  else
    (List.range jj).map fun b =>
      let low := (List.range mm).filter fun q => q % 2 ^ b = p % 2 ^ b
      { sums := true, sendBit := b, recvBit := b, send := low.filter fun q => bit q b != bit p b
        recv := low.filter fun q => bit q b == bit p b, unit := unit }
/-- The rounds that gather (R303). -/
def gatherRounds (i : RedItem) (p : Nat) : List RedRound :=
  let mm := redMembers i
  let jj := (groupBits i).length
  let k := ringIdx mm p
  if i.ring then
    (List.range (mm - 1)).map fun t =>
      { sums := false, sendBit := if k + 1 = mm then jj - 1 else lowBit (k + 1), recvBit := if k = 0 then jj - 1 else lowBit k
        send := [gray ((k + mm - t) % mm)], recv := [gray ((k + 2 * mm - 1 - t) % mm)], unit := partBytes i }
  else
    (List.range jj).map fun b =>
      { sums := false, sendBit := b, recvBit := b, send := (List.range mm).filter fun q => q / 2 ^ b = p / 2 ^ b
        recv := (List.range mm).filter fun q => q / 2 ^ b = (p ^^^ 2 ^ b) / 2 ^ b, unit := partBytes i }
/-- The rounds of ALL_TO_ALL: block o * M + d goes from member o to member d, over the differing bits ascending. -/
def a2aRounds (i : RedItem) (p : Nat) : List RedRound :=
  let mm := redMembers i
  (List.range (groupBits i).length).map fun b =>
    let blk := fun (q : Nat) => (List.range mm).flatMap fun o => ((List.range mm).filter fun d =>
      o / 2 ^ b = q / 2 ^ b && d % 2 ^ b = q % 2 ^ b && bit d b != bit q b).map fun d => o * mm + d
    { sums := false, sendBit := b, recvBit := b, send := blk p, recv := blk (p ^^^ 2 ^ b), unit := partBytes i }
/-- The rounds of an item on group position `p`. -/
def redRounds (i : RedItem) (p : Nat) : List RedRound :=
  match i.op.toNat with
  | 1 => sumRounds i p
  | 2 => gatherRounds i p
  | 3 => sumRounds i p ++ gatherRounds i p
  | 4 => a2aRounds i p
  | k => (List.range (groupBits i).length).map fun b =>
      { sums := true, sendBit := b, recvBit := b, send := [0], recv := [0], unit := if k = 5 then 4 * i.n else 4 }
/-- Frames of a round, sent or received. -/
def roundFrames (parts : List Nat) (unit : Nat) : Nat := cdiv (parts.length * unit) 512
/-- The first frame number of round `k` on its outgoing (`out`) or incoming dimension. -/
def frameBase (l : List RedRound) (k : Nat) (out : Bool) : Nat :=
  let b := fun (r : RedRound) => if out then r.sendBit else r.recvBit
  match l[k]? with
  | none => 0
  | some r => (((l.take k).filter fun q => b q = b r).map fun q =>
      roundFrames (if out then q.send else q.recv) q.unit).sum
/-- The round and the frame of it that frame `f` from group bit `b` belongs to. -/
def roundOf (l : List RedRound) (b f : Nat) : Option (Nat × Nat) :=
  ((l.zipIdx).find? fun e => e.1.recvBit = b && frameBase l e.2 false ≤ f
    && f < frameBase l e.2 false + roundFrames e.1.recv e.1.unit).map fun e => (e.2, f - frameBase l e.2 false)

/-! ## Elements -/

/-- Add two partials: FP32 under RNE, or INT32 with saturation (R300). -/
def redAdd (i : RedItem) (a b : W32) : W32 := if i.elem = 6 then w32OfInt (satInt32 (a.toInt + b.toInt)).1 else fAdd a b
/-- Round a partial to ELEM (R300). -/
def redNarrow (i : RedItem) (v : W32) : Nat × Count :=
  if i.elem = 0 || i.elem = 6 then (v.toNat, {}) else let r := narrow i.elem .rne (f32 v); (r.1, r.2.2)
/-- Widen a code to a partial, with whether its scaled value lay beyond the FP32 range. -/
def redWiden (i : RedItem) (sc : Option Byte) (code : Nat) : W32 × Bool :=
  if i.elem = 6 then (BitVec.ofNat 32 code, false)
  else match sc with
    | some k => widen32 (scaled (elemVal i.elem code) k)
    | none => widen32 (elemVal i.elem code)
/-- The unit's input widened (R300): N words, counting what lies beyond the FP32 range. A PATIENT item takes SRC as its
blocks have left it (R308). -/
def State.rdContribution (s : State) (h : HerdId) (i : RedItem) : State × Status × List W32 :=
  let read := fun (s : State) e a n => if i.patient then s.rdCodesNow h e a n else s.rdCodes h e a n
  let (s, st, cs) := read s i.elem i.src i.n
  let (s, st, sc) := if i.scaled then andThen (s, st) fun s => read s 7 i.ssrc (i.n / 32) else (s, st, [])
  if st != stOK then (s, st, [])
  else
    let v := cs.zipIdx.map fun e =>
      redWiden i (if i.scaled then some (BitVec.ofNat 8 (sc.getD (e.2 / 32) 0)) else none) e.1
    let far := (v.filter (·.2)).length
    (s.count h i.layer { sat := far }, stOK, v.map (·.1))
/-- Write words as elements of ELEM from address `a`, scales from `sa`; the codes written, with their scales. -/
def State.wrResult (s : State) (h : HerdId) (i : RedItem) (a sa : Nat) (v : List W32) :
    State × Status × List (Nat × Option Byte) :=
  if i.scaled then
    let f := (elemFmt i.elem).getD .e4m3
    let g := (List.range (v.length / 32)).map fun k => mxGroup f (((v.drop (32 * k)).take 32).map fun x => (f32 x, Rnd.rne))
    let s := g.foldl (fun s r => s.count h i.layer r.2.2.2) s
    let (s, st) := s.runWr h a (g.flatMap fun r => r.2.1.flatMap fun c => leBytes 1 c)
    let (s, st) := if st != stOK then (s, st) else s.runWr h sa (g.map (·.1))
    (s, st, g.flatMap fun r => r.2.1.map fun c => (c, some r.1))
  else
    let r := v.map (redNarrow i)
    let s := r.foldl (fun s c => s.count h i.layer c.2) s
    let (s, st) := s.runWr h a (r.flatMap fun c => leBytes (elemBytes i.elem) c.1)
    (s, st, r.map fun c => (c.1, none))

/-! ## Norms (R305) -/

/-- The norm partial of a part, as written, and how many of its elements lay beyond the FP32 range when widened (R128). -/
def normPartial (i : RedItem) (s : Int) (cs : List (Nat × Option Byte)) : W32 × Nat :=
  let v := cs.map fun c => if i.elem = 6 then widen32 (elemVal 6 c.1) else redWiden i c.2 c.1
  (sumSquares v.length (v.zipIdx.foldl (fun t e => t.set 0 e.2 (fMul e.1.1 (pow2F (-s)))) {}), (v.filter (·.2)).length)
/-- A unit's own value of NORM_FINISH: its slot's partials in ascending item index. -/
def Herd.normOwn (x : Herd) (slot : Nat) : W32 :=
  let l := x.norms.filter fun e => e.1 = slot
  let sorted := (l.foldl (fun (t : Tbl W32) e => t.set 0 e.2.1 e.2.2) {}).entries.map (·.2)
  match sorted with
  | [] => 0
  | a :: r => r.foldl fAdd a

/-! ## Carries (R311) -/

/-- The slot of an item in a step, and the address of a copy of it. -/
def carryCopy (i : RedItem) (slot c : Nat) : Nat := i.cbuf + 64 + (2 * slot + c) * (64 + 4 * i.n)
/-- The selector word of a carry buffer. -/
def State.selector (s : State) (h : HerdId) (i : RedItem) : State × Status × Nat := s.rdLe h i.cbuf 8
/-- The current copy of a slot: which it is, its DUE, and its words when it is VALID. -/
def State.carryNow (s : State) (h : HerdId) (i : RedItem) (slot : Nat) : State × Status × Nat × Nat × Option (List W32) :=
  let (s, st, sel) := s.selector h i
  if st != stOK then (s, st, 0, 0, none)
  else
    let c := b2n (bit sel slot)
    let (s, st, hd) := s.rdLe h (carryCopy i slot c) 8
    if st != stOK then (s, st, c, 0, none)
    else if !bit hd 48 then (s, stOK, c, hd % 2 ^ 48, none)
    else
      let (s, st, d) := s.rd h (carryCopy i slot c + 64) (4 * i.n)
      (s, st, c, hd % 2 ^ 48, some ((codesOf 4 d).map (BitVec.ofNat 32)))
/-- Note that the other copy of a slot has been written: its selector bit flips at the boundary. -/
def State.noteCopy (s : State) (h : HerdId) (e slot : Nat) : State :=
  s.modHerd h fun x => { x with written := x.written ++ [(e, slot)] }
/-- The contribution of a unit that is on time: SRC, with the pending carry folded in. -/
def State.onTime (s : State) (h : HerdId) (e : Nat) (i : RedItem) (carryD : Nat) : State × Status × List W32 :=
  let (s, st, v) := s.rdContribution h i
  if st != stOK || !carries i || carryD = 0 then (s, st, v)
  else
    let slot := (s.stepNo h).toNat % carryD
    let (s, st, c, _, old) := s.carryNow h i slot
    match old with
    | none => (s, st, v)
    | some o =>
      if st != stOK then (s, st, v)
      else
        let (s, st) := s.runWr h (carryCopy i slot (1 - c)) (List.replicate 64 0)
        (s.noteCopy h e slot, st, (v.zip o).map fun q => redAdd i q.1 q.2)
/-- The capture of a missed contribution (R311). -/
def State.capture (s : State) (h : HerdId) (e : Nat) (i : RedItem) (carryD step : Nat) : State × Status :=
  let slot := step % carryD
  let (s, st, v) := s.rdContribution h i
  if st != stOK then (s, st)
  else
    let (s, st, c, _, old) := s.carryNow h i slot
    if st != stOK then (s, st)
    else
      let v : List W32 := match old with | some o => (v.zip o).map fun q => redAdd i q.1 q.2 | none => v
      let hd := leBytes 8 ((step + carryD) % 2 ^ 48 + 2 ^ 48) ++ List.replicate 56 0
      let (s, st) := s.runWr h (carryCopy i slot (1 - c)) (hd ++ v.flatMap fun w => leBytes 4 w.toNat)
      (s.noteCopy h e slot, st)

/-! ## Running the rounds -/

/-- The Sentence that frames of the herd meet: none before a load has ended. -/
def State.plan (s : State) (h : HerdId) : Option Sentence := if (s.herd h).seq == .loading then none else (s.herd h).sentence
/-- The reduction item `e` of a herd. -/
def State.redItem (s : State) (h : HerdId) (e : Nat) : Option RedItem := (s.plan h).bind fun m => m.reds[e]?
/-- The group position of this unit. -/
def State.groupPosOf (s : State) (h : HerdId) (i : RedItem) : Nat := groupPos i (s.slicePos (s.herd h))
def State.redRun (s : State) (h : HerdId) (e : Nat) : RedRun := (s.herd h).reds.get {} e
def State.setRed (s : State) (h : HerdId) (e : Nat) (v : RedRun) : State :=
  s.modHerd h fun x => { x with reds := x.reds.set {} e v }
/-- The inputs of a beat's engines: ranges that route entries send, FABRIC items take and DECLENSION items use. -/
def beatInputs (m : Sentence) (beat pos : Nat) : List (Nat × Nat) :=
  ((m.routes.filter fun t => t.beat = beat && pos &&& t.mask.toNat = t.mtch.toNat).map fun t => (t.src, t.bytes))
    ++ (((itemsIn m 1 beat).filterMap fun e => m.reds[e]?).flatMap fun i =>
          if i.patient then [] else [(i.src, (redSpans i).1), (i.ssrc, (redScales i).1)])
    ++ (((itemsIn m 2 beat).filterMap fun k => m.dcls[k]?).flatMap fun i => tensedArrays i ++ otherArrays i)
/-- The engines' inputs are taken as they stand at the start of a beat (R251, R291, R307). -/
def State.latchInputs (s : State) (h : HerdId) (beat : Nat) : State :=
  match (s.herd h).sentence with
  | none => s
  | some m =>
    let l := (beatInputs m beat (s.slicePos (s.herd h))).filterMap fun a =>
      match s.rd h a.1 a.2 with
      | (_, st, d) => if st = stOK && a.2 != 0 then some (a.1, d) else none
    s.modHerd h fun x => { x with inputs := l }
/-- Queue the frames of `data` on a dimension from frame number `base`. -/
def State.sendItem (s : State) (h : HerdId) (d : DimId) (type : BitVec 4) (e base : Nat) (last : Bool) (data : List Byte) :
    State :=
  let k := cdiv data.length 512
  (List.range k).foldl (fun s j =>
    s.sendOn d { type := type, herd := h, last := last && j + 1 == k, item := BitVec.ofNat 20 e
                 offset := BitVec.ofNat 24 (base + j), payload := sliceBytes data (512 * j) 512 }) s
/-- Words of the parts a round sends, as bytes; narrowing counts (R300). -/
def State.partialBytes (s : State) (h : HerdId) (i : RedItem) (x : Tbl W32) (parts : List Nat) : State × List Byte :=
  let p := partLen i
  let ws := parts.flatMap fun q => (List.range p).map fun k => x.get 0 (q * p + k)
  if i.wire then
    let r := ws.map (redNarrow i)
    (r.foldl (fun s c => s.count h i.layer c.2) s, r.flatMap fun c => leBytes (elemBytes i.elem) c.1)
  else (s, ws.flatMap fun w => leBytes 4 w.toNat)
/-- Bytes of part `q` of an array with its scales, read by `read`. -/
def rdPart (read : State → Nat → Nat → State × Status × List Byte) (s : State) (i : RedItem) (a sa q : Nat) :
    State × Status × List Byte :=
  let p := partLen i
  let (s, st, d) := read s (a + elemSpan i (q * p)) (elemSpan i p)
  if st != stOK || !i.scaled then (s, st, d)
  else let (s, st, c) := read s (sa + q * p / 32) (p / 32); (s, st, d ++ c)
/-- Write part `q` of DST with its scales. -/
def State.wrPart (s : State) (h : HerdId) (i : RedItem) (q : Nat) (d : List Byte) : State × Status :=
  let p := partLen i
  let (s, st) := s.runWr h (i.dst + elemSpan i (q * p)) (d.take (elemSpan i p))
  if st != stOK || !i.scaled then (s, st)
  else s.runWr h (i.sdst + q * p / 32) ((d.drop (elemSpan i p)).take (p / 32))
/-- Blocks of an ALL_TO_ALL in the hub's buffers: byte `k` of block `q`. -/
def blockBytes (i : RedItem) (x : Tbl W32) (q : Nat) : List Byte :=
  (List.range (partBytes i)).map fun k => (x.get 0 (q * partBytes i + k)).setWidth 8
/-- Put the bytes of a block into the buffers. -/
def putBlock (i : RedItem) (x : Tbl W32) (q : Nat) (d : List Byte) : Tbl W32 :=
  (d.zipIdx).foldl (fun t e => t.set 0 (q * partBytes i + e.2) (e.1.setWidth 32)) x
/-- Read parts of DST in order. -/
def State.rdParts (h : HerdId) (i : RedItem) : List Nat → State → State × Status × List Byte
  | [], s => (s, stOK, [])
  | q :: l, s =>
    let (s, st, d) := rdPart (fun s a n => s.rd h a n) s i i.dst i.sdst q
    if st != stOK then (s, st, []) else let (s, st, r) := State.rdParts h i l s; (s, st, d ++ r)
/-- Send what round `k` sends. -/
def State.sendRound (s : State) (h : HerdId) (e : Nat) (i : RedItem) (k : Nat) : State × Status :=
  let l := redRounds i (s.groupPosOf h i)
  match l[k]? with
  | none => (s, stOK)
  | some r =>
    let x := (s.redRun h e).x
    let (s, st, d) :=
      if 5 ≤ i.op.toNat then (s, stOK, (List.range (r.unit / 4)).flatMap fun j => leBytes 4 (x.get 0 j).toNat)
      else if i.op = 4 then (s, stOK, r.send.flatMap (blockBytes i x))
      else if r.sums then let (s, d) := s.partialBytes h i x r.send; (s, stOK, d)
      else State.rdParts h i r.send s
    if st != stOK then (s, st)
    else match (s.herd h).groupDim i r.sendBit with
      | some d' => (s.sendItem h d' 2 e (frameBase l k true) (((l.drop (k + 1)).all fun q => q.sendBit != r.sendBit)) d, stOK)
      | none => (s, stCfgInvalid)
/-- Write gathered parts. -/
def State.putParts (h : HerdId) (i : RedItem) (d : List Byte) : List (Nat × Nat) → State → State × Status
  | [], s => (s, stOK)
  | (q, j) :: l, s =>
    let (s, st) := s.wrPart h i q ((d.drop (j * partBytes i)).take (partBytes i))
    if st != stOK then (s, st) else State.putParts h i d l s
/-- Take in what round `r` received: the lower position's value comes first in a sum (R301 to R303). -/
def State.takeRound (s : State) (h : HerdId) (e : Nat) (i : RedItem) (r : RedRound) (d : List Byte) : State × Status :=
  let q := s.redRun h e
  let pos := s.groupPosOf h i
  if 5 ≤ i.op.toNat then
    let x := (List.range (r.unit / 4)).foldl (fun (t : Tbl W32) j =>
      let y := BitVec.ofNat 32 (fieldLe d (4 * j) 4)
      t.set 0 j (if bit pos r.recvBit then fAdd y (t.get 0 j) else fAdd (t.get 0 j) y)) q.x
    (s.setRed h e { q with x := x }, stOK)
  else if i.op = 4 then
    (s.setRed h e { q with x := (r.recv.zipIdx).foldl (fun t b =>
      putBlock i t b.1 ((d.drop (b.2 * partBytes i)).take (partBytes i))) q.x }, stOK)
  else if r.sums then
    let p := partLen i
    let w := wireBytes i
    let x := (r.recv.zipIdx).foldl (fun (t : Tbl W32) b => (List.range p).foldl (fun (t : Tbl W32) k =>
      let y := fieldLe d ((b.2 * p + k) * w) w
      let y := if i.wire then (redWiden i none y).1 else BitVec.ofNat 32 y
      let own := t.get 0 (b.1 * p + k)
      t.set 0 (b.1 * p + k) (if i.ring || bit pos r.recvBit then redAdd i y own else redAdd i own y)) t) q.x
    (s.setRed h e { q with x := x }, stOK)
  else State.putParts h i d r.recv.zipIdx s
/-- The part this unit owns is complete: write it, and form its norm partial (R300, R305). -/
def State.writeOwn (s : State) (h : HerdId) (e : Nat) (i : RedItem) : State × Status :=
  let p := partLen i
  let pos := s.groupPosOf h i
  let x := (s.redRun h e).x
  let at_ := if i.op = 3 then pos * p else 0
  let (s, st, cs) := s.wrResult h i (i.dst + elemSpan i at_) (i.sdst + at_ / 32)
    ((List.range p).map fun k => x.get 0 (pos * p + k))
  if st != stOK || !i.normEn then (s, st)
  else
    let (v, far) := normPartial i (s.sCur h i.layer) cs
    ((s.count h i.layer { sat := far }).modHerd h fun y => { y with norms := (y.norms.filter fun z => !(z.1 = i.normSlot.toNat && z.2.1 = e))
      ++ [(i.normSlot.toNat, e, v)] }, st)
/-- The last round of an item is done: its results reach DST. -/
def State.finishItem (s : State) (h : HerdId) (e : Nat) (i : RedItem) : State × Status :=
  let q := s.redRun h e
  let mm := redMembers i
  let pos := s.groupPosOf h i
  let (s, st) := match i.op.toNat with
    | 4 => State.putParts h i ((List.range mm).flatMap fun o => blockBytes i q.x (o * mm + pos)) (List.range mm).zipIdx s
    | 5 => s.runWr h i.dst ((List.range i.n).flatMap fun j => leBytes 4 (q.x.get 0 j).toNat)
    | 6 => s.runWr h i.dst (leBytes 4 (q.x.get 0 0).toNat)
    | _ => (s, stOK)
  (s.setRed h e { s.redRun h e with done := true, x := {} }, st)
/-- The data that round `k` has received, once all its frames are in. -/
def RedRun.roundData (q : RedRun) (k frames : Nat) : Option (List Byte) :=
  let l := (List.range frames).map fun f => (q.early.find? fun z => z.1 = k && z.2.1 = f).map (·.2.2)
  if l.all Option.isSome then some (l.flatMap fun z => z.getD []) else none
/-- Work through the rounds as far as the frames received allow. -/
def State.redGo (h : HerdId) (e : Nat) (i : RedItem) : Nat → State → State × Status
  | 0, s => (s, stOK)
  | f + 1, s =>
    let l := redRounds i (s.groupPosOf h i)
    let q := s.redRun h e
    if !q.started || q.done then (s, stOK)
    else match l[q.round]? with
      | none => s.finishItem h e i
      | some r =>
        match q.roundData q.round (roundFrames r.recv r.unit) with
        | none => (s, stOK)
        | some d =>
          let (s, st) := s.takeRound h e i r d
          if st != stOK then (s, st)
          else
            let k := q.round + 1
            let s := s.setRed h e { s.redRun h e with round := k, early := q.early.filter fun z => z.1 != q.round }
            let next := (l[k]?).map (·.sums)
            let (s, st) := if redSums i && r.sums && next != some true then s.writeOwn h e i else (s, stOK)
            let (s, st) := if st != stOK then (s, st) else s.sendRound h e i k
            if st != stOK then (s, st) else State.redGo h e i f s
/-- Bound on the rounds of an item. -/
def redFuel (i : RedItem) : Nat := 2 * redMembers i + 20
/-- The engine starts an item: its input is taken in, a NaN as the default NaN (R117), then its rounds run. -/
def State.redStart (s : State) (h : HerdId) (e : Nat) (i : RedItem) (carryD : Nat) : State × Status :=
  let q := s.redRun h e
  let pos := s.groupPosOf h i
  let mm := redMembers i
  let words := fun (v : List W32) => v.zipIdx.foldl (fun (t : Tbl W32) z => t.set 0 z.2 z.1) {}
  let (s, st, x) :=
    if redSums i then
      if q.missed then (s, stOK, {}) else let (s, st, v) := s.onTime h e i carryD; (s, st, words v)
    else match i.op.toNat with
      | 2 =>
        let (s, st, d) := rdPart (fun s a n => s.rdIn h a n) s i i.src i.ssrc 0
        let (s, st) := if st != stOK then (s, st) else s.wrPart h i pos d
        (s, st, ({} : Tbl W32))
      | 4 => (List.range mm).foldl (fun (a : State × Status × Tbl W32) d =>
          if a.2.1 != stOK then a
          else
            let (s, st, v) := rdPart (fun s a n => s.rdIn h a n) a.1 i i.src i.ssrc d
            (s, st, putBlock i a.2.2 (pos * mm + d) v)) (s, stOK, {})
      | 5 => let (s, st, v) := s.rdCodes h 0 i.src i.n; (s, st, words (v.map fun w => winner (BitVec.ofNat 32 w)))
      | _ =>
        let v := (s.herd h).normOwn i.normSlot.toNat
        (s.modHerd h fun y => { y with norms := y.norms.filter fun z => z.1 != i.normSlot.toNat }, stOK, words [v])
  if st != stOK then (s, st)
  else
    let s := s.setRed h e { s.redRun h e with started := true, round := 0, x := x }
    let (s, st) := if redSums i && mm = 1 then s.writeOwn h e i else (s, stOK)
    let (s, st) := if st != stOK then (s, st) else s.sendRound h e i 0
    if st != stOK then (s, st) else State.redGo h e i (redFuel i) s

/-! ## Local completion and patience (R307 to R309, R314, R315) -/

/-- A block has completed segment `k` of pass `pass` (R216). -/
def Block.segComplete (x : Block) (pass k : Nat) : Bool :=
  pass < x.pass || (x.pass = pass && k < x.seg && !(allPairs.any fun p => match (x.pair p).run with
    | some r => r.seg ≤ k
    | none => false))
/-- The Clause-running blocks of a herd. -/
def State.runBlocks (s : State) (h : HerdId) : List BlockId := (s.blocksOf h).filter fun b => !(s.block b).clause.isEmpty
/-- Local completion of a beat (R308). -/
def State.localDone (s : State) (h : HerdId) (pass beat : Nat) : Bool :=
  (s.runBlocks h).all fun b => (s.block b).segComplete pass beat
/-- The ledger entry that replay reads next, CARRY_DISCARDED entries skipped: its step and item, and the cursor past it. -/
def State.nextEntry : Nat → State → HerdId → Nat → Option (Nat × Nat × Nat)
  | 0, _, _, _ => none
  | f + 1, s, h, c =>
    let x := s.herd h
    if x.ledgerCount.toNat ≤ c then none
    else
      let (_, st, d) := s.rd h (x.ledgerBase.toNat + 16 * c) 16
      if st != stOK then none
      else
        let a := fieldLe d 8 4
        if bits a 24 2 = 2 then State.nextEntry f s h (c + 1)
        else some (fieldLe d 0 6, bits a 0 24, c + 1)
/-- Replay decides whether this unit misses an item (R315). -/
def State.replayItem (s : State) (h : HerdId) (e : Nat) : State :=
  let x := s.herd h
  match State.nextEntry (x.ledgerCount.toNat + 1) s h x.ledgerCursor.toNat with
  | some (t, i, c) =>
    if t = (s.stepNo h).toNat && i = e then
      (s.setRed h e { s.redRun h e with missed := true }).modHerd h fun y => { y with ledgerCursor := BitVec.ofNat 20 c }
    else s
  | none => s
/-- A missed item with carry must be captured. -/
def State.noteMiss (s : State) (h : HerdId) (e : Nat) (i : RedItem) : State :=
  let pass := ((s.herd h).run.map (·.pass)).getD 0
  if carries i then s.modHerd h fun x => { x with captures := x.captures ++ [(e, (s.stepNo h).toNat, pass)] } else s
/-- At the start of a beat under REPLAY, its PATIENT items are judged in ascending order. -/
def State.replayBeat (s : State) (h : HerdId) (beat : Nat) : State :=
  let x := s.herd h
  match x.sentence with
  | none => s
  | some m =>
    if !x.replay then s
    else
      let l := itemsIn m 1 beat
      ((List.range m.reds.length).filter fun e => l.contains e && ((m.reds[e]?).map (·.patient)).getD false).foldl
        (fun s e =>
          let s := s.replayItem h e
          match m.reds[e]? with
          | some i => if (s.redRun h e).missed then s.noteMiss h e i else s
          | none => s) s
/-- The beat in progress names a FABRIC item. -/
def State.fabricNow (s : State) (h : HerdId) (e : Nat) : Option (Run × RedItem × Nat) :=
  let x := s.herd h
  match x.run, x.sentence with
  | some r, some m =>
    match m.reds[e]? with
    | some i => if x.active && (itemsIn m 1 r.beat).contains e then some (r, i, m.carryD) else none
    | none => none
  | _, _ => none
/-- An item's work ends with a status. -/
def State.itemEnd (h : HerdId) (r : State × Status) : State := if r.2 != stOK then r.1.stopHere h r.2 0 else r.1
/-- An item of an operation starts: a DETERMINISTIC one in its beat, a PATIENT one at local completion or once missed. -/
def State.startRed (s : State) (h : HerdId) (e : Nat) (op : Nat) : Out :=
  match s.fabricNow h e with
  | none => .next s
  | some (r, i, d) =>
    let q := s.redRun h e
    s.ifOnly (i.op.toNat = op && !q.started && (!i.patient || q.missed || s.localDone h r.pass r.beat)) fun s =>
      State.itemEnd h (s.redStart h e i d)
/-- REDUCE_SCATTER. -/
def execReduceScatter (h : HerdId) (e : Nat) (s : State) : Out := s.startRed h e 1
/-- ALL_GATHER. -/
def execAllGather (h : HerdId) (e : Nat) (s : State) : Out := s.startRed h e 2
/-- ALL_REDUCE. -/
def execAllReduce (h : HerdId) (e : Nat) (s : State) : Out := s.startRed h e 3
/-- ALL_TO_ALL. -/
def execAllToAll (h : HerdId) (e : Nat) (s : State) : Out := s.startRed h e 4
/-- SMALL_SUM. -/
def execSmallSum (h : HerdId) (e : Nat) (s : State) : Out := s.startRed h e 5
/-- NORM_FINISH. -/
def execNormFinish (h : HerdId) (e : Nat) (s : State) : Out := s.startRed h e 6
/-- The ledger has room for one more miss of the step (R314). -/
def Herd.ledgerRoom (x : Herd) : Bool := x.ledgerCount.toNat + x.pendLedger.length < x.ledgerCap.toNat
/-- A miss finds no room: FULL, and `LEDGER_FULL` once in a run (R314). -/
def State.ledgerFullNow (s : State) (h : HerdId) : State :=
  let first := !(((s.herd h).run.map (·.fullRaised)).getD true)
  let s := s.modHerd h fun x =>
    { x with ledgerFull := true, run := x.run.map fun (q : Run) => { q with fullRaised := true } }
  if first then s.evtHerd h 0x0006 (leBytes 8 (s.stepNo h).toNat) else s
/-- PATIENCE_EXPIRY: the budget, which the first REDUCE frame started (or the beat, with one member), ends before local
completion. -/
def execPatienceExpiry (h : HerdId) (e : Nat) (s : State) : Out :=
  match s.fabricNow h e with
  | none => .next s
  | some (r, i, d) =>
    let q := s.redRun h e
    s.ifOnly (i.patient && !q.started && !q.missed && (q.budget || redMembers i = 1) && !(s.herd h).replay
        && !s.localDone h r.pass r.beat) fun s =>
      if !(s.herd h).ledgerRoom then s.ledgerFullNow h
      else
        let s := s.setRed h e { s.redRun h e with missed := true }
        let s := s.modHerd h fun x => { x with pendLedger := x.pendLedger ++ [(e, if i.drop then 1 else 0)] }
        State.itemEnd h ((s.noteMiss h e i).redStart h e i d)
/-- CARRY_CAPTURE: the missed contribution at late local completion. -/
def execCarryCapture (h : HerdId) (e : Nat) (s : State) : Out :=
  let x := s.herd h
  match x.captures.find? fun c => c.1 = e, x.sentence with
  | some (_, step, pass), some m =>
    match m.reds[e]? with
    | none => .next s
    | some i =>
      let beat := ((m.plan.find? fun p => p.kind = 1 && p.item = e).map (·.beat)).getD 0
      s.ifOnly (x.working && s.localDone h pass beat) fun s =>
        let s := s.modHerd h fun y => { y with captures := y.captures.filter fun c => !(c.1 = e && c.2.1 = step) }
        State.itemEnd h (s.capture h e i m.carryD step)
  | _, _ => .next s

/-! ## Routes (R288 to R293) -/

/-- A slice position sends an entry. -/
def routeSends (r : RouteEnt) (pos : Nat) : Bool := pos &&& r.mask.toNat = r.mtch.toNat
/-- A slice position receives an entry. -/
def routeTakes (r : RouteEnt) (pos : Nat) : Bool := routeSends r (pos ^^^ r.delta.toNat)
/-- XOR of some slice-position bits. -/
def xorBits (l : List Nat) : Nat := l.foldl (fun a b => a ^^^ 2 ^ b) 0
/-- How many transfers of an entry pass through a position on their way. -/
def routeVia (r : RouteEnt) (pos : Nat) : Nat :=
  let o := routeOrder r
  ((List.range (o.length - 1)).filter fun k => routeSends r (pos ^^^ xorBits (o.take (k + 1)))).length
/-- Frames of one transfer. -/
def routeFrames (r : RouteEnt) : Nat := cdiv r.bytes 512
/-- The engine's part of an entry is done on this unit (R291). Under DET 0 the frames that it forwards are those that came; `issued` is
that it has sent its own. -/
def routeDone (det : Bool) (r : RouteEnt) (q : RouteRun) (pos : Nat) (issued : Bool) : Bool :=
  let n := if det then routeFrames r * (b2n (routeSends r pos) + routeVia r pos) else q.sent
  (issued || !routeSends r pos) && n ≤ q.sent && n ≤ q.acked && (if routeTakes r pos then r.bytes else 0) ≤ q.got
/-- The checks of R292. -/
def State.routeRunOk (s : State) (h : HerdId) (m : Sentence) : Bool :=
  let pos := s.slicePos (s.herd h)
  m.routes.all fun r => (!routeSends r pos || s.heldArray h r.src r.bytes) && (!routeTakes r pos || s.heldArray h r.dst r.bytes)
/-- Change the run of a route. -/
def State.modRoute (s : State) (h : HerdId) (e : Nat) (f : RouteRun → RouteRun) : State :=
  s.modHerd h fun x => { x with routes := x.routes.set {} e (f (x.routes.get {} e)) }
/-- Queue a frame of an entry with the bits `l` to cross: in their order under DET 1, else by the way chosen now. -/
def State.sendHop (s : State) (h : HerdId) (det : Bool) (t : RouteEnt) (l : List Nat) (f : OutFrame) : State :=
  let l := if det then l else s.wayOf h t l
  match l.head?.bind (s.herd h).sliceDim with
  | some d => (s.sendOn d { f with path := if det then [] else l }).modRoute h f.item.toNat fun q => { q with sent := q.sent + 1 }
  | none => s
/-- The frames of a route's data. -/
def dataFrames (h : HerdId) (e : Nat) (data : List Byte) : List OutFrame :=
  let k := cdiv data.length 512
  (List.range k).map fun j =>
    { type := 1, herd := h, last := j + 1 == k, item := BitVec.ofNat 20 e, offset := BitVec.ofNat 24 j
      payload := sliceBytes data (512 * j) 512 }
/-- ROUTE_ENTRY: this unit sends entry `e`. -/
def execRouteEntry (h : HerdId) (e : Nat) (s : State) : Out :=
  let x := s.herd h
  match x.run, x.sentence with
  | some r, some m =>
    match m.routes[e]? with
    | none => .next s
    | some t =>
      let pos := s.slicePos x
      s.ifOnly (x.active && t.beat = r.beat && routeSends t pos && !r.items.contains (0, e)) fun s =>
        let s := s.modHerd h fun x => { x with run := x.run.map fun (q : Run) => { q with items := q.items ++ [(0, e)] } }
        let (s, st, d) := s.rdIn h t.src t.bytes
        if st != stOK then s.stopHere h st 0
        else (dataFrames h e d).foldl (fun s f => s.sendHop h m.det t (routeOrder t) f) s
  | _, _ => .next s
/-- The bits that a frame of entry `e` has still to cross when it has arrived over bit `b`: those after `b` in the order of R290 under
DET 1, and what the frame has left of its way under DET 0. None where no sender's frame comes so. -/
def State.routeRest (s : State) (h : HerdId) (det : Bool) (t : RouteEnt) (b : Nat) (rest : List Nat) : Option (List Nat) :=
  let o := routeOrder t
  let pos := s.slicePos (s.herd h)
  if det then
    let k := o.idxOf b
    if o.contains b && routeSends t (pos ^^^ xorBits (o.take (k + 1))) then some (o.drop (k + 1)) else none
  else if rest.length ≤ 17 && (rest.all (· < (s.herd h).dims.length)) && routeTakes t (pos ^^^ xorBits rest) then some rest else none
/-- A frame of entry `e` that arrived over a slice-position bit: written at its receiver, else forwarded (R290). A unit
whose herd holds no Sentence drops it. What comes for the next run while this one stops is no write of this run. -/
def State.takeRoute (s : State) (h : HerdId) (m : Sentence) (t : RouteEnt) (e b : Nat) (f : Frame) (rest : List Nat) (d : List Byte) :
    State :=
  let off := 512 * f.offset.toNat
  match s.routeRest h m.det t b rest with
  | none => s
  | some l =>
    if t.bytes ≤ off then s
    else if l.isEmpty then
      let n := min 512 (t.bytes - off)
      let (s, st) := if (s.herd h).active then s.runWr h (t.dst + off) (d.take n) else s.wr h (t.dst + off) (d.take n)
      if st != stOK then s.stopHere h st 0 else s.modRoute h e fun q => { q with got := q.got + n }
    else s.sendHop h m.det t l
      { type := 1, herd := h, last := f.last, item := f.item, offset := f.offset, payload := d }
/-- The slice-position bit of a dimension. -/
def Herd.sliceBit (x : Herd) (d : DimId) : Option Nat := if x.dims.contains d then some (x.dims.idxOf d) else none
/-- A frame of a herd stream arrives on a lane: what to do with its herd and opened payload. -/
def State.onFrame (s : State) (n : LaneId) (f : Frame) (type : BitVec 4) (k : State → HerdId → DimId → List Byte → State) :
    Out :=
  s.ifLane n (fun x => x.locked && x.dimId.isSome && f.type = type) fun s =>
    match (s.laneAt n).dimId with
    | none => s
    | some d =>
      let (s, used) := s.frameGood n
      if !used then s
      else
        match s.receive n d f with
        | (s, some (h, p)) => k s h d p
        | (s, none) => s
/-- A DATA or REDUCE frame belongs to a run that goes on, or that is still to come: its sender has not told since that it had sent all
before, and a unit whose own run stops takes only frames of a peer that has stopped before it (R291; DEDUCED, log entry 141). -/
def State.current (s : State) (h : HerdId) (d : DimId) (f : Frame) : Bool :=
  let x := s.streams.get {} (d.val * 32 + f.herd.toNat)
  x.cut ≤ f.counter && ((s.herd h).run.isNone || (s.herd h).active || x.halted)
/-- DATA_FRAME. A frame of a TYPE from 0x7 to 0xF passes its CRC; it is dropped and counted as a CRC error (R270, Table 09.2). -/
def execDataFrame (n : LaneId) (f : Frame) (rest : List Nat) (s : State) : Out :=
  if 7 ≤ f.type.toNat then s.ifLane n Lane.locked fun s => (s.frameGood n).1.crcError n
  else s.onFrame n f 1 fun s h d p =>
    match s.plan h, (s.herd h).sliceBit d with
    | some m, some b =>
      match m.routes[f.item.toNat]? with
      | some t => if s.current h d f then s.takeRoute h m t f.item.toNat b f rest p else s
      | none => s
    | _, _ => s
/-- REDUCE_FRAME: kept until its round comes, which starts the patience budget of an item (R308). -/
def execReduceFrame (n : LaneId) (f : Frame) (s : State) : Out :=
  s.onFrame n f 2 fun s h d p =>
    let e := f.item.toNat
    if !s.current h d f then s
    else match s.redItem h e with
    | none => s
    | some i =>
      match ((s.herd h).bitOf i d).bind fun b => roundOf (redRounds i (s.groupPosOf h i)) b f.offset.toNat with
      | none => s
      | some (k, j) =>
        let q := s.redRun h e
        let s := s.setRed h e { q with early := q.early ++ [(k, j, p)], budget := q.budget || !q.started }
        if (s.herd h).active then State.itemEnd h (State.redGo h e i (redFuel i) s) else s

/-! ## Boundaries (R306, R311, R313) -/

/-- Every frame of an item that this unit sent has been acknowledged (R307). -/
def State.redAcked (s : State) (h : HerdId) (e : Nat) : Bool :=
  allDims.all fun d =>
    !((s.dimAt d).queue.any fun o => o.type = 2 && o.herd == h && o.item.toNat = e)
      && !((s.dimAt d).held.any fun q => q.frame.type = 2 && q.herd == h && q.frame.item.toNat = e)
/-- Flip the carry selectors of the slots whose other copy was written (R311). -/
def State.flipCarries (s : State) (h : HerdId) : State :=
  let s := (s.herd h).written.eraseDups.foldl (fun s c =>
    match s.redItem h c.1 with
    | none => s
    | some i =>
      let (s, _, sel) := s.selector h i
      (s.wr h i.cbuf (leBytes 8 (sel ^^^ 2 ^ c.2))).1) s
  s.modHerd h fun x => { x with written := [] }
/-- Append one entry to the ledger (Table 10.4). -/
def State.appendLedger (s : State) (h : HerdId) (step item action : Nat) : State :=
  let x := s.herd h
  let (s, _) := s.wr h (x.ledgerBase.toNat + 16 * x.ledgerCount.toNat)
    (leBytes 8 (step % 2 ^ 48) ++ leBytes 8 (item % 2 ^ 24 + action * 2 ^ 24))
  s.modHerd h fun y => { y with ledgerCount := y.ledgerCount + 1 }
/-- Append the step's pending entries in ascending item order (R313); `t` is the step. -/
def State.flushLedger (s : State) (h : HerdId) (t : Nat) : State :=
  let x := s.herd h
  let l := (x.pendLedger.foldl (fun (q : Tbl Nat) e => q.set 0 e.1 (e.2.toNat + 1)) {}).entries
  let s := l.foldl (fun s e => s.appendLedger h t e.1 (e.2 - 1)) s
  let drop := l.any fun e => e.2 != 1
  s.modHerd h fun y =>
    { y with pendLedger := [], run := y.run.map fun (q : Run) => { q with dropped := q.dropped || drop } }

end Sys2Proof.Machine
end

