-- ==== Sys2Proof/Machine/Formation.lean ====
section
/-!
DEFINITION. Request records: formation of secure herds and revocation by a party (R356 to R359, R451, Tables 12.3 to 12.5).
-/
namespace Sys2Proof.Machine

/-- A request ends with RESULT and DETAIL. -/
def State.requestEnd (s : State) (st : Status) (detail : W32) : State :=
  { s with tahr := { s.tahr with request := none, reqBusy := false, reqResult := st, reqDetail := detail } }
/-- HERD of a record. -/
def recHerd (r : List Byte) : HerdId := ⟨fieldLe r 5 1 % 32, Nat.mod_lt _ (by decide)⟩
/-- n of a FORM record. -/
def recParties (r : List Byte) : Nat := bits (fieldLe r 4 4) 13 3 + 1
/-- A write of GO (R357, Table 12.15): Tahr takes the record; an unknown record is answered at once. -/
def State.requestGo (s : State) (who : Who) : State :=
  if s.tahr.reqBusy then s.lockedWrite who 0x0005_0108
  else
    let a := s.tahr.reqAddr.toNat
    let head := s.hostRead a 64
    let kind := fieldLe head 4 1
    let rec_ := if kind = 1 then s.hostRead a (64 + 1792 * recParties head) else head
    let s := { s with tahr := { s.tahr with reqBusy := true, reqHerd := BitVec.ofNat 5 (recHerd head).val, reqDetail := 0
                                            request := some { bytes := rec_ } } }
    if fieldLe head 0 4 != 0x46564652 then s.requestEnd stCfgInvalid 0
    else if kind != 1 && kind != 2 then s.requestEnd stCfgInvalid 4
    else s
/-- TAHR_REQ_GO. -/
def execTahrReqGo (hostData : HostData) (s : State) : Out :=
  .next (let s := s.hostPlace hostData; if s.reach .pf then s.requestGo .pf else s)

/-! ## Formation -/

/-- Bytes [a, b) of a record are not all zero. -/
def dirty (r : List Byte) (a b : Nat) : Bool := (sliceBytes r a (b - a)).any (· != 0)
/-- The first field of a FORM record that breaks Table 12.3 or Table 12.4. -/
def formAt (r : List Byte) : Option Nat :=
  let w := fieldLe r 4 4
  let n := recParties r
  if (bit w 16 && n < bits w 17 3 + 1) || n ≤ bits w 20 3 || bits w 23 9 != 0 then some 4
  else if fieldLe r 14 2 != 0 then some 8
  else if 2 ^ 15 ≤ fieldLe r 16 4 then some 0x10
  else if dirty r 0x14 0x18 then some 0x14
  else if dirty r 0x18 0x20 then some 0x18
  else if dirty r 0x20 0x40 then some 0x20
  else (List.range n).findSome? fun i =>
    let o := 64 + 1792 * i
    if fieldLe r o 4 != i then some o
    else if dirty r (o + 4) (o + 0x20) then some (o + 4)
    else if dirty r (o + 0x6D0) (o + 0x700) then some (o + 0x6D0)
    else none
/-- The field that R353 refuses. -/
def State.formRefused (s : State) (h : HerdId) (groups : W48) (span : BitVec 15) : Option Nat :=
  if s.herdExists h then some 4
  else if s.createRefused h groups 0 then some 8
  else if s.createRefused h groups span then some 0x10
  else none
/-- The contribution of party `i` (R356): none when its AUTH check or its GCM open fails. -/
def State.partySecret (s : State) (r : List Byte) (i : Nat) : Option (List Byte) :=
  let head := r.take 64
  let o := sliceBytes r (64 + 1792 * i) 1792
  let ss := bytes256 (kemDecaps (s.slot 11).secret (sliceBytes o 0x60 1568))
  let prk := hkdfExtract (sliceBytes o 0x40 32) ss
  if hmac (hkdfExpand prk (ascii "FV20-PARTY-AUTH" ++ leBytes 1 i)) (head ++ o.take 0x6B0) != sliceBytes o 0x6B0 32 then none
  else gcmOpen (hkdfExpand prk (ascii "FV20-PARTY-WRAP" ++ leBytes 1 i)) (List.replicate 12 0)
    (head ++ sliceBytes o 0x20 32) (sliceBytes o 0x680 32) (sliceBytes o 0x6A0 16)
/-- pk of a party from its contribution. -/
def partyKey (c : List Byte) (i : Nat) : List Byte :=
  hkdfExpand (hkdfExtract (ascii "FV20-PARTY") c) (ascii "FV20-PARTY-KEY" ++ leBytes 1 i)
/-- kc from the contributions. -/
def coalitionKey (n : Nat) (policy : Bool) (k : Nat) (cs : List (List Byte)) : List Byte :=
  hkdfExpand (hkdfExtract (sha256 (ascii "FV20-COALITION" ++ leBytes 1 n ++ leBytes 1 (b2n policy) ++ leBytes 1 k)) cs.flatten)
    (ascii "FV20-COALITION-KEY")
/-- ak of a party key. -/
def approvalKey (pk : List Byte) : List Byte := hkdfExpand pk (ascii "FV20-APPROVE")
/-- MEAS of an offer. -/
def recMeas (r : List Byte) (i : Nat) : List Byte := sliceBytes r (64 + 1792 * i + 0x20) 32
/-- A formation whose checks have passed (R358): keys stored, FNONCE drawn, the `HERD_CREATE` issued. -/
def State.formHerd (s : State) (r : List Byte) (cs : List (List Byte)) : State :=
  let w := fieldLe r 4 4
  let n := recParties r
  let h := recHerd r
  let policy := bit w 16
  let free := s.freeSlots
  let pks := free.take n
  let kcAt := free.getD n 2
  let s := (pks.zip (cs.zipIdx)).foldl (fun s e =>
    s.setSlot e.1 { herdSlot h 7 with valid := true, derived := true, party := BitVec.ofNat 3 e.2.2
                                      secret := partyKey e.2.1 e.2.2 }) s
  let s := s.setSlot kcAt { herdSlot h 8 with valid := true, derived := true
                                              secret := coalitionKey n policy (bits w 17 3 + 1) cs }
  let (s, fn) := s.draw
  let f : Formation := { n := n, quorum := policy, kM1 := BitVec.ofNat 3 (bits w 17 3), lead := BitVec.ofNat 3 (bits w 20 3)
                         meas := recMeas r 0, fnonce := fn, seq := 0, pkSlots := pks, kcSlot := kcAt }
  let o : Order := { src := .tahr, herd := h, tag := 1, gen := (s.srcRing .tahr).gen
                     op := .herdCreate (BitVec.ofNat 48 (fieldLe r 8 6)) (BitVec.ofNat 15 (fieldLe r 16 2)) }
  ({ s with tahr := { s.tahr with form := some (h, f), orders := s.tahr.orders ++ [o]
                                  request := some { bytes := r, issued := true } } }.admitOrder .tahr).icNote
/-- The answer to a FORM record (R357, R358, R422, R451, Table 15.1). -/
def State.answerForm (s : State) (r : List Byte) : State :=
  let h := recHerd r
  let n := recParties r
  if s.lc.rights != 0 then s.requestEnd stNotPermitted 0xFFFF_FF02
  else if s.serow.tampered || s.lcState != 2 then s.requestEnd stNotPermitted 0
  else match formAt r with
  | some o => s.requestEnd stCfgInvalid (BitVec.ofNat 32 o)
  | none => match s.formRefused h (BitVec.ofNat 48 (fieldLe r 8 6)) (BitVec.ofNat 15 (fieldLe r 16 2)) with
  | some o => s.requestEnd stCfgInvalid (BitVec.ofNat 32 o)
  | none =>
    if s.freeSlots.length < n + 1 then s.requestEnd stCfgInvalid 0
    else
      let cs := (List.range n).map fun i => s.partySecret r i
      match cs.zipIdx.find? fun e => e.1.isNone with
      | some e => s.requestEnd stNotPermitted (BitVec.ofNat 32 e.2)
      | none =>
        match (List.range n).find? fun i => recMeas r i != recMeas r 0 with
        | some i => s.requestEnd stMeasMismatch (BitVec.ofNat 32 i)
        | none => s.formHerd r (cs.filterMap id)
/-- FORM: Tahr answers the record it has read. While the entropy source fails, FNONCE cannot be drawn, and the record waits
(R418). -/
def execForm (s : State) : Out :=
  match s.tahr.request with
  | some r => s.ifOnly (fieldLe r.bytes 4 1 = 1 && s.tahr.st = 3 && !r.issued && !s.tahr.entropyBad) fun s => s.answerForm r.bytes
  | none => .next s

/-! ## Revocation by a party (R359) -/

/-- TOKEN is right for the secure herd that holds HERD and its party's key: one that is being revoked takes no harm from it
(Table 12.11). -/
def State.tokenOk (s : State) (r : List Byte) : Bool :=
  let x := s.herd (recHerd r)
  let p := fieldLe r 0x14 1 % 8
  let k := fun (f : Formation) => s.slot (f.pkSlots.getD p 2)
  x.st != .absent && x.form.any fun f =>
    p < f.n && (k f).valid && hmac (approvalKey (k f).secret) (ascii "FV20-REVOKE" ++ bytes256 f.fnonce) == sliceBytes r 0x20 32
/-- The answer to a PARTY_REVOKE record: Tahr issues `HERD_REVOKE`, or nothing changes. -/
def State.answerRevoke (s : State) (r : List Byte) : State :=
  if !s.tokenOk r then s.requestEnd stNotPermitted 0
  else
    let o : Order := { src := .tahr, herd := recHerd r, tag := 2, op := .herdRevoke, gen := (s.srcRing .tahr).gen }
    ({ s with tahr := { s.tahr with orders := s.tahr.orders ++ [o]
                                    request := some { bytes := r, issued := true } } }.admitOrder .tahr).icNote
/-- PARTY_REVOKE: Tahr answers the record it has read. -/
def execPartyRevoke (s : State) : Out :=
  match s.tahr.request with
  | some r => s.ifOnly (fieldLe r.bytes 4 1 = 2 && s.tahr.st = 3 && !r.issued) fun s =>
      s.answerRevoke r.bytes
  | none => .next s

end Sys2Proof.Machine
end

