-- ==== Sys2Proof/Machine/Checkpoint.lean ====
section
/-!
DEFINITION. Checkpoints (R364 to R368, Tables 12.7 and 12.8): the sections of a seal, the export policy and its approvals
(R362, R363), the container's bytes, and the restore.
-/
namespace Sys2Proof.Machine

/-- A section of a container: KIND, address, length and item index. -/
structure Sect where
  kind : Nat
  addr : Nat
  bytes : Nat
  item : Nat := 0
deriving DecidableEq, Repr

/-- Bytes of a data chunk. -/
def chunkBytes : Nat := 1048576
/-- Chunks of a section. -/
def Sect.chunks (x : Sect) : Nat := cdiv x.bytes chunkBytes
/-- Bytes of a container of these sections (R366, R367). -/
def containerSize (l : List Sect) : Nat :=
  128 + 32 * l.length + 16 + (l.map fun x => x.bytes + 16 * x.chunks).sum

/-! ## Sections (R364, R365) -/

/-- The seal list at a host address: its bytes and its sections, if it is well formed. -/
def State.sealList (s : State) (a : Nat) : List Byte × Option (List Sect) :=
  let hd := s.hostRead a 64
  let n := fieldLe hd 0 8 % 128
  let raw := s.hostRead a (64 + 16 * min n 64)
  let l := (List.range n).map fun k =>
    ({ kind := 1, addr := fieldLe raw (64 + 16 * k) 6, bytes := fieldLe raw (72 + 16 * k) 5 } : Sect)
  (raw, if n ≤ 64 && l.all fun x => x.bytes != 0 && x.bytes % 64 = 0 then some l else none)
/-- The sections that AUTO adds, all from the present tense. -/
def autoSects (x : Herd) (m : Sentence) : List Sect :=
  let p := x.present
  (if x.healthValid then [({ kind := 2, addr := lotAddr x.healthLot.toNat 0, bytes := lotBytes } : Sect)] else [])
  ++ (m.dcls.zipIdx.flatMap fun e =>
      let i := e.1
      let n := dclElems i
      [({ kind := 3, addr := tensed i i.wBase p, bytes := elemBytes i.wFmt * n, item := e.2 } : Sect),
       { kind := 3, addr := tensed i i.mBase p, bytes := elemBytes i.sFmt * n, item := e.2 },
       { kind := 3, addr := tensed i i.vBase p, bytes := elemBytes i.sFmt * n, item := e.2 }]
      ++ (if i.sparse then
          [({ kind := 3, addr := tensed i i.lastBase p, bytes := 8 * i.rows, item := e.2 } : Sect),
           { kind := 4, addr := i.maskBase, bytes := 2 * maskBytes i, item := e.2 }] else []))
  ++ (m.reds.zipIdx.filterMap fun e =>
      if carries e.1 then some ({ kind := 5, addr := e.1.cbuf, bytes := carryBytes m.carryD e.1.n, item := e.2 } : Sect)
      else none)
  ++ (if x.ledgerCount = 0 then []
      else [({ kind := 6, addr := x.ledgerBase.toNat, bytes := 16 * x.ledgerCount.toNat } : Sect)])
  ++ [{ kind := 7, addr := 0, bytes := 16 }]
/-- The party of a section that lies wholly in windows of one PARTY tag. -/
def State.sectParty (s : State) (x : Sect) : Option Nat :=
  if x.kind = 7 then none
  else match s.placesOf x.addr x.bytes with
    | .win w o :: r =>
      let t := (s.win w).tag.toNat
      if t < 8 && ((Place.win w o :: r).all fun p => match p with | .win v _ => (s.win v).tag.toNat = t | _ => false) then some t
      else none
    | _ => none
/-- A section touches a PARTY window. -/
def State.sectTouches (s : State) (x : Sect) : Bool := x.kind != 7 && (s.tagsOf x.addr x.bytes).any fun t => t.toNat < 8
/-- The class of a seal (R366): none when it mixes PARTY data with anything else. CLASS 0 OPEN, 1 PARTY, 2 COALITION. -/
def State.sealClass (s : State) (h : HerdId) (l : List Sect) : Option (Nat × Nat) :=
  let ps := l.map s.sectParty
  match ps with
  | some p :: _ => if (s.herd h).secure && ps.all (· == some p) then some (1, p) else none
  | _ => if (s.herd h).secure && l.any s.sectTouches then none else some (if (s.herd h).secure then 2 else 0, 0)
/-- Every section lies in an allocation of the herd. -/
def State.sectsHeld (s : State) (h : HerdId) (l : List Sect) : Bool :=
  l.all fun x => x.kind = 7 || s.held h x.addr x.bytes

/-! ## Approvals (R362, R363) -/

/-- pk of a party. -/
def State.partyPk (s : State) (h : HerdId) (p : Nat) : List Byte :=
  (((s.herd h).form.bind fun f => f.pkSlots[p]?).map fun n => (s.slot n).secret).getD []
/-- kc of a coalition. -/
def State.herdKc (s : State) (h : HerdId) : List Byte := ((s.herd h).form.map fun f => (s.slot f.kcSlot).secret).getD []
/-- The token of party `p` for a seal. -/
def State.exportToken (s : State) (h : HerdId) (p mode recipient : Nat) (list : List Byte) : List Byte :=
  let f := (s.herd h).form
  hmac (approvalKey (s.partyPk h p)) (ascii "FV20-EXPORT" ++ bytes256 ((f.map (·.fnonce)).getD 0)
    ++ leBytes 8 ((f.map (·.seq.toNat)).getD 0) ++ leBytes 1 mode ++ leBytes 1 recipient ++ sha256 list)
/-- The parties whose approval the record holds. -/
def State.approvers (s : State) (h : HerdId) (rec : List Byte) (mode recipient : Nat) (list : List Byte) : List Nat :=
  (List.range (s.herd h).parties).filter fun p =>
    bit (fieldLe rec (64 * p) 1) 0 && sliceBytes rec (64 * p + 0x20) 32 == s.exportToken h p mode recipient list
/-- A seal of a class needs approvals. -/
def needsApproval (cls mode : Nat) : Bool := cls != 0 && mode != 0
/-- The approvals suffice (Table 12.6). -/
def State.approved (s : State) (h : HerdId) (cls party mode recipient : Nat) (rec list : List Byte) : Bool :=
  let a := s.approvers h rec mode recipient list
  if !needsApproval cls mode then true
  else if cls = 1 then a.contains party
  else (s.herd h).policy && (s.herd h).kM1 < a.length

/-! ## The container (R367) -/

/-- The container key of a class, when it has one. -/
def State.sealKey (s : State) (h : HerdId) (cls party : Nat) (cnonce : List Byte) : Option (List Byte) :=
  if cls = 0 then none
  else some (hkdfExpand (if cls = 1 then s.partyPk h party else s.herdKc h) (ascii "FV20-SEAL" ++ cnonce))
/-- The IV of a chunk. -/
def sealIv (sect chunk : Nat) : List Byte := beBytes 4 sect ++ beBytes 8 chunk
/-- One tagged piece: ciphertext and tag, or the data in clear and its CRC-32C. -/
def sealPiece (key : Option (List Byte)) (iv aad d : List Byte) : List Byte × List Byte :=
  match key with
  | some k => gcmSeal k iv aad d
  | none => (d, leBytes 4 (crc32c d).toNat ++ List.replicate 12 0)
/-- Open a tagged piece. -/
def openPiece (key : Option (List Byte)) (iv aad d tag : List Byte) : Option (List Byte) :=
  match key with
  | some k => gcmOpen k iv aad d tag
  | none => if tag == leBytes 4 (crc32c d).toNat ++ List.replicate 12 0 then some d else none
/-- The tag over header and table. -/
def tableTag (key : Option (List Byte)) (head table : List Byte) : List Byte :=
  match key with
  | some k => (gcmSeal k (sealIv 0xFFFF_FFFF 0) (head ++ table) []).2
  | none => leBytes 4 (crc32c (head ++ table)).toNat ++ List.replicate 12 0
/-- The header (Table 12.8). -/
def sealHead (cls party : Nat) (auto : Bool) (step n : Nat) (meas cnonce : List Byte) : List Byte :=
  leBytes 4 0x46564350 ++ leBytes 4 (1 + cls * 2 ^ 16 + party * 2 ^ 18 + b2n auto * 2 ^ 21) ++ leBytes 8 step
    ++ leBytes 2 n ++ List.replicate 14 0 ++ sliceBytes meas 0 32 ++ sliceBytes cnonce 0 32 ++ List.replicate 32 0
/-- The section table. -/
def sealTable (l : List Sect) : List Byte :=
  l.flatMap fun x => leBytes 8 x.kind ++ leBytes 8 x.addr ++ leBytes 8 x.bytes ++ leBytes 8 x.item
/-- The health lot as the health unit has it: what the herd wrote over RO words has no effect (R132). -/
def State.overRo (s : State) (h : HerdId) (d : List Byte) : List Byte :=
  d.zipIdx.map fun e =>
    if isRoOff e.2 then BitVec.ofNat 8 ((s.roWord h (e.2 / 4 * 4)).toNat / 256 ^ (e.2 % 4)) else e.1
/-- The COMMIT section. -/
def Herd.commitSect (x : Herd) : List Byte :=
  leBytes 8 (x.committed.toNat + b2n x.commitValid * 2 ^ 48 + b2n x.present * 2 ^ 49) ++ leBytes 8 x.ledgerCount.toNat
/-- The data of a section. -/
def State.sectData (s : State) (h : HerdId) (x : Sect) : State × Status × List Byte :=
  if x.kind = 7 then (s, stOK, (s.herd h).commitSect)
  else
    let (s, st, d) := s.rd h x.addr x.bytes
    (s, st, if x.kind = 2 then s.overRo h d else d)
/-- The chunks of a section, each followed by its tag. -/
def sealChunks (key : Option (List Byte)) (head : List Byte) (sect : Nat) (d : List Byte) : List Byte :=
  (List.range (cdiv d.length chunkBytes)).flatMap fun k =>
    let p := sealPiece key (sealIv sect k) head ((d.drop (k * chunkBytes)).take chunkBytes)
    p.1 ++ p.2
/-- Every section in order. -/
def State.sealAll (h : HerdId) (key : Option (List Byte)) (head : List Byte) :
    List (Sect × Nat) → State → State × Status × List Byte
  | [], s => (s, stOK, [])
  | (x, k) :: r, s =>
    let (s, st, d) := s.sectData h x
    if st != stOK then (s, st, [])
    else let (s, st, t) := State.sealAll h key head r s; (s, st, sealChunks key head k d ++ t)

/-! ## The orders -/

/-- The herd's Sentence is in a state in which no checkpoint runs (R364). -/
def Herd.noCheckpoint (x : Herd) : Bool := x.seq == .loading || x.busy
/-- MEAS of a container. -/
def Herd.sealMeas (x : Herd) : List Byte :=
  match x.form with
  | some f => f.meas
  | none => (x.sentence.map (·.meas)).getD []
/-- The export sequence advances after a seal that needed approvals. -/
def State.bumpSeq (s : State) (h : HerdId) : State :=
  s.modHerd h fun x => { x with form := x.form.map fun (f : Formation) => { f with seq := f.seq + 1 } }
/-- `CHECKPOINT_SEAL`. -/
def State.seal_ (s : State) (ref : OrderRef) (h : HerdId) (list dst dstBytes mode recipient : Nat) (auto : Bool)
    (approvals : Nat) : State :=
  let x := s.herd h
  let (raw, own) := s.sealList list
  match own, (if auto then x.sentence.map (autoSects x) else some []) with
  | some own, some more =>
    let l := own ++ more
    if mode = 3 || dst % 64 != 0 || x.noCheckpoint || (auto && x.seq == .empty) then s.done ref stCfgInvalid
    else if !s.sectsHeld h l then s.done ref stNounBounds
    else match s.sealClass h l with
    | none => s.done ref stCfgInvalid
    | some (cls, party) =>
      if mode = 1 && cls != 0 && x.parties ≤ recipient then s.done ref stCfgInvalid
      else if !s.approved h cls party mode recipient (s.hostRead approvals 512) raw then s.done ref stNotPermitted
      else if s.protected_ h && (s.ideAt (ideOf h)).st != .secure then s.done ref stKeyRetired
      else if dstBytes < containerSize l then s.complete ref stCfgInvalid 0 (BitVec.ofNat 64 (containerSize l))
      else
        let (hcls, hparty) := if cls = 0 || mode = 2 then (0, 0) else if mode = 1 then (1, recipient) else (cls, party)
        let (s, cnonce) := if hcls = 0 then (s, List.replicate 32 0) else let (s, v) := s.draw; (s, bytes256 v)
        let key := s.sealKey h hcls hparty cnonce
        let head := sealHead hcls hparty auto x.committed.toNat l.length x.sealMeas cnonce
        let table := sealTable l
        let (s, st, d) := State.sealAll h key head l.zipIdx s
        if st != stOK then (s.hostSpoil dst (containerSize l)).done ref st
        else
          let s := s.hostWrite dst (head ++ table ++ tableTag key head table ++ d)
          (if needsApproval cls mode then s.bumpSeq h else s).done ref stOK
  | _, _ => s.done ref stCfgInvalid

/-- The sections that a container's table lists. -/
def tableSects (m : List Byte) : List Sect :=
  (List.range (fieldLe m 0x10 2)).map fun k =>
    let o := 128 + 32 * k
    { kind := fieldLe m o 1, addr := fieldLe m (o + 8) 6, bytes := fieldLe m (o + 16) 5, item := fieldLe m (o + 24) 8 }
/-- Some byte of a range of a container is not zero. -/
def nonZeroAt (m : List Byte) (o k : Nat) : Bool := (sliceBytes m o k).any (· != 0)
/-- The header or the table is malformed. -/
def containerBad (m : List Byte) (bytes : Nat) : Bool :=
  let w := fieldLe m 4 4
  let l := tableSects m
  bytes < 144 || fieldLe m 0 4 != 0x46564350 || w % 2 ^ 16 != 1 || bits w 16 2 = 3 || w / 2 ^ 22 != 0
    || nonZeroAt m 14 2 || nonZeroAt m 18 14 || nonZeroAt m 0x60 32 || bytes < containerSize l
    || l.zipIdx.any fun e =>
      let o := 128 + 32 * e.2
      e.1.kind = 0 || 7 < e.1.kind || e.1.bytes = 0 || (e.1.kind = 7 && e.1.bytes != 16) || nonZeroAt m (o + 1) 7
        || nonZeroAt m (o + 14) 2 || nonZeroAt m (o + 21) 3
/-- Where the data of each section starts in a container. -/
def dataAt : Nat → List Sect → List (Sect × Nat)
  | _, [] => []
  | o, x :: r => (x, o) :: dataAt (o + x.bytes + 16 * x.chunks) r
/-- Write a piece of a section back; a health lot brings its RO words with it. -/
def State.putSect (s : State) (h : HerdId) (x : Sect) (off : Nat) (d : List Byte) : State × Status :=
  if x.kind = 7 then (s, stOK)
  else
    let (s, st) := s.wr h (x.addr + off) d
    if x.kind != 2 || st != stOK then (s, st)
    else
      let lot := (x.addr - storeBase) / lotBytes
      (((List.range (d.length / 4)).filter fun k => isRoOff (off + 4 * k)).foldl (fun s k =>
        { s with healthRo := s.healthRo.set 0 (roKey lot (off + 4 * k)) (BitVec.ofNat 32 (fieldLe d (4 * k) 4)) }) s, stOK)
/-- What a piece of a section wrote becomes undefined, RO words of a health lot included. -/
def State.spoilSect (s : State) (h : HerdId) (x : Sect) (off n : Nat) : State :=
  let s := s.spoil h (x.addr + off) n
  if x.kind != 2 then s
  else
    let lot := (x.addr - storeBase) / lotBytes
    ((List.range (n / 4)).filter fun k => isRoOff (off + 4 * k)).foldl (fun s k =>
      let (s, l) := s.freeBytes 4
      { s with healthRo := s.healthRo.set 0 (roKey lot (off + 4 * k)) (BitVec.ofNat 32 (leNat l)) }) s
/-- Write chunks until one fails; what was written by then is listed. -/
def State.putChunks (h : HerdId) (key : Option (List Byte)) (head m : List Byte) :
    List (Sect × Nat × Nat × Nat) → List (Sect × Nat × Nat) → State → State × Status × List (Sect × Nat × Nat)
  | [], w, s => (s, stOK, w)
  | (x, sect, k, o) :: r, w, s =>
    let n := min chunkBytes (x.bytes - k * chunkBytes)
    match openPiece key (sealIv sect k) head (sliceBytes m o n) (sliceBytes m (o + n) 16) with
    | none => (s, stIntegrityFail, w)
    | some d =>
      let (s, st) := s.putSect h x (k * chunkBytes) d
      let w := if x.kind = 7 then w else (x, k * chunkBytes, n) :: w
      if st != stOK then (s, st, w) else State.putChunks h key head m r w s
/-- The COMMIT section of a container, if it has one. -/
def commitData (key : Option (List Byte)) (head m : List Byte) (l : List (Sect × Nat)) : Option (List Byte) :=
  ((l.zipIdx).find? fun e => e.1.1.kind = 7).bind fun e =>
    openPiece key (sealIv e.2 0) head (sliceBytes m e.1.2 16) (sliceBytes m (e.1.2 + 16) 16)
/-- `CHECKPOINT_RESTORE` (R368). A non-secure herd has no key for a PARTY or COALITION container: check 2 refuses it. -/
def State.restore (s : State) (ref : OrderRef) (h : HerdId) (src bytes : Nat) : State :=
  let x := s.herd h
  let m := s.hostRead src bytes
  let w := fieldLe m 4 4
  let cls := bits w 16 2
  let party := bits w 18 3
  let head := m.take 128
  let l := tableSects m
  let table := sliceBytes m 128 (32 * l.length)
  let key := s.sealKey h cls party (sliceBytes m 0x40 32)
  let meas := sliceBytes m 0x20 32
  if x.noCheckpoint then s.done ref stCfgInvalid
  else if s.protected_ h && (s.ideAt (ideOf h)).st != .secure then s.done ref stKeyRetired
  else if containerBad m bytes then s.done ref stCfgInvalid
  else if (cls = 0 || x.secure) && ((cls = 1 && x.parties ≤ party)
      || tableTag key head table != sliceBytes m (128 + 32 * l.length) 16) then s.done ref stCfgInvalid
  else if (cls = 0) == x.secure then s.done ref stNotPermitted
  else if x.secure && digest ((x.form.map (·.meas)).getD []) != meas then s.done ref stMeasMismatch
  else if bit w 21 && (x.seq == .empty || (x.sentence.map fun q => digest q.meas) != some meas) then s.done ref stCfgInvalid
  else if !s.sectsHeld h l || (cls = 1 && l.any fun q => s.sectParty q != some party) then s.done ref stNounBounds
  else
    let at_ := dataAt (128 + 32 * l.length + 16) l
    let pieces := (at_.zipIdx).flatMap fun e => (List.range e.1.1.chunks).map fun k =>
      (e.1.1, e.2, k, e.1.2 + k * (chunkBytes + 16))
    let (s, st, wrote) := State.putChunks h key head m pieces [] s
    if st != stOK then (wrote.foldl (fun s r => s.spoilSect h r.1 r.2.1 r.2.2) s).done ref st
    else
      let s := match commitData key head m at_ with
        | some d =>
          let v := fieldLe d 0 8
          s.modHerd h fun y => { y with committed := BitVec.ofNat 48 v, commitValid := bit v 48, present := bit v 49
                                        ledgerCount := BitVec.ofNat 20 (fieldLe d 8 8) }
        | none => s
      s.done ref stOK

end Sys2Proof.Machine
end

