-- ==== Sys2Proof/Machine/LifeCycle.lean ====
section
/-!
DEFINITION. Life cycle and debug (chapter 15): certificates, rights, transitions and the fuse writes they and an SVN raise
make (R410, R411, R438 to R452).
-/
namespace Sys2Proof.Machine

/-! ## Fuse writes (R411, R442 to R446) -/

/-- The hold-up condition: P56 above 52 V and a HOLDUP of at least 20 ms (R442). -/
def State.powerOk (s : State) : Bool := 5200 < s.serow.p56.toNat && 200 ≤ s.serow.holdup.toNat
/-- Start the fuse write that is due, while the hold-up condition holds and none is in progress. A sequence and an SVN raise run
one at a time: the second waits for the first to end (Table 15.9). -/
def State.fusePump (s : State) : State :=
  if !s.pins.pwrGood || !s.powerOk || s.lc.svnWriting then s
  else if s.tahr.st = 3 && s.minSvn < s.tahr.raiseTo && (s.lc.seq.isNone || s.lc.raising) then
    { s with lc := { s.lc with svnWriting := true, raising := true } }
  else match s.lc.seq with
  | some q => if q.writing || q.draws then s else { s with lc := { s.lc with seq := some { q with writing := true } } }
  | none => s
/-- A fuse word with field `k` given a value. -/
def fuseSet (w : W64) (k : Nat) (v : BitVec 16) : W64 := w ||| (v.setWidth 64 <<< (16 * (k - 1)))
/-- The kill bits a transition to target `k` blows (Table 15.3). -/
def killMask (k : Nat) : BitVec 4 := if k = 4 then 0xF else (1 : BitVec 4) <<< (k - 1)
/-- The lowest unblown SVN bit is blown. -/
def blowSvn (w : W64) : W64 :=
  match (List.range 64).find? fun i => !w.getLsbD i with
  | some i => w ||| ((1 : W64) <<< i)
  | none => w
/-- A DEBUG STATUS answer (Table 15.5). -/
def State.debugStatus (s : State) (code : Nat) : State := { s with reply := leBytes 8 0x82 ++ leBytes 4 code }
/-- Every right is closed; what HALT halted resumes (R452). -/
def State.closeRights (s : State) : State := { s with lc := { s.lc with rights := 0, expiry := 0, haltHerd := none } }
/-- The decoded state decides the boot (R435, R436): HALTED with FAIL 8, or WAIT_IMAGE with the IDENTITY keys derived;
MAKER opens every right. An image request goes upstream from a unit that takes images from the string (R484). -/
def State.romDecide (s : State) : State :=
  if 4 ≤ s.lcState then { s with tahr := { s.tahr with st := 4, fail := 8 } }
  else
    let dk := s.devidKey
    let s := (s.setSlot 0 { valid := true, type := 1, derived := true, secret := (devidTree dk 0).secret }).setSlot 1
      { valid := true, type := 4, derived := true, secret := hkdfExpand dk (ascii "FV20-VENDOR") }
    let s := if s.pins.bootSrcString && s.tb.light then s.askImage else s
    { s with tahr := { s.tahr with st := 1 }, lc := { s.lc with rights := if s.lcState = 0 then 0x3F else 0 } }
/-- Every slot is zeroized, and every working key with it: those of the IDE streams and of the hops (R414, R445). -/
def State.zeroAll (s : State) : State :=
  let s := (List.finRange 33).foldl (fun s k => s.streamDown k) s
  { allDims.foldl (fun s d => s.dropHop d) s with slots := {} }
/-- The STATE field reads back written (R445, R446). -/
def State.fuseEnd (s : State) (q : FuseSeq) : State :=
  if q.resumed then
    { s with lc := { s.lc with seq := none, resumed := true } }.romDecide
  else
    let s := s.zeroAll
    let s := { s with lc := { s.lc with seq := none, reboot := true }, tahr := { s.tahr with st := 4 } }
    s.closeRights.debugStatus 0
/-- The write in progress and its read-back end (R443). -/
def State.fuseWritten (s : State) : State :=
  if s.lc.svnWriting then
    let s := { s with lc := { s.lc with svnWriting := false, svnFuse := blowSvn s.lc.svnFuse } }
    { s with lc := { s.lc with raising := decide (s.minSvn < s.tahr.raiseTo) } }
  else match s.lc.seq with
  | some q =>
    let next := { s.lc with seq := some { q with stage := q.stage + 1, writing := false } }
    if q.stage = 0 then { s with lc := { next with fuseIntent := fuseSet s.lc.fuseIntent q.k 0xC3A5 } }
    else if q.stage = 1 then { s with lc := { next with kill := s.lc.kill ||| killMask q.k } }
    else { s with lc := { s.lc with fuseState := fuseSet s.lc.fuseState q.k 0x5A3C } }.fuseEnd q
  | none => s
/-- A fuse write is in progress. -/
def State.fuseBusy (s : State) : Bool := s.lc.svnWriting || (s.lc.seq.map (·.writing)).getD false
/-- FUSE_WRITE_DONE (R443, R411). -/
def execFuseWriteDone (s : State) : Out := s.ifOnly s.fuseBusy fun s => s.fuseWritten.fusePump
/-- The low `n` set bits of a field, in ascending order (R438). -/
def fusePrefix (v : BitVec 16) (n : Nat) : BitVec 16 :=
  ((List.range 16).foldl (fun (a : BitVec 16 × Nat) i =>
    if v.getLsbD i && a.2 < n then (a.1 ||| ((1 : BitVec 16) <<< i), a.2 + 1) else a) (0, 0)).1
/-- Power is lost during a write: the bits blown so far are a FREE VALUE (R438, R440, Table 15.4). -/
def State.fuseCut (s : State) : State :=
  if !s.fuseBusy then s
  else
    let (s, f) := s.freeBytes 1
    let n := (f.getD 0 0).toNat % 9
    if s.lc.svnWriting then
      if n % 2 = 1 then { s with lc := { s.lc with svnFuse := blowSvn s.lc.svnFuse } } else s
    else match s.lc.seq with
    | some q =>
      if q.stage = 0 then { s with lc := { s.lc with fuseIntent := fuseSet s.lc.fuseIntent q.k (fusePrefix 0xC3A5 n) } }
      else if q.stage = 1 then
        { s with lc := { s.lc with kill := s.lc.kill ||| (killMask q.k &&& BitVec.ofNat 4 (2 ^ n - 1)) } }
      else { s with lc := { s.lc with fuseState := fuseSet s.lc.fuseState q.k (fusePrefix 0x5A3C n) } }
    | none => s
/-- The pending intent (R446): the highest k whose INTENT field is not blank while its STATE field is blank. -/
def State.pendingIntent (s : State) : Option Nat :=
  [4, 3, 2, 1].find? fun k => fuseField s.lc.fuseIntent k != 0 && fuseField s.lc.fuseState k == 0

/-! ## Certificates (R448, Table 15.7) -/

/-- The signature's types and length are those of the DeviceID set (Table 14.9, check 0x5 of Table 14.3). -/
def hssShape (sig : List Byte) : Bool :=
  let be := fun o => beNat (sliceBytes sig o 4)
  sig.length = 5076 && be 0 = 1 && be 8 = 3 && be 2188 = 6 && be 2512 = 6 && be 2516 = 3 && be 2572 = 3 && be 4752 = 6
/-- The answer of R448 to a certificate of a kind, 0 when it passes; `target` is a TRANSITION's. A formation that Tahr has taken first
decides as the herd it forms (R451; DEDUCED, log entry 153). -/
def State.certCheck (s : State) (kind : Nat) (target : Nat) (cert : List Byte) : Nat :=
  let w := fieldLe cert 4 4
  let rights := fieldLe cert 0x34 4
  let body := cert.take 128
  let sig := cert.drop 128
  let bad := fieldLe cert 0 4 != 0x46564443 || bits w 0 8 != kind || bits w 19 13 != 0 || !hssShape sig
    || (sliceBytes body 0x38 72).any (· != 0)
    || (if kind = 1 then bits w 8 8 != 0 || 64 ≤ rights || (bit rights 5 && !bit rights 4) else rights != 0)
  if bad then 1
  else if !hssVerify (Config.romKey 2) body sig then 2
  else if fieldLe cert 8 8 != Config.serial.toNat || bits w 16 3 != s.lcState || sliceBytes cert 0x10 32 != bytes256 s.lc.dnonce
      || fieldLe cert 0x30 4 < s.tahr.bootCount.toNat || (kind = 2 && bits w 8 8 != target) then 3
  else if kind = 1 && (s.tahr.form.isSome || allHerds.any (fun h => s.herdExists h && (s.herd h).secure)) then 4
  else 0

/-! ## DEBUG messages (Table 15.5) -/

/-- The mailbox answers while Tahr has not halted; a SCRAPPED or INVALID unit's ROM still answers. -/
def State.debugAlive (s : State) : Bool := s.tahr.st != 4 || (4 ≤ s.lcState && !s.lc.reboot)
/-- A DEBUG message other than CHALLENGE: a SCRAPPED or INVALID unit answers REFUSED_FORMAT (R436). -/
def State.debug (s : State) (f : State → State) : Out :=
  s.doe fun s => if !s.debugAlive then s else if 4 ≤ s.lcState then s.debugStatus 1 else f s
/-- PRESENT: the certificate's rights are added. -/
def execPresent (cert : List Byte) (s : State) : Out :=
  s.debug fun s =>
    let c := s.certCheck 1 0 cert
    if c != 0 then s.debugStatus c
    else
      let ex := BitVec.ofNat 32 (fieldLe cert 0x30 4)
      let s := { s with lc := { s.lc with rights := s.lc.rights ||| BitVec.ofNat 6 (fieldLe cert 0x34 4)
                                          expiry := if s.lc.expiry < ex then ex else s.lc.expiry } }
      s.debugStatus 0
/-- CLOSE. -/
def execClose (s : State) : Out := s.debug fun s => s.closeRights.debugStatus 0
/-- A new DNONCE is drawn and every right is closed (R447). -/
def State.renewNow (s : State) : State :=
  let (s, k) := s.draw
  ({ s with lc := { s.lc with dnonce := k } }.closeRights).debugStatus 0
/-- RENEW: while the entropy source fails, the draw waits (R418). -/
def execRenew (s : State) : Out :=
  s.debug fun s => if s.tahr.entropyBad then { s with tahr := { s.tahr with renewDue := true } } else s.renewNow
/-- CHALLENGE, and every other message of a header alone (R447): `header` is its eight bytes. 0x01 is CHALLENGE, 0x03 CLOSE and
0x04 RENEW. Any other code, a PRESENT or TRANSITION without its body, or a byte 1 to 7 that is not zero, is answered
REFUSED_FORMAT. -/
def execChallenge (header : W64) (s : State) : Out :=
  let answer := leBytes 8 0x81 ++ leBytes 8 Config.serial.toNat ++ leBytes 4 s.lcState
    ++ leBytes 4 s.tahr.bootCount.toNat ++ bytes256 s.lc.dnonce
  if header = 1 then s.doe fun s => if s.debugAlive then { s with reply := answer } else s
  else if header = 3 then execClose s
  else if header = 4 then execRenew s
  else s.debug fun s => s.debugStatus 1
/-- The new DNONCE of an accepted transition is drawn, and its fuse sequence can start (R449). -/
def State.drawDnonce (s : State) (q : FuseSeq) : State :=
  let (s, n) := s.draw
  { s with lc := { s.lc with dnonce := n, seq := some { q with draws := false } } }.fusePump
/-- TRANSITION (R441 to R443, R447, R449): `target` is the word of TARGET and three zero bytes. The answer to an accepted one
comes when R445 is reached. While the entropy source fails, the draw of DNONCE waits, and the sequence with it (R418). -/
def execTransition (target : W32) (cert : List Byte) (s : State) : Out :=
  s.debug fun s =>
    let k := target.toNat
    let from_ := s.lcState
    let allowed := (k = from_ + 1 && k ≤ 3) || k = 4
    let needs := k = 1 || k = 3
    if 256 ≤ k then s.debugStatus 1
    else if s.lc.seq.isSome || !allowed then s.debugStatus 7
    else if s.anyHerd then s.debugStatus 6
    else
      let c := if needs then s.certCheck 2 k cert else 0
      if c != 0 then s.debugStatus c
      else if !s.powerOk then s.debugStatus 5
      else
        let q : FuseSeq := { k := k, stage := 0, writing := false, resumed := false, draws := needs }
        let s := { s with lc := { s.lc with seq := some q } }
        if !needs then s.fusePump else if s.tahr.entropyBad then s else s.drawDnonce q

end Sys2Proof.Machine
end

