-- ==== Sys2Proof/Machine/Boot.lean ====
section
/-!
DEFINITION. Power, boot, image transfer and verification, warm reset, Serow and the entropy source (chapters 14, 17
and 18).
-/
namespace Sys2Proof.Machine

/-! ## Power (R479, R496 to R500, R505 to R507) -/

/-- What is left without power (R479): Serow's registers, the MRAM records, the fuses and the lands. A repair whose MRAM
record was not made leaves its block fenced, and its test is due again (R20, Table 16.17); a unit that has lost its power already
keeps those. -/
def State.cold (s : State) : State :=
  let t := s.tahr
  let r := s.repair
  let due : List Test := if s.pins.pwrGood then
      r.records.map fun m => { part := m.part, status := m.status, herds := [], again := false }
    else r.tests
  let again := due.filterMap fun m => partBlock m.part
  { pending := s.pending, hostMem := s.hostMem, freeCtr := s.freeCtr
    pins := { s.pins with pwrGood := false, hot95 := false }
    hbm := ⟨s.hbm.entries.filterMap fun e =>
      if e.2.repaired = 0 then none else some (e.1, { repaired := e.2.repaired })⟩
    blocks := again.foldl (fun (b : Tbl Block) k => b.set {} k.val { fenced := true, fault := (s.block k).fault }) {}
    tahr := { recs := t.recs, bootCount := t.bootCount, devidCerts := t.devidCerts, commits := t.commits }
    serow := { s.serow with tampered := false, cause := 0, p56 := 0, holdup := 0 }
    lc := { fuseState := s.lc.fuseState, fuseIntent := s.lc.fuseIntent, kill := s.lc.kill, svnFuse := s.lc.svnFuse
            dnonce := s.lc.dnonce }
    repair := { moved := r.moved, cornersUsed := r.cornersUsed, cellMoved := r.cellMoved, groupRetired := r.groupRetired
                lotRetired := r.lotRetired, lotLost := r.lotLost, pages := r.pages, stackFull := r.stackFull, rows := r.rows
                tests := due } }
/-- Serow's regulators are on, or starting: PWR_EN is asserted and nothing blocks them (R496, R498). -/
def Pins.railsOn (p : Pins) : Bool := p.pwrEn && !p.blocked
/-- A shutdown: the rails go down at once. Serow records its cause while PWR_EN is asserted, if there was anything to turn off
(R499). -/
def State.shutDown (s : State) (cause : BitVec 3) : State :=
  let on := s.pins.railsOn
  let s := if s.pins.pwrGood then s.fuseCut.cold else s
  if on then { s with serow := { s.serow with trips := s.serow.trips ++ [cause] } } else s
/-- Serow's record of the shutdowns and a tamper met without Tahr go to MRAM at a cold boot (R421, R499). CAUSE is the last
shutdown's (Table 18.11). -/
def Serow.atBoot (x : Serow) (tamper : BitVec 3) : Serow :=
  let x := { x with trips := [], tripCause := x.trips.getLast?.getD x.tripCause, tripCount := satAdd x.tripCount x.trips.length }
  let x := match x.latent with
    | some c => { x with latent := none, cause := c, tamperCount := satAdd x.tamperCount 1 }
    | none => x
  if tamper = 0 then x else { x with tampered := true, cause := tamper }
/-- A leaf-state copy of the present state is found with a CRC that does not hold (R428). -/
def State.spoilLeaf (s : State) (copy : Nat) (bad : Bool) : State :=
  let k := s.lcState * 2 + copy
  let r := s.tahr.recs.get {} k
  if bad then { s with tahr := { s.tahr with recs := s.tahr.recs.set {} k { r with crc := ~~~(crc32c r.bytes) } } } else s
/-- C_HOLD in nanofarads: the charge of 10 A for 20 µs over the droop in microvolts (R500). -/
def cHoldOf (droop : Nat) : Nat := if droop = 0 then Config.cHoldNoDroop else 200000000000 / droop
/-- P56 lies within 48 V to 60 V (R498). -/
def inputOk (vin : BitVec 16) : Bool := decide (4800 ≤ vin.toNat) && decide (vin.toNat ≤ 6000)
/-- POWER_GOOD (Tables 14.1 and 17.1): a cold boot, with C_HOLD measured just before (R500). `mram` is what MRAM shows: bit 0 that
the boot count cannot be written and read back (R406), bits 1 and 2 that a leaf-state copy of the present state is invalid. -/
def execPowerGood (light bootString : Bool) (test : BitVec 4) (tamperCause mram : BitVec 3) (vin : BitVec 16) (droop : Nat)
    (s : State) : Out :=
  if !s.pins.railsOn || s.pins.pwrGood || !inputOk vin || 6 ≤ tamperCause.toNat then .next s
  else
    let s := s.cold
    let s := { s with
      pins := { s.pins with pwrGood := true, bootSrcString := bootString }
      tb := { light := light, mode := if light then .free else .master, posValid := !light }
      tahr := { s.tahr with bootCount := if mram.getLsbD 0 then s.tahr.bootCount else s.tahr.bootCount + 1 }
      serow := { s.serow.atBoot tamperCause with vin := vin, cHold := cHoldOf droop } }
    if test != 0 then .next { s with tahr := { s.tahr with st := 4, fail := 9 } }
    else if mram.getLsbD 0 then .next { s with tahr := { s.tahr with st := 4, fail := 7 } }
    else
      let s := (s.spoilLeaf 0 (mram.getLsbD 1)).spoilLeaf 1 (mram.getLsbD 2)
      let s := if s.serow.root.isNone && !s.serow.tampered then
          let (s, k) := s.draw
          { s with serow := { s.serow with root := some k }, tahr := { s.tahr with rootNew := true } }
        else s
      .next (match s.pendingIntent with
        | some k =>
          let q : FuseSeq := { k := k, stage := if fuseField s.lc.fuseIntent k == 0xC3A5 then 1 else 0
                               writing := false, resumed := true }
          { s with lc := { s.lc with seq := some q } }.fusePump
        | none => s.romDecide)
/-- PWR_EN_ASSERT (R506): seen once its low time has passed, which releases THERM_TRIP_n and the regulators (R496, R498; DESIGN
CHOICE, log entry 19); they start in sequence. -/
def execPwrEnAssert (s : State) : Out :=
  if s.pins.pwrEn then .next s
  else .next { s with pins := { s.pins with pwrEn := true, blocked := false, thermTrip := false } }
/-- PWR_EN_DEASSERT (R507): the fuse field or SVN bit being written completes; then every rail but Serow's turns off. -/
def execPwrEnDeassert (s : State) : Out :=
  let s := if s.pins.pwrGood then (if s.fuseBusy then s.fuseWritten else s).cold else s
  .next { s with pins := { s.pins with pwrEn := false } }
/-- RAIL_FAULT (R479). -/
def execRailFault (s : State) : Out := if s.pins.pwrGood then .next (s.shutDown 5) else .next s
/-- INPUT_VOLTAGE_FAULT (R498): too low a voltage is one while PWR_EN is asserted. -/
def execInputVoltageFault (tooHigh : Bool) (s : State) : Out :=
  if !s.pins.pwrEn && !tooHigh then .next s
  else
    let s := s.shutDown (if tooHigh then 3 else 4)
    .next { s with pins := { s.pins with blocked := true } }
/-- THERMAL_TRIP (R496): good power or not. -/
def execThermalTrip (hbm : Bool) (s : State) : Out :=
  let s := s.shutDown (if hbm then 2 else 1)
  .next { s with pins := { s.pins with blocked := true, thermTrip := true } }

/-! ## Warm reset (R371, R492, Table 17.9) -/

/-- The FLR domain of a ring set is reset: what was fetched is dropped, and later completions are discarded. -/
def RingSet.reset (x : RingSet) : RingSet := { gen := x.gen + 1 }
/-- What PERST_n leaves of a herd that is being revoked: its registers are reset and nothing of it runs. -/
def Herd.reset (x : Herd) : Herd :=
  { st := x.st, secure := x.secure, groups := x.groups, span := x.span, rev := x.rev, keysGone := x.keysGone && x.st != .absent
    rings := x.rings.reset }
/-- PERST_n and the string (R278, R280, Table 17.9): without light on S_IN the unit is the head. With light a valid beacon since the
last change shows that the string is sound: it gives the position again. Without one a fault stays. -/
def Timebase.warm (t : Timebase) : Timebase :=
  if !t.light then { t with position := 0, posValid := true, stringFault := false }
  else match t.beacon with
    | some p => { t with position := p + 1, posValid := true, stringFault := false }
    | none => { t with posValid := false }
/-- A word held or latched for a 64-bit register of domain POR (Table 19.2): `HUB_SERIAL`, `TAHR_TB_NOW`, `TAHR_TAMPER_STATUS`,
`LC_FUSE_STATE`, `LC_FUSE_INTENT`, `LC_DEBUG_STATUS`. -/
def inPor (e : Who × Space × Nat × W32) : Bool :=
  e.2.1 == .setup && [0x1_0008, 0x5_0000, 0x5_0300, 0xB_0008, 0xB_0010, 0xB_0018].contains e.2.2.1
/-- PERST_n frees every window (Table 13.6), and every lot: its tag is reset and its bytes are zero (R12, R61; DESIGN CHOICE, log
entry 152). -/
def State.warmMemory (s : State) : State :=
  let s := allWins.foldl (fun s w => if (s.win w).st = 0 then s else s.dropWin w) s
  let s := (s.lots.keys.filter (· < 1008)).foldl (fun s n => s.wipe (lotAddr n 0) lotBytes) s
  { s with lots := {}, healthRo := {} }
/-- PERST_n is asserted while PWR_GOOD is high. -/
def State.warm (s : State) : State :=
  let s := allHerds.foldl (fun s h => s.revokeNow h) s.linkDown
  let s := allHerds.foldl (fun s h => s.modHerd h Herd.reset) s
  let s := (List.finRange 4).foldl (fun s k => s.setRing (.pf k) (s.ring (.pf k)).reset) s
  let s := s.setSrcRing .tahr (s.srcRing .tahr).reset
  let dead := match s.tahr.form with | some (_, f) => f.kcSlot :: f.pkSlots | none => []
  let s := s.setPower { s.power with point := 2, limitW := 0xE10 }
  let s := s.warmMemory
  { s with
    slots := ⟨s.slots.entries.filter fun e => !dead.contains e.1 && !(12 ≤ e.1 && e.1 ≤ 26)⟩
    arbSlot := false, operWeight := 0x10, weights := {}, wdogUs := 0x00C8, cfg := {}, linkTimeoutMs := 0x0064
    numVfs := 0, vfEnable := false, doeError := false, denied := 0, copies := [], waitFree := [], meters := {}, meterDue := {}, linkIds := {}
    heldLow := s.heldLow.filter inPor, latchedHigh := s.latchedHigh.filter inPor, aer := 0, d3hot := {}, macFail := 0, badNodeCnt := 0, profile := 0, smallD := 0, dimEn := 0x7FFF, pod := 0
    spareDim := 0xFFFF_FFFF, crcLimit := 0x10, cubeAddr := 0, addrValid := false, lanes := {}, dims := {}, streams := {}
    tb := s.tb.warm
    tahr := { s.tahr with reqAddr := 0, reqBusy := false, reqHerd := 0, reqResult := 0, reqDetail := 0, request := none
                          form := none, orders := [], waitAttests := [], waitReports := [], imageLen := 0
                          sig := if s.tahr.st = 2 then s.tahr.sig else [] }
    repair := { s.repair with unitFault := false, repeatMs := 0x03E8
                              tests := s.repair.tests.filter fun t => match t.part with | .lane _ => false | _ => true } }.closeRights
/-- PERST_ASSERT (R492): without PWR_GOOD it only holds the host link in reset. -/
def execPerstAssert (s : State) : Out :=
  let p := { s.pins with perst := true }
  .next (if s.pins.pwrGood then { s.warm with pins := p } else { s with pins := p })
/-- PERST_RELEASE (R480). -/
def execPerstRelease (s : State) : Out := .next { s with pins := { s.pins with perst := false } }

/-! ## Images (R407, R408, R417, R483, R484) -/

/-- `TAHR_BOOT_STATUS`. -/
def State.bootStatus (s : State) : Nat :=
  let t := s.tahr
  t.st.toNat + b2n t.source * 8 + t.fail.toNat * 16 + t.svn.toNat * 2 ^ 8 + s.minSvn * 2 ^ 16 + b2n t.rootNew * 2 ^ 24
    + b2n t.cfgMeasured * 2 ^ 25
/-- A RECOVERY STATUS answer. -/
def State.imgStatus (s : State) (ok : Bool) : State :=
  { s with reply := leBytes 8 0x81 ++ leBytes 4 s.bootStatus ++ leBytes 4 (b2n !ok) }
/-- A RECOVERY message reaches the mailbox. -/
def State.recovery (s : State) (f : State → State) : Out := s.doe f
/-- The partial image is discarded. -/
def Tahr.dropImage (t : Tahr) : Tahr := { t with total := none, got := [], img := {} }
/-- BEGIN is taken. -/
def State.recStart (s : State) (total : W32) : State :=
  if s.tahr.st != 1 then s.imgStatus false
  else { s with tahr := { s.tahr.dropImage with total := some total.toNat } }.imgStatus true
/-- DATA is taken. -/
def State.recData (s : State) (off : W32) (bytes : List Byte) : State :=
  let o := off.toNat
  let n := bytes.length
  match s.tahr.total with
  | none => s.imgStatus false
  | some t =>
    if s.tahr.st != 1 || t < o + n || n < 64 || 65536 < n || (n % 64 != 0 && o + n != t) then s.imgStatus false
    else { s with tahr := { s.tahr with img := s.tahr.img.writeBytes o bytes, got := (o, o + n) :: s.tahr.got } }.imgStatus true
/-- The ranges cover [a, t): from `a`, some range reaches further. -/
def covered : Nat → List (Nat × Nat) → Nat → Nat → Bool
  | 0, _, a, t => t ≤ a
  | f + 1, l, a, t =>
    if t ≤ a then true
    else
      let b := l.foldl (fun m r => if r.1 ≤ a && m < r.2 then r.2 else m) a
      if b = a then false else covered f l b t
/-- A complete image is taken for verification: its first IMAGE_BYTES bytes to lots 1008 to 1011, the signature to Tahr's SRAM
(R408). -/
def State.takeImage (s : State) (d : List Byte) (str : Bool) : State :=
  let n := min (d.length - 5076) 8388608
  { s with mem := s.mem.writeBytes (lotAddr 1008 0) (d.take n)
           tahr := { s.tahr with st := 2, fromString := str, candLen := n, sig := d.drop n } }
/-- END is taken. -/
def State.recFinish (s : State) : State :=
  match s.tahr.total with
  | none => s.imgStatus false
  | some t =>
    if s.tahr.st != 1 || !covered (s.tahr.got.length + 1) s.tahr.got 0 t then s.imgStatus false
    else
      let s := s.takeImage (s.tahr.img.readBytes 0 t) false
      { s with tahr := s.tahr.dropImage }.imgStatus true
/-- A RECOVERY message of an image: while another image is verified it waits (R434). -/
def State.recMsg (s : State) (m : RecMsg) : State :=
  if s.tahr.st = 2 then { s with tahr := { s.tahr with imgWaits := s.tahr.imgWaits ++ [m] } }
  else match m with
  | .start total => s.recStart total
  | .data off bytes => s.recData off bytes
  | .finish => s.recFinish
/-- BEGIN. -/
def execBeginImage (total : W32) (s : State) : Out := s.recovery fun s => s.recMsg (.start total)
/-- DATA. -/
def execData (off : W32) (bytes : List Byte) (s : State) : Out := s.recovery fun s => s.recMsg (.data off bytes)
/-- END: a complete image is taken for verification. -/
def execEndImage (s : State) : Out := s.recovery fun s => s.recMsg .finish
/-- QUERY. -/
def execQuery (s : State) : Out := s.recovery fun s => s.imgStatus true
/-- DEVID_KEYS (R417): the public keys of the four states, in MAKER. Refused once a transition has blown a kill bit, since the
root is never used any more (R415). -/
def execDevidKeys (s : State) : Out :=
  s.recovery fun s =>
    if s.lcState != 0 || s.tahr.st = 4 || s.lc.kill != 0 then s.imgStatus false
    else { s with reply := leBytes 8 0x82 ++
      (List.finRange 4).flatMap fun k => hssPublic (devidTree (s.deviceKey k) 0) }
/-- DEVID_CERTS (R417): four certificates into MRAM, in MAKER. -/
def execDevidCerts (certs : List Byte) (s : State) : Out :=
  s.recovery fun s =>
    if s.lcState != 0 || s.tahr.st = 4 || certs.length != 4 * 5156 then s.imgStatus false
    else { s with tahr := { s.tahr with devidCerts := certs } }.imgStatus true

/-- LENGTH limit of a section target (Table 14.2). -/
def sectionLimit (target : Nat) : Nat :=
  if target = 1 then 458752 else if target = 2 then 131072 else if target = 3 then 1048576 else 262144
/-- TARGET, first byte and end of the sections of an image. -/
def imageSections (d : List Byte) : List (Nat × Nat × Nat) :=
  (List.range (min (fieldLe d 0xC 4) 16)).map fun i =>
    (fieldLe d (0x40 + 12 * i) 4, fieldLe d (0x44 + 12 * i) 4, fieldLe d (0x44 + 12 * i) 4 + fieldLe d (0x48 + 12 * i) 4)
/-- Check 0x1 of Table 14.3. -/
def imageMalformed (d : List Byte) : Bool :=
  let w := fieldLe d 4 4
  let n := fieldLe d 8 4
  let k := fieldLe d 0xC 4
  let secs := imageSections d
  fieldLe d 0 4 != 0x46564657 || bits w 0 16 != 1 || 64 < bits w 16 8 || bits w 29 3 != 0
    || n % 64 != 0 || n < 4096 || 8388608 < n || k = 0 || 16 < k
    || (sliceBytes d 0x10 0x30).any (· != 0) || (sliceBytes d (0x40 + 12 * k) (12 * (16 - k))).any (· != 0)
    || secs.any (fun e => e.1 = 0 || 4 < e.1 || e.2.1 % 64 != 0 || e.2.1 < 0x100 || n < e.2.2)
    || secs.zipIdx.any fun e => secs.zipIdx.any fun f =>
        e.2 < f.2 && (e.1.1 = f.1.1 || (e.1.2.1 < f.1.2.2 && f.1.2.1 < e.1.2.2))
/-- The check of Table 14.3 that fails, or 0. -/
def State.imageFail (s : State) (d : List Byte) : Nat :=
  let w := fieldLe d 4 4
  let n := fieldLe d 8 4
  if imageMalformed d then 1
  else if !bit w (25 + s.lcState) then 2
  else if bits w 16 8 < s.minSvn then 3
  else if (imageSections d).any fun e => sectionLimit e.1 < e.2.2 - e.2.1 then 4
  else if !hssShape (d.drop n) then 5
  else if !hssVerify (Config.romKey 0) (d.take n) (d.drop n) then 6
  else 0
/-- The alias and KEM keys of a boot (R426, R430); none while TAMPERED. -/
def State.bootKeys (s : State) : State :=
  if s.serow.tampered then s
  else
    let (s, cert) := s.makeAlias false 0
    let s := match cert with
      | some c =>
        { s with tahr := { s.tahr with aliasOk := true, aliasCert := c } }.putLeaf fun r =>
          { r with aliasLeaf := 0, aliasIdx := 0, boot := s.tahr.bootCount }
      | none => s
    let (s, a) := s.draw
    let (s, b) := s.draw
    s.setSlot 11 { valid := true, tenant := true, type := 3, secret := bytes256 a ++ bytes256 b }
/-- A verification has failed: the image is discarded, and one that waited is taken: the string's, or the mailbox's messages in
order (R408, R434). For a damaged copy from the string, check 0x5 or 0x6, the request is repeated (R484). -/
def State.imageFailed (s : State) (c : Nat) : State :=
  let t := s.tahr
  let s := if t.fromString && s.tb.light && (c = 5 || c = 6) then s.askImage else s
  let t := { t with imgAsked := s.tahr.imgAsked }
  let s := { s with tahr := { t with st := 1, fail := BitVec.ofNat 4 c, candLen := 0, sig := [], fromString := false
                                     strWait := none } }
  match t.strWait with
  | some d => s.takeImage d true
  | none => t.imgWaits.foldl (fun s m => s.recMsg m) { s with tahr := { s.tahr with imgWaits := [] } }
/-- An image has passed every check: what waits is refused, and the image loads (Table 14.1). -/
def State.imageLoad (s : State) (d : List Byte) : State :=
  let n := fieldLe d 8 4
  let w := fieldLe d 4 4
  let t := s.tahr
  let s := { s with
    tahr := { t.dropImage with
      source := t.fromString, imageLen := n, mFw := sha256 (d.take n), imgWaits := [], strWait := none
      svn := BitVec.ofNat 8 (bits w 16 8), states := BitVec.ofNat 4 (bits w 25 4)
      raiseTo := if bit w 24 then bits w 16 8 else 0, imgServed := t.imgRequests } }
  let s := s.bootKeys
  let s := { s with tahr := { s.tahr with st := 3 } }
  (t.imgWaits.foldl (fun s _ => s.imgStatus false) s).fusePump
/-- IMAGE_VERIFY (Tables 14.1 and 14.3). Without an operand, the image taken for verification is checked, and loaded when it
passes; while the entropy source fails the draws wait (R418). With one, an image has completed over the string (R483): it is
taken for verification, or waits while another is verified (R434). -/
def execImageVerify (str : Option (List Byte)) (s : State) : Out :=
  s.ifOnly true fun s =>
    match str with
    | some d =>
      if s.tahr.imgAsked = 0 then s
      else if s.tahr.st = 1 then s.takeImage d true
      else if s.tahr.st = 2 && s.tahr.strWait.isNone then { s with tahr := { s.tahr with strWait := some d } }
      else s
    | none =>
      if s.tahr.st != 2 || s.tahr.entropyBad then s
      else
        let d := s.mem.readBytes (lotAddr 1008 0) s.tahr.candLen ++ s.tahr.sig
        let c := s.imageFail d
        if c != 0 then s.imageFailed c else s.imageLoad d
/-- IMAGE_REQUEST (R484): served at once, or once this unit's own image has passed its checks. -/
def execImageRequest (s : State) : Out :=
  s.ifOnly true fun s =>
    let n := s.tahr.imgRequests + 1
    { s with tahr := { s.tahr with imgRequests := n, imgServed := if s.tahr.imageLen = 0 then s.tahr.imgServed else n } }

/-! ## Serow and the entropy source (R418 to R424, R500) -/

/-- The tamper line with P56 present and Tahr powered (R421, R422, R434). -/
def State.tamperNow (s : State) (cause : BitVec 3) : State :=
  let s := { s.zeroTenant with
    serow := { s.serow with root := none, tampered := true, cause := cause, tamperCount := satAdd s.serow.tamperCount 1 } }
  let s := { s with tahr := { s.tahr with aliasOk := false, altReady := false, form := none } }
  let s := (List.finRange 33).foldl (fun s k => s.streamDown k) s
  let s := allDims.foldl (fun s d => s.dropHop d) s
  let s := if s.tahr.request.isSome then s.requestEnd stKeyRetired 0 else s
  let waits := s.tahr.waitAttests
  let reps := s.tahr.waitReports
  let s := { s with tahr := { s.tahr with waitAttests := [], waitReports := [] } }
  let s := waits.foldl (fun s o => s.done (refOf o) stKeyRetired) s
  let s := reps.foldl (fun s _ => s.ideStatus 0 false 1) s
  allHerds.foldl (fun s h => s.revokeNow h) s
/-- The tamper line: with Tahr powered, all of R421; else the root alone, and the rest at the next boot. -/
def State.tamper (s : State) (cause : BitVec 3) : State :=
  if s.pins.pwrGood then s.tamperNow cause
  else { s with serow := { s.serow with root := none, latent := some (s.serow.latent.getD cause) } }
/-- Tahr halts and the tamper line follows with CAUSE 6 (R424). -/
def State.tahrHalt (s : State) : State := { s with tahr := { s.tahr with st := 4 } }.tamper 6
/-- TAMPER (R421): a condition of Table 14.8; those watched without P56 are 1, 2 and 5. -/
def execTamper (cause : Fin 7) (s : State) : Out :=
  let c := cause.val
  if c = 0 || (!s.pins.pwrGood && (c = 6 || (s.serow.noP56 && (c = 3 || c = 4)))) then .next s
  else .next (if c = 6 then s.tahrHalt else s.tamper (BitVec.ofNat 3 c))
/-- TAHR_FAULT (R424). -/
def execTahrFault (s : State) : Out := s.ifOnly true fun s => s.tahrHalt
/-- ENTROPY_RESEED (R418): later draws come from the reseeded generator. -/
def execEntropyReseed (s : State) : Out :=
  s.ifOnly (!s.tahr.entropyBad) fun s => { s with freeCtr := s.freeCtr + 1 }
/-- HOLDUP in units of 100 µs (R423, R500): C_HOLD in nF, the input in 10 mV, the power in W. -/
def holdupOf (cHold p56 watts : Nat) : BitVec 16 :=
  if p56 ≤ 4500 then 0
  else if watts = 0 then 0xFFFF
  else BitVec.ofNat 16 (min 0xFFFF (cHold * (p56 * p56 - 20250000) / (2000000000 * watts)))
/-- HOLDUP_MEASURE (R423, R500): the input voltage, and with good power the register's fields; a fuse write that waited for the
reserve starts. A unit with good power has P56: a reading of 0 then is none (log entry 122). -/
def execHoldupMeasure (p56 : BitVec 16) (watts : BitVec 12) (s : State) : Out :=
  if !s.pins.pwrGood then .next { s with serow := { s.serow with vin := p56 }.supply }
  else if p56 = 0 then .next s
  else
    .next ({ s with serow := { s.serow with
      vin := p56, p56 := p56, holdup := holdupOf s.serow.cHold p56.toNat watts.toNat } }.fusePump)
/-- VBAT_T_LOSS (R423, R505): VBAT_T is measured. -/
def execVbatTLoss (mv : BitVec 12) (s : State) : Out := .next { s with serow := { s.serow with vbatMv := mv }.supply }

end Sys2Proof.Machine
end

