-- ==== Sys2Proof/Machine/Traffic.lean ====
section
/-!
DEFINITION. The handshake channels of the compute dies and the hub (R22, Table 01.3): which of them can carry an Offer now (R43, R44).
-/
namespace Sys2Proof.Machine

/-- The live Nouns of a block's entries. -/
def State.nounsOf (s : State) (b : BlockId) (l : List (BitVec 6)) : List Noun := l.filterMap fun e => s.nounAt b e
/-- The entries whose data one verb, outside a loop, moves. -/
def Block.verbEntries (x : Block) : Verb → List (BitVec 6)
  | .mma o => [(x.ag o.aAg).noun, (x.ag o.bAg).noun]
  | .mst o => [(x.ag o.cAg).noun]
  | .vld o => [o.noun]
  | .vst o => [o.noun]
  | .mov o => [o.src, o.dst]
  | _ => []
/-- A verb that speaks to the hub itself: a staged register value, row values, and a mask. -/
def speaksHub : Verb → Bool
  | .setr _ => true
  | .dcoef _ => true
  | .dtouch _ => true
  | _ => false
/-- The verb that a block issues now: it is the next of its Clause, and nothing holds it. A block that waits for a beat token has
none (R44). -/
def State.nextVerb (s : State) (b : BlockId) : Option VerbWord :=
  let x := s.block b
  match s.owner b, x.clause[x.pos]? with
  | some h, some w =>
    if (s.herd h).working && (x.st == .issue || x.st == .held) && x.waitOk w.issue.wait && !s.verbHeld b w.verb then some w
    else none
  | _, _ => none
/-- The Nouns whose data a block moves now: those of its next verb, and of the `MMA` verbs in progress on it. -/
def State.nounsMoving (s : State) (b : BlockId) : List Noun :=
  let x := s.block b
  let v := match s.nextVerb b with
    | some w => (match w.verb with | .vloop o => (x.loopBody o).flatMap fun w => x.verbEntries w.verb | v => x.verbEntries v)
    | none => []
  let m := (allPairs.filterMap fun p => (x.pair p).run).flatMap fun r => x.verbEntries (.mma r.op)
  s.nounsOf b (v ++ m)
/-- A block sends something to the hub now: its next verb does, or ends a segment (R216). -/
def State.callsHub (s : State) (b : BlockId) : Bool :=
  match s.nextVerb b with | some w => speaksHub w.verb || segEnds w != 0 | none => false
/-- A Sentence is being placed in a block, or a copy in progress has an end in its scratch. -/
def State.beingFilled (s : State) (b : BlockId) : Bool :=
  (s.owner b).any (fun h => (s.herd h).seq == .loading) ||
    s.copies.any fun j => j.status.isNone && (j.src ++ j.dst).any fun r => rangesMeet r.1 r.2 (scratchAddr b.val 0) lotBytes
/-- The scratch, by block number, that data moves to or from on behalf of a block. -/
def State.scratchMoving (s : State) (b : BlockId) : List BlockId :=
  (s.nounsMoving b).filterMap fun n =>
    if n.kind != 0 then none else if hb : n.alloc.toNat < 384 then some ⟨n.alloc.toNat, hb⟩ else none
/-- The tap of a block can carry an Offer: data of a lot or a window, of another region's scratch, or of its own scratch for a
block of another region, a message to the hub, or something that fills the block. -/
def State.tapTraffic (s : State) (b : BlockId) : Bool :=
  s.callsHub b || s.beingFilled b || (s.nounsMoving b).any (fun n => n.kind != 0) ||
    (s.scratchMoving b).any (fun c => regionOf c != regionOf b) ||
    allBlocks.any fun a => regionOf a != regionOf b && (s.scratchMoving a).contains b
/-- The mesh ports of a block can carry an Offer: data moves between two blocks of its region whose path (R21) passes through its
position. -/
def State.meshTraffic (s : State) (b : BlockId) : Bool :=
  allBlocks.any fun a => regionOf a == regionOf b && (s.scratchMoving a).any fun c =>
    c != a && regionOf c == regionOf a && (s.meshRoute a c).contains (s.meshPos b)
/-- The hub works for a herd's beat: a reduction or declension item of it is not complete. -/
def State.hubWorks (s : State) (h : HerdId) : Bool :=
  let x := s.herd h
  match x.run, x.sentence with
  | some r, some m => x.active &&
      (((itemsIn m 1 r.beat).any fun e => !(s.redRun h e).done) || (itemsIn m 2 r.beat).any fun k => !r.items.contains (2, k))
  | _, _ => false
/-- A channel can have an Offer outstanding (R22, R43, R44). A cell's is the A broadcast of its pair that some lane has not
acknowledged; the transfers of the other channels fall within single commands, and the one that stalls is one that the state now
leaves to be made (DESIGN CHOICE, log entry 123). -/
def State.offering (s : State) : Part → Bool
  | .cell b c =>
    match ((s.block b).pairs.get {} (c.toNat / 2)).run with
    | some r => r.offer.isSome && r.acks != BitVec.allOnes 128
    | none => false
  | .blockChan b => s.tapTraffic b || s.meshTraffic b
  | .rowPort r k => allBlocks.any fun b => regionOf b == r.val && s.meshRow b == k.val && s.tapTraffic b
  | .hubChan => s.copies.any (fun j => j.status.isNone) || allHerds.any s.hubWorks || allBlocks.any s.tapTraffic
  | _ => false
/-- A channel is idle, REQ equal to ACK: no stalled Offer is outstanding on it (Table 01.3). -/
def State.idleChan (s : State) (p : Part) : Bool := !s.repair.stalled.contains p

end Sys2Proof.Machine
end

