-- ==== Sys2Proof/Machine/Errors.lean ====
section
/-!
DEFINITION. Hardware errors, targeted self-tests, remaps and retirements (R15 to R20, R43, R463 to R477).
-/
namespace Sys2Proof.Machine

/-! ## Events (R477, Table 16.13) -/

/-- LEVEL, REGION, BLOCK, CELL and LOCATOR of a part. -/
def partPlace : Part → Nat × Nat × Nat × Nat × Nat
  | .scratchRow b k r => (1, regionOf b, b.val, 0, k.toNat + r.toNat * 256)
  | .seqRow b r => (1, regionOf b, b.val, 0, r.toNat * 256)
  | .cell b c => (0, regionOf b, b.val, c.toNat, 0)
  | .vcell b v => (0, regionOf b, b.val, 16 + v.toNat, 0)
  | .blockChan b => (1, regionOf b, b.val, 0, 0)
  | .rowPort r k => (2, r.val, 0, 0, k.val * 256)
  | .hubChan => (3, 0, 0, 0, 0)
  | .csRow k r _ => (3, 0, 0, 0, k.toNat + r.toNat * 256)
  | .hbmLine p => (3, 0, 0, 0, p.toNat)
  | .hbmPhy _ => (3, 0, 0, 0, 0)
  | .hostLink => (3, 0, 0, 0, 0)
  | .rcRow r k => (2, r.val, 0, 0, k.toNat * 256)
  | .engine _ => (3, 0, 0, 0, 0)
  | .lane n => (3, 0, 0, 0, n.val)
  | .nyaNode _ _ _ => (3, 0, 0, 0, 0)
  | .nyaRoot _ => (3, 0, 0, 0, 0)
  | .tahrMem => (3, 0, 0, 0, 0)
/-- The herd that owns a part, if one does. -/
def State.partHerd (s : State) (p : Part) : Option HerdId :=
  match p with
  | .csRow _ _ l => let x := s.lot l.val; if x.assigned then some ⟨x.herd.toNat, x.herd.isLt⟩ else none
  | p => (partBlock p).bind s.owner
/-- BEAT of an error event: the beat in progress in the affected herd, or 0 (Table 16.13). -/
def State.evtBeat (s : State) (h : HerdId) : Nat := if (s.herd h).run.isSome then (s.herd h).beatNow.toNat else 0
/-- The payload of an error event, but for its beat; `loc` replaces the locator of the part. -/
def errBytes (p : Part) (loc : Option Nat) (verdict : Nat) (status : BitVec 8) (beat : Nat) : List Byte :=
  let (lv, rg, b, c, l) := partPlace p
  leBytes 4 (lv + rg * 4 + b * 16 + c * 2 ^ 13) ++ leBytes 4 (loc.getD l) ++ leBytes 8 beat ++ leBytes 2 (verdict + status.toNat * 256)
/-- An error event: on PF ring set 0, with the first of the herds concerned (DESIGN CHOICE, log entry 154), and on the ring of each
of them, with the beat in progress there (R477). -/
def State.errEvt (s : State) (code : BitVec 16) (p : Part) (hs : List HerdId) (loc : Option Nat) (verdict : Nat)
    (status : BitVec 8) : State :=
  let d := fun (h : Option HerdId) => errBytes p loc verdict status ((h.map s.evtBeat).getD 0)
  hs.foldl (fun t h => t.evtHerd h code (d (some h))) (s.evtPf 0 code ((hs.head?.map (·.val)).getD 0) (d hs.head?))

/-! ## Detection -/

/-- An uncorrectable error: its event, and the test that follows. -/
def State.hardError (s : State) (p : Part) (st : Status) (hs : List HerdId) : State :=
  (s.errEvt st p hs none 0 (st.setWidth 8)).addTest p (st.setWidth 8) hs
/-- A herd's run stops with a hardware status (R227). -/
def State.stopFor (s : State) (h : Option HerdId) (st : Status) : State :=
  match h with | some k => s.stopHere k st 0 | none => s
/-- What a faulty cell loses: the accumulation of its pair (R104), or the registers of a vector cell (Table 05.16). -/
def Block.loseCell (b : Block) (p : Part) : Block :=
  match p with
  | .cell _ c =>
    let k := c.toNat / 2
    let x := b.pairs.get {} k
    { b with pairs := b.pairs.set {} k { x.clear with run := none } }
  | .vcell _ v =>
    let x := b.vcells.get {} v.toNat
    { b with vcells := b.vcells.set {} v.toNat { x with regs := {} } }
  | _ => b
/-- A cell or block error (R464): the verb ends, the block halts and fences, the run of its herd stops (R465), and a copy into
the block's scratch stops with the status of the fault (R76). -/
def State.faultBlock (s : State) (p : Part) (st : Status) : State :=
  match partBlock p with
  | none => s
  | some b =>
    let h := s.owner b
    let s := s.modBlock b fun x =>
      let y := (x.loseCell p).halt
      { y with fenced := true, fault := if x.fenced then x.fault else st }
    let s := s.hardError p st h.toList
    let s := match h with | some k => s.stopBlock k b st | none => s
    let s := s.copyStop (s.block b).fault fun j => j.dst.any fun r => rangesMeet r.1 r.2 (scratchAddr b.val 0) lotBytes
    s.icNote
/-- The status of a block's error (Table 16.10). -/
def blockStatus : Part → Status
  | .scratchRow _ _ _ => stHwScratch
  | .seqRow _ _ => stHwSeq
  | .cell _ _ => stHwCell
  | .vcell _ _ => stHwCell
  | _ => stHwStall

/-- The herds whose Sentence runs. -/
def State.runningHerds (s : State) : List HerdId := allHerds.filter fun h => (s.herd h).run.isSome
/-- A unit fault (R470): every run stops with `HW_HUB`. -/
def State.unitFaultNow (s : State) : State :=
  s.runningHerds.foldl (fun s h => s.stopHere h stHwHub 0) { s with repair := { s.repair with unitFault := true } }
/-- REPEAT_MS in nanoseconds. -/
def State.repeatNs (s : State) : Nat := s.repair.repeatMs.toNat * 1000000
/-- A time lies within the last REPEAT_MS. -/
def State.recent (s : State) (t : W64) : Bool := s.tb.now.toNat < t.toNat + s.repeatNs
/-- The operation that met an error stops: the herd's run, or, when it runs nothing, its oldest copy (DESIGN CHOICE, log entry
154). -/
def State.stopOp (s : State) (h : Option HerdId) (st : Status) : State :=
  match h with
  | none => s
  | some k =>
    if (s.herd k).run.isSome then s.stopHere k st 0
    else match s.copies.find? fun j => j.herd == k && j.status.isNone with
      | some j => s.copyStop st (· == j)
      | none => s
/-- An `HW_HUB` error: its event, its source and the stop of the operation; a second one within REPEAT_MS is a unit fault, and its
event goes to every herd that it stops (R470, R477). -/
def State.hubError (s : State) (h : Option HerdId) : State :=
  let twice := s.repair.hubErr.any s.recent
  let hs := (h.toList ++ if twice then s.runningHerds else []).eraseDups
  let s := ((s.hardError .hubChan stHwHub hs).edge 0 5).stopOp h stHwHub
  let s := { s with repair := { s.repair with hubErr := some s.tb.now } }
  if twice then s.unitFaultNow else s
/-- A copy engine fault ends the herd's oldest copy with `HW_ENGINE`. -/
def State.copyEngineFault (s : State) (h : Option HerdId) : State :=
  match s.copies.find? fun j => h == some j.herd && j.status.isNone with
  | some j => s.copyStop stHwEngine (· == j)
  | none => s
/-- The herds that hold a block of a region. -/
def State.herdsIn (s : State) (r : RegionId) : List HerdId :=
  allHerds.filter fun h => (s.blocksOf h).any fun b => regionOf b == r.val
/-- Block groups that hold a bank row's table index: bank times 2,048 plus row. -/
def csKey (bank row : Nat) : Nat := bank * 2048 + row
/-- The addresses of the pieces of a lost row: (first, bytes). -/
def rowRanges : Part → List (Nat × Nat)
  | .scratchRow b k r => (List.range 16).map fun i => (scratchAddr b.val (16384 * r.toNat + 1024 * i + 64 * k.toNat), 64)
  | .csRow k r _ => (List.range 16).map fun u =>
      (storeBase + r.toNat * 2 ^ 20 + u * 2 ^ 16 + ((k.toNat ^^^ ((r.toNat % 16) * 16 + u)) * 2 ^ 8), 256)
  | _ => []
/-- An error in a row of the central store: the run of the herd that met it stops, and so does every copy whose source it lies in,
before it passes anything on (R474, R475). -/
def State.storeError (s : State) (p : Part) (h : Option HerdId) : State :=
  let hs := (h.toList ++ (s.partHerd p).toList).eraseDups
  let s := ((s.hardError p stHwCs hs).edge 0 6).stopFor (if h.isSome then h else s.partHerd p) stHwCs
  s.copyStop stHwCs fun j => j.src.any fun r => (rowRanges p).any fun q => rangesMeet r.1 r.2 q.1 q.2
/-- The node of a window whose line stands at window offset `o`. -/
def nodeAt (size o : Nat) : Option (Nat × Nat) := (nodesOf size).find? fun e => nodeOff size e.1 e.2 == o
/-- An uncorrectable error in line `a` of HBM (R389, R390, Table 16.10): its stack's source is raised and its row test is due. In
a node the node is bad; in a data or MAC line the read that met it ends with `INTEGRITY_FAIL`, and so does a copy from the lines
concerned. The line shows the error until it is next written in full (log entry 125). -/
def State.hbmLineError (s : State) (a : Nat) (h : Option HerdId) : State :=
  let s := (s.edge 0 (8 + pageOf a % 12)).addTest (.hbmLine (BitVec.ofNat 28 (pageOf a))) 0 h.toList
  match s.winAt a with
  | none => s
  | some (w, o) =>
    let x := s.win w
    let s := s.hbmFail w [a]
    match nodeAt x.size (o / 64 * 64) with
    | some (l, n) => (s.badNode w false l n).stopFor h stUnverifiable
    | none =>
      let l := x.affected a
      ((s.edge 0 20).stopFor h stIntegrityFail).copyStop stIntegrityFail fun j =>
        j.src.any fun r => (physRanges r.1 r.2).any fun q => l.any fun b => meets q (b, b + 64)
/-- The bit of AER's uncorrectable error status that a link error sets: Data Link Protocol Error (PRESUMED, log entry 151). -/
def aerLink : Nat := 4

/-- A region or chip error (R463): its source, its event, the stop of the operation concerned and the test that follows. -/
def State.chipError (s : State) (p : Part) (h : Option HerdId) (line : BitVec 6) : State :=
  match p with
  | .rowPort r k => ((s.hardError p stHwMesh h.toList).edge (r.val + 1) (97 + k.val)).stopFor h stHwMesh
  | .blockChan b => ((s.hardError p stHwMesh h.toList).edge (regionOf b + 1) 107).stopFor h stHwMesh
  | .csRow _ _ _ => s.storeError p h
  | .hbmLine pg => s.hbmLineError (linOf (4096 * pg.toNat + 64 * line.toNat)) h
  | .hbmPhy k => ((s.errEvt stHwHbm p h.toList none 0 (stHwHbm.setWidth 8)).edge 0 (8 + k.val)).stopOp h stHwHbm
  | .hostLink => ({ s with aer := s.aer ||| BitVec.ofNat 32 (2 ^ aerLink) } : State).icNote
  | .rcRow r _ =>
    let hs := (h.toList ++ (s.herdsIn r).filter fun k => (s.herd k).run.isSome).eraseDups
    let s := (s.herdsIn r).foldl (fun s k => s.stopHere k stHwRegion 0) (s.hardError p stHwRegion hs)
    { s with repair := { s.repair with restarts := s.repair.restarts.set false r.val true } }.icNote
  | .hubChan => s.hubError h
  | .engine e =>
    let s := s.errEvt stHwEngine p h.toList none 0 (stHwEngine.setWidth 8)
    let s := s.edge 0 (if e = 6 then 27 else if e = 7 then 28 else 21 + e.toNat)
    if e = 6 then s.copyEngineFault h else s.stopFor h stHwEngine
  | .nyaNode w l n => (s.badNode w false l n).stopFor h stUnverifiable
  | .nyaRoot w => (s.badNode w true 0 0).stopFor h stUnverifiable
  | _ => s
/-- The parts whose uncorrectable errors arise at region or chip level. -/
def chipPart : Part → Bool
  | .rowPort _ _ => true
  | .blockChan _ => true
  | .csRow _ r _ => r.toNat < 2048
  | .hbmLine _ => true
  | .hbmPhy _ => true
  | .hostLink => true
  | .rcRow _ _ => true
  | .hubChan => true
  | .engine _ => true
  | .nyaNode _ _ _ => true
  | .nyaRoot _ => true
  | _ => false
/-- A channel keeps the Offer that stalled until its test has ended (Table 01.3, R468). -/
def State.stallOn (s : State) (p : Part) : State :=
  { s with repair := { s.repair with stalled := s.repair.stalled ++ [p] } }
/-- A stalled channel (R43): an error of the level that owns it, with status `HW_STALL`. -/
def State.stallError (s : State) (p : Part) (h : Option HerdId) : State :=
  match p with
  | .rowPort r k => ((s.hardError p stHwStall h.toList).edge (r.val + 1) (97 + k.val)).stopFor h stHwStall
  | .hubChan => ((s.hardError p stHwStall h.toList).edge 0 5).stopOp h stHwStall
  | p => s.faultBlock p stHwStall
/-- The parts with a correcting code (Table 16.10), and whether a self-test follows (Table 16.11). -/
def correctable : Part → Option Bool
  | .scratchRow _ _ _ => some true
  | .seqRow _ _ => some true
  | .cell _ _ => some true
  | .vcell _ _ => some true
  | .csRow _ r _ => if r.toNat < 2048 then some true else none
  | .hbmLine _ => some true
  | .rcRow _ _ => some true
  | .nyaNode _ _ _ => some false
  | .tahrMem => some false
  | _ => none
/-- CORRECTABLE_ERROR (R467): counted, reported, and followed by a transparent test. -/
def execCorrectableError (p : Part) (s : State) : Out :=
  match correctable p with
  | none => .next s
  | some test => s.ifOnly true fun s =>
    let hs := (s.partHerd p).toList
    let s := { s with repair := { s.repair with ceCount := satAdd s.repair.ceCount 1 } }.errEvt 0x0064 p hs none 0 0
    let s := match p with
      | .csRow _ _ _ => s.edge 0 7
      | .hbmLine pg => s.edge 0 (8 + pg.toNat % 12)
      | .rcRow r _ => s.edge (r.val + 1) 110
      | .tahrMem => s.edge 0 50
      | _ => s
    if test then s.addTest p 0 hs else s

/-! ## Verdicts (R468, R469, R471) -/

/-- The contents of a row are lost by this test: an uncorrectable error in scratch or central store (R471). -/
def Test.loses (t : Test) : Bool :=
  t.status != 0 && (match t.part with | .scratchRow _ _ _ => true | .csRow _ _ _ => true | _ => false)
/-- A lost row is left zero. A row of the Noun table or the Clause store takes with it the entries and the verb words that it holds:
a block issues nothing from the first lost word on (DESIGN CHOICE, log entry 155). -/
def State.zeroRow (s : State) (p : Part) : State :=
  match p with
  | .seqRow b r => s.modBlock b fun x =>
      { x with nouns := (Config.seqRowNouns r).foldl (fun t e => t.set {} e {}) x.nouns
               clause := x.clause.take ((Config.seqRowWords r).foldl min x.clause.length) }
  | p => (rowRanges p).foldl (fun s r => s.wipe r.1 r.2) s
/-- A fenced block returns to service once none of its tests and records is left. -/
def State.unfence (s : State) (p : Part) : State :=
  match partBlock p with
  | none => s
  | some b =>
    let mine := fun q => partBlock q == some b
    if s.repair.tests.any (fun t => mine t.part) || s.repair.records.any (fun r => mine r.part) then s
    else s.modBlock b fun x => { x with fenced := false, fault := 0 }
/-- The table key under which spare rows of a bank are counted. -/
def rowKey : Part → Nat
  | .scratchRow b k _ => b.val * 16 + k.toNat
  | .csRow k _ _ => 10000 + k.toNat
  | .rcRow r _ => 20000 + r.val
  | _ => 30000
/-- What retires a block: a free corner takes it, or its group is retired (R15, R18). -/
def State.retireBlock (s : State) (b : BlockId) : RecordKind :=
  if s.repair.cornersUsed.get 0 (regionOf b) < 4 then .blockMoved else .groupRetired
/-- The action of a lasting verdict (Table 16.11). -/
def State.lastingKind (s : State) (p : Part) : RecordKind :=
  let used := s.repair.rows.get 0 (rowKey p)
  match p with
  | .scratchRow b _ _ => if used < 4 then .row else s.retireBlock b
  | .seqRow b _ => s.retireBlock b
  | .cell b _ => if s.repair.cellMoved.get 0 b.val = 0 then .cellMoved else s.retireBlock b
  | .vcell b _ => s.retireBlock b
  | .blockChan b => s.retireBlock b
  | .rowPort _ _ => .groupRetired
  | .csRow _ _ _ => if used < 32 then .row else .lotRetired
  | .hbmLine pg =>
    if (s.hbm.get {} (pg.toNat % 12)).repaired.toNat < min 255 (Config.pprRows (pg.toNat % 12)) then .row else .pageFenced
  | .rcRow _ _ => if used < 8 then .row else .groupRetired
  | _ => .none
/-- The error source that a verdict's test raises: a region's test is complete. -/
def State.testDone (s : State) (p : Part) : State :=
  match partRegion p with | some r => s.edge (r + 1) 108 | none => s
/-- A transient verdict: the part returns to service. -/
def State.transientVerdict (s : State) (t : Test) : State :=
  let l := (s.repair.transient.filter fun e => e.1 != t.part) ++ [(t.part, s.tb.now)]
  let s : State := { s with repair := { s.repair with transient := l } }
  let s := s.errEvt 0x0060 t.part t.herds none 1 t.status
  let s := if t.loses then (s.zeroRow t.part).errEvt 0x0063 t.part t.herds none 1 t.status else s
  (s.unfence t.part).icNote
/-- A lasting verdict: its action waits for Tahr's record; a hub channel's is a unit fault at once (R470). -/
def State.lastingVerdict (s : State) (t : Test) : State :=
  let s := if t.loses then s.zeroRow t.part else s
  match t.part with
  | .hubChan =>
    ((s.errEvt 0x0060 t.part (t.herds ++ s.runningHerds).eraseDups none 2 t.status).edge 0 5).unitFaultNow
  | .lane _ => s.errEvt 0x0060 t.part t.herds none 2 t.status
  | p =>
    let r : MramRecord := { part := p, kind := s.lastingKind p, status := t.status, herds := t.herds, lost := t.loses }
    let s : State := { s with repair := { s.repair with records := s.repair.records ++ [r] } }
    s.icNote
/-- A part was judged transient within the last REPEAT_MS (R469). -/
def State.repeated (s : State) (p : Part) : Bool := s.repair.transient.any fun e => e.1 == p && s.recent e.2
/-- The verdict of a test (R469). -/
def State.verdict (s : State) (t : Test) (pass : Bool) : State :=
  let ok := pass && !t.again && !s.repeated t.part
  let s : State :=
    { s with repair := { s.repair with tests := s.repair.tests.erase t, stalled := s.repair.stalled.filter (· != t.part) } }
  let s := if ok then s.transientVerdict t else s.lastingVerdict t
  let s := match t.part with | .lane n => s.laneVerdict n ok | _ => s
  s.testDone t.part
/-- The test of a part that can end now: tests of one block run one after another. -/
def State.dueTest (s : State) (p : Part) : Option Test :=
  match s.repair.tests.find? fun t => t.part == p with
  | none => none
  | some t =>
    let rival := match partBlock p with
      | some b => s.repair.tests.find? fun u => partBlock u.part == some b
      | none => some t
    if rival == some t then some t else none
/-- SELF_TEST_VERDICT (R468, R469): the test of `p` ends. -/
def execSelfTestVerdict (p : Part) (pass : Bool) (s : State) : Out :=
  match s.dueTest p with
  | some t => s.ifOnly true fun s => s.verdict t pass
  | none => .next s

/-! ## Records (R15 to R20, R472, R473) -/

/-- The block groups that a retirement takes. -/
def State.groupsOf (s : State) (p : Part) : List Nat :=
  match p with
  | .rowPort r k => (List.range 48).filter fun g => allBlocks.any fun b =>
      groupOf b == g && regionOf b == r.val && s.meshRow b == k.val
  | .rcRow r _ => rangeFrom (12 * r.val) 12
  | p => match partBlock p with | some b => [groupOf b] | none => []
/-- A record is made and its action takes effect. -/
def Repair.apply (x : Repair) (r : MramRecord) (groups : List Nat) : Repair :=
  let used := x.rows.get 0 (rowKey r.part)
  match r.kind, r.part with
  | .row, .hbmLine _ => x
  | .row, p => { x with rows := x.rows.set 0 (rowKey p) (used + 1) }
  | .cellMoved, .cell b c => { x with cellMoved := x.cellMoved.set 0 b.val (c.toNat + 1) }
  | .blockMoved, p =>
    match partBlock p with
    | some b =>
      let k := x.cornersUsed.get 0 (regionOf b)
      { x with moved := x.moved.set 0 b.val (k + 1), cornersUsed := x.cornersUsed.set 0 (regionOf b) (k + 1)
               cellMoved := x.cellMoved.set 0 b.val 0
               rows := x.rows.filter fun i => !(b.val * 16 ≤ i && i < b.val * 16 + 16) }
    | none => x
  | .groupRetired, _ => { x with groupRetired := groups.foldl (fun t g => t.set false g true) x.groupRetired }
  | .lotRetired, .csRow k row l =>
    { x with lotRetired := if l.val < 1008 then x.lotRetired.set false l.val true else x.lotRetired
             lotLost := x.lotLost.set false (csKey k.toNat row.toNat) true }
  | .pageFenced, .hbmLine pg =>
    if x.pages.contains pg.toNat then x
    else if x.pages.length < 4096 then { x with pages := x.pages ++ [pg.toNat] }
    else { x with stackFull := x.stackFull.set false (pg.toNat % 12) true }
  | _, _ => x
/-- The event of an action: `REMAPPED` or `RETIRED`, with its locator. -/
def MramRecord.event (r : MramRecord) : Option (BitVec 16 × Option Nat) :=
  match r.kind, r.part with
  | .row, _ => some (0x0061, none)
  | .cellMoved, _ => some (0x0061, none)
  | .blockMoved, _ => some (0x0061, none)
  | .blockRetired, _ => some (0x0062, none)
  | .groupRetired, _ => some (0x0062, none)
  | .lotRetired, .csRow _ _ l => some (0x0062, some l.val)
  | .lotRetired, _ => some (0x0062, none)
  | .pageFenced, _ => some (0x0062, none)
  | .none, _ => none
/-- A record can be written: no Clause runs on the block that it concerns (R19). -/
def State.recordable (s : State) (r : MramRecord) : Bool :=
  match partBlock r.part with
  | some b => (s.block b).st == .idle || (s.block b).st == .halt
  | none => true
/-- The status of the fault that a record answers; a corrected error has that of its part (Tables 16.10 and 16.12). -/
def MramRecord.faultStatus (r : MramRecord) : Status :=
  if r.status != 0 then r.status.setWidth 16
  else match r.part with
    | .rowPort _ _ => stHwMesh
    | .rcRow _ _ => stHwRegion
    | p => blockStatus p
/-- A block is fenced while its record is made: one that a correctable error left in service is fenced now (R19,
DESIGN CHOICE, log entry 124), with the status of that error for whoever reaches it, copies into it first (R76). -/
def State.fenceFor (s : State) (r : MramRecord) : State :=
  match partBlock r.part with
  | some b =>
    let s := s.modBlock b fun x => { x with fenced := true, fault := if x.fault = 0 then r.faultStatus else x.fault }
    s.copyStop (s.block b).fault fun j => j.dst.any fun q => rangesMeet q.1 q.2 (scratchAddr b.val 0) lotBytes
  | none => s
/-- The rows that read uncorrectable while a block's contents are copied to its new position (R471): the row of the record's own
error, and those whose test has not come yet. A row of scratch that has had its test is zero by then. -/
def State.badRows (s : State) (r : MramRecord) : List (Part × BitVec 8 × List HerdId) :=
  if r.kind != .blockMoved then []
  else
    let own := match r.part with | .seqRow _ _ => r.status != 0 | _ => false
    (if own then [(r.part, r.status, r.herds)] else []) ++
      (s.repair.tests.filter fun t => t.status != 0 && partBlock t.part == partBlock r.part
        && (match t.part with | .seqRow _ _ => true | .scratchRow _ _ _ => true | _ => false)).map fun t => (t.part, t.status, t.herds)
/-- Those rows are lost. -/
def State.loseRows (s : State) (r : MramRecord) : State :=
  (s.badRows r).foldl (fun s e => (s.zeroRow e.1).errEvt 0x0063 e.1 e.2.2 none 2 e.2.1) s
/-- The fault that retires block groups stops the run of every herd that holds one of them (R237). -/
def State.stopRetired (s : State) (r : MramRecord) (groups : List Nat) : State :=
  if r.kind = .groupRetired then
    (allHerds.filter fun h => (s.herd h).active && groups.any (s.herd h).hasGroup).foldl
      (fun s h => s.stopHere h r.faultStatus 0) s
  else s
/-- The herds that a record's events concern: those of the error, and those whose block groups it retires (R477). -/
def State.recordHerds (s : State) (r : MramRecord) (groups : List Nat) : List HerdId :=
  (r.herds ++ if r.kind = .groupRetired then allHerds.filter fun h => groups.any (s.herd h).hasGroup else []).eraseDups
/-- Tahr writes a record, with the spare that is free now: its action takes effect, its events follow, and the part returns
to service (R20). -/
def State.writeRecord (s : State) (r0 : MramRecord) : State :=
  let s := s.fenceFor r0
  let r := { r0 with kind := s.lastingKind r0.part }
  let groups := s.groupsOf r.part
  let hs := s.recordHerds r groups
  let s := s.loseRows r
  let s := { s with repair := { s.repair.apply r groups with records := s.repair.records.erase r0 } }
  let s := s.stopRetired r groups
  let s := match r.kind, r.part with
    | .row, .hbmLine pg =>
      let k := pg.toNat % 12
      let x := s.hbm.get {} k
      { s with hbm := s.hbm.set {} k { x with repaired := satAdd x.repaired 1 } }
    | _, _ => s
  let s := s.errEvt 0x0060 r.part hs none 2 r.status
  let s := match r.event with
    | some (c, l) => s.errEvt c r.part hs l 2 r.status
    | none => s
  let s := if r.lost then s.errEvt 0x0063 r.part r.herds none 2 r.status else s
  (s.unfence r.part).icNote
/-- REGION_RESTART (R470): after an uncorrectable SRAM error, once every block of the region has halted; the region's
interrupt controller is reset, and its escalation ends. -/
def execRegionRestart (r : RegionId) (s : State) : Out :=
  let still := allBlocks.all fun b =>
    regionOf b != r.val || (s.block b).st == SeqState.idle || (s.block b).st == SeqState.halt
  s.ifOnly (s.repair.restarts.get false r.val && still) fun s =>
    (({ s with repair := { s.repair with restarts := s.repair.restarts.set false r.val false } } : State).setIc (r.val + 1) {}).icNote

/-! ## HBM training and heat (R66, R71, R481) -/

/-- HBM_TRAINING_DONE (R71, R481): a stack whose record of fenced pages was full fails (R473). -/
def execHbmTrainingDone (k : StackId) (ok : Bool) (s : State) : Out :=
  s.ifOnly ((s.stack k).st = 0) fun s =>
    let good := ok && !s.repair.stackFull.get false k.val
    let s := s.setStack k { s.stack k with st := if good then 1 else 2 }
    let s := { s with interleavedOk := (List.finRange 12).all fun j => (s.stack j).st = 1 }
    if good then s else s.edge 0 (8 + k.val)
/-- HBM_HOT_ENTER (R66): the stack reads above 85 °C, and its refresh rate doubles. TEMP_C changes at this event and the
next one only (DESIGN CHOICE, log entry 133). -/
def execHbmHotEnter (k : StackId) (temp : BitVec 8) (s : State) : Out :=
  s.ifOnly (!(s.stack k).hot && 85 < temp.toNat) fun s => s.setStack k { s.stack k with hot := true, tempC := temp }
/-- HBM_HOT_EXIT (R66): the stack has read 80 °C or less for 10 ms. -/
def execHbmHotExit (k : StackId) (temp : BitVec 8) (s : State) : Out :=
  s.ifOnly ((s.stack k).hot && temp.toNat ≤ 80) fun s => s.setStack k { s.stack k with hot := false, tempC := temp }

end Sys2Proof.Machine
end

