-- ==== Sys2Proof/Machine/Nyala.lean ====
section
/-!
DEFINITION. The line accesses and the end of a sweep of the memory encryption engine (Table 13.3, R381, R384, Table 13.5).
-/
namespace Sys2Proof.Machine

/-- A requester may reach a line of a window (R350, R394). The debug mailbox (`dbg`) acts for the non-secure herd that its
request names, under the HBM test rights, and for none while a secure herd exists (Table 13.7). -/
def State.admits (s : State) (dbg : Bool) (h : HerdId) (w : WinId) (off : Nat) (write : Bool) : Bool :=
  s.winOk h w && off % 64 = 0 && off < dataSize (s.win w).size &&
    (!dbg || ((s.lc.rights.getLsbD 4) && (!write || s.lc.rights.getLsbD 5) && !(s.herd h).secure
      && allHerds.all fun k => !(s.herdExists k && (s.herd k).secure)))
/-- A line access begins: the HBM lines of `bad` show their errors, the nodes of `evict` leave the cache, and the bytes are
metered (R347). -/
def State.lineStart (s : State) (h : HerdId) (w : WinId) (evict : List (Nat × Nat)) (bad : List Nat) : State × Status :=
  let (s, st) := (s.hbmFail w bad).evict w evict
  (s.meter h fun m => { m with hbmBytes := satAdd m.hbmBytes 64 }, st)
/-- LINE_READ (Table 13.3): `reply` takes the plaintext and `lineStatus` the status; a refused or failed read delivers
nothing, and one of a herd that is being revoked completes `HERD_REVOKED` (Table 12.10). -/
def execLineRead (dbg : Bool) (h : HerdId) (w : WinId) (off : Nat) (evict : List (Nat × Nat)) (bad : List Nat) (s : State) :
    Out :=
  s.ifOnly true fun s =>
    if !s.admits dbg h w off false then { s with reply := [], lineStatus := stNounBounds }
    else if (s.herd h).st != .live then { s with reply := [], lineStatus := stHerdRevoked }
    else
      let (s, st) := s.lineStart h w evict bad
      let (s, st, d) := if st != stOK then (s, st, []) else s.readLine w off
      { s with reply := d, lineStatus := st }
/-- LINE_WRITE (R381); `lineStatus` takes its status. A write of a herd that is being revoked is discarded (Table 12.10). -/
def execLineWrite (dbg : Bool) (h : HerdId) (w : WinId) (off : Nat) (start : Nat) (data : List Byte) (evict : List (Nat × Nat))
    (bad : List Nat) (s : State) : Out :=
  s.ifOnly (start + data.length ≤ 64) fun s =>
    if !s.admits dbg h w off true then { s with lineStatus := stNounBounds }
    else if (s.herd h).st != .live then { s with lineStatus := stHerdRevoked }
    else
      let (s, st) := s.lineStart h w evict bad
      let (s, st) := if st != stOK then (s, st) else s.writePart w off start data
      { s with lineStatus := st }
/-- The end of a sweep (Table 13.5): the old key is zeroized, pending rotations complete with the sweep time, and a sweep
that is due starts. -/
def State.sweepDone (s : State) (w : WinId) : State :=
  let s := s.sweep w
  let x := s.win w
  let s := match x.slotOf (!x.epoch) with | some n => s.zeroSlot n true | none => s
  let s := s.setWin w { x with epochSt := 0, sweepDue := false, rotations := [] }
  let s := x.rotations.foldl (fun s e =>
    s.complete e.1 stOK 0 (BitVec.ofNat 64 ((s.tb.now.toNat - e.2.toNat) / 1000 % 2 ^ 32))) s
  (if x.sweepDue || x.epochSt = 2 then s.startSweep w else s).resume w

end Sys2Proof.Machine
end

