-- ==== Sys2Proof/Machine/Interrupts.lean ====
section
/-!
DEFINITION. The interrupt controllers' claims, completions, deliveries and hold-offs (R454 to R462).
-/
namespace Sys2Proof.Machine

/-- A register access of a controller's own processor: nothing while the unit is off. -/
def State.icAccess (s : State) (f : State → State) : Out := .next (if s.pins.pwrGood then f s else s)
/-- IC_EDGE (R455). -/
def execIcEdge (c : IcId) (src : Fin 512) (s : State) : Out :=
  s.ifOnly (icSource (icIdx c) src.val && !icLevel (icIdx c) src.val) fun s => s.edge (icIdx c) src.val
/-- A target takes a source: it is active, an edge is no longer pending, and its group is held off (R457, R461). -/
def State.icTake (s : State) (c t src : Nat) : State :=
  let x := s.icAt c
  let g := icGroup c src
  s.setIc c { x with
    active := x.active.set 0 t (src + 1)
    edge := if icLevel c src then x.edge else x.edge.set false src false
    held := if x.holdoff.get 0 g = 0 then x.held else x.held.set false g true }
/-- A read of `IC_CLAIM_t` (R457). A request that was raised and that GDIS has withdrawn since answers 1023 (Table 16.17). -/
def State.icClaim (s : State) (c t : Nat) : State × Nat :=
  let x := s.icAt c
  if icTargets c ≤ t then (s, 0)
  else if x.active.get 0 t != 0 then (s, x.active.get 0 t - 1)
  else
    let quiet := fun (s : State) => s.setIc c { s.icAt c with raised := (s.icAt c).raised.set false t false }
    match if x.gdis && x.raised.get false t then none else s.icBest c t with
    | some src => (quiet (s.icTake c t src), src)
    | none => (quiet s, if x.raised.get false t then 1023 else 0)
/-- IC_CLAIM (R457). -/
def execIcClaim (c : IcId) (t : Fin 5) (s : State) : Out :=
  s.icAccess fun s =>
    let (s, n) := s.icClaim (icIdx c) t.val
    { s with reply := leBytes 4 n }
/-- A write of `IC_COMPLETE_t` (R458). -/
def State.icComplete (s : State) (c t src : Nat) : State :=
  let x := s.icAt c
  if t < icTargets c && x.active.get 0 t = src + 1 then
    let y := { x with active := x.active.set 0 t 0 }
    -- the latches of a beat end, a stop request or an ended stop beat have been handled
    let y := if (c = 0 && 52 ≤ src) || (c != 0 && src = 109) then { y with level := y.level.set false src false } else y
    (s.setIc c y).icNote
  else s
/-- IC_COMPLETE (R458). -/
def execIcComplete (c : IcId) (t : Fin 5) (src : BitVec 10) (s : State) : Out :=
  s.icAccess fun s => s.icComplete (icIdx c) t.val src.toNat
/-- IC_VECTOR_DELIVER (R459): a raised request in vector mode. -/
def execIcVectorDeliver (c : IcId) (t : Fin 5) (s : State) : Out :=
  let k := icIdx c
  s.ifOnly (t.val < icTargets k && (s.icAt k).vector && s.icRequest k t.val) fun s =>
    match s.icBest k t.val with
    | some src =>
      let s := s.icTake k t.val src
      let x := s.icAt k
      s.setIc k { x with entry := x.entry.set 0 t.val (BitVec.ofNat 32 (x.vectorBase.toNat * 16384 + 16 * src)) }
    | none => s
/-- A write of `IC_CTRL` (Table 16.3). -/
def State.icCtrl (s : State) (c : Nat) (v : W32) : State :=
  (s.setIc c { s.icAt c with gdis := v.getLsbD 0, vector := v.getLsbD 1, vectorBase := v.extractLsb' 14 18 }).icNote
/-- IC_CTRL_WRITE (R460). -/
def execIcCtrlWrite (c : IcId) (value : W32) (s : State) : Out := s.icAccess fun s => s.icCtrl (icIdx c) value
/-- IC_HOLDOFF_EXPIRY (R461). -/
def execIcHoldoffExpiry (c : IcId) (g : Fin 16) (s : State) : Out :=
  let k := icIdx c
  s.ifOnly ((s.icAt k).held.get false g.val) fun s =>
    (s.setIc k { s.icAt k with held := (s.icAt k).held.set false g.val false }).icNote

end Sys2Proof.Machine
end

