-- ==== Sys2Proof/Machine/Commit.lean ====
section
/-!
DEFINITION. Step commit (R317 to R324, Tables 10.10, 10.11 and 10.13): what the end of a step does, the commit beat's
events, what an abandoned step leaves (R135, R229), and `HRD_RESOLVE`.
-/
namespace Sys2Proof.Machine

/-! ## Tokens of the slice rounds (Table 07.10) -/

/-- The run is in its first beat. -/
def Run.first (r : Run) : Bool := r.pass = 0 && r.beat = 0
/-- A token belongs to the rounds in progress: a ready or a done token through the beat in progress, or, in the first beat
of a run, one through its sender's own first beat (R225). -/
def Herd.serves (x : Herd) (r : Run) (t : BeatToken) (ready : Bool) : Bool :=
  !t.stop && t.isReady == ready && (t.through = x.beatNow || (r.first && t.through = t.firstBeat))
/-- The token of round `k`. -/
def Herd.tokenAt (x : Herd) (r : Run) (k : Nat) (ready : Bool) : Option BeatToken :=
  (x.tokens.find? fun e => e.1 = k && x.serves r e.2 ready).map (·.2)
/-- The tokens of every round. -/
def Herd.roundTokens (x : Herd) (r : Run) (ready : Bool) : List BeatToken :=
  (List.range x.dims.length).filterMap fun k => x.tokenAt r k ready

/-! ## The end of a step -/

/-- What ends step t on this unit, without and under step commit alike: the tense flips (R317), the carry selectors flip
(R311), the ledger is appended (R313), the masks are cleared (R260), untaken norm partials are discarded (R306), and the
health unit acts on the increments combined over the slice (R134, R533). Those of a late block after its unit's done token
count here (DESIGN CHOICE, log entry 132). -/
def State.stepEnd (s : State) (h : HerdId) (toks : List BeatToken) : State × Status :=
  let t := (s.stepNo h).toNat
  let s := s.modHerd h fun x => { x with present := !x.present }
  let s := ((s.flipCarries h).flushLedger h t).clearMasks h t
  let s := s.modHerd h fun x =>
    { x.combine toks with
      norms := [], latched := {}, wrote := []
      run := x.run.map fun (q : Run) => { q with done := q.done + 1, wrote := [] } }
  s.healthBoundary h

/-- A range without another: what is left of it. -/
def cutRange (a c : Nat × Nat) : List (Nat × Nat) :=
  if a.1 + a.2 ≤ c.1 || c.1 + c.2 ≤ a.1 then [a]
  else [(a.1, c.1 - a.1), (c.1 + c.2, a.1 + a.2 - (c.1 + c.2))].filter fun r => r.2 != 0
/-- The present tense of every tensed array of the Sentence. -/
def Herd.presentArrays (x : Herd) : List (Nat × Nat) :=
  (((x.sentence.map (·.dcls)).getD []).flatMap fun i =>
    let n := dclElems i
    [(tensed i i.wBase x.present, elemBytes i.wFmt * n), (tensed i i.mBase x.present, elemBytes i.sFmt * n),
     (tensed i i.vBase x.present, elemBytes i.sFmt * n)]
      ++ (if i.sparse then [(tensed i i.lastBase x.present, 8 * i.rows)] else []))
/-- The part of a range that lies in the table of the health lot, without the words that the health unit writes and without
LOSS_TAG, which stay as they are (R132, R135). -/
def Herd.lostHealth (x : Herd) (a : Nat × Nat) : List (Nat × Nat) :=
  let b := x.healthAddr 0
  let lo := max a.1 b
  let hi := min (a.1 + a.2) (b + 0x80040)
  (List.range (cdiv (hi - lo / 4 * 4) 4)).filterMap fun k =>
    let w := lo / 4 * 4 + 4 * k
    if hi ≤ max lo w || isRoOff (w - b) || w - b = 0x80004 then none else some (max lo w, min hi (w + 4) - max lo w)
/-- Of the ranges an abandoned step wrote, those that become undefined: all but these words of the health lot, and under step
commit but the present tense (R229). -/
def Herd.lostRanges (x : Herd) (l : List (Nat × Nat)) : List (Nat × Nat) :=
  let l := l.flatMap fun a => cutRange a (x.healthAddr 0, 0x80040) ++ x.lostHealth a
  (if (x.sentence.map (·.commit)).getD false then x.presentArrays else []).foldl (fun l c => l.flatMap fun a => cutRange a c) l
/-- A step is abandoned (R135, R229): its increments, combined over the slice, reach the counters; its pending ledger
entries, carry copies and norm partials are gone; what it wrote is undefined. The unit is OPEN (Table 10.13). -/
def State.abandonStep (s : State) (h : HerdId) (peers : List BeatToken) : State :=
  let s := (s.modHerd h fun x => x.combine peers).healthAbandon h
  let x := s.herd h
  let l := (x.run.map (·.wrote)).getD [] ++ x.wrote
  let s := (x.lostRanges l).foldl (fun s r => s.spoil h r.1 r.2) s
  s.modHerd h fun y =>
    { y with
      pendLedger := [], written := [], captures := [], wrote := [], norms := [], latched := {}
      commit := .opened, recorded := false, hbmRecorded := false }

/-! ## The commit beat (Table 10.10) -/

/-- The MAC of an MRAM commit-log entry under SEAL (R419). -/
def State.commitMac (s : State) (h : HerdId) (step : W48) (present : Bool) : List Byte :=
  hmac (s.slot 8).secret (leBytes 1 h.val ++ leBytes 8 (step.toNat + b2n present * 2 ^ 48))
/-- Record: the herd's MRAM log entry becomes (step t, tense after the flip). -/
def State.recordCommit (s : State) (h : HerdId) : State :=
  let t := s.stepNo h
  let p := !(s.herd h).present
  let s := { s with tahr := { s.tahr with
    commits := s.tahr.commits.set none h.val (some { step := t, present := p, mac := s.commitMac h t p }) } }
  s.modHerd h fun x => { x with recorded := true }
/-- The herd's MRAM commit-log entry: one whose MAC fails is treated as absent (R419). -/
def State.commitEntry (s : State) (h : HerdId) : Option CommitLog :=
  (s.tahr.commits.get none h.val).filter fun e => e.mac == s.commitMac h e.step e.present
/-- The unit has recorded commit of the step in progress. -/
def State.hasRecorded (s : State) (h : HerdId) : Bool := (s.herd h).recorded && (s.commitEntry h).isSome
/-- The bytes of the HBM commit record (Table 10.11). Once the run has stopped, the commit beat is the last that ended. -/
def State.commitBytes (s : State) (h : HerdId) : List Byte :=
  let x := s.herd h
  let beat := if x.run.isSome then x.beatNow else x.beatNow - 1
  let n := ((x.pendLedger.map (·.1)).eraseDups).length
  leBytes 8 ((s.stepNo h).toNat + b2n (!x.present) * 2 ^ 48) ++ leBytes 8 beat.toNat
    ++ sliceBytes ((x.sentence.map (·.meas)).getD []) 0 32 ++ leBytes 4 ((x.ledgerCount.toNat + n) % 2 ^ 20)
    ++ List.replicate 12 0
/-- HBM record. A write that ends `INTEGRITY_UNVERIFIABLE` counts as acknowledged (Table 13.10); any other that fails leaves the
record unwritten. The status stops the run like that of any bad node met during a run (DEDUCED, log entry 138). -/
def State.hbmCommit (s : State) (h : HerdId) : State × Status :=
  let (s, st) := s.wr h (s.herd h).commitAddr.toNat (s.commitBytes h)
  (if st == stOK || st == stUnverifiable then s.modHerd h fun x => { x with hbmRecorded := true } else s, st)
/-- Flip. -/
def State.flipCommit (s : State) (h : HerdId) : State × Status :=
  let t := s.stepNo h
  let x := s.herd h
  let toks := (x.run.map fun r => x.roundTokens r true).getD []
  let s := s.modHerd h fun x =>
    { x with
      committed := t, commitValid := true, commit := .opened, recorded := false, hbmRecorded := false
      run := x.run.map fun (q : Run) => { q with flipped := true, round := 0 } }
  s.stepEnd h toks
/-- A unit that is RECORDING finishes what is left of its commit (R321). -/
def State.finishCommit (s : State) (h : HerdId) : State :=
  if (s.herd h).commit != .recording then s
  else
    let s := if s.hasRecorded h then s else s.recordCommit h
    let (s, st) := if (s.herd h).hbmRecorded then (s, stOK) else s.hbmCommit h
    if (s.herd h).hbmRecorded || st == stOK then (s.flipCommit h).1 else s

/-- COMMIT_READY: the commit beat is the pass's last (R318); its final segments and every capture are done. -/
def execCommitReady (h : HerdId) (s : State) : Out :=
  let x := s.herd h
  match x.run, x.sentence with
  | some r, some m =>
    s.ifOnly (x.active && m.commit && r.beat + 1 = m.beats && x.commit == .opened && !r.flipped && x.captures.isEmpty
        && s.localDone h r.pass r.beat) fun s =>
      (s.modHerd h fun x =>
        { x with commit := .ready, run := x.run.map fun (q : Run) => { q with round := 0 } }).sendToken h 0
  | _, _ => .next s
/-- COMMIT_ALL_READY: slice round j - 1 of the ready tokens has finished; Tahr is asked to record. -/
def execCommitAllReady (h : HerdId) (s : State) : Out :=
  let x := s.herd h
  match x.run with
  | some r =>
    s.ifOnly (x.st == .live && x.commit == .ready && r.round = x.dims.length && !r.mismatch) fun s =>
      s.modHerd h fun x => { x with commit := .recording, recorded := false, hbmRecorded := false }
  | none => .next s
/-- COMMIT_RECORD. -/
def execCommitRecord (h : HerdId) (s : State) : Out :=
  let x := s.herd h
  s.ifOnly (x.st == .live && x.commit == .recording && !s.hasRecorded h) fun s => s.recordCommit h
/-- COMMIT_HBM_RECORD. -/
def execCommitHbmRecord (h : HerdId) (s : State) : Out :=
  let x := s.herd h
  s.ifOnly (x.st == .live && x.commit == .recording && s.hasRecorded h && !x.hbmRecorded) fun s =>
    State.itemEnd h (s.hbmCommit h)
/-- COMMIT_FLIP. -/
def execCommitFlip (h : HerdId) (s : State) : Out :=
  let x := s.herd h
  s.ifOnly (x.st == .live && x.commit == .recording && x.hbmRecorded) fun s => State.itemEnd h (s.flipCommit h)

/-! ## `HRD_RESOLVE` (R323) -/

/-- A write of `HRD_RESOLVE` with ACTION FORWARD or BACK. -/
def State.resolve (s : State) (h : HerdId) (forward : Bool) : State :=
  if (s.herd h).commit != .unresolved then s.evtHerd h 0x0008 (leBytes 1 (if forward then 2 else 1))
  else if forward then
    s.modHerd h fun x => { x with commit := .recording, recorded := false, hbmRecorded := false }
  else s.abandonStep h []
end Sys2Proof.Machine
end

