-- ==== Sys2Proof/Machine/Beats.lean ====
section
/-!
DEFINITION. Beats (R215, R216, R219 to R229, Tables 07.10 and 07.11): who signals when, the slice rounds, the end of a
beat, and the stop of a run.
-/
namespace Sys2Proof.Machine

/-! ## Done tokens of one unit -/

/-- A block starts its next pass, or is IDLE after the last. -/
def Block.nextPass (x : Block) (steps : Nat) : Block :=
  if x.pass + 1 < steps then
    { x with st := .issue, pass := x.pass + 1, pos := 0, seg := 0, seen := 0, doneSegs := 0 }
  else { x with st := .idle }
/-- A missed contribution that segment `k` of pass `pass` wrote is still to be captured (R311). -/
def Herd.captureDue (x : Herd) (m : Sentence) (pass k : Nat) : Bool :=
  x.captures.any fun c => c.2.2 = pass && (itemsIn m 1 k).contains c.1
/-- BLOCK_DONE: the block's next segment is complete, and it signals it. At its last, it waits at the end of the pass. -/
def execBlockDone (b : BlockId) (s : State) : Out :=
  let x := s.block b
  match s.owner b with
  | none => .next s
  | some h =>
    match (s.herd h).workRun, (s.herd h).sentence with
    | some r, some m =>
      s.ifOnly ((s.herd h).working && (x.st == .issue || x.st == .held) && x.doneSegs < x.seg
          && x.segComplete x.pass x.doneSegs && !(s.herd h).captureDue m x.pass x.doneSegs) fun s =>
        let x := { x with doneSegs := x.doneSegs + 1 }
        s.setBlock b (if x.doneSegs != m.beats then x
          else if x.seen = m.beats then x.nextPass r.steps.toNat else { x with st := .passEnd })
    | _, _ => .next s
/-- A block has signalled its segment of the beat in progress. -/
def Block.signalled (x : Block) (r : Run) : Bool := r.pass < x.pass || (x.pass = r.pass && r.beat < x.doneSegs)
/-- The Clause-running blocks of a mesh row. -/
def State.rowBlocks (s : State) (h : HerdId) (r : Nat) (row : Nat) : List BlockId :=
  (s.runBlocks h).filter fun b => regionOf b = r && s.meshRow b = row
/-- ROW_DONE. -/
def execRowDone (h : HerdId) (r : RegionId) (row : Fin 10) (s : State) : Out :=
  let x := s.herd h
  match x.run with
  | some q =>
    let l := s.rowBlocks h r.val row.val
    s.ifOnly (x.active && !l.isEmpty && (l.all fun b => (s.block b).signalled q) && !q.rows.contains (r.val * 10 + row.val))
      fun s => s.modHerd h fun x =>
        { x with run := x.run.map fun (q : Run) => { q with rows := q.rows ++ [r.val * 10 + row.val] } }
  | none => .next s
/-- Every mesh row with a Clause-running block of the herd has sent its token. -/
def State.rowsDone (s : State) (h : HerdId) (q : Run) : Bool :=
  (s.runBlocks h).all fun b => q.rows.contains (regionOf b * 10 + s.meshRow b)
/-- The unit missed a PATIENT item of the beat: its blocks are not awaited (R309). -/
def State.missedNow (s : State) (h : HerdId) (m : Sentence) (beat : Nat) : Bool :=
  (itemsIn m 1 beat).any fun e => (s.redRun h e).missed
/-- The routes of a beat, with their indices. -/
def routesIn (m : Sentence) (beat : Nat) : List (RouteEnt × Nat) := m.routes.zipIdx.filter fun e => e.1.beat = beat
/-- The fabric engine and the declension units are done for the beat (R219, R291, R307, R318). -/
def State.enginesDone (s : State) (h : HerdId) (m : Sentence) (r : Run) : Bool :=
  let x := s.herd h
  let pos := s.slicePos x
  ((itemsIn m 1 r.beat).all fun e => (s.redRun h e).done && s.redAcked h e)
    && ((itemsIn m 2 r.beat).all fun k => r.items.contains (2, k))
    && ((routesIn m r.beat).all fun e => routeDone m.det e.1 (x.routes.get {} e.2) pos (r.items.contains (0, e.2)))
    && (!(m.commit && r.beat + 1 = m.beats) || r.flipped)
/-- UNIT_DONE: slice round 0 begins. -/
def execUnitDone (h : HerdId) (s : State) : Out :=
  let x := s.herd h
  match x.run, x.sentence with
  | some r, some m =>
    s.ifOnly (x.active && !r.unitDone && (s.rowsDone h r || s.missedNow h m r.beat) && s.enginesDone h m r) fun s =>
      (s.modHerd h fun x =>
        { x with run := x.run.map fun (q : Run) => { q with unitDone := true, round := 0 } }).sendToken h 0
  | _, _ => .next s

/-! ## Slice rounds -/

/-- What the first beat of a run compares (R225, R324). Under step commit a done token of a one-beat pass comes after the
flip, and its COMMITTED and PRESENT are those of the step before no more. -/
def Herd.differs (x : Herd) (r : Run) (m : Sentence) (t : BeatToken) (ready : Bool) : Bool :=
  t.meas != m.meas || t.steps != r.steps || t.firstBeat != r.beat0
    || (m.commit && (ready || 1 < m.beats) && (t.committed != x.committed || t.present != x.present))
/-- SLICE_ROUND: the neighbour's token of the round has arrived; the next round's goes out. -/
def execSliceRound (h : HerdId) (s : State) : Out :=
  let x := s.herd h
  match x.run, x.sentence with
  | some r, some m =>
    let ready := x.commit == .ready
    match x.tokenAt r r.round ready with
    | none => .next s
    | some t =>
      s.ifOnly (x.active && (ready || r.unitDone) && r.round < x.dims.length) fun s =>
        let bad := t.mismatch || (r.first && x.differs r m t ready)
        (s.modHerd h fun x =>
          { x with run := x.run.map fun (q : Run) =>
              { q with round := q.round + 1, mismatch := q.mismatch || bad, dropped := q.dropped || t.dropped } }).sendToken h
          (r.round + 1)
  | _, _ => .next s

/-! ## The end of a run -/

/-- The block has not yet run its Clause to the end. -/
def Block.late (x : Block) : Bool := x.st == .issue || x.st == .held
/-- No peer of the herd has told of a stop of the next run yet. -/
def State.clearHalted (s : State) (h : HerdId) : State :=
  ((s.herd h).dims).foldl (fun s d =>
    ((s.dimAt d).map.entries.filter fun e => e.2 = h.val + 1).foldl (fun s e =>
      let key := d.val * 32 + e.1
      { s with streams := s.streams.set {} key { s.streams.get {} key with halted := false } }) s) s
/-- A run completes: the herd is READY, its blocks are IDLE but for late ones (R309), and the quiesce orders that waited complete `OK`. `extra` counts a
step whose commit is recorded. Frames that came early for the next run stay (R291). -/
def State.endRun (s : State) (h : HerdId) (st : Status) (extra : Nat) : State :=
  let x := s.herd h
  match x.run with
  | none => s
  | some r =>
    let d := x.runDetail { r with done := r.done + BitVec.ofNat 64 extra }
    let s := s.modHerd h fun x => { x with seq := .ready, run := none, tokens := [], latched := {}, inputs := [], norms := [] }
    let late := x.seq == .running
    let s := (s.blocksOf h).foldl (fun s b => s.modBlock b fun y => if late && y.late then y else { y with st := .idle }) s
    let s := (s.clearHalted h).meterFlush h
    if r.closed then s
    else r.quiesces.foldl (fun s q => s.done q stOK) (s.complete r.ref st 0 d)

/-! ## The end of a beat -/

/-- What is left of a route's counts once its beat has ended. -/
def routeLeft (det : Bool) (e : RouteEnt) (q : RouteRun) (pos : Nat) : RouteRun :=
  let n := if det then routeFrames e * (b2n (routeSends e pos) + routeVia e pos) else q.acked
  { sent := q.sent - n, acked := q.acked - n, got := q.got - (if routeTakes e pos then e.bytes else 0) }
/-- What is left of an item once its beat has ended: frames that came early for the next pass. -/
def redLeft (q : RedRun) : RedRun := { early := q.early, budget := !q.early.isEmpty }
/-- The beat's own state is done with, and `HRD_BEAT_NOW` advances. -/
def Herd.closeBeat (x : Herd) (r : Run) (m : Sentence) (pos : Nat) : Herd :=
  let last := r.beat + 1 = m.beats
  let now := x.beatNow + 1
  { x with
    beatNow := now
    reds := (itemsIn m 1 r.beat).foldl (fun t e => t.set {} e (redLeft (t.get {} e))) x.reds
    routes := (routesIn m r.beat).foldl (fun t e => t.set {} e.2 (routeLeft m.det e.1 (t.get {} e.2) pos)) x.routes
    tokens := x.tokens.filter fun e =>
      !(x.serves r e.2 true || x.serves r e.2 false) && (e.2.through - now).toNat < 2 ^ 47
    run := x.run.map fun (q : Run) =>
      { q with
        pass := if last then r.pass + 1 else r.pass
        beat := if last then 0 else r.beat + 1
        rows := [], items := [], unitDone := false, round := 0, ended := q.ended + 1, flipped := false } }
/-- The start of the next beat: staged values take effect, the units latch, and replay judges the beat's items. -/
def State.startBeat (s : State) (h : HerdId) : State :=
  let s := s.modHerd h fun x => x.boundary x.beatNow
  match (s.herd h).run with
  | some r => ((s.latchBeat h r.beat).latchInputs h r.beat).replayBeat h r.beat
  | none => s
/-- A run has completed all its steps: blocks that a miss left behind go on by themselves (R309). -/
def State.leaveLate (s : State) (h : HerdId) (r : Run) : State :=
  s.modHerd h fun x => { x with tail := if (s.blocksOf h).any fun b => (s.block b).late then some r else none }
/-- A beat ends on this unit. -/
def State.endBeat (s : State) (h : HerdId) (r : Run) (m : Sentence) : State :=
  let last := r.beat + 1 = m.beats
  let toks := (s.herd h).roundTokens r false
  let (s, st) := if last && !m.commit then s.stepEnd h toks else (s, stOK)
  let pos := s.slicePos (s.herd h)
  let s := s.modHerd h fun x => x.closeBeat r m pos
  let s := (s.meter h fun q => { q with beats := satAdd q.beats 1 }).meterFlush h
  let s := s.tellRegions h
  match (s.herd h).run with
  | none => s
  | some q =>
    let stop := fun (q : Run) => s.modHerd h fun x => { x with run := some { q with between := true, stopAtEnd := false } }
    if st != stOK then (stop q).stopHere h st 0
    else if q.stopAtEnd then (stop { q with atBoundary := last }).haltBlocks h
    else if last && q.done = q.steps then (s.endRun h (if q.dropped then stLateDropped else stOK) 0).leaveLate h q
    else s.startBeat h
/-- BEAT_END: the unit is done and round j - 1 has finished. A mismatch under R225 or R324 makes the beat a stop beat
instead (R227). -/
def execBeatEnd (h : HerdId) (s : State) : Out :=
  let x := s.herd h
  match x.run, x.sentence with
  | some r, some m =>
    if r.mismatch then
      s.ifOnly (x.active && (x.commit == .ready || (r.unitDone && x.commit == .opened)) && r.round = x.dims.length) fun s =>
        s.stopHere h stCfgInvalid 0
    else
      s.ifOnly (x.active && r.unitDone && x.commit == .opened && r.round = x.dims.length) fun s =>
        s.endBeat h r m
  | _, _ => .next s
/-- BEAT_END_SEEN: a block receives the end of the next beat it has not seen (Table 07.11). An IDLE or HALT block ignores
it. -/
def execBeatEndSeen (b : BlockId) (s : State) : Out :=
  let x := s.block b
  if x.st == .idle || x.st == .halt then s.ifOnly true id
  else match s.owner b with
  | none => .next s
  | some h =>
    match (s.herd h).workRun, (s.herd h).sentence with
    | some r, some m =>
      s.ifOnly (x.pass * m.beats + x.seen < r.ended && x.seen < m.beats) fun s =>
        let x := { x with seen := x.seen + 1 }
        s.setBlock b (if x.st == .passEnd && x.seen = m.beats then x.nextPass r.steps.toNat else x)
    | _, _ => .next s

/-! ## Stops (R224, R227 to R229, R321, R322) -/

/-- BEAT_TIMEOUT: a beat, or a stop beat, has stayed open longer than BEAT_LIMIT_MS. In STOPPING it is recorded (Table 07.12). -/
def execBeatTimeout (h : HerdId) (s : State) : Out :=
  let x := s.herd h
  s.ifOnly ((x.active || (x.seq == .stopping && x.run.isSome)) && ((x.sentence.map (·.beatLimitMs)).getD 0) != 0) fun s => s.stopHere h stBeatTimeout 0
/-- The run lets its beat in progress end, then stops: what `HERD_QUIESCE` alone asks (R227). -/
def State.stopLater (s : State) (h : HerdId) (f : FaultRec) : State :=
  let was := (s.herd h).seq
  let s := s.modHerd h fun x =>
    { x with seq := .stopping
             run := x.run.map fun (q : Run) =>
               { q with faults := q.faults ++ [f], stopAtEnd := q.stopAtEnd || x.seq == .running } }
  if was == .running then s.sendStop h else s
/-- A stop request with a fault of some participant reaches this unit. -/
def State.stopWith (s : State) (h : HerdId) (f : FaultRec) : State :=
  if f.status = 0x01 then s.stopLater h f else s.stop h f
/-- STOP_REQUEST. -/
def execStopRequest (h : HerdId) (f : FaultRec) (s : State) : Out :=
  s.ifOnly ((s.herd h).run.isSome) fun s => s.stopWith h f
/-- The rank of a fault's status: the first decides (R228). -/
def faultRank (st : BitVec 8) : Nat :=
  if st = 2 then 0 else if st = 4 then 1 else if st = 3 then 2
  else if 0x40 ≤ st.toNat && st.toNat < 0x60 then 3 + (st.toNat - 0x40)
  else if st = 5 then 40 else if st = 0x0B then 41 else if st = 6 then 42 else if st = 1 then 43 else 44
/-- A fault decides over another: rank, then the lowest beat number (R222), slice position and herd block index. -/
def faultBefore (a b : FaultRec) : Bool :=
  let earlier := fun (x y : W48) => x != y && (y - x).toNat < 2 ^ 47
  if faultRank a.status != faultRank b.status then faultRank a.status < faultRank b.status
  else if a.beat != b.beat then earlier a.beat b.beat
  else if a.slicePos != b.slicePos then a.slicePos < b.slicePos
  else a.herdBlock < b.herdBlock
/-- The status that a run completes with, among the faults gathered. -/
def decide_ : List FaultRec → Status
  | [] => stSuperseded
  | f :: l => ((l.foldl (fun a b => if faultBefore b a then b else a) f).status).setWidth 16
/-- The stop beat has ended: `HRD_BEAT_NOW` passes it. -/
def State.passStopBeat (s : State) (h : HerdId) (r : Run) : State := s.modHerd h fun x => { x with beatNow := x.afterStop r }
/-- The stop beat ends on this unit, the tokens of its peers gathered: the step t in progress is resolved (R321) or abandoned
(R229), and the run completes. A peer has recorded t when it says so, or when its COMMITTED is t already (Tables 10.12 and 10.13). -/
def State.endStop (s : State) (h : HerdId) (r : Run) (m : Sentence) (peers : List BeatToken) : State :=
  let toks := (s.herd h).roundTokens r true
  let s := s.passStopBeat h r
  let x := s.herd h
  let t := s.stepNo h
  let st := decide_ (r.faults ++ peers.flatMap (·.faults))
  if x.st == .revoking then
    (s.modHerd h fun y => { y with commit := .opened, recorded := false, hbmRecorded := false }).endRun h st 0
  else if r.flipped || r.atBoundary then s.endRun h st 0
  else if m.commit && x.commit == .recording then
    (s.modHerd h fun y => y.combine toks).endRun h st 1
  else if m.commit && x.commit == .ready && peers.any (fun p => p.recorded || p.committed == t) then
    (s.modHerd h fun y => { y.combine peers with commit := .recording, recorded := false, hbmRecorded := false }).endRun h st 1
  else (s.abandonStep h peers).endRun h st 0
/-- STOP_BEAT_END: every participant has halted; `peers` are the tokens of the other units of the slice. A unit whose herd
is being revoked ends alone. Chip source 52 + h is raised (Table 16.1). -/
def execStopBeatEnd (h : HerdId) (peers : List BeatToken) (s : State) : Out :=
  let x := s.herd h
  match x.run, x.sentence with
  | some r, some m =>
    s.ifOnly (x.seq == .stopping && !r.stopAtEnd && (x.st == .revoking || peers.length + 1 = 2 ^ x.dims.length)) fun s =>
      (s.endStop h r m peers).latchLevel 0 (52 + h.val) true
  | _, _ => .next s
/-- STOP_LIMIT_EXPIRY: the stop beat ends on each unit alone (R322). -/
def execStopLimitExpiry (h : HerdId) (s : State) : Out :=
  let x := s.herd h
  match x.run, x.sentence with
  | some r, some m =>
    s.ifOnly (x.st == .live && m.commit && x.seq == .stopping && !r.stopAtEnd) fun s =>
      if x.commit == .ready && !r.flipped then
        let step := (s.stepNo h).toNat
        let s := s.modHerd h fun y => { y.combine (y.roundTokens r true) with commit := .unresolved, wrote := r.wrote }
        let s := s.passStopBeat h r
        ((s.evtHerd h 0x0007 (leBytes 8 step)).endRun h (decide_ r.faults) 0).latchLevel 0 (52 + h.val) true
      else (s.endStop h r m []).latchLevel 0 (52 + h.val) true
  | _, _ => .next s

/-! ## BEAT frames -/

/-- A stop request that asks for no more than the end of the beat in progress: it comes of a `HERD_QUIESCE` alone (R227). -/
def gentleStop (t : BeatToken) : Bool := t.stop && t.faults.all fun f => f.status = 0x01
/-- A token tells that every frame its sender sent before it has been acknowledged (R219, R291), or belongs to a run that has halted:
DATA and REDUCE frames of the stream with lower counters have no effect any more. -/
def State.markToken (s : State) (d : DimId) (f : Frame) (t : BeatToken) : State :=
  if gentleStop t then s
  else
    let key := d.val * 32 + f.herd.toNat
    let x := s.streams.get {} key
    if x.cut < f.counter then { s with streams := s.streams.set {} key { x with cut := f.counter, halted := t.stop } } else s
/-- BEAT_FRAME: a token of the herd's stream. A token with a stop brings the faults its sender knows; any other waits for its
slice round, and a stop waits where the unit's own run has not started. -/
def execBeatFrame (n : LaneId) (f : Frame) (tok : BeatToken) (s : State) : Out :=
  s.onFrame n f 3 fun s h d _ =>
    let s := s.markToken d f tok
    if tok.stop && (s.herd h).run.isSome then tok.faults.foldl (fun s f => s.stopWith h f) s
    else match (s.herd h).sliceBit d with
    | some k => s.modHerd h fun x => { x with tokens := x.tokens ++ [(k, tok)] }
    | none => s

end Sys2Proof.Machine
end

