-- ==== Sys2Proof/Machine/Runs.lean ====
section
/-!
DEFINITION. Loading and running a Sentence (R207, R225, R312, Table 07.12), and what a herd's quiesce does.
-/
namespace Sys2Proof.Machine

/-! ## `SENTENCE_LOAD` -/

/-- A load starts: the image is read and checked, and late blocks of the Sentence it replaces stop. The Sentence it replaces is kept for R312. -/
def State.startLoad (s : State) (ref : OrderRef) (h : HerdId) (addr : W64) (bytes : W32) : State :=
  let l := s.loadOf h ref addr.toNat bytes.toNat
  (if (s.herd h).tail.isSome then s.haltBlocks h else s).modHerd h fun x =>
    { x with seq := .loading, load := some l, tail := none }
/-- `SENTENCE_LOAD` by the herd's state (Table 07.12). -/
def State.sentenceLoad (s : State) (o : Order) (addr : W64) (bytes : W32) : State :=
  let h := o.herd
  if addr.toNat % 64 != 0 then s.done (refOf o) stCfgInvalid
  else
    match (s.herd h).seq with
    | .loading => s.modHerd h fun x => { x with loadQueue := x.loadQueue ++ [o] }
    | .running | .stopping => s.done (refOf o) stCfgInvalid
    | _ => (s.finishCommit h).startLoad (refOf o) h addr bytes
/-- One carry slot of a replaced Sentence: a VALID current copy becomes a `CARRY_DISCARDED` entry, while the ledger has
room and REPLAY is 0 (R315), and is VALID no more (R312). -/
def State.discardCarry (s : State) (h : HerdId) (i : RedItem) (e slot : Nat) : State :=
  match s.carryNow h i slot with
  | (s, _, c, due, some _) =>
    let x := s.herd h
    let s := if x.replay then s else if x.ledgerCount < x.ledgerCap then s.appendLedger h due e 2
      else s.modHerd h fun y => { y with ledgerFull := true }
    (s.wr h (carryCopy i slot c) (leBytes 8 due)).1
  | (s, _, _, _, none) => s
/-- Every carry slot of a replaced Sentence, by item and slot. -/
def State.discardCarries (s : State) (h : HerdId) (m : Sentence) : State :=
  m.reds.zipIdx.foldl (fun s e =>
    if carries e.1 then (List.range m.carryD).foldl (fun s k => s.discardCarry h e.1 e.2 k) s else s) s
/-- A load queued behind the one that has ended starts. -/
def State.nextLoad (s : State) (h : HerdId) : State :=
  match (s.herd h).loadQueue with
  | [] => s
  | o :: rest =>
    let s := s.modHerd h fun x => { x with loadQueue := rest }
    match o.op with
    | .sentenceLoad a n => s.startLoad (refOf o) h a n
    | _ => s
/-- A load ends: the Sentence is loaded, or the herd has none (R207). -/
def State.endLoad (s : State) (h : HerdId) (l : LoadRun) : State :=
  match l.result with
  | none =>
    let s := s.modHerd h fun x => { x with seq := .empty, load := none, sentence := none, lastCheck := l.code }
    (s.complete l.ref (l.status.setWidth 16) l.code (l.where_.setWidth 64)).nextLoad h
  | some m =>
    let s := match (s.herd h).sentence with
      | some old =>
        if old.meas != m.meas then (s.discardCarries h old).modHerd h fun x => { x with reds := {}, routes := {} } else s
      | none => s
    let s := s.modHerd h fun x => { x with seq := .ready, load := none, sentence := some m, lastCheck := 0 }
    (s.done l.ref stOK).nextLoad h
/-- SENTENCE_LOAD_DONE. -/
def execSentenceLoadDone (h : HerdId) (s : State) : Out :=
  match (s.herd h).load with
  | some l => s.ifOnly ((s.herd h).seq == .loading) fun s => s.endLoad h l
  | none => .next s

/-! ## `SENTENCE_RUN` -/

/-- The Noun table entries that a verb names (R178). -/
def verbNouns : Verb → List (BitVec 6)
  | .agBind o => [o.noun]
  | .vld o => [o.noun]
  | .vst o => [o.noun]
  | .mov o => [o.src, o.dst]
  | .setr o => if o.fromNoun = 1 then [o.noun] else []
  | _ => []
/-- The Clause of a herd block on this unit (R203). -/
def State.clauseOf (s : State) (h : HerdId) (m : Sentence) (b : BlockId) : List VerbWord :=
  let pos := BitVec.ofNat 15 (s.slicePos (s.herd h))
  let i := s.herdIndex h b
  ((m.clauses.find? fun c => c.herdBlock = i && pos &&& c.mask == c.mtch).map (·.verbs)).getD []
/-- A Noun's accesses are admitted: its window, if it names one, is held and not DAMAGED (R54, R391). -/
def State.admitsNoun (s : State) (h : HerdId) (n : Noun) : Bool := n.kind != 2 || s.allocHeld h n
/-- R178 holds on every block that runs a Clause, none of them is fenced, and the Nouns' windows admit accesses (R391). -/
def State.nounsLive (s : State) (h : HerdId) (m : Sentence) : Bool :=
  (s.blocksOf h).all fun b =>
    let c := s.clauseOf h m b
    c.isEmpty || (!(s.block b).fenced && c.all fun w => (verbNouns w.verb).all fun e => (s.nounAt b e).any (s.admitsNoun h))
/-- The checks that let a run start (R18, R131, R178, R250, R314, R322, Table 10.14). -/
def State.runAllowed (s : State) (h : HerdId) (m : Sentence) (steps : W32) : Bool :=
  let x := s.herd h
  steps != 0 && x.seq == .ready && x.commit != .unresolved && !s.repair.unitFault
    && x.healthValid && s.holdsLot h x.healthLot.toNat && s.nounsLive h m && s.dclRunOk h m.dcls
    && (!m.commit || s.heldArray h x.commitAddr.toNat 64)
    && (!(m.reds.any (·.patient)) || x.ledgerCap = 0 || s.heldArray h x.ledgerBase.toNat (16 * x.ledgerCap.toNat))
/-- The seeds of a run (R172): drawn ones are drawn anew. -/
def State.takeSeeds (s : State) (h : HerdId) : State × Tbl W64 :=
  (List.range 64).foldl (fun (a : State × Tbl W64) n =>
    let x := a.1.herd h
    if x.rngDraw.getLsbD n then let (s, v) := a.1.draw; (s, a.2.set 0 n (v.setWidth 64))
    else (a.1, a.2.set 0 n (x.rngSeed.get 0 n))) (s, {})
/-- A block as a run starts it: cleared under R103 and R149, its Clause in its store. -/
def Block.startRun (x : Block) (clause : List VerbWord) (seeds : Tbl W64) : Block :=
  { x with
    st := if clause.isEmpty then .idle else .issue
    pos := 0, seg := 0, seen := 0, doneSegs := 0, pass := 0, clause := clause, flags := 0, seeds := seeds
    ags := {}, pairs := {}, vcells := {} }
/-- Stop requests of slice peers that came before the run started (R227); one of an earlier run, through a beat that has
ended, is void. -/
def State.earlyStops (s : State) (h : HerdId) : State :=
  let x := s.herd h
  (x.tokens.filter fun e => e.2.stop && !beatBefore e.2.through x.beatNow).foldl
    (fun s e => e.2.faults.foldl (fun s f => s.stopWith h f) s) s
/-- A run starts (R225). What frames of slice peers that started before it have brought is kept. -/
def State.startRun (s : State) (ref : OrderRef) (h : HerdId) (m : Sentence) (steps : W32) : State :=
  let (s, seeds) := s.takeSeeds h
  let s := (s.blocksOf h).foldl (fun s b =>
    let c := s.clauseOf h m b
    s.modBlock b fun x => x.startRun c seeds) s
  let s := s.modHerd h fun x =>
    ({ x with
       seq := .running, tail := none, unitSeeds := seeds, incs := {}, norms := [], latched := {}
       written := [], pendLedger := [], captures := [], wrote := []
       run := some { ref := ref, steps := steps.setWidth 64, beat0 := x.beatNow } } : Herd).runBoundary x.beatNow
  let s := (((s.latchBeat h 0).latchInputs h 0).replayBeat h 0).earlyStops h
  if s.redRunOk h m && s.routeRunOk h m then s else s.stopHere h stCfgInvalid 0
/-- `SENTENCE_RUN`. -/
def State.sentenceRun (s : State) (ref : OrderRef) (h : HerdId) (steps : W32) : State :=
  let s := s.finishCommit h
  match (s.herd h).sentence with
  | some m => if s.runAllowed h m steps then s.startRun ref h m steps else s.done ref stCfgInvalid
  | none => s.done ref stCfgInvalid

/-! ## `HERD_QUIESCE` (Table 07.12) -/

/-- `HERD_QUIESCE` by the herd's state. In LOADING it ends the load in progress; a load queued behind that one then
starts, as after any load. -/
def State.herdQuiesce (s : State) (ref : OrderRef) (h : HerdId) : State :=
  let x := s.herd h
  match x.seq with
  | .loading =>
    let s := match x.load with | some l => s.done l.ref stSuperseded | none => s
    let s := s.modHerd h fun y => { y with seq := .empty, load := none, sentence := none, lastCheck := 0 }
    (s.done ref stOK).nextLoad h
  | .running | .stopping =>
    let f : FaultRec := { status := 0x01, beat := x.beatNow, slicePos := s.slicePos x, herdBlock := 0 }
    let s := if x.seq == .running then s.stopLater h f else s
    s.modHerd h fun y => { y with run := y.run.map fun (q : Run) => { q with quiesces := q.quiesces ++ [ref] } }
  | _ => s.done ref stOK

end Sys2Proof.Machine
end

