-- ==== Sys2Proof/Machine/RegMap.lean ====
section
/-!
DEFINITION. The register maps (chapter 19 and the maps its tables name): for each register word its fields, their access
types, present values, reserved encodings, lock conditions (Table 19.7) and what an accepted value does.
-/
namespace Sys2Proof.Machine

/-- Access types (R6). -/
inductive Acc where
  | ro | wo | rw | rwl | rws | w1c
deriving DecidableEq, Repr

/-- A field: its place, access type, present value, what a read returns, reserved values, whether its unit runs, and what an
accepted value does. -/
structure Field where
  lo : Nat
  len : Nat
  acc : Acc
  val : Nat
  shown : Nat
  bad : Nat → Bool
  busy : Bool
  put : State → Nat → State

/-- A register: its first offset, whether it is 64 bits wide, whether it belongs to the configuration image (Table 17.4),
the claim a read makes (controller and target), and its fields. -/
structure Reg where
  off : Nat
  wide : Bool := false
  img : Bool := false
  claim : Option (Nat × Nat) := none
  fields : List Field

/-! ## Field builders -/

/-- An RO field. -/
def fRo (lo len val : Nat) : Field :=
  { lo := lo, len := len, acc := .ro, val := val, shown := val, bad := fun _ => false, busy := false, put := fun s _ => s }
/-- A field that takes writes. -/
def fRw (acc : Acc) (lo len val : Nat) (put : State → Nat → State) (bad : Nat → Bool := fun _ => false)
    (busy : Bool := false) : Field :=
  { lo := lo, len := len, acc := acc, val := val, shown := val, bad := bad, busy := busy, put := put }
/-- A field that reads 0 and takes writes. -/
def fWo (lo len : Nat) (put : State → Nat → State) (bad : Nat → Bool := fun _ => false) : Field :=
  fRw .wo lo len 0 put bad
/-- A register of one RO field of 32 bits. -/
def rRo (off val : Nat) : Reg := { off := off, fields := [fRo 0 32 (val % 2 ^ 32)] }
/-- A 64-bit register of one RO field. -/
def rRo64 (off val : Nat) : Reg := { off := off, wide := true, fields := [fRo 0 64 (val % 2 ^ 64)] }
/-- The index of an offset in an array of `n` registers at `base` with a stride. -/
def regIdx (off base stride n : Nat) : Option Nat :=
  if base ≤ off && off < base + stride * n then some ((off - base) / stride) else none
/-- The `k`-th element of a finite type, for an index within range. -/
def finOf (n : Nat) (h : 0 < n) (k : Nat) : Fin n := ⟨k % n, Nat.mod_lt _ h⟩
def herdOf (k : Nat) : HerdId := finOf 32 (by decide) k
def laneOf (k : Nat) : LaneId := finOf 64 (by decide) k
def dimOf (k : Nat) : DimId := finOf 15 (by decide) k

/-! ## Ring sets and meters (Tables 11.8 and 11.18) -/

/-- A ring's LOG2 takes 6 to 16. -/
def badLog2 (v : Nat) : Bool := v < 6 || 16 < v
/-- The three words of one ring: BASE, LOG2 with EN, and its index. -/
def ringRegs (s : State) (r : RingId) (off : Nat) (which : Fin 3) (base : Nat) : Option Reg :=
  let pick := fun (x : RingSet) => if which = 0 then x.ord else if which = 1 then x.cpl else x.evt
  let putRing := fun (s : State) (f : Ring → Ring) =>
    let x := s.ring r
    s.setRing r (if which = 0 then { x with ord := f x.ord } else if which = 1 then { x with cpl := f x.cpl }
                 else { x with evt := f x.evt })
  let y := pick (s.ring r)
  if off < 8 then
    some { off := base, wide := true, fields :=
      [fRw .rwl 12 52 (y.base.toNat / 4096) (fun s v => putRing s fun q => { q with base := BitVec.ofNat 64 (v * 4096) })
        (busy := y.en)] }
  else if off < 12 then
    some { off := base + 8, fields :=
      [fRw .rwl 0 5 y.log2.toNat (fun s v => putRing s fun q => { q with log2 := BitVec.ofNat 5 v }) badLog2 y.en,
       fRw .rw 31 1 (b2n y.en) fun s v => s.setRingEn r which (v = 1)] }
  else if off < 16 then some (rRo (base + 12) y.idx.toNat)
  else none
/-- A ring set's block: `off` is the offset within it, `base` its first offset. -/
def ringBlock (s : State) (r : RingId) (off base : Nat) : Option Reg :=
  let x := s.ring r
  if off < 0x10 then ringRegs s r off 0 base
  else if off < 0x20 then ringRegs s r (off - 0x10) 1 (base + 0x10)
  else if off < 0x30 then ringRegs s r (off - 0x20) 2 (base + 0x20)
  else if off < 0x34 then
    some { off := base + 0x30, fields :=
      [fRw .rw 0 16 x.holdoffUs.toNat fun s v => s.setRing r { s.ring r with holdoffUs := BitVec.ofNat 16 v }] }
  else if off < 0x38 then some (rRo (base + 0x34) x.evtLost.toNat)
  else if off < 0x3C then
    some { off := base + 0x38, fields :=
      [fRw .w1c 0 1 (b2n x.ringErr) fun s _ => s.setRing r { s.ring r with ringErr := false }] }
  else none
/-- LOT_US of a herd number: what lots given back have added, and the time of those held. -/
def State.lotUs (s : State) (h : HerdId) : Nat :=
  let held := ((List.range 1008).filter fun n => s.holdsLot h n).map s.lotHeldUs
  min ((s.meters.get {} h.val).lotUs.toNat + held.sum) (2 ^ 64 - 1)
/-- A meter block. -/
def meterReg (s : State) (h : HerdId) (off base : Nat) : Option Reg :=
  let m := s.meters.get {} h.val
  let k := off / 8
  let v := fun n => some (rRo64 (base + 8 * k) n)
  if k = 0 then v m.beats.toNat else if k = 1 then v m.cellSteps.toNat else if k = 2 then v m.hbmBytes.toNat
  else if k = 3 then v m.linkBytes.toNat else if k = 4 then v (s.lotUs h) else none

/-! ## Set-up space, hub side (Tables 01.2 to 01.11, 02.2 to 02.6, 16.14 to 16.16, 17.6 to 17.8) -/

/-- Entries of a Boolean table whose key satisfies `p`. -/
def countKeys {β : Type} (t : Tbl β) (p : Nat → Bool) : Nat := (t.keys.filter p).length
/-- PCIe Device ID, class code and Revision ID of a function (R2); no other requester has an identity. -/
def pcieIdent : Who → Nat × Nat × Nat
  | .pf => (0x0F20, 0x12_0000, 0xB1)
  | .vf _ => (0x0F21, 0x12_0000, 0xB1)
  | _ => (0, 0, 0)
/-- `CFG_` and `HUB_` registers; `commit` is what a write of `CFG_COMMIT` does. -/
def hubReg (s : State) (commit : State → W32 → State) (off : Nat) : Option Reg :=
  let c := s.cfg
  if off = 0 then some { off := 0, fields := [fWo 0 32 fun s v => commit s (BitVec.ofNat 32 v)] }
  else if off = 4 then
    some { off := 4, fields :=
      [fRo 0 2 c.st.toNat,
       fRw .w1c 2 1 (b2n c.lockedWrite) (fun s _ => { s with cfg := { s.cfg with lockedWrite := false } }),
       fRw .w1c 3 1 (b2n c.badValue) (fun s _ => { s with cfg := { s.cfg with badValue := false } }),
       fRo 8 8 c.check.toNat] }
  else if off = 8 then some { off := 8, fields := [fRo 0 26 c.faultOff.toNat, fRo 26 5 c.faultBit.toNat, fRo 31 1 (b2n (c.st = 3))] }
  else if off = 0x1_0000 then let i := pcieIdent .pf
    some { off := off, fields := [fRo 0 16 i.1, fRo 16 8 i.2.2] }
  else if off = 0x1_0008 || off = 0x1_000C then some (rRo64 0x1_0008 Config.serial.toNat)
  else if let some r := regIdx off 0x1_0100 4 4 then
    let x := s.repair
    some { off := off, fields :=
      [fRo 0 3 (x.cornersUsed.get 0 r), fRo 8 7 (countKeys x.cellMoved fun b => b / 96 = r),
       fRo 16 4 (countKeys x.groupRetired fun g => g / 12 = r)] }
  else if off = 0x1_0200 then
    some { off := off, img := true, fields :=
      [fRw .rwl 0 1 (b2n s.arbSlot) (fun s v => { s with arbSlot := v = 1 }) (busy := s.anyHerd),
       fRw .rw 8 8 s.operWeight.toNat (fun s v => { s with operWeight := BitVec.ofNat 8 v }) (fun v => v = 0)] }
  else if let some h := regIdx off 0x1_0280 4 32 then
    some { off := off, img := true, fields :=
      [fRw .rw 0 8 (s.weights.get 0x10 h).toNat
        (fun s v => { s with weights := s.weights.set 0x10 h (BitVec.ofNat 8 v) }) fun v => v = 0] }
  else if off = 0x1_0300 then
    some { off := off, img := true, fields :=
      [fRw .rwl 0 16 s.wdogUs.toNat (fun s v => { s with wdogUs := BitVec.ofNat 16 v }) (fun v => v < 50) s.anyRun] }
  else if let some h := regIdx off 0x1_0400 4 32 then
    let x := s.herd (herdOf h)
    let live := x.st != .absent
    some { off := off, fields :=
      [fRo 0 2 x.stCode, fRo 2 1 (b2n (live && x.secure)), fRo 3 4 (if live then x.parties else 0),
       fRo 7 1 (b2n (live && x.policy)), fRo 8 3 (if live then x.kM1 else 0), fRo 11 1 (b2n x.keysGone),
       fRo 12 6 (if live then popCount x.groups.toNat else 0)] }
  else if let some h := regIdx off 0x1_0500 8 32 then
    let x := s.herd (herdOf h)
    some (rRo64 (0x1_0500 + 8 * h) (if x.st != .absent then x.groups.toNat else 0))
  else if off = 0x1_0600 then
    some { off := off, img := true, fields :=
      [fRw .rw 0 16 s.repair.repeatMs.toNat
        (fun s v => { s with repair := { s.repair with repeatMs := BitVec.ofNat 16 v } }) fun v => v = 0] }
  else if off = 0x1_0604 then
    some { off := off, fields :=
      [fRo 0 13 (min s.repair.pages.length 4096), fRo 13 1 (b2n s.repair.unitFault), fRo 16 16 s.repair.ceCount.toNat] }
  else none
/-- `CS_` registers. -/
def csReg (s : State) (off : Nat) : Option Reg :=
  if let some n := regIdx off 0x2_0000 4 1024 then
    let l := s.lot n
    some { off := off, fields :=
      if 1008 ≤ n then [fRo 8 1 1]
      else [fRo 0 5 l.herd.toNat, fRo 5 1 (b2n l.secure), fRo 6 1 (b2n l.assigned), fRo 7 1 (b2n l.clearing)] }
  else if off = 0x2_1000 then some (rRo off s.denied.toNat)
  else if let some n := regIdx off 0x2_1100 4 32 then
    some { off := off, fields := (List.range 32).filterMap fun i =>
      if 32 * n + i < 1008 then some (fRo i 1 (b2n (s.repair.lotRetired.get false (32 * n + i)))) else none }
  else none
/-- `PWR_` and `HBM_` registers. -/
def pwrReg (s : State) (off : Nat) : Option Reg :=
  let p := s.power
  if off = 0x3_0000 then
    some { off := off, img := true, fields :=
      [fRw .rw 0 2 p.point.val (fun s v => s.setPower { s.power with point := finOf 4 (by decide) v }),
       fRw .rw 4 12 p.limitW.toNat (fun s v => { s with power := { s.power with limitW := BitVec.ofNat 12 v } })
         fun v => v < 1200 || 3600 < v] }
  else if off = 0x3_0004 then
    some { off := off, fields :=
      [fRo 0 2 p.effective.val, fRo 2 1 (b2n p.slewing), fRo 3 1 (b2n p.powerCapped), fRo 4 1 (b2n p.thermalCapped),
       fRo 8 7 p.gateDuty, fRo 16 12 p.inputW.toNat] }
  else if off = 0x3_0008 then some { off := off, fields := [fRo 0 3 s.serow.tripCause.toNat, fRo 16 16 s.serow.tripCount.toNat] }
  else if let some k := regIdx off 0x4_0000 4 12 then
    let x := s.hbm.get {} k
    some { off := off, fields :=
      [fRo 0 2 x.st.toNat, fRo 2 1 (b2n x.hot), fRo 8 8 x.repaired.toNat, fRo 16 8 x.tempC.toNat] }
  else if off = 0x4_0040 then some { off := off, fields := [fRo 0 1 (b2n s.interleavedOk)] }
  else none

/-! ## Set-up space, Tahr side (Tables 01.10, 12.14 to 12.17, 14.5, 14.6, 14.12 to 14.16, 15.10 to 15.13) -/

/-- Byte `4n` to `4n + 3` of a digest. -/
def digestWord (d : List Byte) (n : Nat) : Nat := fieldLe d (4 * n) 4
/-- STATE of the timebase (Table 01.11). -/
def tbCode : TbMode → Nat
  | .free => 0
  | .locked => 1
  | .adrift => 2
  | .master => 3
/-- `TAHR_` registers. -/
def tahrReg (s : State) (who : Who) (off : Nat) : Option Reg :=
  let t := s.tahr
  let w := s.serow
  if off = 0x5_0000 || off = 0x5_0004 then
    some { off := 0x5_0000, wide := true, fields := [fRw .wo 0 64 s.tb.now.toNat fun s v => s.writeTbNow who (BitVec.ofNat 64 v)] }
  else if off = 0x5_0008 then
    some { off := off, fields :=
      [fRo 0 2 (tbCode s.tb.mode),
       fRw .w1c 2 1 (b2n s.tb.stepped) (fun s _ => { s with tb := { s.tb with stepped := false } }),
       fRo 8 8 s.tb.offsetNs.toNat] }
  else if off = 0x5_0100 || off = 0x5_0104 then
    some { off := 0x5_0100, wide := true, fields :=
      [fRw .rwl 0 64 t.reqAddr.toNat (fun s v => { s with tahr := { s.tahr with reqAddr := BitVec.ofNat 64 v } })
        (fun v => v % 64 != 0) t.reqBusy] }
  else if off = 0x5_0108 then some { off := off, fields := [fWo 0 1 fun s v => if v = 1 then s.requestGo who else s] }
  else if off = 0x5_010C then
    some { off := off, fields := [fRo 0 1 (b2n t.reqBusy), fRo 8 5 t.reqHerd.toNat, fRo 16 16 t.reqResult.toNat] }
  else if off = 0x5_0110 then some (rRo off t.reqDetail.toNat)
  else if off = 0x5_0200 then some (rRo off s.bootStatus)
  else if off = 0x5_0204 then some (rRo off t.bootCount.toNat)
  else if let some n := regIdx off 0x5_0220 4 24 then
    some (rRo off (if n < 8 then digestWord (bytes256 Config.romDigest) n
      else if n < 16 then digestWord (digest t.mFw) (n - 8) else digestWord (digest t.mCfg) (n - 16)))
  else if off = 0x5_0280 then
    some { off := off, fields :=
      [fRo 0 21 (1048576 - s.devidLeaf), fRo 21 11 (if t.aliasOk && (s.slot s.aliasSlot).valid then 1024 - s.aliasLeaf else 0)] }
  else if off = 0x5_0300 || off = 0x5_0304 then
    some { off := 0x5_0300, wide := true, fields :=
      [fRo 0 1 (b2n w.tampered), fRo 1 3 w.cause.toNat, fRo 4 1 (b2n w.vbatLow), fRo 16 16 w.tamperCount.toNat,
       fRo 32 16 w.p56.toNat, fRo 48 16 w.holdup.toNat] }
  else if let some n := regIdx off 0xA_0000 4 256 then some (rRo off (s.slot n).attr)
  else if off = 0xA_0400 then
    let used := ((rangeFrom 32 224).filter fun n => (s.slot n).valid || (s.slot n).held).length
    some { off := off, fields := [fRo 0 8 (224 - used), fRo 8 8 s.heldSlots] }
  else none
/-- `LC_` registers. -/
def lcReg (s : State) (off : Nat) : Option Reg :=
  let c := s.lc
  if off = 0xB_0000 then
    some { off := off, fields :=
      [fRo 0 3 s.lcState, fRo 3 1 (b2n c.seq.isSome), fRo 4 1 (b2n c.reboot), fRo 5 1 (b2n c.resumed), fRo 6 4 c.kill.toNat] }
  else if off = 0xB_0008 || off = 0xB_000C then some (rRo64 0xB_0008 c.fuseState.toNat)
  else if off = 0xB_0010 || off = 0xB_0014 then some (rRo64 0xB_0010 c.fuseIntent.toNat)
  else if off = 0xB_0018 || off = 0xB_001C then
    some { off := 0xB_0018, wide := true, fields :=
      [fRo 0 6 c.rights.toNat, fRo 32 32 (if c.rights = 0 then 0 else c.expiry.toNat)] }
  else none

/-! ## Set-up space, fabric and encryption side (Tables 09.9 to 09.16, 13.11 to 13.14) -/

/-- `FAB_LANE_STATUS_n.STATE`. -/
def laneCode : LaneState → Nat
  | .dark => 0
  | .train => 1
  | .probe => 2
  | .ready => 3
  | .active => 4
  | .standby => 5
  | .test => 6
  | .failed => 7
  | .mismatch => 8
/-- `FAB_` registers. -/
def fabReg (s : State) (off : Nat) : Option Reg :=
  let lock := s.cfg.st == 2
  if off = 0x6_0000 then
    some { off := off, img := true, fields :=
      [fRw .rwl 0 2 s.profile.toNat (fun s v => { s with profile := BitVec.ofNat 2 v }) (busy := lock),
       fRw .rwl 4 4 s.smallD.toNat (fun s v => { s with smallD := BitVec.ofNat 4 v })
         (fun v => s.profile = 3 && (v = 0 || v = 15)) lock,
       fRw .rwl 16 15 s.dimEn.toNat (fun s v => { s with dimEn := BitVec.ofNat 15 v }) (busy := lock)] }
  else if off = 0x6_0004 then
    some { off := off, img := true, fields :=
      [fRw .rwl 0 10 s.pod.toNat (fun s v => { s with pod := BitVec.ofNat 10 v }) (busy := lock)] }
  else if off = 0x6_0008 then
    some { off := off, fields :=
      [fRo 0 5 s.tb.position.toNat, fRo 5 1 (b2n s.tb.posValid), fRo 6 1 (b2n !s.tb.light), fRo 7 1 (b2n s.tb.stringFault),
       fRo 8 15 (if s.addrValid then s.cubeAddr.toNat else 0), fRo 23 1 (b2n s.addrValid)] }
  else if off = 0x6_000C then
    let spare := fun (k : Nat) => fRw .rwl (4 * k) 4 (s.spareOf k)
      (fun s v => { s with spareDim := (s.spareDim &&& ~~~fieldMask (4 * k) 4) ||| BitVec.ofNat 32 (v * 2 ^ (4 * k)) })
      (busy := lock)
    some { off := off, img := true, fields := (List.range 8).map spare }
  else if off = 0x6_0010 then
    some { off := off, img := true, fields :=
      [fRw .rw 0 16 s.crcLimit.toNat (fun s v => { s with crcLimit := BitVec.ofNat 16 v }) fun v => v = 0] }
  else if let some n := regIdx off 0x6_0100 4 64 then
    let x := s.laneAt (laneOf n)
    some { off := off, fields :=
      [fRo 0 4 (laneCode x.st), fRo 4 4 x.dim.toNat, fRo 8 1 (b2n x.spare), fRo 9 1 (b2n x.noPeer), fRo 10 6 x.peerLane.toNat,
       fRo 16 16 x.crcErr.toNat] }
  else if let some n := regIdx off 0x6_0200 4 64 then
    some { off := off, img := true, fields :=
      [fWo 0 1 (fun s v => if v = 1 then s.laneRetrain (laneOf n) else s),
       fRw .rw 1 1 (b2n (s.laneAt (laneOf n)).disable) fun s v => s.laneSetDisable (laneOf n) (v = 1)] }
  else if let some d := regIdx off 0x6_0300 4 15 then
    some { off := off, fields :=
      [fRo 0 7 (s.activeLanes d).length, fRo 7 1 (b2n (s.dimUp d)), fRo 8 1 (b2n (s.dimAt (dimOf d)).hk.isSome),
       fRo 16 15 (if s.addrValid then s.cubeAddr.toNat ^^^ 2 ^ d else 0)] }
  else none
/-- BAD_NODES of a window: the subtrees that are unverifiable, 8 standing for the whole window (R392). -/
def Win.badNodes (x : Win) : Nat :=
  let l := x.subs.filter fun t => !t.reseeding
  if l.any (·.whole) then 8 else min l.length 8
/-- `NYA_` and `GER_` registers. -/
def keyReg (s : State) (off : Nat) : Option Reg :=
  if let some k := regIdx off 0x8_0000 8 64 then
    let x := s.win (finOf 64 (by decide) k)
    some { off := 0x8_0000 + 8 * k, wide := true, fields :=
      [fRo 0 2 x.st.toNat, fRo 2 2 x.epochSt.toNat, fRo 4 1 (b2n x.epoch), fRo 5 5 x.herd.toNat, fRo 10 1 (b2n x.secure),
       fRo 11 4 x.tag.toNat, fRo 15 1 (b2n x.pinned), fRo 16 4 x.badNodes, fRo 20 4 (if x.st = 0 then 0 else depthOf x.size),
       fRo 32 32 (min (x.writes / 65536) (2 ^ 32 - 1))] }
  else if off = 0x8_0200 then some { off := off, fields := [fRo 0 16 s.macFail.toNat, fRo 16 16 s.badNodeCnt.toNat] }
  else if let some d := regIdx off 0x9_0000 4 15 then
    let x := s.dimAt (dimOf d)
    let code := match x.hop with | .none => 0 | .exchanging => 1 | .keyed => 2 | .refused => 3
    some { off := off, fields := [fRo 0 2 code, fRo 2 3 (if code = 3 then x.cause.toNat else 0), fRo 16 16 x.authFail.toNat] }
  else if let some h := regIdx off 0x9_0100 8 32 then
    some { off := 0x9_0100 + 8 * h, wide := true, fields :=
      [fRw .rwl 0 64 (s.linkIds.get 0 h).toNat (fun s v => { s with linkIds := s.linkIds.set 0 h (BitVec.ofNat 64 v) })
        (busy := s.herdExists (herdOf h))] }
  else none
/-- `HST_` registers. -/
def hstReg (s : State) (off : Nat) : Option Reg :=
  if let some k := regIdx off 0x7_0000 0x40 4 then
    ringBlock s (.pf (finOf 4 (by decide) k)) (off % 0x40) (0x7_0000 + 0x40 * k)
  else if off = 0x7_0100 then
    some { off := off, img := true, fields :=
      [fRw .rw 0 16 s.linkTimeoutMs.toNat (fun s v => { s with linkTimeoutMs := BitVec.ofNat 16 v }) fun v => v = 0] }
  else if off = 0x7_0104 then
    some { off := off, fields :=
      [fRo 0 3 s.linkSpeed.toNat, fRo 3 5 s.linkWidth.toNat, fRo 8 1 (b2n s.linkUp), fRo 9 1 (b2n ((s.ideAt 0).st == .secure))] }
  else if let some h := regIdx off 0x7_1000 0x40 32 then meterReg s (herdOf h) (off % 0x40) (0x7_1000 + 0x40 * h)
  else none

/-! ## PCIe configuration space (Table 11.1) -/

/-- The word at an offset of a function's configuration space, as far as Table 11.1 gives it content. The places inside a
capability are PCIe's; those of the capabilities are the model's (PRESUMED, log entry 151). -/
def configReg (s : State) (who : Who) (off : Nat) : Option Reg :=
  let i := pcieIdent who
  let k := fnOf who
  let one := fun (l : List Field) => some ({ off := off, fields := l } : Reg)
  if off = 0 then one [fRo 0 16 Config.vendorId.toNat, fRo 16 16 i.1]
  else if off = 8 then one [fRo 0 8 i.2.2, fRo 8 24 i.2.1]
  else if off = 0x44 then
    one [fRw .rw 0 2 (if s.d3hot.get false k then 3 else 0) fun s v =>
      if v = 0 || v = 3 then { s with d3hot := s.d3hot.set false k (v = 3) } else s]
  else if who != .pf then none
  else if off = 0x104 then one [fRw .w1c 0 32 s.aer.toNat fun s v => { s with aer := s.aer &&& ~~~BitVec.ofNat 32 v }.icNote]
  else if off = 0x148 then one [fRw .rw 0 1 (b2n s.vfEnable) fun s v => s.putSriov s.numVfs (v = 1)]
  else if off = 0x14C then one [fRo 0 16 32, fRo 16 16 32]
  else if off = 0x150 then one [fRw .rw 0 16 s.numVfs.toNat fun s v => s.putSriov (BitVec.ofNat 16 v) s.vfEnable]
  else if off = 0x154 then one [fRo 0 16 1, fRo 16 16 1]
  else if off = 0x158 then one [fRo 16 16 (pcieIdent (.vf 0)).1]
  else none

/-! ## Interrupt controllers (Tables 16.3 to 16.8, 19.5) -/

/-- A word of 32 bits of which only those that satisfy `p` exist. -/
def bitsWord (p : Nat → Bool) (f : Nat → Field) : List Field := (List.range 32).filterMap fun i => if p i then some (f i) else none
/-- The word at an offset of controller `c`'s block. -/
def icReg (s : State) (c off base : Nat) : Option Reg :=
  let x := s.icAt c
  let nt := icTargets c
  if off = 0 then
    some { off := base, fields :=
      [fRw .rw 0 1 (b2n x.gdis) (fun s v => (s.setIc c { s.icAt c with gdis := v = 1 }).icNote),
       fRw .rw 1 1 (b2n x.vector) (fun s v => s.setIc c { s.icAt c with vector := v = 1 }),
       fRw .rw 14 18 x.vectorBase.toNat fun s v => s.setIc c { s.icAt c with vectorBase := BitVec.ofNat 18 v }] }
  else if let some t := regIdx off 0x100 0x10 nt then
    if off % 16 = 0 then some { off := base + off, claim := some (c, t), fields := [] }
    else if off % 16 = 4 then some { off := base + off, fields := [fWo 0 10 fun s v => s.icComplete c t v] }
    else none
  else if let some n := regIdx off 0x200 4 16 then
    some { off := base + off, fields := bitsWord (fun _ => true) fun i => fRo i 1 (b2n (s.icPending c (32 * n + i))) }
  else if let some t := regIdx off 0x300 0x40 nt then
    let n := off % 0x40 / 4
    let key := fun (i : Nat) => t * 512 + 32 * n + i
    let en := fun (i : Nat) => fRw .rw i 1 (b2n (x.enable.get false (key i))) fun s v =>
      (s.setIc c { s.icAt c with enable := (s.icAt c).enable.set false (key i) (v = 1) }).icNote
    some { off := base + off, fields := bitsWord (fun i => icSource c (32 * n + i)) en }
  else if let some g := regIdx off 0x600 4 16 then
    some { off := base + off, fields :=
      [fRw .rw 0 16 (x.holdoff.get 0 g).toNat (fun s v =>
        s.setIc c { s.icAt c with holdoff := (s.icAt c).holdoff.set 0 g (BitVec.ofNat 16 v) }),
       fRo 16 1 (b2n (x.held.get false g))] }
  else none
/-- The IC registers that an accessor reaches: Tahr the chip's block, a region controller its own block and its own target's
registers of the chip's block. -/
def icRegOf (s : State) (who : Who) (off : Nat) : Option Reg :=
  let c := (off - 0xC_0000) / 0x1_0000
  let o := off % 0x1_0000
  let base := 0xC_0000 + 0x1_0000 * c
  match who with
  | .tahr => if c = 0 then icReg s 0 o base else none
  | .region r =>
    let t := r.val + 1
    if c = r.val + 1 || (c = 0 && (regIdx o (0x100 + 0x10 * t) 0x10 1 != none || regIdx o (0x300 + 0x40 * t) 0x40 1 != none)) then
      icReg s c o base
    else none
  | _ => none

/-! ## The herd register window (Table 19.6) -/

/-- An RWS word of a herd (R6 to R8, R530). -/
def rwsReg (x : Herd) (h : HerdId) (off : Nat) : Reg :=
  { off := off, fields := (rwsFields off).map fun f =>
      { lo := f.1, len := f.2.1, acc := .rws, val := bits (x.effWord off).toNat f.1 f.2.1, shown := x.shown off f.1 f.2.1
        bad := f.2.2, busy := false, put := fun s v => s.modHerd h fun y => y.stageHost off f.1 f.2.1 v } }
/-- The register at a window offset of herd `h`. -/
def windowReg (s : State) (h : HerdId) (off : Nat) : Option Reg :=
  let x := s.herd h
  let busy := x.busy
  let set := fun (f : Herd → Nat → Herd) => fun (s : State) (v : Nat) => s.modHerd h fun y => f y v
  if off < 0x40 then ringBlock s (.vf h) off 0
  else if off = 0x100 then
    some { off := off, fields :=
      [fRw .rwl 0 10 x.healthLot.toNat (set fun y v => { y with healthLot := BitVec.ofNat 10 v }) (fun v => 1008 ≤ v) busy,
       fRw .rwl 31 1 (b2n x.healthValid) (set fun y v => { y with healthValid := v = 1 }) (busy := busy)] }
  else if off = 0x104 || (0x1000 ≤ off && off < 0x3000) then some (rwsReg x h off)
  else if let some n := regIdx off 0x200 8 64 then
    let v := (x.rngSeed.get 0 n).toNat
    some { off := 0x200 + 8 * n, wide := true, fields :=
      [{ fRw .rwl 0 64 v (set fun y v => { y with rngSeed := y.rngSeed.set 0 n (BitVec.ofNat 64 v) }) (busy := busy) with
          shown := if x.rngDraw.getLsbD n then 0 else v }] }
  else if off = 0x400 || off = 0x404 then
    some { off := 0x400, wide := true, fields :=
      [fRw .rwl 0 64 x.rngDraw.toNat (set fun y v => { y with rngDraw := BitVec.ofNat 64 v }) (busy := busy)] }
  else if off = 0x410 then some (rRo off x.haloDrops.toNat)
  else if off = 0x500 then
    let m := x.shownSentence
    some { off := off, fields :=
      [fRo 0 3 x.seqCode, fRo 3 1 (b2n ((m.map (·.det)).getD false)), fRo 4 1 (b2n ((m.map (·.commit)).getD false)),
       fRo 8 8 x.lastCheck.toNat] }
  else if off = 0x508 || off = 0x50C then some (rRo64 0x508 x.beatNow.toNat)
  else if off = 0x510 then some (rRo off (s.herdFlags h).toNat)
  else if off = 0x518 || off = 0x51C then
    some { off := 0x518, wide := true, fields :=
      [fRw .w1c 49 1 (b2n x.stageLate) (set fun y _ => { y with stageLate := false }),
       fRw .rw 0 48 x.stageBeat.toNat (set fun y v => { y with stageBeat := BitVec.ofNat 48 v }),
       fRw .rw 48 1 (b2n x.stageArm) (set fun y v => y.writeArm (v = 1))] }
  else if let some n := regIdx off 0x540 4 8 then some (rRo off (digestWord ((x.shownSentence.map (·.meas)).getD []) n))
  else if off = 0x600 then
    some { off := off, fields := [fRw .w1c 0 32 x.dclSkips.toNat (set fun y _ => { y with dclSkips := 0 })] }
  else if off = 0x700 then some { off := off, fields := [fRo 0 15 x.span.toNat, fRo 16 4 x.dims.length] }
  else if off = 0x800 || off = 0x804 then
    some { off := 0x800, wide := true, fields :=
      [fRw .rwl 0 48 x.commitAddr.toNat (set fun y v => { y with commitAddr := BitVec.ofNat 48 v }) (fun v => v % 64 != 0) busy] }
  else if off = 0x808 || off = 0x80C then
    some { off := 0x808, wide := true, fields :=
      [fRo 0 48 x.committed.toNat, fRo 48 1 (b2n x.commitValid), fRo 49 1 (b2n x.present),
       fRo 50 1 (b2n (x.commit != .opened && !x.recorded)), fRo 51 1 (b2n (x.commit == .unresolved))] }
  else if off = 0x810 then
    some { off := off, fields := [fWo 0 2 (fun s v => if v = 0 then s else s.resolve h (v = 2)) fun v => v = 3] }
  else if off = 0x818 || off = 0x81C then
    some { off := 0x818, wide := true, fields :=
      [fRw .rwl 0 48 x.ledgerBase.toNat (set fun y v => { y with ledgerBase := BitVec.ofNat 48 v }) (fun v => v % 64 != 0) busy] }
  else if off = 0x820 then
    some { off := off, fields :=
      [fRw .rwl 0 20 x.ledgerCap.toNat (set fun y v => { y with ledgerCap := BitVec.ofNat 20 v }) (busy := busy),
       fRw .rwl 20 1 (b2n x.replay) (set fun y v => { y with replay := v = 1 }) (busy := busy)] }
  else if off = 0x824 then
    some { off := off, fields :=
      [fRw .rwl 0 20 x.ledgerCursor.toNat (set fun y v => { y with ledgerCursor := BitVec.ofNat 20 v }) (busy := busy)] }
  else if off = 0x828 then
    some { off := off, fields :=
      [fRw .rwl 0 20 x.ledgerCount.toNat (set fun y v => { y with ledgerCount := BitVec.ofNat 20 v })
        (fun v => x.ledgerCount.toNat < v) busy,
       fRw .w1c 20 1 (b2n x.ledgerFull) (set fun y _ => { y with ledgerFull := false })] }
  else none

end Sys2Proof.Machine
end

