-- ==== Sys2Proof/Machine/Regs.lean ====
section
/-!
DEFINITION. Register accesses (R517 to R523, R526, R530) and the configuration commit (R485 to R491).
-/
namespace Sys2Proof.Machine

/-! ## Where an offset leads -/

/-- The register of set-up space at a word-aligned offset (Table 19.1), for an accessor. -/
def setupReg (s : State) (who : Who) (commit : State → W32 → State) (off : Nat) : Option Reg :=
  if off < 0x2_0000 then hubReg s commit off
  else if off < 0x3_0000 then csReg s off
  else if off < 0x5_0000 then pwrReg s off
  else if off < 0x6_0000 then tahrReg s who off
  else if off < 0x7_0000 then fabReg s off
  else if off < 0x8_0000 then hstReg s off
  else if off < 0xA_0000 then keyReg s off
  else if off < 0xB_0000 then tahrReg s who off
  else if off < 0xC_0000 then lcReg s off
  else if off < 0x11_0000 then icRegOf s who off
  else none
/-- What a register reads, all of its fields. -/
def Reg.shown (r : Reg) : Nat := (r.fields.map fun f => f.shown % 2 ^ f.len * 2 ^ f.lo).sum
/-- The value a register holds, held parts of which a half write keeps (R519). -/
def Reg.value (r : Reg) : Nat := (r.fields.map fun f => f.val % 2 ^ f.len * 2 ^ f.lo).sum
/-- What the 32-bit word at an offset reads. -/
def Reg.word (r : Reg) (off : Nat) : W32 := BitVec.ofNat 32 (r.shown / 2 ^ (if off = r.off then 0 else 32))

/-! ## The configuration image and its commit -/

/-- The offsets of the image's 105 words (Table 17.4). -/
def imageOffs : List Nat :=
  0x1_0200 :: (List.range 32).map (fun h => 0x1_0280 + 4 * h) ++ [0x1_0300, 0x1_0600, 0x3_0000, 0x6_0000, 0x6_0004, 0x6_000C, 0x6_0010]
    ++ (List.range 64).map (fun n => 0x6_0200 + 4 * n) ++ [0x7_0100]
/-- The register of an image word. -/
def imageReg (s : State) (off : Nat) : Option Reg := setupReg s .pf (fun t _ => t) off
/-- The 420 bytes of the image (R485). -/
def State.imageBytes (s : State) : List Byte :=
  (imageOffs.map fun o => leBytes 4 (match imageReg s o with | some r => (r.word o).toNat | none => 0)).flatten
/-- The lowest image field that holds a reserved encoding (check 0x33). -/
def State.imageBad (s : State) : Option (Nat × Nat) :=
  imageOffs.findSome? fun o => (imageReg s o).bind fun r =>
    ((r.fields.filter fun f => f.acc != .wo && f.bad f.val).map (·.lo)).min?.map fun b => (o, b)
/-- Spares of the profile that `FAB_SPARE_DIM` can name (Table 09.3). -/
def State.spareCount (s : State) : Nat :=
  match s.profile.toNat with
  | 0 => 4
  | 1 => 0
  | 2 => 4
  | _ => if s.smallD = 0 then 0 else min 8 (64 - s.smallD.toNat * (60 / s.smallD.toNat))
/-- The first check of Table 17.5 that fails: its code, and the word and bit it names. -/
def State.cfgCheck (s : State) (crc : W32) : Option (Nat × Nat × Nat) :=
  if s.tahr.st != 3 then some (0x30, 0x5_0200, 0)
  else match (List.range 12).find? fun k => (s.hbm.get {} k).st == 0 with
  | some k => some (0x31, 0x4_0000 + 4 * k, 0)
  | none =>
    if crc32c s.imageBytes != crc then some (0x32, 0, 0)
    else match s.imageBad with
    | some (o, b) => some (0x33, o, b)
    | none => match (List.range s.spareCount).find? fun k => s.spareOf k < 15 && !s.dimOn (s.spareOf k) with
    | some k => some (0x34, 0x6_000C, 4 * k)
    | none =>
      if !s.tb.posValid || s.tb.stringFault then some (0x35, 0x6_0008, 0)
      else if s.profile = 3 && 2 ^ s.smallD.toNat ≤ s.pod.toNat * 32 + s.tb.position.toNat then some (0x36, 0x6_0004, 0)
      else none
/-- SEAL is derived into slot 8 (R419), when Serow holds a tenant root and is not tampered with (R422). -/
def State.deriveSeal (s : State) : State :=
  match s.serow.root with
  | some k =>
    if s.serow.tampered then s
    else
      let salt := sha256 (ascii "FV20-SEAL" ++ bytes256 Config.romDigest ++ digest s.tahr.mFw ++ digest s.tahr.mCfg)
      s.setSlot 8 { valid := true, tenant := true, type := 0xA, derived := true
                    secret := hkdfExpand (hkdfExtract salt (bytes256 k)) (ascii "FV20-SEAL-KEY") }
  | none => s
/-- Every check has passed (R489): the address is latched, M_CFG taken, SEAL derived, and the lasers turned on. -/
def State.cfgPass (s : State) : State :=
  let s := { s with
    cubeAddr := BitVec.ofNat 15 (s.pod.toNat * 32 + s.tb.position.toNat)
    addrValid := true
    tahr := { s.tahr with mCfg := sha256 s.imageBytes, cfgMeasured := true } }
  let s := s.deriveSeal
  let s := { s with cfg := { s.cfg with st := 2 } }
  allLanes.foldl (fun s n =>
    let i := s.laneInfo n
    (s.setLane n { s.laneAt n with dim := BitVec.ofNat 4 i.1, spare := i.2.1 }).laneOn n) s
/-- A write of `CFG_COMMIT` (R488, R490): STATE becomes VALIDATING. -/
def State.cfgCommit (s : State) (who : Who) (crc : W32) : State :=
  if s.cfg.st = 1 || s.cfg.st = 2 then s.lockedWrite who 0 else { s with cfg := { s.cfg with st := 1, crc := crc } }
/-- The validation ends (R488, R489). -/
def State.validate (s : State) : State :=
  match s.cfgCheck s.cfg.crc with
  | some (c, o, b) =>
    { s with cfg := { s.cfg with st := 3, check := BitVec.ofNat 8 c, faultOff := BitVec.ofNat 26 o, faultBit := BitVec.ofNat 5 b } }
  | none => s.cfgPass
/-- A validation that a command has started ends with it (DESIGN CHOICE, log entry 83). -/
def State.validateFrom (s : State) (before : BitVec 2) : State := if s.cfg.st = 1 && before != 1 then s.validate else s

/-! ## Doorbell pages and MSI-X tables (Tables 11.4 and 11.9) -/

/-- The word at an offset of a doorbell page. -/
def doorReg (r : RingId) (off base : Nat) : Option Reg :=
  if off = 0 then some { off := base, fields := [fWo 0 16 fun s v => s.ordDoor r v] }
  else if off = 4 then some { off := base + 4, fields := [fWo 0 16 fun s v => s.cplDoor r v] }
  else if off = 8 then some { off := base + 8, fields := [fWo 0 16 fun s v => s.evtDoor r v] }
  else none
/-- A word of a ring set's entry in the MSI-X table: message address, message data, mask. -/
def msixReg (s : State) (r : RingId) (off base : Nat) : Option Reg :=
  let x := s.ring r
  let set := fun (f : RingSet → Nat → RingSet) (s : State) (v : Nat) => s.setRing r (f (s.ring r) v)
  if off = 0 then
    some { off := base, fields := [fRw .rw 2 30 (bits x.msgAddr.toNat 2 30)
      (set fun x v => { x with msgAddr := BitVec.ofNat 64 (4 * v + x.msgAddr.toNat / 2 ^ 32 * 2 ^ 32) })] }
  else if off = 4 then
    some { off := base + 4, fields := [fRw .rw 0 32 (bits x.msgAddr.toNat 32 32)
      (set fun x v => { x with msgAddr := BitVec.ofNat 64 (v * 2 ^ 32 + x.msgAddr.toNat % 2 ^ 32) })] }
  else if off = 8 then
    some { off := base + 8, fields := [fRw .rw 0 32 x.msgData.toNat (set fun x v => { x with msgData := BitVec.ofNat 32 v })] }
  else if off = 12 then
    some { off := base + 12, fields := [fRw .rw 0 1 (b2n x.masked) (set fun x v => x.setMask (v = 1))] }
  else none
/-- The word at an offset of PF BAR2. -/
def doorsReg (s : State) (off : Nat) : Option Reg :=
  if off < 0x4000 then doorReg (.pf (finOf 4 (by decide) (off / 0x1000))) (off % 0x1000) (off / 0x1000 * 0x1000)
  else if off = 0x1_F800 then
    some { off := off, fields := (List.finRange 4).map fun k => fRo k.val 1 (b2n (s.ring (.pf k)).pend) }
  else if let some k := regIdx off 0x1_F000 16 4 then
    msixReg s (.pf (finOf 4 (by decide) k)) (off % 16) (0x1_F000 + 16 * k)
  else none
/-- The word at an offset of the doorbell page of a herd's VF. -/
def doorOf (s : State) (h : HerdId) (off : Nat) : Option Reg :=
  if off < 0x800 then doorReg (.vf h) off 0
  else if off < 0x810 then msixReg s (.vf h) (off - 0x800) 0x800
  else if off = 0xC00 then some { off := off, fields := [fRo 0 1 (b2n (s.ring (.vf h)).pend)] }
  else none
/-- An offset of a doorbell page, where only 32-bit writes act. -/
def onlyWords (sp : Space) (off : Nat) : Bool :=
  match sp with
  | .doors => decide (off < 0x4000)
  | .door _ => decide (off < 0x800)
  | _ => false

/-! ## Accesses -/

/-- The register at a word-aligned offset of a space, as an accessor reaches it; a window's registers exist while the
herd is LIVE (R331, R522), its doorbell page while the herd exists. -/
def State.regAt (s : State) (who : Who) (sp : Space) (off : Nat) : Option Reg :=
  match who, sp with
  | .pf, .setup => setupReg s who (fun t v => t.cfgCommit .pf v) off
  | .tahr, .setup => setupReg s who (fun t v => t.cfgCommit .tahr v) off
  | .region _, .setup => if 0xC_0000 ≤ off && off < 0x11_0000 then icRegOf s who off else none
  | .pf, .doors => doorsReg s off
  | .pf, .config => configReg s who off
  | .vf _, .config => configReg s who off
  | .vf h, .door k => if h = k && s.herdExists h then doorOf s h off else none
  | .vf h, .window k => if h = k && (s.herd h).st == .live && off < 0xF000 then windowReg s h off else none
  | _, _ => none
/-- An access reaches the device and is not refused by R334; a function in D3hot takes only configuration accesses (Table 11.1). -/
def State.regOpen (s : State) (who : Who) (sp : Space) (t : Tlp) : Bool :=
  if sp = .config then s.reach who
  else s.awake who && match who with
    | .vf h => !s.herdExists h || s.tlpOk who t
    | w => s.tlpOk w t
/-- The writes of a VF whose herd is being revoked are ignored (R522). -/
def State.frozen (s : State) (who : Who) (sp : Space) : Bool :=
  match who with
  | .vf h => sp != .config && (s.herd h).st == .revoking
  | _ => false
/-- A field takes its part of a written value (R6, R11, R530). -/
def Field.take (f : Field) (img open_ : Bool) (v : Nat) (s : State) : State :=
  let x := bits v f.lo f.len
  match f.acc with
  | .ro => s
  | .w1c => if x = 0 then s else f.put s x
  | .rwl => if f.busy || (f.bad x && !(img && open_)) then s else f.put s x
  | _ => if f.bad x && !(img && open_) then s else f.put s x
/-- A field discards its part of a written value as locked. -/
def Field.locks (f : Field) (v : Nat) : Bool := f.acc == .rwl && f.busy && bits v f.lo f.len != f.val
/-- A field discards its part of a written value as a reserved encoding. -/
def Field.refuses (f : Field) (img open_ : Bool) (v : Nat) : Bool :=
  f.acc != .ro && f.acc != .w1c && !(f.acc == .rwl && f.busy) && f.bad (bits v f.lo f.len) && !(img && open_)
/-- A register takes a whole value (R491, R526, R530). -/
def Reg.write (r : Reg) (s : State) (who : Who) (v : Nat) : State :=
  if r.img && s.cfg.st == 1 then s.lockedWrite who r.off
  else
    let o := s.cfg.st != 2
    let locked := r.fields.any (·.locks v)
    let bad := r.fields.any (·.refuses r.img o v)
    let s := r.fields.foldl (fun s f => f.take r.img o v s) s
    let s := if locked then s.lockedWrite who r.off else s
    if bad then s.badValue who r.off else s
/-- The low word held for a function and register (R519). -/
def State.heldAt (s : State) (who : Who) (sp : Space) (off : Nat) : Option W32 :=
  (s.heldLow.find? fun e => e.1 == who && e.2.1 == sp && e.2.2.1 == off).map (·.2.2.2)
/-- Drop the low word held for a function and register. -/
def State.dropHeld (s : State) (who : Who) (sp : Space) (off : Nat) : State :=
  { s with heldLow := s.heldLow.filter fun e => !(e.1 == who && e.2.1 == sp && e.2.2.1 == off) }
/-- A 32-bit aligned write. -/
def State.write32 (s : State) (who : Who) (sp : Space) (off : Nat) (v : W32) : State :=
  match s.regAt who sp off with
  | none => s
  | some r =>
    if !r.wide then r.write s who v.toNat
    else if off = r.off then
      let s := s.dropHeld who sp off
      { s with heldLow := s.heldLow ++ [(who, sp, off, v)] }
    else
      let lo := match s.heldAt who sp r.off with | some x => x.toNat | none => r.value % 2 ^ 32
      r.write (s.dropHeld who sp r.off) who (lo + v.toNat * 2 ^ 32)
/-- A 64-bit aligned write: of a wide register, or of two 32-bit ones, the lower first (R518). -/
def State.write64 (s : State) (who : Who) (sp : Space) (off : Nat) (v : W64) : State :=
  match s.regAt who sp off with
  | some r =>
    if r.wide then r.write (s.dropHeld who sp r.off) who v.toNat
    else (s.write32 who sp off (v.setWidth 32)).write32 who sp (off + 4) (v.extractLsb' 32 32)
  | none => s.write32 who sp (off + 4) (v.extractLsb' 32 32)
/-- A register write of 4 or 8 bytes (R518); one of another size or alignment is ignored, as is an 8-byte one to a doorbell. -/
def State.regWrite (s : State) (who : Who) (sp : Space) (off bytes : Nat) (v : W64) (t : Tlp) : State :=
  if !s.regOpen who sp t then s
  else
    let s := s.touchStream who t
    if s.frozen who sp then s
    else if bytes = 4 && off % 4 = 0 then s.write32 who sp off (v.setWidth 32)
    else if bytes = 8 && off % 8 = 0 && !onlyWords sp off then s.write64 who sp off v
    else s
/-- REG_WRITE. -/
def execRegWrite (who : Who) (sp : Space) (off bytes : Nat) (value : W64) (tlp : Tlp) (s : State) : Out :=
  .next ((s.regWrite who sp off bytes value tlp).validateFrom s.cfg.st)

/-- What a 32-bit aligned word reads, and the state after it: a claim is taken, a high word is latched or used up (R51, R519). -/
def State.read32 (s : State) (who : Who) (sp : Space) (off : Nat) : State × W32 :=
  match s.regAt who sp off with
  | none => (s, 0)
  | some r =>
    match r.claim with
    | some (c, t) => let (s, n) := s.icClaim c t; (s, BitVec.ofNat 32 n)
    | none =>
      if !r.wide then (s, r.word off)
      else
        let mine := fun (e : Who × Space × Nat × W32) => e.1 == who && e.2.1 == sp && e.2.2.1 == r.off
        if off = r.off then
          ({ s with latchedHigh := s.latchedHigh.filter (fun e => !mine e) ++ [(who, sp, r.off, r.word (off + 4))] }, r.word off)
        else match s.latchedHigh.find? mine with
        | some e => ({ s with latchedHigh := s.latchedHigh.filter fun q => !mine q }, e.2.2.2)
        | none => (s, r.word off)
/-- What the word at an offset reads, without any effect (R518); of a claim register, the source that a claim would give. -/
def State.peek32 (s : State) (who : Who) (sp : Space) (off : Nat) : Nat :=
  match s.regAt who sp off with
  | some r => match r.claim with | some (c, t) => (s.icClaim c t).2 | none => (r.word off).toNat
  | none => 0
/-- The bytes that an access of any size and alignment addresses, as their containing words read (R518). -/
def State.peekBytes (s : State) (who : Who) (sp : Space) (off n : Nat) : List Byte :=
  (List.range n).map fun k => (leBytes 4 (s.peek32 who sp ((off + k) / 4 * 4))).getD ((off + k) % 4) 0
/-- The value of a PF's or VF's read: only one of an aligned word has an effect (R51, R518, R519). -/
def State.regRead (s : State) (who : Who) (sp : Space) (off bytes : Nat) (t : Tlp) : State :=
  if !s.regOpen who sp t then { s with reply := [] }
  else
    let s := s.touchStream who t
    if bytes = 4 && off % 4 = 0 then
      let (s, v) := s.read32 who sp off
      { s with reply := leBytes 4 v.toNat }
    else { s with reply := s.peekBytes who sp off bytes }
/-- A read that meets an uncorrectable error: it completes with Completer Abort, no data, and the error follows (R475). -/
def State.readError (s : State) (p : Part) : State :=
  let s := { s with reply := [] }
  match p with
  | .tahrMem => s.tahrHalt
  | p => if chipPart p then s.chipError p none 0 else s
/-- REG_LOW_WORD_READ. -/
def execRegLowWordRead (who : Who) (sp : Space) (off bytes : Nat) (tlp : Tlp) (err : Option Part) (s : State) : Out :=
  .next (match err with
    | some p => if who == .pf && s.regOpen who sp tlp then s.readError p else s.regRead who sp off bytes tlp
    | none => s.regRead who sp off bytes tlp)

/-! ## Writes the table lists by register -/

/-- PP_POINT_WRITE (R30): a PF write of `PWR_PP_CTRL`. -/
def execPpPointWrite (value : W32) (s : State) : Out := .next (s.regWrite .pf .setup 0x3_0000 4 (value.setWidth 64) .active)
/-- CFG_COMMIT (R488): a PF write of `CFG_COMMIT`. The validation ends before the next command, or, when `ends` is false, once no
command waits (DESIGN CHOICE, log entry 83). -/
def execCfgCommit (crc : W32) (ends : Bool) (s : State) : Out :=
  let t := s.regWrite .pf .setup 0 4 (crc.setWidth 64) .active
  .next (if ends then t.validateFrom s.cfg.st else t)
/-- TB_NOW_WRITE (Table 01.9, E5): a PF write of the 64-bit register, which discards a held low word (R519). -/
def execTbNowWrite (v : W64) (s : State) : Out := .next (s.regWrite .pf .setup 0x5_0000 8 v .active)
/-- LANE_RETRAIN (R282): a PF write of RETRAIN 1 that keeps DISABLE. -/
def execLaneRetrain (n : LaneId) (s : State) : Out :=
  .next (s.regWrite .pf .setup (0x6_0200 + 4 * n.val) 4 (BitVec.ofNat 64 (1 + 2 * b2n (s.laneAt n).disable)) .active)
/-- LANE_DISABLE (R282): a PF write of DISABLE. -/
def execLaneDisable (n : LaneId) (off : Bool) (s : State) : Out :=
  .next (s.regWrite .pf .setup (0x6_0200 + 4 * n.val) 4 (BitVec.ofNat 64 (2 * b2n off)) .active)
/-- STAGE_CTRL_WRITE (R234): a write of `HRD_STAGE_CTRL` by the herd's VF, in its stream. -/
def execStageCtrlWrite (h : HerdId) (value : W64) (s : State) : Out := .next (s.regWrite (.vf h) (.window h) 0x518 8 value .active)
/-- RESOLVE_FORWARD (R323): a write of `HRD_RESOLVE` by the herd's VF, in its stream. -/
def execResolveForward (h : HerdId) (s : State) : Out := .next (s.regWrite (.vf h) (.window h) 0x810 4 2 .active)
/-- RESOLVE_BACK. -/
def execResolveBack (h : HerdId) (s : State) : Out := .next (s.regWrite (.vf h) (.window h) 0x810 4 1 .active)
/-- LEDGER_COUNT_WRITE (Table 10.9): a write of `HRD_LEDGER_STATUS` by the herd's VF, in its stream. -/
def execLedgerCountWrite (h : HerdId) (value : W32) (s : State) : Out :=
  .next (s.regWrite (.vf h) (.window h) 0x828 4 (value.setWidth 64) .active)

end Sys2Proof.Machine
end

