-- ==== Sys2Proof/Machine/Orders.lean ====
section
/-!
DEFINITION. The control sequencer's orders (R343, R344, R487, R534, Tables 11.11 and 11.12): who may issue what, what an
order does, and the events that end what orders wait for.
-/
namespace Sys2Proof.Machine

/-! ## What refuses an order -/

/-- The herd an order acts for: a VF's orders always name its own (Table 11.10). -/
def orderHerd (src : OrderSrc) (h : HerdId) : HerdId := match src with | .ring (.vf v) => v | _ => h
/-- An operand holds a reserved encoding (R343). -/
def reservedOp : OrderOp → Bool
  | .sentenceRun n => n == 0
  | .keyRotate _ a => a == 3
  | .checkpointSeal _ _ _ m _ _ _ => m == 3
  | .windowAlloc _ _ _ _ b => b != 0 && (b.toNat < 24 || 36 < b.toNat)
  | _ => false
/-- Orders that a secure herd takes only from its own VF (Table 11.11). -/
def vfOnly : OrderOp → Bool
  | .sentenceLoad _ _ => true
  | .sentenceRun _ => true
  | .nounCreate _ => true
  | .nounDestroy _ _ => true
  | .copy _ _ _ _ _ _ => true
  | .keyRotate _ _ => true
  | .checkpointSeal _ _ _ _ _ _ _ => true
  | .checkpointRestore _ _ => true
  | _ => false
/-- Orders that no VF issues (Table 11.11). -/
def operatorOnly : OrderOp → Bool
  | .windowAlloc _ _ _ _ _ => true
  | .windowFree _ => true
  | .herdCreate _ _ => true
  | .lotAssign _ _ => true
  | .lotRelease _ _ => true
  | _ => false
/-- The source may issue the order (Table 11.11). -/
def State.mayIssue (s : State) (o : Order) : Bool :=
  match o.src with
  | .ring (.vf _) => !operatorOnly o.op
  | .ring (.pf _) => !(vfOnly o.op && s.herdExists o.herd && (s.herd o.herd).secure)
  | .tahr => match o.op with | .keyRotate _ _ => true | op => !vfOnly op
/-- `ATTEST` or `FENCE`, which execute before `CFG_COMMIT` has passed (R487). -/
def earlyOp : OrderOp → Bool
  | .fence => true
  | .attest _ _ _ _ => true
  | _ => false
/-- The order creates a herd. -/
def createsHerd : OrderOp → Bool
  | .herdCreate _ _ => true
  | _ => false
/-- The order needs a TENANT key and is refused while TAMPERED (R422). -/
def tenantOp : OrderOp → Bool
  | .herdCreate _ _ => true
  | .windowAlloc _ _ _ _ _ => true
  | _ => false
/-- The status with which an order is refused before its own checks: reserved encodings (R343), tamper (R422), the state of
R487, Table 11.11, the herd's state (R534), and for `HERD_CREATE` the life cycle (Tables 15.1 and 15.9). -/
def State.orderRefused (s : State) (o : Order) : Option Status :=
  if reservedOp o.op then some stCfgInvalid
  else if tenantOp o.op && s.serow.tampered then some stNotPermitted
  else if s.cfg.st != 2 && !earlyOp o.op then some stCfgInvalid
  else if !s.mayIssue o then some stNotPermitted
  else if namesHerd o && !createsHerd o.op && (s.herd o.herd).st == .absent then some stCfgInvalid
  else if namesHerd o && !createsHerd o.op && (s.herd o.herd).st == .revoking then some stHerdRevoked
  else if createsHerd o.op && (s.lc.seq.isSome || s.lc.reboot) then some stCfgInvalid
  else if createsHerd o.op && o.src == .tahr && s.lcState != 2 then some stNotPermitted
  else none

/-! ## What an order does -/

/-- An order waits for a copy. -/
def waitOr (o : Order) (a : State × Bool) : State := if a.2 then { a.1 with waitFree := a.1.waitFree ++ [o] } else a.1
/-- `HERD_CREATE` from the PF, or of the formation that Tahr has accepted. -/
def State.createBy (s : State) (o : Order) (groups : W48) (span : BitVec 15) : State :=
  match o.src, s.tahr.form with
  | .tahr, some (h, f) => if h = o.herd then s.herdCreate (refOf o) h groups span (some f) else s.done (refOf o) stCfgInvalid
  | .tahr, none => s.done (refOf o) stCfgInvalid
  | _, _ => s.herdCreate (refOf o) o.herd groups span none
/-- The order draws random values: a window key, run seeds, a sweep's next key, CNONCE (R172, R384, R413, R367). -/
def State.drawsFor (s : State) (o : Order) : Bool :=
  match o.op with
  | .windowAlloc _ _ _ _ _ => true
  | .sentenceRun _ => (s.herd o.herd).rngDraw != 0
  | .keyRotate _ a => a == 0
  | .checkpointSeal _ _ _ _ _ _ _ => (s.herd o.herd).secure
  | _ => false
/-- An order fetched before an FLR of its function is performed after it (R332, R532). -/
def State.staleRef (s : State) (ref : OrderRef) : Bool := ref.gen != (s.srcRing ref.src).gen
/-- A creation waits for a destruction of its batch that waits for a copy: every destruction of a batch takes effect before any of its
creations is checked (Table 06.6). -/
def State.waitsDestroy (s : State) (o : Order) : Bool :=
  o.batch != 0 && s.waitFree.any fun q =>
    q.batch == o.batch && q.herd == o.herd && (match q.op with | .nounDestroy _ _ => true | _ => false)
/-- The effect of an order that nothing refuses, and whose draws need not wait; `peers` are the Nouns that the other creations of
its batch would make. -/
def State.performNow (s : State) (o : Order) (peers : List Noun) : State :=
  let ref := refOf o
  let h := o.herd
  match o.op with
  | .fence =>
    if s.staleRef ref then s
    else (s.setSrcRing o.src { s.srcRing o.src with fences := (s.srcRing o.src).fences ++ [ref] }).fenceCheck o.src
  | .sentenceLoad a n => s.sentenceLoad o a n
  | .sentenceRun n => s.sentenceRun ref h n
  | .nounCreate a => if s.waitsDestroy o then { s with waitFree := s.waitFree ++ [o] } else s.nounCreate ref h a peers
  | .nounDestroy e b => waitOr o (s.nounDestroy ref h e b)
  | .copy _ _ _ sh dh _ => if (sh || dh) && s.staleRef ref then s.done ref stCfgInvalid else s.copyIssue ref h o.op
  | .windowAlloc w t b n k => s.windowAlloc ref h w t b.toNat n.toNat k.toNat
  | .windowFree w => waitOr o (s.windowFree ref h w)
  | .keyRotate w a => if a = 0 then s.rotate ref h w else if a = 1 then s.reseed ref h w else s.rotateLinks ref h
  | .checkpointSeal l d n m r a p => (s.finishCommit h).seal_ ref h l.toNat d.toNat n.toNat m.toNat r.toNat a p.toNat
  | .checkpointRestore a n => (s.finishCommit h).restore ref h a.toNat n.toNat
  | .attest d n hr k => s.attest o d n hr k
  | .herdQuiesce => s.herdQuiesce ref h
  | .herdRevoke => s.herdRevoke ref h
  | .herdCreate g p => s.createBy o g p
  | .lotAssign f c => s.lotAssign ref h f c
  | .lotRelease f c => waitOr o (s.lotRelease ref h f c)
/-- The effect of an order: while the entropy source fails, one that draws waits (R418). -/
def State.perform (s : State) (o : Order) (peers : List Noun) : State :=
  if s.tahr.entropyBad && s.drawsFor o then { s with waitFree := s.waitFree ++ [o] } else s.performNow o peers
/-- A checkpoint order. -/
def isCheckpoint : OrderOp → Bool
  | .checkpointSeal _ _ _ _ _ _ _ => true
  | .checkpointRestore _ _ => true
  | _ => false
/-- An earlier order of the herd has not completed (R344): a copy, an order that waits for one, a sweep or a link rotation
ordered, or a report that waits for an alias leaf. -/
def State.outstanding (s : State) (h : HerdId) : Bool :=
  s.copies.any (fun j => j.herd == h) || s.waitFree.any (fun o => o.herd == h) || !(s.herd h).rotLinks.isEmpty
    || s.tahr.waitAttests.any (fun o => namesHerd o && o.herd == h)
    || allWins.any fun w => s.holdsWin h w && !(s.win w).rotations.isEmpty
/-- An order executes, or waits behind a checkpoint of its herd; a checkpoint waits for what is outstanding (R344), unless
the Sentence's state refuses it at once (R364). A revocation waits for nothing. -/
def State.execute (s : State) (o : Order) (peers : List Noun) : State :=
  match s.orderRefused o with
  | some st => s.done (refOf o) st
  | none =>
    let x := s.herd o.herd
    let behind := namesHerd o && !x.deferred.isEmpty && o.op != .herdRevoke
    if behind || (isCheckpoint o.op && s.outstanding o.herd && !x.noCheckpoint) then
      s.modHerd o.herd fun y => { y with deferred := y.deferred ++ [o] }
    else s.perform o peers
/-- A Noun that a creation of a batch makes on checks 0x01 to 0x13, when it is made (Table 06.6). -/
structure Peer where
  batch : Nat
  seq : Nat
  herd : HerdId
  noun : Noun
deriving DecidableEq, Repr
/-- What an order would make as a peer of its batch. -/
def State.peerOf (s : State) (o : Order) : List Peer :=
  match o.op with
  | .nounCreate a =>
    if o.batch = 0 then []
    else ((s.peerNoun o.herd a).map fun n => ({ batch := o.batch, seq := o.seq, herd := o.herd, noun := n } : Peer)).toList
  | _ => []
/-- The Nouns that an order is checked against besides the live ones: those of the other creations of its batch for its herd. -/
def peersFor (o : Order) (g : List Peer) : List Noun :=
  g.filterMap fun p => if p.batch = o.batch && p.herd == o.herd && p.seq != o.seq then some p.noun else none
/-- Orders, with what the creations among them are to be checked against: `f` answers the state after them and the peers that
passed checks 0x01 to 0x13 when their turn came. The peers checked against are those that pass; `n` bounds the search (DESIGN CHOICE,
log entry 157). -/
def withPeers : Nat → (List Peer → State × List Peer) → List Peer → State
  | 0, f, g => (f g).1
  | n + 1, f, g =>
    let r := f g
    if r.2 == g then r.1 else withPeers n f r.2
/-- Orders that waited are made again, in their order. -/
def State.again (g : List Peer) : List Order → State → List Peer → State × List Peer
  | [], s, p => (s, p)
  | o :: r, s, p => State.again g r (s.perform o (peersFor o g)) (p ++ s.peerOf o)
/-- Execute what waits behind a checkpoint of herd `h`, as far as it can. -/
def State.drain (g : List Peer) (h : HerdId) : List Order → State → List Peer → State × List Peer
  | [], s, p => (s, p)
  | o :: r, s, p =>
    if isCheckpoint o.op && s.outstanding h then (s, p)
    else
      let s := s.modHerd h fun x => { x with deferred := r }
      match s.orderRefused o with
      | some st => State.drain g h r (s.done (refOf o) st) p
      | none => State.drain g h r (s.perform o (peersFor o g)) (p ++ s.peerOf o)
/-- What orders waited for may have ended: orders that waited for a copy are made again, then those behind a checkpoint. -/
def State.settleWith (s : State) (g : List Peer) : State × List Peer :=
  let r := State.again g s.waitFree { s with waitFree := [] } []
  allHerds.foldl (fun q h => State.drain g h (q.1.herd h).deferred q.1 q.2) r
/-- The same, with the peers that the creations among them are. An order made again is judged again: a NOUN_DESTROY that waited for
a copy and now finds a Sentence running completes CFG_INVALID (DESIGN CHOICE, log entry 170). -/
def State.settle (s : State) : State :=
  withPeers (s.waitFree.length + (allHerds.map fun h => (s.herd h).deferred.length).sum + 1) s.settleWith []
/-- An order is admitted and executes by itself. -/
def State.orderNow (s : State) (src : OrderSrc) (h : HerdId) (tag : W32) (op : OrderOp) : State :=
  if !s.pins.pwrGood then s
  else
    let o : Order :=
      { src := src, herd := orderHerd src h, tag := tag, op := op, gen := (s.srcRing src).gen, seq := s.orderSeq }
    let s := { s with orderSeq := s.orderSeq + 1 }
    (((s.admitOrder src).execute o []).settle).icNote

/-- FENCE. -/
def execFence (src : OrderSrc) (tag : W32) (s : State) : Out := .next (s.orderNow src 0 tag .fence)
/-- SENTENCE_LOAD. -/
def execSentenceLoad (src : OrderSrc) (h : HerdId) (tag : W32) (addr : W64) (bytes : W32) (s : State) : Out :=
  .next (s.orderNow src h tag (.sentenceLoad addr bytes))
/-- SENTENCE_RUN. -/
def execSentenceRun (src : OrderSrc) (h : HerdId) (tag : W32) (steps : W32) (s : State) : Out :=
  .next (s.orderNow src h tag (.sentenceRun steps))
/-- NOUN_CREATE. -/
def execNounCreate (src : OrderSrc) (h : HerdId) (tag : W32) (arg : W64) (s : State) : Out :=
  .next (s.orderNow src h tag (.nounCreate arg))
/-- NOUN_DESTROY. -/
def execNounDestroy (src : OrderSrc) (h : HerdId) (tag : W32) (entry : BitVec 6) (block : BitVec 9) (s : State) : Out :=
  .next (s.orderNow src h tag (.nounDestroy entry block))
/-- COPY_ORDER (R73). -/
def execCopyOrder (src : OrderSrc) (h : HerdId) (tag : W32) (sa da : W64) (bytes : BitVec 40) (sHost dHost : Bool)
    (s : State) : Out := .next (s.orderNow src h tag (.copy sa da bytes sHost dHost false))
/-- NOUN_COPY (R198): a `COPY` with NOUN 1. -/
def execNounCopy (src : OrderSrc) (h : HerdId) (tag : W32) (sEntry : BitVec 6) (sBlock : BitVec 9) (dEntry : BitVec 6)
    (dBlock : BitVec 9) (s : State) : Out :=
  .next (s.orderNow src h tag (.copy (BitVec.ofNat 64 (sEntry.toNat + sBlock.toNat * 64))
    (BitVec.ofNat 64 (dEntry.toNat + dBlock.toNat * 64)) 0 false false true))
/-- WINDOW_ALLOC. -/
def execWindowAlloc (src : OrderSrc) (h : HerdId) (tag : W32) (w : WinId) (ptag : BitVec 4) (base : W48) (size : BitVec 40)
    (budgetLog2 : BitVec 6) (s : State) : Out := .next (s.orderNow src h tag (.windowAlloc w ptag base size budgetLog2))
/-- WINDOW_FREE. -/
def execWindowFree (src : OrderSrc) (h : HerdId) (tag : W32) (w : WinId) (s : State) : Out :=
  .next (s.orderNow src h tag (.windowFree w))
/-- KEY_ROTATE with ACTION ROTATE. -/
def execKeyRotateRotate (src : OrderSrc) (h : HerdId) (tag : W32) (w : WinId) (s : State) : Out :=
  .next (s.orderNow src h tag (.keyRotate w 0))
/-- KEY_ROTATE with ACTION RESEED. -/
def execKeyRotateReseed (src : OrderSrc) (h : HerdId) (tag : W32) (w : WinId) (s : State) : Out :=
  .next (s.orderNow src h tag (.keyRotate w 1))
/-- KEY_ROTATE with ACTION LINK. -/
def execKeyRotateLink (src : OrderSrc) (h : HerdId) (tag : W32) (s : State) : Out := .next (s.orderNow src h tag (.keyRotate 0 2))
/-- CHECKPOINT_SEAL. -/
def execCheckpointSeal (src : OrderSrc) (h : HerdId) (tag : W32) (list dst : W64) (dstBytes : BitVec 40) (mode : BitVec 2)
    (recipient : BitVec 3) (auto : Bool) (approvals : W64) (s : State) : Out :=
  .next (s.orderNow src h tag (.checkpointSeal list dst dstBytes mode recipient auto approvals))
/-- CHECKPOINT_RESTORE. -/
def execCheckpointRestore (src : OrderSrc) (h : HerdId) (tag : W32) (sa : W64) (bytes : BitVec 40) (s : State) : Out :=
  .next (s.orderNow src h tag (.checkpointRestore sa bytes))
/-- ATTEST. -/
def execAttest (src : OrderSrc) (h : HerdId) (tag : W32) (dst : W64) (dstBytes : W32) (herdReport : Bool) (nonce : W256)
    (s : State) : Out := .next (s.orderNow src h tag (.attest dst dstBytes herdReport nonce))
/-- HERD_QUIESCE. -/
def execHerdQuiesce (src : OrderSrc) (h : HerdId) (tag : W32) (s : State) : Out := .next (s.orderNow src h tag .herdQuiesce)
/-- HERD_REVOKE. -/
def execHerdRevoke (src : OrderSrc) (h : HerdId) (tag : W32) (s : State) : Out := .next (s.orderNow src h tag .herdRevoke)
/-- HERD_CREATE. -/
def execHerdCreate (src : OrderSrc) (h : HerdId) (tag : W32) (groups : W48) (span : BitVec 15) (s : State) : Out :=
  .next (s.orderNow src h tag (.herdCreate groups span))
/-- LOT_ASSIGN. -/
def execLotAssign (src : OrderSrc) (h : HerdId) (tag : W32) (first countM1 : BitVec 10) (s : State) : Out :=
  .next (s.orderNow src h tag (.lotAssign first countM1))
/-- LOT_RELEASE. -/
def execLotRelease (src : OrderSrc) (h : HerdId) (tag : W32) (first countM1 : BitVec 10) (s : State) : Out :=
  .next (s.orderNow src h tag (.lotRelease first countM1))

/-! ## Events that end what an order waits for -/

/-- COPY_COMPLETE (R74): the oldest copy of the herd ends. One with a host end needs the link, and its stream (R327, R334);
the data that it reads from the host arrives in that stream (R336). -/
def execCopyComplete (h : HerdId) (s : State) : Out :=
  match s.copies.find? fun j => j.herd == h with
  | some j => s.ifOnly (j.status.isSome || !j.hostEnd || s.hostReach h) fun s =>
    (((if j.status.isNone && j.hostSource then s.touchStream (.vf h) .active else s).copyFinish j).settle).icNote
  | none => .next s
/-- SWEEP_END (Table 13.5). -/
def execSweepEnd (w : WinId) (s : State) : Out :=
  s.ifOnly ((s.win w).st != 0 && s.sweeping w) fun s => (s.sweepDone w).settle
/-- ADVANCE_SEND (R403): every frame of the stream is acknowledged and the dimension is UP. -/
def execAdvanceSend (d : DimId) (h : HerdId) (s : State) : Out :=
  s.ifOnly ((s.stream d h).advancing && s.dimUp d.val && !((s.dimAt d).held.any fun f => f.herd == h)) fun s =>
    let st := s.stream d h
    let g := st.sendCtr.toNat / 2 ^ 48 + 1
    let s := s.sendControl d (leBytes 1 h.val ++ leBytes 2 g)
    let s := s.setStream d h { st with sendCtr := BitVec.ofNat 64 (g * 2 ^ 48), advancing := false }
    if s.advancing h then s
    else
      let refs := (s.herd h).rotLinks
      (refs.foldl (fun s r => s.done r stOK) (s.modHerd h fun x => { x with rotLinks := [] })).settle
/-- Send the HELLOs that waited for an alias leaf (R427). -/
def State.sendHellos (s : State) : State :=
  allDims.foldl (fun s d => if (s.dimAt d).helloDue then s.helloSend d else s) s
/-- ALIAS_READY (R426, R427): the next alias is certified, and what waited for a leaf is signed. -/
def execAliasReady (s : State) : Out := s.ifOnly s.aliasDue fun s => (((s.nextAlias).retrySign).sendHellos).settle
/-- The draws that waited for the entropy source are made (R418): a RENEW, a transition's DNONCE, encapsulations to peers, the
orders that draw, and the keys of sweeps. -/
def State.drawWaiting (s : State) : State :=
  let s := if s.tahr.renewDue then { s with tahr := { s.tahr with renewDue := false } }.renewNow else s
  let s := match s.lc.seq with | some q => if q.draws then s.drawDnonce q else s | none => s
  let s := allDims.foldl (fun s d => match (s.dimAt d).encapDue with | some ek => s.encapTo d ek | none => s) s
  allWins.foldl (fun s w => s.wakeSweep w) s.settle
/-- ENTROPY_HEALTH_FAIL (R418): a failing test raises source 51; on recovery, the draws that waited are made. -/
def execEntropyHealthFail (failing : Bool) (s : State) : Out :=
  s.ifOnly (failing != s.tahr.entropyBad) fun s =>
    let s := { s with tahr := { s.tahr with entropyBad := failing } }
    if failing then s.edge 0 51 else s.drawWaiting.icNote
/-- KEY_OFFER (R335, R336). -/
def execKeyOffer (stream : Fin 33) (set : Bool) (ct : List Byte) (salt : W256) (auth : Option W256) (s : State) : Out :=
  s.doe fun s => (s.keyOffer stream set ct salt auth).settle
/-- KEY_STOP (Table 11.7). -/
def execKeyStop (stream : Fin 33) (s : State) : Out :=
  s.doe fun s => ((s.streamLost stream 3).settle).ideStatus stream.val false 0
/-- IDE_INTEGRITY_FAIL (Table 11.7): only a SECURE stream's TLPs meet it. -/
def execIdeIntegrityFail (stream : Fin 33) (s : State) : Out :=
  s.ifOnly (s.linkUp && (s.ideAt stream).st == .secure) fun s => (s.streamLost stream 1).settle
/-- The link is up at a rate and width that Table 11.3 can report. -/
def linkTrains (speed : BitVec 3) (width : BitVec 5) : Bool :=
  1 ≤ speed.toNat && speed.toNat ≤ 5 && 1 ≤ width.toNat && width.toNat ≤ 16
/-- DL_UP (R327, R480): entries that were held are written in their original order, and reports that waited for the link. -/
def execDlUp (speed : BitVec 3) (width : BitVec 5) (s : State) : Out :=
  s.ifOnly (!s.linkUp && !s.pins.perst && !s.lasersOff && linkTrains speed width) fun s =>
    let s := { s with linkUp := true, linkSpeed := speed, linkWidth := width }
    ((allRings.foldl (fun s r => (s.flushCpl r).freeEvt r) s).retrySign).settle
/-- DL_DOWN. -/
def execDlDown (s : State) : Out := s.ifOnly s.linkUp fun s => s.linkDown.settle
/-- HOST_LINK_TIMEOUT (R327): each copy with a host end completes `CFG_INVALID` (R76). -/
def execHostLinkTimeout (s : State) : Out :=
  s.ifOnly (!s.linkUp) fun s =>
    (s.copyStop stCfgInvalid CopyJob.hostEnd).settle
/-- BLOCK_FAULT (R464). -/
def execBlockFault (p : Part) (s : State) : Out :=
  s.ifOnly (partBlock p).isSome fun s => (s.faultBlock p (blockStatus p)).settle
/-- HANDSHAKE_STALL (R43): an Offer made on an idle channel stays unacknowledged beyond TIMEOUT_US. -/
def execHandshakeStall (p : Part) (h : Option HerdId) (s : State) : Out :=
  s.ifOnly (s.offering p && s.idleChan p) fun s => ((s.stallOn p).stallError p h).settle
/-- REMAP_RECORD (R20): Tahr writes the oldest record that can be written. -/
def execRemapRecord (s : State) : Out :=
  match s.repair.records.find? s.recordable with
  | none => .next s
  | some r => s.ifOnly (s.tahr.st != 4) fun s => (s.writeRecord r).settle
/-- REGION_OR_CHIP_ERROR (R463): `h` is the herd whose operation it stops. -/
def execRegionOrChipError (p : Part) (h : Option HerdId) (line : BitVec 6) (s : State) : Out :=
  s.ifOnly (chipPart p && (match p with
    | .nyaNode w _ _ => (s.win w).st != 0
    | .nyaRoot w => (s.win w).st != 0
    | _ => true)) fun s => (s.chipError p h line).settle

/-! ## Function-level resets (R332, R532, Table 12.11) -/

/-- The FLR domain of a ring set is cleared; what it has fetched takes effect, and its completions are discarded. -/
def RingSet.flr (x : RingSet) : RingSet := { gen := x.gen + 1, fetched := x.fetched }
/-- Words held and latched for a function are dropped (R519). -/
def State.dropWords (s : State) (who : Who) : State :=
  { s with heldLow := s.heldLow.filter fun e => e.1 != who, latchedHigh := s.latchedHigh.filter fun e => e.1 != who }
/-- A copy ends `CFG_INVALID`, and its completion entry is discarded. -/
def State.copyDrop (s : State) (j : CopyJob) : State :=
  let s := s.copyOver j stCfgInvalid
  let s := { s with copies := s.copies.erase j }.meterFlush j.herd
  let x := s.srcRing j.ref.src
  if j.ref.gen != x.gen then s else (s.setSrcRing j.ref.src { x with reserved := x.reserved - 1 }).fenceCheck j.ref.src
/-- FLR of VF h + 1 for its herd: a quiesce is raised, and copies with a host end are dropped. -/
def State.flrHerd (s : State) (h : HerdId) (gen : Nat) : State :=
  let l := s.copies.filter fun j => j.herd == h && j.hostEnd
  let s := l.foldl (fun s j => s.copyDrop j) s
  (s.herdQuiesce { src := .ring (.vf h), tag := 0, gen := gen, herd := some h } h).settle
/-- VF_FLR (R332): the ring set and the held words of the function are cleared, and it is in D0 (PRESUMED, log entry 151); the herd takes
part while it is LIVE. -/
def execVfFlr (h : HerdId) (s : State) : Out :=
  .next (
    if !s.reach (.vf h) then s
    else
      let gen := (s.ring (.vf h)).gen
      let s := (s.setRing (.vf h) (s.ring (.vf h)).flr).dropWords (.vf h)
      let s := { s with d3hot := s.d3hot.set false (fnOf (.vf h)) false }
      (if (s.herd h).st == .live then s.flrHerd h gen else s).icNote)
/-- The PF issued an order. -/
def OrderRef.isPf (r : OrderRef) : Bool := match r.src with | .ring (.pf _) => true | _ => false
/-- PF_FLR (R532). -/
def execPfFlr (s : State) : Out :=
  .next (
    if !s.reach .pf then s
    else
      let s := (List.finRange 4).foldl (fun s k => s.setRing (.pf k) (s.ring (.pf k)).flr) s
      let s := { s with vfEnable := false, doeError := false, d3hot := {} }.dropWords .pf
      let l := s.copies.filter fun j => j.ref.isPf && j.hostEnd
      ((l.foldl (fun s j => s.copyDrop j) s).settle).icNote)

end Sys2Proof.Machine
end

