-- ==== Sys2Proof/Machine/Batch.lean ====
section
/-!
DEFINITION. Fetching orders and dispatching batches (R337 to R340, R343, R345, R346, Tables 11.10 to 11.12 and 11.17).
-/
namespace Sys2Proof.Machine

/-! ## The order entry (Tables 11.10, 11.12, 12.1, 12.7, 13.4, 14.10, R388) -/

/-- The bytes of an entry from `o` on are zero. -/
def zeroFrom (b : List Byte) (o : Nat) : Bool := (b.drop o).all (· == 0)
/-- The bits of the 64-bit word at `o` from `k` up are zero. -/
def zeroAbove (b : List Byte) (o k : Nat) : Bool := fieldLe b o 8 < 2 ^ k
/-- `k` bits of the 64-bit word at `o` from bit `lo`. -/
def entBits (b : List Byte) (o lo k : Nat) : BitVec k := BitVec.ofNat k (bits (fieldLe b o 8) lo k)
/-- An operation if its reserved bits are 0. -/
def whenClean (ok : Bool) (op : OrderOp) : Option OrderOp := if ok then some op else none
/-- The operation that the 64 bytes of an entry spell; none for a reserved opcode or a reserved bit that is set (R343). -/
def decodeEntry (b : List Byte) : Option OrderOp :=
  if 2 ^ 13 ≤ fieldLe b 0 4 then none
  else match fieldLe b 0 1 with
  | 0x01 => whenClean (zeroFrom b 8) .fence
  | 0x02 => whenClean (zeroFrom b 0x14) (.sentenceLoad (entBits b 8 0 64) (entBits b 0x10 0 32))
  | 0x03 => whenClean (zeroFrom b 0x0C) (.sentenceRun (entBits b 8 0 32))
  | 0x04 => whenClean (zeroFrom b 0x10) (.nounCreate (entBits b 8 0 64))
  | 0x05 => whenClean (zeroAbove b 8 15 && zeroFrom b 0x10) (.nounDestroy (entBits b 8 0 6) (entBits b 8 6 9))
  | 0x06 => whenClean (zeroAbove b 0x18 43 && zeroFrom b 0x20)
      (.copy (entBits b 8 0 64) (entBits b 0x10 0 64) (entBits b 0x18 0 40) (bit (fieldLe b 0x18 8) 40)
        (bit (fieldLe b 0x18 8) 41) (bit (fieldLe b 0x18 8) 42))
  | 0x07 => whenClean (zeroAbove b 8 10 && zeroAbove b 0x10 48 && zeroAbove b 0x18 40 && zeroAbove b 0x20 6 && zeroFrom b 0x28)
      (.windowAlloc ⟨fieldLe b 8 1 % 64, Nat.mod_lt _ (by decide)⟩ (entBits b 8 6 4) (entBits b 0x10 0 48) (entBits b 0x18 0 40)
        (entBits b 0x20 0 6))
  | 0x08 => whenClean (zeroAbove b 8 6 && zeroFrom b 0x10) (.windowFree ⟨fieldLe b 8 1 % 64, Nat.mod_lt _ (by decide)⟩)
  | 0x09 => whenClean (zeroAbove b 8 10 && bits (fieldLe b 8 8) 6 2 = 0 && zeroFrom b 0x10)
      (.keyRotate ⟨fieldLe b 8 1 % 64, Nat.mod_lt _ (by decide)⟩ (entBits b 8 8 2))
  | 0x0A => whenClean (zeroAbove b 0x18 46 && zeroFrom b 0x28)
      (.checkpointSeal (entBits b 8 0 64) (entBits b 0x10 0 64) (entBits b 0x18 0 40) (entBits b 0x18 40 2) (entBits b 0x18 42 3)
        (bit (fieldLe b 0x18 8) 45) (entBits b 0x20 0 64))
  | 0x0B => whenClean (zeroAbove b 0x10 40 && zeroFrom b 0x18) (.checkpointRestore (entBits b 8 0 64) (entBits b 0x10 0 40))
  | 0x0C => whenClean (zeroAbove b 0x10 33 && zeroAbove b 0x18 0)
      (.attest (entBits b 8 0 64) (entBits b 0x10 0 32) (bit (fieldLe b 0x10 8) 32) (word256 (sliceBytes b 0x20 32)))
  | 0x0D => whenClean (zeroFrom b 8) .herdQuiesce
  | 0x0E => whenClean (zeroFrom b 8) .herdRevoke
  | 0x0F => whenClean (zeroAbove b 8 48 && zeroAbove b 0x10 15 && zeroFrom b 0x18)
      (.herdCreate (entBits b 8 0 48) (entBits b 0x10 0 15))
  | 0x10 => whenClean (zeroAbove b 8 26 && bits (fieldLe b 8 8) 10 6 = 0 && zeroFrom b 0x10)
      (.lotAssign (entBits b 8 0 10) (entBits b 8 16 10))
  | 0x11 => whenClean (zeroAbove b 8 26 && bits (fieldLe b 8 8) 10 6 = 0 && zeroFrom b 0x10)
      (.lotRelease (entBits b 8 0 10) (entBits b 8 16 10))
  | _ => none
/-- The class of an opcode as its rank (R346); a reserved opcode has none and stands last. -/
def opcodeRank (c : Nat) : Nat :=
  [11, 10, 5, 2, 4, 3, 8, 4, 3, 6, 7, 7, 9, 1, 0, 4, 4, 3].getD c 11
/-- The opcode of an operation (Table 11.11). -/
def opcodeOf : OrderOp → Nat
  | .fence => 0x01
  | .sentenceLoad _ _ => 0x02
  | .sentenceRun _ => 0x03
  | .nounCreate _ => 0x04
  | .nounDestroy _ _ => 0x05
  | .copy _ _ _ _ _ _ => 0x06
  | .windowAlloc _ _ _ _ _ => 0x07
  | .windowFree _ => 0x08
  | .keyRotate _ _ => 0x09
  | .checkpointSeal _ _ _ _ _ _ _ => 0x0A
  | .checkpointRestore _ _ => 0x0B
  | .attest _ _ _ _ => 0x0C
  | .herdQuiesce => 0x0D
  | .herdRevoke => 0x0E
  | .herdCreate _ _ => 0x0F
  | .lotAssign _ _ => 0x10
  | .lotRelease _ _ => 0x11

/-! ## Fetch (R337, R339, R344) -/

/-- A `FENCE` of the ring has not completed, or is fetched and waits for its batch. -/
def RingSet.fenced (x : RingSet) : Bool := !x.fences.isEmpty || x.fetched.any fun f => fieldLe f.bytes 0 1 = 1
/-- A completion slot can be reserved for one more order (R339). -/
def RingSet.canAdmit (x : RingSet) : Bool := x.cpl.unread + x.reserved + x.heldCpl.length + 1 ≤ x.cpl.size - 1
/-- The ring's next order can be fetched. -/
def State.canFetch (s : State) (r : RingId) : Bool :=
  let x := s.ring r
  s.reach (ringWho r) && s.ringReach r && x.ord.en && x.cpl.en && x.ord.idx != x.ord.door && x.canAdmit && !x.fenced
    && (match r with | .vf h => (s.herd h).st == .live | .pf _ => true)
/-- Fetch one entry, once, and reserve its completion slot. -/
def State.fetch (s : State) (r : RingId) : State :=
  let x := s.ring r
  let a := x.ord.base.toNat + 64 * x.ord.idx.toNat
  let e : Fetched := { bytes := s.hostRead a 64, gen := x.gen }
  let nxt := BitVec.ofNat 16 ((x.ord.idx.toNat + 1) % x.ord.size)
  s.setRing r { x with ord := { x.ord with idx := nxt }, fetched := x.fetched ++ [e], reserved := x.reserved + 1 }
/-- ORDER_FETCH. Its read request is a TLP of the function's IDE stream (R336). -/
def execOrderFetch (r : RingId) (s : State) : Out :=
  s.ifOnly (s.canFetch r) fun s => ((s.fetch r).touchStream (ringWho r) .active).icNote

/-! ## Batches (R345, R346) -/

/-- An order of a batch: its reference and herd, its class and source ranks, and its operation, none when malformed. -/
structure BatchItem where
  order : Order
  ok : Bool
  rank : Nat
  srcRank : Nat
deriving DecidableEq, Repr

/-- The order of sources within a class: Tahr, PF ring sets, VFs of secure herds, VFs of non-secure herds. -/
def State.srcRank (s : State) : OrderSrc → Nat
  | .tahr => 0
  | .ring (.pf k) => 1 + k.val
  | .ring (.vf h) => (if (s.herd h).secure then 5 else 37) + h.val
/-- A fetched entry as an order of the batch. -/
def State.itemOf (s : State) (r : RingId) (f : Fetched) : BatchItem :=
  let h := orderHerd (.ring r) (herdOf (fieldLe f.bytes 1 1))
  let op := decodeEntry f.bytes
  { order := { src := .ring r, herd := h, tag := BitVec.ofNat 32 (fieldLe f.bytes 4 4), op := op.getD .fence, gen := f.gen }
    ok := op.isSome, rank := opcodeRank (fieldLe f.bytes 0 1), srcRank := s.srcRank (.ring r) }
/-- Up to 16 fetched orders of a ring, none after a `FENCE`. -/
def takeBatch : Nat → List Fetched → List Fetched
  | 0, _ => []
  | _, [] => []
  | n + 1, f :: r => if fieldLe f.bytes 0 1 = 1 then [f] else f :: takeBatch n r
/-- The part of a ring's fetched orders that a batch takes. -/
def RingSet.batch (x : RingSet) : List Fetched := if x.fences.isEmpty then takeBatch 16 x.fetched else []
/-- Insert an order by class and source, after its equals. -/
def insertItem (e : BatchItem) : List BatchItem → List BatchItem
  | [] => [e]
  | q :: r =>
    if e.rank < q.rank || (e.rank = q.rank && e.srcRank < q.srcRank) then e :: q :: r else q :: insertItem e r
/-- The orders of the next batch, in batch order. -/
def State.batchItems (s : State) : List BatchItem :=
  let tahr := s.tahr.orders.map fun o =>
    ({ order := o, ok := true, rank := opcodeRank (opcodeOf o.op), srcRank := 0 } : BatchItem)
  let rings := allRings.flatMap fun r => (s.ring r).batch.map fun f => s.itemOf r f
  (tahr ++ rings).foldl (fun l e => insertItem e l) []
/-- The batch leaves its rings and Tahr. -/
def State.takeItems (s : State) : State :=
  allRings.foldl (fun s r =>
    let x := s.ring r
    if x.batch.isEmpty then s else s.setRing r { x with fetched := x.fetched.drop x.batch.length })
    { s with tahr := { s.tahr with orders := [] } }

/-- What has happened in a batch so far: the orders that were dispatched and not refused by R343, R487 or R534, the herds
revoked, those whose run has started, and the peers that its creations turned out to be. `batch` is its number, and `guess` the peers
that creations are checked against. -/
structure BatchLog where
  batch : Nat
  guess : List Peer
  ran : List Order := []
  revoked : List HerdId := []
  started : List HerdId := []
  peers : List Peer := []
deriving DecidableEq, Repr

/-- Two `ACQUIRE` orders claim one resource: a herd number, a block group, a lot or an overlapping window. -/
def claimsMeet (a b : Order) : Bool :=
  match a.op, b.op with
  | .herdCreate g _, .herdCreate k _ => a.herd == b.herd || g &&& k != 0
  | .lotAssign f c, .lotAssign g d => f.toNat ≤ g.toNat + d.toNat && g.toNat ≤ f.toNat + c.toNat
  | .windowAlloc w _ x n _, .windowAlloc v _ y m _ =>
    w == v || ((isInter x.toNat || isLin x.toNat) && (isInter y.toNat || isLin y.toNat) && n != 0 && m != 0
      && winMeets x.toNat n.toNat y.toNat m.toNat)
  | _, _ => false
/-- Two `KEY_ROTATE` orders name one window; LINK names none. -/
def rotatesMeet (a b : Order) : Bool :=
  match a.op, b.op with
  | .keyRotate w x, .keyRotate v y => w == v && x != 2 && y != 2
  | _, _ => false
/-- Table 11.17: the order loses to one that has executed, or, a START, to a STOP of its herd. -/
def BatchLog.loses (g : BatchLog) (o : Order) : Bool :=
  let c := opcodeRank (opcodeOf o.op)
  let mine := g.ran.filter fun q => namesHerd q && q.herd == o.herd
  (namesHerd o && g.revoked.contains o.herd)
    || (c = 2 && mine.any fun q => opcodeRank (opcodeOf q.op) = 1)
    || ((c = 1 || c = 2 || c = 5 || c = 7) && mine.any fun q => opcodeRank (opcodeOf q.op) = c)
    || (g.started.contains o.herd && (c = 3 || c = 5 || c = 7 || (match o.op with | .nounCreate _ => true | _ => false)))
    || g.ran.any fun q => claimsMeet q o || rotatesMeet q o
/-- Dispatch one order of a batch. -/
def State.dispatch (s : State) (g : BatchLog) (e : BatchItem) : State × BatchLog :=
  let o := { e.order with seq := s.orderSeq, batch := g.batch }
  let s := { s with orderSeq := s.orderSeq + 1 }
  if !e.ok then (s.done (refOf o) stCfgInvalid, g)
  else if g.revoked.contains o.herd && namesHerd o && s.cfg.st == 2 && s.mayIssue o && !reservedOp o.op then
    (s.done (refOf o) stSuperseded, g)
  else match s.orderRefused o with
  | some st => (s.done (refOf o) st, g)
  | none =>
    if g.loses o then (s.done (refOf o) stSuperseded, g)
    else
      let live := (s.herd o.herd).st == .live
      let idle := !(s.herd o.herd).busy
      let t := s.execute o (peersFor o g.guess)
      let isRun := match o.op with | .sentenceRun _ => true | _ => false
      (t, { g with
            ran := g.ran ++ [o]
            revoked := if o.op == .herdRevoke && live && (t.herd o.herd).st == .revoking then o.herd :: g.revoked else g.revoked
            started := if isRun && idle && (t.herd o.herd).busy then o.herd :: g.started else g.started
            peers := g.peers ++ s.peerOf o })
/-- Dispatch the orders of a batch; the peers that its creations turned out to be. -/
def State.dispatchAll : List BatchItem → BatchLog → State → State × List Peer
  | [], g, s => (s, g.peers)
  | e :: r, g, s =>
    let (s, g) := s.dispatch g e
    State.dispatchAll r g s
/-- Dispatch a batch, whose number is one more than the place of its first order. -/
def State.dispatchBatch (s : State) (l : List BatchItem) : State :=
  withPeers (l.length + 1) (fun g => State.dispatchAll l { batch := s.orderSeq + 1, guess := g } s) []
/-- BATCH_DISPATCH (R345, R346). -/
def execBatchDispatch (s : State) : Out :=
  s.ifOnly (!s.batchItems.isEmpty) fun s => ((s.takeItems.dispatchBatch s.batchItems).settle).icNote

end Sys2Proof.Machine
end

