-- ==== Sys2Proof/Machine/Dispatch.lean ====
section
/-!
DEFINITION. Dispatch: the meaning of each command, one arm for each constructor of Instr.
-/
namespace Sys2Proof.Machine

/-- The effect of a command on everything but the queue. -/
def exec (i : Instr) (s : State) : Host.Outcome State Fault Refusal :=
  match i with
  | .regWrite who sp off bytes value tlp => Sys2Proof.Machine.execRegWrite who sp off bytes value tlp s
  | .regLowWordRead who sp off bytes tlp err => Sys2Proof.Machine.execRegLowWordRead who sp off bytes tlp err s
  | .governorEval inputW p56 => Sys2Proof.Machine.execGovernorEval inputW p56 s
  | .powerPointDown => Sys2Proof.Machine.execPowerPointDown s
  | .powerPointUp => Sys2Proof.Machine.execPowerPointUp s
  | .thermalThrottleTick => Sys2Proof.Machine.execThermalThrottleTick s
  | .thermalRecoverTick => Sys2Proof.Machine.execThermalRecoverTick s
  | .ppPointWrite value => Sys2Proof.Machine.execPpPointWrite value s
  | .slewDone => Sys2Proof.Machine.execSlewDone s
  | .handshakeStall p h => Sys2Proof.Machine.execHandshakeStall p h s
  | .tbSyncSend => Sys2Proof.Machine.execTbSyncSend s
  | .tbSyncReceive head offset beacon => Sys2Proof.Machine.execTbSyncReceive head offset beacon s
  | .tbSyncTimeout => Sys2Proof.Machine.execTbSyncTimeout s
  | .sInLightChange lit => Sys2Proof.Machine.execSInLightChange lit s
  | .stringBeaconTimeout => Sys2Proof.Machine.execStringBeaconTimeout s
  | .tbNowWrite value => Sys2Proof.Machine.execTbNowWrite value s
  | .lotClearDone l => Sys2Proof.Machine.execLotClearDone l s
  | .hbmTrainingDone k ok => Sys2Proof.Machine.execHbmTrainingDone k ok s
  | .hbmHotEnter k temp => Sys2Proof.Machine.execHbmHotEnter k temp s
  | .hbmHotExit k temp => Sys2Proof.Machine.execHbmHotExit k temp s
  | .copyOrder src h tag sa da bytes sHost dHost => Sys2Proof.Machine.execCopyOrder src h tag sa da bytes sHost dHost s
  | .nounCopy src h tag sEntry sBlock dEntry dBlock => Sys2Proof.Machine.execNounCopy src h tag sEntry sBlock dEntry dBlock s
  | .copyComplete h => Sys2Proof.Machine.execCopyComplete h s
  | .mma b iss o => Sys2Proof.Machine.execMma b iss o s
  | .groupStart b p => Sys2Proof.Machine.execGroupStart b p s
  | .aOffer b p => Sys2Proof.Machine.execAOffer b p s
  | .laneAccept b p l => Sys2Proof.Machine.execLaneAccept b p l s
  | .stepComplete b p => Sys2Proof.Machine.execStepComplete b p s
  | .refillComplete b p => Sys2Proof.Machine.execRefillComplete b p s
  | .mmaVerbEnd b p => Sys2Proof.Machine.execMmaVerbEnd b p s
  | .mst b iss o => Sys2Proof.Machine.execMst b iss o s
  | .mclr b iss pairs => Sys2Proof.Machine.execMclr b iss pairs s
  | .agBind b iss o => Sys2Proof.Machine.execAgBind b iss o s
  | .agOrigin b iss o => Sys2Proof.Machine.execAgOrigin b iss o s
  | .agConv b iss o => Sys2Proof.Machine.execAgConv b iss o s
  | .vadd b iss o => Sys2Proof.Machine.execVadd b iss o s
  | .vsub b iss o => Sys2Proof.Machine.execVsub b iss o s
  | .vmul b iss o => Sys2Proof.Machine.execVmul b iss o s
  | .vfma b iss o => Sys2Proof.Machine.execVfma b iss o s
  | .vfnma b iss o => Sys2Proof.Machine.execVfnma b iss o s
  | .vmax b iss o => Sys2Proof.Machine.execVmax b iss o s
  | .vmin b iss o => Sys2Proof.Machine.execVmin b iss o s
  | .vabs b iss o => Sys2Proof.Machine.execVabs b iss o s
  | .vneg b iss o => Sys2Proof.Machine.execVneg b iss o s
  | .vrcp b iss o => Sys2Proof.Machine.execVrcp b iss o s
  | .vdivs b iss o => Sys2Proof.Machine.execVdivs b iss o s
  | .vrsqrt b iss o => Sys2Proof.Machine.execVrsqrt b iss o s
  | .vexp2 b iss o => Sys2Proof.Machine.execVexp2 b iss o s
  | .vlog2 b iss o => Sys2Proof.Machine.execVlog2 b iss o s
  | .vldexp b iss o => Sys2Proof.Machine.execVldexp b iss o s
  | .vcmp b iss o => Sys2Proof.Machine.execVcmp b iss o s
  | .vsel b iss o => Sys2Proof.Machine.execVsel b iss o s
  | .vand b iss o => Sys2Proof.Machine.execVand b iss o s
  | .vor b iss o => Sys2Proof.Machine.execVor b iss o s
  | .vxor b iss o => Sys2Proof.Machine.execVxor b iss o s
  | .vshl b iss o => Sys2Proof.Machine.execVshl b iss o s
  | .vsrl b iss o => Sys2Proof.Machine.execVsrl b iss o s
  | .vsra b iss o => Sys2Proof.Machine.execVsra b iss o s
  | .viadd b iss o => Sys2Proof.Machine.execViadd b iss o s
  | .visub b iss o => Sys2Proof.Machine.execVisub b iss o s
  | .vimul b iss o => Sys2Proof.Machine.execVimul b iss o s
  | .vimax b iss o => Sys2Proof.Machine.execVimax b iss o s
  | .vimin b iss o => Sys2Proof.Machine.execVimin b iss o s
  | .vcvt b iss o => Sys2Proof.Machine.execVcvt b iss o s
  | .vexpadd b iss o => Sys2Proof.Machine.execVexpadd b iss o s
  | .vpadd b iss o => Sys2Proof.Machine.execVpadd b iss o s
  | .vpmul b iss o => Sys2Proof.Machine.execVpmul b iss o s
  | .vpfma b iss o => Sys2Proof.Machine.execVpfma b iss o s
  | .vmov b iss o => Sys2Proof.Machine.execVmov b iss o s
  | .vsplat b iss o => Sys2Proof.Machine.execVsplat b iss o s
  | .vlimm b iss o => Sys2Proof.Machine.execVlimm b iss o s
  | .vlane b iss o => Sys2Proof.Machine.execVlane b iss o s
  | .vargmax b iss o => Sys2Proof.Machine.execVargmax b iss o s
  | .vargmin b iss o => Sys2Proof.Machine.execVargmin b iss o s
  | .vgetf b iss o => Sys2Proof.Machine.execVgetf b iss o s
  | .vclrf b iss o => Sys2Proof.Machine.execVclrf b iss o s
  | .vld b iss o => Sys2Proof.Machine.execVld b iss o s
  | .vst b iss o => Sys2Proof.Machine.execVst b iss o s
  | .vcur b iss o => Sys2Proof.Machine.execVcur b iss o s
  | .vloop b iss o => Sys2Proof.Machine.execVloop b iss o s
  | .vred b iss o => Sys2Proof.Machine.execVred b iss o s
  | .bred b iss o => Sys2Proof.Machine.execBred b iss o s
  | .vrng b iss o => Sys2Proof.Machine.execVrng b iss o s
  | .rseed b iss o => Sys2Proof.Machine.execRseed b iss o s
  | .nounCreate src h tag arg => Sys2Proof.Machine.execNounCreate src h tag arg s
  | .nounDestroy src h tag entry block => Sys2Proof.Machine.execNounDestroy src h tag entry block s
  | .sentenceLoad src h tag addr bytes => Sys2Proof.Machine.execSentenceLoad src h tag addr bytes s
  | .sentenceRun src h tag steps => Sys2Proof.Machine.execSentenceRun src h tag steps s
  | .mov b iss o => Sys2Proof.Machine.execMov b iss o s
  | .bend b iss skip => Sys2Proof.Machine.execBend b iss skip s
  | .setr b iss o => Sys2Proof.Machine.execSetr b iss o s
  | .blockDone b => Sys2Proof.Machine.execBlockDone b s
  | .rowDone h r row => Sys2Proof.Machine.execRowDone h r row s
  | .unitDone h => Sys2Proof.Machine.execUnitDone h s
  | .sliceRound h => Sys2Proof.Machine.execSliceRound h s
  | .beatEnd h => Sys2Proof.Machine.execBeatEnd h s
  | .beatEndSeen b => Sys2Proof.Machine.execBeatEndSeen b s
  | .beatTimeout h => Sys2Proof.Machine.execBeatTimeout h s
  | .stopRequest h f => Sys2Proof.Machine.execStopRequest h f s
  | .stopBeatEnd h peers => Sys2Proof.Machine.execStopBeatEnd h peers s
  | .stageCtrlWrite h value => Sys2Proof.Machine.execStageCtrlWrite h value s
  | .declensionItem h item => Sys2Proof.Machine.execDeclensionItem h item s
  | .dcoef b iss o => Sys2Proof.Machine.execDcoef b iss o s
  | .dtouch b iss o => Sys2Proof.Machine.execDtouch b iss o s
  | .routeEntry h e => Sys2Proof.Machine.execRouteEntry h e s
  | .reduceScatter h e => Sys2Proof.Machine.execReduceScatter h e s
  | .allGather h e => Sys2Proof.Machine.execAllGather h e s
  | .allReduce h e => Sys2Proof.Machine.execAllReduce h e s
  | .allToAll h e => Sys2Proof.Machine.execAllToAll h e s
  | .smallSum h e => Sys2Proof.Machine.execSmallSum h e s
  | .normFinish h e => Sys2Proof.Machine.execNormFinish h e s
  | .patienceExpiry h e => Sys2Proof.Machine.execPatienceExpiry h e s
  | .carryCapture h e => Sys2Proof.Machine.execCarryCapture h e s
  | .commitReady h => Sys2Proof.Machine.execCommitReady h s
  | .commitAllReady h => Sys2Proof.Machine.execCommitAllReady h s
  | .commitRecord h => Sys2Proof.Machine.execCommitRecord h s
  | .commitHbmRecord h => Sys2Proof.Machine.execCommitHbmRecord h s
  | .commitFlip h => Sys2Proof.Machine.execCommitFlip h s
  | .stopLimitExpiry h => Sys2Proof.Machine.execStopLimitExpiry h s
  | .resolveForward h => Sys2Proof.Machine.execResolveForward h s
  | .resolveBack h => Sys2Proof.Machine.execResolveBack h s
  | .ledgerCountWrite h value => Sys2Proof.Machine.execLedgerCountWrite h value s
  | .laneLock n => Sys2Proof.Machine.execLaneLock n s
  | .laneTrainTimeout n => Sys2Proof.Machine.execLaneTrainTimeout n s
  | .laneLightLost n => Sys2Proof.Machine.execLaneLightLost n s
  | .probeTimer n => Sys2Proof.Machine.execProbeTimer n s
  | .frameSlot n => Sys2Proof.Machine.execFrameSlot n s
  | .probeFrame n p rtt => Sys2Proof.Machine.execProbeFrame n p rtt s
  | .idleFrame n => Sys2Proof.Machine.execIdleFrame n s
  | .dataFrame n f rest => Sys2Proof.Machine.execDataFrame n f rest s
  | .reduceFrame n f => Sys2Proof.Machine.execReduceFrame n f s
  | .beatFrame n f tok => Sys2Proof.Machine.execBeatFrame n f tok s
  | .ackReport n h ack ctr auth => Sys2Proof.Machine.execAckReport n h ack ctr auth s
  | .ackTimer d => Sys2Proof.Machine.execAckTimer d s
  | .resendTimeout d k => Sys2Proof.Machine.execResendTimeout d k s
  | .testRequest n via ctr auth => Sys2Proof.Machine.execTestRequest n via ctr auth s
  | .crcLimitReached n => Sys2Proof.Machine.execCrcLimitReached n s
  | .laneRetrain n => Sys2Proof.Machine.execLaneRetrain n s
  | .laneDisable n off => Sys2Proof.Machine.execLaneDisable n off s
  | .spareReturn n => Sys2Proof.Machine.execSpareReturn n s
  | .hello d via report ctr => Sys2Proof.Machine.execHello d via report ctr s
  | .encap d via ct ctr => Sys2Proof.Machine.execEncap d via ct ctr s
  | .confirm d via mac ctr => Sys2Proof.Machine.execConfirm d via mac ctr s
  | .join d via peer world mac ctr auth => Sys2Proof.Machine.execJoin d via peer world mac ctr auth s
  | .advance d via peer g ctr auth => Sys2Proof.Machine.execAdvance d via peer g ctr auth s
  | .advanceSend d h => Sys2Proof.Machine.execAdvanceSend d h s
  | .lineRead dbg h w off evict bad => Sys2Proof.Machine.execLineRead dbg h w off evict bad s
  | .lineWrite dbg h w off start data evict bad => Sys2Proof.Machine.execLineWrite dbg h w off start data evict bad s
  | .sweepEnd w => Sys2Proof.Machine.execSweepEnd w s
  | .windowAlloc src h tag w ptag base size budgetLog2 => Sys2Proof.Machine.execWindowAlloc src h tag w ptag base size budgetLog2 s
  | .windowFree src h tag w => Sys2Proof.Machine.execWindowFree src h tag w s
  | .keyRotateRotate src h tag w => Sys2Proof.Machine.execKeyRotateRotate src h tag w s
  | .keyRotateReseed src h tag w => Sys2Proof.Machine.execKeyRotateReseed src h tag w s
  | .keyRotateLink src h tag => Sys2Proof.Machine.execKeyRotateLink src h tag s
  | .fence src tag => Sys2Proof.Machine.execFence src tag s
  | .checkpointSeal src h tag list dst dstBytes mode recipient auto approvals => Sys2Proof.Machine.execCheckpointSeal src h tag list dst dstBytes mode recipient auto approvals s
  | .checkpointRestore src h tag sa bytes => Sys2Proof.Machine.execCheckpointRestore src h tag sa bytes s
  | .attest src h tag dst dstBytes herdReport nonce => Sys2Proof.Machine.execAttest src h tag dst dstBytes herdReport nonce s
  | .herdQuiesce src h tag => Sys2Proof.Machine.execHerdQuiesce src h tag s
  | .herdRevoke src h tag => Sys2Proof.Machine.execHerdRevoke src h tag s
  | .revokeZeroize h => Sys2Proof.Machine.execRevokeZeroize h s
  | .revokeLastEntries h => Sys2Proof.Machine.execRevokeLastEntries h s
  | .revokeStreamOff h => Sys2Proof.Machine.execRevokeStreamOff h s
  | .revokeClear h => Sys2Proof.Machine.execRevokeClear h s
  | .revokeFree h => Sys2Proof.Machine.execRevokeFree h s
  | .herdCreate src h tag groups span => Sys2Proof.Machine.execHerdCreate src h tag groups span s
  | .lotAssign src h tag first countM1 => Sys2Proof.Machine.execLotAssign src h tag first countM1 s
  | .lotRelease src h tag first countM1 => Sys2Proof.Machine.execLotRelease src h tag first countM1 s
  | .form => Sys2Proof.Machine.execForm s
  | .partyRevoke => Sys2Proof.Machine.execPartyRevoke s
  | .orderFetch r => Sys2Proof.Machine.execOrderFetch r s
  | .batchDispatch => Sys2Proof.Machine.execBatchDispatch s
  | .ordTail r value hostData => Sys2Proof.Machine.execOrdTail r value hostData s
  | .cplHead r value => Sys2Proof.Machine.execCplHead r value s
  | .evtHead r value => Sys2Proof.Machine.execEvtHead r value s
  | .ringEnWrite r which on => Sys2Proof.Machine.execRingEnWrite r which on s
  | .msixHoldoffExpiry r => Sys2Proof.Machine.execMsixHoldoffExpiry r s
  | .dlDown => Sys2Proof.Machine.execDlDown s
  | .dlUp speed width => Sys2Proof.Machine.execDlUp speed width s
  | .hostLinkTimeout => Sys2Proof.Machine.execHostLinkTimeout s
  | .vfFlr h => Sys2Proof.Machine.execVfFlr h s
  | .pfFlr => Sys2Proof.Machine.execPfFlr s
  | .vfEnableWrite num on => Sys2Proof.Machine.execVfEnableWrite num on s
  | .reportReq doe code nonce => Sys2Proof.Machine.execReportReq doe code nonce s
  | .keyOffer stream set ct salt auth => Sys2Proof.Machine.execKeyOffer stream set ct salt auth s
  | .keyGo stream set => Sys2Proof.Machine.execKeyGo stream set s
  | .keyStop stream => Sys2Proof.Machine.execKeyStop stream s
  | .ideIntegrityFail stream => Sys2Proof.Machine.execIdeIntegrityFail stream s
  | .powerGood light bootString test tamperCause mram vin droop => Sys2Proof.Machine.execPowerGood light bootString test tamperCause mram vin droop s
  | .pwrEnAssert => Sys2Proof.Machine.execPwrEnAssert s
  | .pwrEnDeassert => Sys2Proof.Machine.execPwrEnDeassert s
  | .railFault => Sys2Proof.Machine.execRailFault s
  | .inputVoltageFault tooHigh => Sys2Proof.Machine.execInputVoltageFault tooHigh s
  | .thermalTrip hbm => Sys2Proof.Machine.execThermalTrip hbm s
  | .perstAssert => Sys2Proof.Machine.execPerstAssert s
  | .perstRelease => Sys2Proof.Machine.execPerstRelease s
  | .imageVerify str => Sys2Proof.Machine.execImageVerify str s
  | .aliasReady => Sys2Proof.Machine.execAliasReady s
  | .imageRequest => Sys2Proof.Machine.execImageRequest s
  | .beginImage total => Sys2Proof.Machine.execBeginImage total s
  | .data off bytes => Sys2Proof.Machine.execData off bytes s
  | .endImage => Sys2Proof.Machine.execEndImage s
  | .query => Sys2Proof.Machine.execQuery s
  | .devidKeys => Sys2Proof.Machine.execDevidKeys s
  | .devidCerts certs => Sys2Proof.Machine.execDevidCerts certs s
  | .cfgCommit crc ends => Sys2Proof.Machine.execCfgCommit crc ends s
  | .tahrReqGo hostData => Sys2Proof.Machine.execTahrReqGo hostData s
  | .tamper cause => Sys2Proof.Machine.execTamper cause s
  | .tahrFault => Sys2Proof.Machine.execTahrFault s
  | .entropyReseed => Sys2Proof.Machine.execEntropyReseed s
  | .holdupMeasure p56 watts => Sys2Proof.Machine.execHoldupMeasure p56 watts s
  | .challenge header => Sys2Proof.Machine.execChallenge header s
  | .present cert => Sys2Proof.Machine.execPresent cert s
  | .close => Sys2Proof.Machine.execClose s
  | .renew => Sys2Proof.Machine.execRenew s
  | .transition target cert => Sys2Proof.Machine.execTransition target cert s
  | .fuseWriteDone => Sys2Proof.Machine.execFuseWriteDone s
  | .icEdge c src => Sys2Proof.Machine.execIcEdge c src s
  | .icClaim c t => Sys2Proof.Machine.execIcClaim c t s
  | .icComplete c t src => Sys2Proof.Machine.execIcComplete c t src s
  | .icVectorDeliver c t => Sys2Proof.Machine.execIcVectorDeliver c t s
  | .icCtrlWrite c value => Sys2Proof.Machine.execIcCtrlWrite c value s
  | .icHoldoffExpiry c g => Sys2Proof.Machine.execIcHoldoffExpiry c g s
  | .blockFault p => Sys2Proof.Machine.execBlockFault p s
  | .correctableError p => Sys2Proof.Machine.execCorrectableError p s
  | .selfTestVerdict p pass => Sys2Proof.Machine.execSelfTestVerdict p pass s
  | .remapRecord => Sys2Proof.Machine.execRemapRecord s
  | .regionRestart r => Sys2Proof.Machine.execRegionRestart r s
  | .frameCrcFail n errs => Sys2Proof.Machine.execFrameCrcFail n errs s
  | .sentenceLoadDone h => Sys2Proof.Machine.execSentenceLoadDone h s
  | .vbatTLoss mv => Sys2Proof.Machine.execVbatTLoss mv s
  | .entropyHealthFail failing => Sys2Proof.Machine.execEntropyHealthFail failing s
  | .regionOrChipError p h line => Sys2Proof.Machine.execRegionOrChipError p h line s

end Sys2Proof.Machine
end

