-- ==== Sys2Proof/Machine/Step.lean ====
section
/-!
DEFINITION. Step: one command of the queue, or, on an empty queue, one nanosecond of the timebase.
-/
namespace Sys2Proof.Machine

/-- On an empty queue a unit with good power counts one nanosecond (R45; DESIGN CHOICE, log entry 1), and a validation in progress
ends (DESIGN CHOICE, log entry 83); an unpowered one idles. -/
def State.tick (s : State) : State :=
  if s.pins.pwrGood then
    let s := if s.cfg.st = 1 then s.validate else s
    { s with tb := s.tb.tick }
  else s

/-- Take the command at the front of the queue and run it with the queue's rest. -/
def step (s : State) : Host.Outcome State Fault Refusal :=
  match s.pending with
  | [] => .next s.tick
  | c :: r => exec c { s with pending := r }

/-- The command that a word spells, put at the front of the queue; no word spells one. -/
def State.withFetchWord (s : State) (nbits w : Nat) : State :=
  match Sys2Proof.decodeTableWord nbits w with
  | none => s
  | some c => { s with pending := c :: s.pending }

end Sys2Proof.Machine
end

