-- ==== Sys2Proof/Safety.lean ====
section
/-!
DEFINITION. Safety: what counts as a well-formed state and a safe step, and the words that statements use for what a
command leaves unchanged.
-/
namespace Sys2Proof.Machine

/-- The memories are in canonical form. -/
def State.memWf (s : State) : Bool := Memory.wf s.mem && Memory.wf s.hostMem

/-- The memories and the key slots are in canonical form: keys rise and no entry equals what an unlisted key reads as. -/
def State.canonical (s : State) : Bool := s.memWf && Tbl.wf {} s.slots

/-- An outcome is a next state. -/
def isNext (o : Host.Outcome State Fault Refusal) : Bool :=
  match o with
  | .next _ => true
  | _ => false

/-- From `s` to `t` nothing changes but the interrupt controllers. -/
def State.onlyIcs (s t : State) : Prop := { t with ics := s.ics } = s

/-- The commands that reset the unit: power-up, every way to lose power, and PERST_n (R492). -/
def resetsUnit : Instr → Bool
  | .powerGood _ _ _ _ _ _ _ => true
  | .pwrEnDeassert => true
  | .railFault => true
  | .inputVoltageFault _ => true
  | .thermalTrip _ => true
  | .perstAssert => true
  | _ => false
/-- From `s` to `t` nothing changes but the ring sets, the entries written to host memory and the interrupt
controllers. -/
def State.onlyRings (s t : State) : Prop :=
  { t with ics := s.ics, pfRings := s.pfRings, herds := s.herds, hostMem := s.hostMem } = s
  ∧ ∀ h : HerdId, { t.herd h with rings := (s.herd h).rings } = s.herd h


/-! ## Verbs -/

/-- The command that issues a register verb of class 0x1. -/
def RegFn.toInstr (f : RegFn) (b : BlockId) (i : Issue) (o : RegOp) : Instr :=
  match f with
  | .vadd => .vadd b i o
  | .vsub => .vsub b i o
  | .vmul => .vmul b i o
  | .vfma => .vfma b i o
  | .vfnma => .vfnma b i o
  | .vmax => .vmax b i o
  | .vmin => .vmin b i o
  | .vabs => .vabs b i o
  | .vneg => .vneg b i o
  | .vrcp => .vrcp b i o
  | .vdivs => .vdivs b i o
  | .vrsqrt => .vrsqrt b i o
  | .vexp2 => .vexp2 b i o
  | .vlog2 => .vlog2 b i o
  | .vldexp => .vldexp b i o
  | .vcmp => .vcmp b i o
  | .vsel => .vsel b i o
  | .vand => .vand b i o
  | .vor => .vor b i o
  | .vxor => .vxor b i o
  | .vshl => .vshl b i o
  | .vsrl => .vsrl b i o
  | .vsra => .vsra b i o
  | .viadd => .viadd b i o
  | .visub => .visub b i o
  | .vimul => .vimul b i o
  | .vimax => .vimax b i o
  | .vimin => .vimin b i o
  | .vexpadd => .vexpadd b i o
  | .vpadd => .vpadd b i o
  | .vpmul => .vpmul b i o
  | .vpfma => .vpfma b i o
  | .vmov => .vmov b i o
  | .vsplat => .vsplat b i o
  | .vlimm => .vlimm b i o
  | .vlane => .vlane b i o
  | .vargmax => .vargmax b i o
  | .vargmin => .vargmin b i o
  | .vgetf => .vgetf b i o
  | .vclrf => .vclrf b i o
/-- The command that issues a verb word on a block. -/
def verbInstr (b : BlockId) (w : VerbWord) : Instr :=
  let i := w.issue
  match w.verb with
  | .mma o => .mma b i o
  | .mst o => .mst b i o
  | .mclr p => .mclr b i p
  | .agBind o => .agBind b i o
  | .agOrigin o => .agOrigin b i o
  | .agConv o => .agConv b i o
  | .reg f o => RegFn.toInstr f b i o
  | .vcvt o => .vcvt b i o
  | .vld o => .vld b i o
  | .vst o => .vst b i o
  | .vcur o => .vcur b i o
  | .vloop o => .vloop b i o
  | .vred o => .vred b i o
  | .bred o => .bred b i o
  | .vrng o => .vrng b i o
  | .rseed o => .rseed b i o
  | .mov o => .mov b i o
  | .bend k => .bend b i k
  | .setr o => .setr b i o
  | .dcoef o => .dcoef b i o
  | .dtouch o => .dtouch b i o
/-- A block may issue a verb word for herd `h` now: it is the next of its Clause, its WAIT is over, and nothing it uses is
in use (R102, R209, R215, R220). -/
def State.canIssue (s : State) (h : HerdId) (b : BlockId) (w : VerbWord) : Prop :=
  s.atVerb b w = some h ∧ (s.block b).waitOk w.issue.wait = true ∧ s.verbHeld b w.verb = false
/-- A verb of a block fails a check of Table 03.8, of Table 05.9 or of R213. -/
def State.verbRefused (s : State) (h : HerdId) (b : BlockId) : Verb → Prop
  | .mma o => s.mmaOk b o = false
  | .mst o => ∀ n, s.nounAt b ((s.block b).ag o.cAg).noun = some n → s.mstOk h b o ((s.block b).ag o.cAg) n = false
  | .vld o => ∀ n, s.nounAt b o.noun = some n → accessOk b n o.form (((s.block b).vcell o.cell).cursor o.cur) = false
  | .vst o => ∀ n, s.nounAt b o.noun = some n → accessOk b n o.form (((s.block b).vcell o.cell).cursor o.cur) = false
      ∨ (((s.block b).vcell o.cell).cursor o.cur).lane = 0 ∨ (n.residual = true ∧ o.form ≠ 0)
      ∨ (o.form = 1 ∧ n.scaled = true ∧ o.maskEn = 1)
  | .mov o => ∀ n m, s.nounAt b o.src = some n → s.nounAt b o.dst = some m → movOk b o (s.piece n) (s.piece m) = false
  | _ => False
/-- A block after it has issued a verb word: its position and segment move on. -/
def Block.issued (x : Block) (w : VerbWord) : Block :=
  { x with st := .issue, pos := x.pos + verbLen w.verb, seg := x.seg + segEnds w }
/-- From `s` to `t` nothing changes but block `b` and what is metered. -/
def State.onlyBlock (b : BlockId) (s t : State) : Prop :=
  { t with blocks := s.blocks, meterDue := s.meterDue } = s ∧ ∀ k, k ≠ b → t.block k = s.block k

/-- What holds of every lane of VD after a register verb: a relation of the operands, the lane number, what the lanes of VD,
SA, SB and SC held before it, the result, and the lane's flags before and after it. -/
def laneMeets (f : RegFn) (p : RegOp → Nat → W32 → W32 → W32 → W32 → W32 → BitVec 5 → BitVec 5 → Prop) : Prop :=
  ∀ (h : HerdId) (b : BlockId) (i : Issue) (o : RegOp) (s : State), s.canIssue h b ⟨.reg f o, i⟩ →
    ∃ t, exec (RegFn.toInstr f b i o) s = .next t ∧ ∀ l, l < 64 →
      (let c := (s.block b).vcell o.cell
       let d := (t.block b).vcell o.cell
       p o l (c.lane o.vd l) (c.lane o.sa l) (c.lane o.sb l) (c.lane o.sc l) (d.lane o.vd l) (c.flags.get 0 l)
         (d.flags.get 0 l))

/-! ## Orders, stops and errors -/

/-- No order waits for another command to end: neither for a copy (R354) nor behind a checkpoint (R344). -/
def State.quiet (s : State) : Prop := s.waitFree = [] ∧ ∀ h : HerdId, (s.herd h).deferred = []
/-- The run of herd `h`, if one is in progress, is stopping in `t` with one more fault, of status `st` (R227). -/
def State.stopsWith (h : HerdId) (st : Status) (s t : State) : Prop :=
  ∀ r, (s.herd h).run = some r → (t.herd h).seq = .stopping ∧ ∃ f : FaultRec, f.status = st.setWidth 8
    ∧ (t.herd h).run = some { r with faults := r.faults ++ [f], stopAtEnd := false }
/-- A self-test of a part is due (R468). -/
def State.testOf (s : State) (p : Part) : Prop := ∃ x ∈ s.repair.tests, x.part = p
/-- A copy writes into the scratch of block `b`. -/
def CopyJob.into (j : CopyJob) (b : BlockId) : Bool :=
  j.dst.any fun r => rangesMeet r.1 r.2 (scratchAddr b.val 0) lotBytes
/-- From `s` to `t` an event has ended the copies in progress that satisfy `p` with a status: each herd's copies still complete
in their order (R74, R76), so those behind one in progress wait for it. -/
def copiesStopped (st : Status) (p : CopyJob → Bool) (s t : State) : Prop :=
  ∀ h : HerdId,
    (let l := s.copies.filter fun j => j.herd == h
     let hit := fun (j : CopyJob) => j.status.isNone && p j
     t.copies.filter (fun j => j.herd == h) = if l.any hit then
       (l.map fun j => if hit j then { j with status := some st } else j).dropWhile fun j => j.status.isSome else l)
/-- From `s` to `t` the error `st` of a part of block `b` has been taken (R464, R465): the block has halted and is fenced,
its test is due, the run of its herd stops, and copies into its scratch end with its fault (R76); other herds and blocks stay,
and so does all memory but what such a copy leaves. -/
def State.blockFaulted (b : BlockId) (p : Part) (st : Status) (s t : State) : Prop :=
  (t.block b).fenced = true ∧ (t.block b).fault = (if (s.block b).fenced then (s.block b).fault else st)
  ∧ (t.block b).st = (if (s.block b).st = .idle then .idle else .halt)
  ∧ t.testOf p
  ∧ (∀ h, s.owner b = some h → State.stopsWith h st s t)
  ∧ (∀ c, c ≠ b → (∀ h, s.owner b = some h → c ∉ s.blocksOf h) → t.block c = s.block c)
  ∧ copiesStopped (t.block b).fault (fun j => j.into b) s t
  ∧ ((∀ j ∈ s.copies, j.status = none → j.into b = false) →
      (∀ k, s.owner b ≠ some k → t.herd k = s.herd k)
      ∧ { t with blocks := s.blocks, dims := s.dims, freeCtr := s.freeCtr, herds := s.herds, hostMem := s.hostMem
                 ics := s.ics, pfRings := s.pfRings, repair := s.repair } = s)
/-- The copy that an error ends when the herd whose operation meets it runs nothing: its oldest in progress (the model's choice, log
entry 154). -/
def State.opCopy (s : State) (g : Option HerdId) (j : CopyJob) : Bool :=
  g.any fun h => (s.herd h).run.isNone && s.copies.find? (fun k => k.herd == h && k.status.isNone) == some j
/-- From `s` to `t` an error has stopped the run of `who` and ended the copies that satisfy `p`, with `st`; other herds keep all but
their rings. Where it ends no copy nothing else changes but the rings, the controllers and the repair state, which keeps all but
its tests and notes of errors. -/
def State.errorTaken (who : Option HerdId) (st : Status) (p : CopyJob → Bool) (s t : State) : Prop :=
  (∀ h, who = some h → State.stopsWith h st s t)
  ∧ copiesStopped st p s t
  ∧ { t.repair with tests := s.repair.tests, stalled := s.repair.stalled, hubErr := s.repair.hubErr } = s.repair
  ∧ ((∀ j ∈ s.copies, j.status = none → p j = false) →
      (∀ h, who ≠ some h → { t.herd h with rings := (s.herd h).rings } = s.herd h)
      ∧ (∀ b, (∀ h, who = some h → b ∉ s.blocksOf h) → t.block b = s.block b)
      ∧ { t with blocks := s.blocks, dims := s.dims, freeCtr := s.freeCtr, herds := s.herds, hostMem := s.hostMem
                 ics := s.ics, pfRings := s.pfRings, repair := s.repair } = s)
/-- A source of a controller has been latched (R455). -/
def State.edgeAt (s : State) (c src : Nat) : Prop := (s.icAt c).edge.get false src = true

/-- The order that a command issues: its source, the herd it names, its TAG and its operation. -/
def orderOf : Instr → Option (OrderSrc × HerdId × W32 × OrderOp)
  | .fence src tag => some (src, 0, tag, .fence)
  | .sentenceLoad src h tag a n => some (src, h, tag, .sentenceLoad a n)
  | .sentenceRun src h tag n => some (src, h, tag, .sentenceRun n)
  | .nounCreate src h tag a => some (src, h, tag, .nounCreate a)
  | .nounDestroy src h tag e b => some (src, h, tag, .nounDestroy e b)
  | .copyOrder src h tag a d n sh dh => some (src, h, tag, .copy a d n sh dh false)
  | .nounCopy src h tag e b f c => some (src, h, tag, .copy (BitVec.ofNat 64 (e.toNat + b.toNat * 64))
      (BitVec.ofNat 64 (f.toNat + c.toNat * 64)) 0 false false true)
  | .windowAlloc src h tag w p b n k => some (src, h, tag, .windowAlloc w p b n k)
  | .windowFree src h tag w => some (src, h, tag, .windowFree w)
  | .keyRotateRotate src h tag w => some (src, h, tag, .keyRotate w 0)
  | .keyRotateReseed src h tag w => some (src, h, tag, .keyRotate w 1)
  | .keyRotateLink src h tag => some (src, h, tag, .keyRotate 0 2)
  | .checkpointSeal src h tag l d n m r a p => some (src, h, tag, .checkpointSeal l d n m r a p)
  | .checkpointRestore src h tag a n => some (src, h, tag, .checkpointRestore a n)
  | .attest src h tag d n hr k => some (src, h, tag, .attest d n hr k)
  | .herdQuiesce src h tag => some (src, h, tag, .herdQuiesce)
  | .herdRevoke src h tag => some (src, h, tag, .herdRevoke)
  | .herdCreate src h tag g p => some (src, h, tag, .herdCreate g p)
  | .lotAssign src h tag f c => some (src, h, tag, .lotAssign f c)
  | .lotRelease src h tag f c => some (src, h, tag, .lotRelease f c)
  | _ => none
/-- The order as the sequencer takes it: a VF's always names its own herd (Table 11.10). -/
def State.orderAt (s : State) (src : OrderSrc) (h : HerdId) (tag : W32) (op : OrderOp) : Order :=
  { src := src, herd := orderHerd src h, tag := tag, op := op, gen := (s.srcRing src).gen, seq := s.orderSeq }
/-- The reference under which the order that command `c` issues completes (R339). -/
def State.refBy (s : State) (c : Instr) : OrderRef :=
  match orderOf c with
  | some (src, h, tag, op) => refOf (s.orderAt src h tag op)
  | none => { src := .tahr, tag := 0 }
/-- An order that its own checks decide: the unit is powered, no other order waits, and neither R343, R487, Table 11.11, R534
nor R422 refuses it; for a checkpoint, nothing of its herd is outstanding (R344); one that draws finds the entropy source
good (R418). -/
def State.orderOpen (s : State) (src : OrderSrc) (h : HerdId) (tag : W32) (op : OrderOp) : Prop :=
  s.pins.pwrGood = true ∧ s.quiet ∧ s.orderRefused (s.orderAt src h tag op) = none
    ∧ (isCheckpoint op = true → s.outstanding (orderHerd src h) = false)
    ∧ (s.drawsFor (s.orderAt src h tag op) = true → s.tahr.entropyBad = false)
/-- The state in which an order has been admitted and has had no effect yet: a completion slot is reserved (R339). -/
def State.issued (s : State) (src : OrderSrc) : State := ({ s with orderSeq := s.orderSeq + 1 }).admitOrder src
/-- `u` once the order that command `c` issued in `s` has completed with a status, a check code and a DETAIL. -/
def State.finish (u s : State) (c : Instr) (st : Status) (chk : BitVec 8) (detail : W64) : State :=
  (u.complete (s.refBy c) st chk detail).icNote
/-- A run of Sentence `m` of herd `h` meets nothing that stops it as it starts: no stop request of a slice peer waits (R227), all
memory that its items name is held (R292, R299), and its first beat neither reads a mask nor replays a ledger. -/
def State.startsClean (s : State) (h : HerdId) (m : Sentence) : Prop :=
  (∀ e ∈ (s.herd h).tokens, e.2.stop = true → beatBefore e.2.through (s.herd h).beatNow = true) ∧ (s.herd h).replay = false
    ∧ (∀ k ∈ itemsIn m 2 0, ∀ i, m.dcls[k]? = some i → i.sparse = false) ∧ s.redRunOk h m = true ∧ s.routeRunOk h m = true
/-- Command `c` issues an order that completes `OK` and whose effect is `p`: what is true of the state before the completion
is reported. -/
def orderDone (c : Instr) (s : State) (p : State → Prop) : Prop := ∃ u, exec c s = .next (u.finish s c stOK 0 0) ∧ p u
/-- Command `c` issues an order of `src` that a check refuses with a status and nothing else. -/
def orderRefuses (c : Instr) (src : OrderSrc) (s : State) (st : Status) : Prop :=
  exec c s = .next ((s.issued src).finish s c st 0 0)

/-- A doorbell that N or more refuses (R338): RING_ERR is set, the rings stay where they are, and a `RING_ERROR` event with the
doorbell's offset and the value is written where the event ring has room. `p` is the state with what the host has placed, and the
stream touched. -/
def doorRefused (c : Instr) (r : RingId) (off : Nat) (v : BitVec 16) (s p : State) : Prop :=
  ∃ t, exec c s = .next t ∧ p.onlyRings t
    ∧ (let x := s.ring r
       let y := t.ring r
       y.ringErr = true ∧ y.ord = x.ord ∧ y.cpl = x.cpl ∧ y.heldCpl = x.heldCpl ∧ y.reserved = x.reserved
       ∧ (s.ringReach r = true → x.evt.room = true → x.lostSince = 0 → (∀ h, r = .vf h → (s.herd h).st = .live) →
          t.hostRead (x.evt.base.toNat + 32 * x.evt.idx.toNat) 32
            = leBytes 4 (0x000A + (if x.evt.phase then 2 ^ 31 else 0)) ++ leBytes 8 s.tb.now.toNat
              ++ sliceBytes (leBytes 4 off ++ leBytes 2 v.toNat) 0 20)
       ∧ (s.ringReach r = true → x.evt.room = false → (∀ h, r = .vf h → (s.herd h).st = .live) →
          y.evtLost = satAdd x.evtLost 1 ∧ y.lostSince = x.lostSince + 1 ∧ t.hostMem = p.hostMem))

/-- An SVN raise that has started has bits left to blow: it goes before a transition (Table 15.9). -/
def State.raisesSvn (s : State) : Bool := s.tahr.st == 3 && decide (s.minSvn < s.tahr.raiseTo) && s.lc.raising
/-- From `s` to `t` stream `k` has been taken to DISABLED with both its key sets zeroized (Table 11.7), and the copies of its
herd with a host end have ended; no other stream changes. -/
def streamGone (k : Fin 33) (s t : State) : Prop :=
  (t.ideAt k).st = .disabled ∧ ((s.ideAt k).st ≠ .disabled → t.ideAt k = {})
    ∧ (∀ j, j ≠ k → t.ideAt j = s.ideAt j)
    ∧ copiesStopped stKeyRetired (fun j => j.hostEnd && decide (ideOf j.herd = k) && (s.ideAt k).st != .disabled) s t
    ∧ ((∀ j ∈ s.copies, ideOf j.herd = k → j.hostEnd = false) →
        ((s.ideAt k).st ≠ .disabled → ∀ n, (s.slot n).type = 6 → (s.slot n).index.toNat = k.val → t.slot n = {})
        ∧ (∀ n, (s.slot n).type ≠ 6 ∨ (s.slot n).index.toNat ≠ k.val → t.slot n = s.slot n)
        ∧ s.onlyRings { t with ide := s.ide, slots := s.slots, reply := s.reply })

/-- The hop key of dimension `d` from this unit's secret and its peer's (Table 13.8): the secret of the unit with the lower cube
address, whose bit `d` is 0, stands first. -/
def State.hopKey (s : State) (d : DimId) (own peer : W256) : List Byte :=
  let ss := if s.cubeAddr.getLsbD d.val then bytes256 peer ++ bytes256 own else bytes256 own ++ bytes256 peer
  hkdfExpand (hkdfExtract (sha256 (ascii "FV20-HOP" ++ leBytes 1 d.val)) ss) (ascii "FV20-HOP-KEY")
/-- The CONFIRM frames that this unit sends. -/
def State.hopConfirm (s : State) (d : DimId) (own peer : W256) : List OutFrame :=
  keyxFrames (hmac (s.hopKey d own peer) (ascii "FV20-HOP-CONF" ++ leBytes 2 s.cubeAddr.toNat)) true
/-- In `t` the hop key of dimension `d` has been derived and stands in Markhor's slot 12 + d; no other slot changed. -/
def hopKeyed (d : DimId) (own peer : W256) (s t : State) : Prop :=
  (t.dimAt d).hk = some (word256 (s.hopKey d own peer)) ∧ (t.slot (12 + d.val)).valid = true
    ∧ (t.slot (12 + d.val)).secret = s.hopKey d own peer ∧ (t.slot (12 + d.val)).type = 9
    ∧ ∀ n, n ≠ 12 + d.val → t.slot n = s.slot n

/-- From `s` to `t` the one completion that PF ring set `k` takes is written as its next entry (Table 11.13), where the ring has room
for it and holds nothing else. -/
def entryWritten (ref : OrderRef) (st : Status) (detail : Nat) (s t : State) : Prop :=
  ∀ k : Fin 4, ref.src = .ring (.pf k) → ref.gen = (s.ring (.pf k)).gen → s.linkUp = true →
    (s.ring (.pf k)).heldCpl = [] → (s.ring (.pf k)).fences = [] → (s.ring (.pf k)).cpl.room = true →
    (let r := (s.ring (.pf k)).cpl
     t.hostRead (r.base.toNat + 16 * r.idx.toNat) 16
       = leBytes 4 ref.tag.toNat ++ leBytes 4 (st.toNat + (if r.phase then 2 ^ 31 else 0)) ++ leBytes 8 detail)
/-- From `s` to `t` one BEAT frame of herd `h` has joined the queue of dimension `d`. -/
def tokenOn (h : HerdId) (d : DimId) (s t : State) : Prop :=
  ∃ p : List Byte, p.length = 512 ∧ t.dimAt d = { s.dimAt d with
    queue := (s.dimAt d).queue ++ [{ type := 3, herd := h, last := true, item := 0, offset := 0, payload := p }] }
/-- From `s` to `t` a BEAT frame of herd `h` has joined the queue of its slice dimension of index `k`, if there is one, and no other
queue has changed (Tables 07.10 and 09.2); the spec gives its payload no encoding. -/
def tokenSent (h : HerdId) (k : Nat) (s t : State) : Prop :=
  (∀ d, (s.herd h).dims[k]? = some d → tokenOn h d s t) ∧ (∀ d, (s.herd h).dims[k]? ≠ some d → t.dimAt d = s.dimAt d)
/-- From `s` to `t` nothing changes but herd `h`, the queues of the fabric engine and the counter of free values. -/
def State.onlyHerd (h : HerdId) (s t : State) : Prop :=
  (∀ k, k ≠ h → t.herd k = s.herd k) ∧ { t with herds := s.herds, dims := s.dims, freeCtr := s.freeCtr } = s
/-- The run of herd `h` has ended in `t` (R226, R228): the herd is READY, without a run, and its blocks are IDLE. -/
def State.runEnded (h : HerdId) (s t : State) : Prop :=
  (t.herd h).seq = .ready ∧ (t.herd h).run = none ∧ ∀ b ∈ s.blocksOf h, (t.block b).st = .idle

/-- From `s` to `t` nothing changes but lane `n`, the interrupt controllers, hop keys with their slots, and what is metered. -/
def State.onlyLane (n : LaneId) (s t : State) : Prop :=
  (∀ m, m ≠ n → t.laneAt m = s.laneAt m)
  ∧ { t with lanes := s.lanes, ics := s.ics, dims := s.dims, slots := s.slots, meterDue := s.meterDue } = s

end Sys2Proof.Machine
end

