-- ==== Sys2Proof/WellFormed.lean ====
section
/-!
DEFINITION. WellFormed: the commands whose operands the spec admits. A verb obeys the constraints of its table (R211), a
frame carries its 512 bytes of payload and 16 of tag (Table 09.2), a ciphertext is one of ML-KEM-1024 (Table 11.6), a
register write is of 4 or 8 bytes at its alignment (R518), and a line write stays in its line (Table 13.3).
-/
namespace Sys2Proof

/-- The verb that a command issues, if it issues one. -/
def Instr.verb : Instr → Option Verb
  | .mma _ _ o => some (.mma o)
  | .mst _ _ o => some (.mst o)
  | .mclr _ _ p => some (.mclr p)
  | .agBind _ _ o => some (.agBind o)
  | .agOrigin _ _ o => some (.agOrigin o)
  | .agConv _ _ o => some (.agConv o)
  | .vadd _ _ o => some (.reg .vadd o)
  | .vsub _ _ o => some (.reg .vsub o)
  | .vmul _ _ o => some (.reg .vmul o)
  | .vfma _ _ o => some (.reg .vfma o)
  | .vfnma _ _ o => some (.reg .vfnma o)
  | .vmax _ _ o => some (.reg .vmax o)
  | .vmin _ _ o => some (.reg .vmin o)
  | .vabs _ _ o => some (.reg .vabs o)
  | .vneg _ _ o => some (.reg .vneg o)
  | .vrcp _ _ o => some (.reg .vrcp o)
  | .vdivs _ _ o => some (.reg .vdivs o)
  | .vrsqrt _ _ o => some (.reg .vrsqrt o)
  | .vexp2 _ _ o => some (.reg .vexp2 o)
  | .vlog2 _ _ o => some (.reg .vlog2 o)
  | .vldexp _ _ o => some (.reg .vldexp o)
  | .vcmp _ _ o => some (.reg .vcmp o)
  | .vsel _ _ o => some (.reg .vsel o)
  | .vand _ _ o => some (.reg .vand o)
  | .vor _ _ o => some (.reg .vor o)
  | .vxor _ _ o => some (.reg .vxor o)
  | .vshl _ _ o => some (.reg .vshl o)
  | .vsrl _ _ o => some (.reg .vsrl o)
  | .vsra _ _ o => some (.reg .vsra o)
  | .viadd _ _ o => some (.reg .viadd o)
  | .visub _ _ o => some (.reg .visub o)
  | .vimul _ _ o => some (.reg .vimul o)
  | .vimax _ _ o => some (.reg .vimax o)
  | .vimin _ _ o => some (.reg .vimin o)
  | .vcvt _ _ o => some (.vcvt o)
  | .vexpadd _ _ o => some (.reg .vexpadd o)
  | .vpadd _ _ o => some (.reg .vpadd o)
  | .vpmul _ _ o => some (.reg .vpmul o)
  | .vpfma _ _ o => some (.reg .vpfma o)
  | .vmov _ _ o => some (.reg .vmov o)
  | .vsplat _ _ o => some (.reg .vsplat o)
  | .vlimm _ _ o => some (.reg .vlimm o)
  | .vlane _ _ o => some (.reg .vlane o)
  | .vargmax _ _ o => some (.reg .vargmax o)
  | .vargmin _ _ o => some (.reg .vargmin o)
  | .vgetf _ _ o => some (.reg .vgetf o)
  | .vclrf _ _ o => some (.reg .vclrf o)
  | .vld _ _ o => some (.vld o)
  | .vst _ _ o => some (.vst o)
  | .vcur _ _ o => some (.vcur o)
  | .vloop _ _ o => some (.vloop o)
  | .vred _ _ o => some (.vred o)
  | .bred _ _ o => some (.bred o)
  | .vrng _ _ o => some (.vrng o)
  | .rseed _ _ o => some (.rseed o)
  | .mov _ _ o => some (.mov o)
  | .bend _ _ k => some (.bend k)
  | .setr _ _ o => some (.setr o)
  | .dcoef _ _ o => some (.dcoef o)
  | .dtouch _ _ o => some (.dtouch o)
  | _ => none

/-- A frame has its fixed lengths (Table 09.2). -/
def Frame.wf (f : Frame) : Bool := f.payload.length = 512 && f.tag.length = 16

/-- A command's operands are ones the spec admits. -/
def Instr.wf (i : Instr) : Bool :=
  match i.verb with
  | some v => Machine.verbOk v
  | none => match i with
    | .regWrite _ _ off n _ _ => (n = 4 && off % 4 = 0) || (n = 8 && off % 8 = 0)
    | .dataFrame _ f _ => f.wf
    | .reduceFrame _ f => f.wf
    | .beatFrame _ f _ => f.wf
    | .keyOffer _ _ ct _ _ => ct.length = 1568
    | .encap _ _ ct _ => ct.length = 1568
    | .confirm _ _ mac _ => mac.length = 32
    | .join _ _ _ _ mac _ _ => mac.length = 32
    | .lineWrite _ _ _ off start d _ _ => off % 64 = 0 && start + d.length ≤ 64
    | .lineRead _ _ _ off _ _ => off % 64 = 0
    | _ => true

end Sys2Proof
end

