-- ==== Sys2Proof/Certificates/Slice0/Obligations.lean ====
section
/-!
DEFINITION. The statements about the model, for the provers. `exec c s = .next t` says that command `c` completes from
`s` in `t`; an equation `{ t with f := s.f } = s` says that nothing but the field `f` differs between `s` and `t`, so it is
the command's frame, memory included.
-/
open Sys2Proof Sys2Proof.Machine

/-! ## The queue -/

/-- A step runs the command at the front of the queue with the queue's rest. -/
def Obligations.StepRunsFrontCommand : Prop :=
  ∀ (c : Instr) (r : List Instr) (s : State), s.pending = c :: r → step s = exec c { s with pending := r }

/-- On an empty queue (DESIGN CHOICE, log entry 1) the timebase of a powered unit moves on and nothing else changes (R45):
by 1 ns, but for every 10,000th nanosecond of a slew, when it moves by 2 ns or rests, which is the 100 ppm of R46; a validation in
progress ends (log entry 83); an unpowered unit idles.
The timebase state machine (Table 01.9) on syncs (E1, E2, E3), and the sync message sent (R46, R278). A valid sync
within 50 ns locks; a larger offset steps the counter to the head's time where no herd exists and otherwise slews and
leaves the unit ADRIFT. While a herd exists the counter is never stepped (R46).
S_IN light, the beacon timeout and the write of `TAHR_TB_NOW` (Table 01.9 E4 and E5, R278, R280). A unit whose TEST lands do not read
low sends no sync (R504), and one that waits for an image from the string asks the neighbour whose light comes on (R484).
Where the spec leaves a point of this open it follows the model's choice (log entries 14, 122 and 150). -/
def Obligations.TimebaseAndStringFollow : Prop :=
  (∀ s : State, s.pending = [] → ∃ t, step s = .next t
     ∧ { t with tb := s.tb } = (if s.pins.pwrGood = true ∧ s.cfg.st = 1 then s.validate else s)
     ∧ { t.tb with now := s.tb.now, slewNs := s.tb.slewNs, slewPhase := s.tb.slewPhase } = s.tb
     ∧ (s.pins.pwrGood = false → t = s)
     ∧ (s.pins.pwrGood = true → s.tb.slewNs = 0 → t.tb.now = s.tb.now + 1 ∧ t.tb.slewNs = 0)
     ∧ (s.pins.pwrGood = true → s.tb.slewNs ≠ 0 → s.tb.slewPhase < 9999 →
         t.tb.now = s.tb.now + 1 ∧ t.tb.slewNs = s.tb.slewNs ∧ t.tb.slewPhase = s.tb.slewPhase + 1)
     ∧ (s.pins.pwrGood = true → 0 < s.tb.slewNs → 9999 ≤ s.tb.slewPhase →
         t.tb.now = s.tb.now + 2 ∧ t.tb.slewNs = s.tb.slewNs - 1 ∧ t.tb.slewPhase = 0)
     ∧ (s.pins.pwrGood = true → s.tb.slewNs < 0 → 9999 ≤ s.tb.slewPhase →
         t.tb.now = s.tb.now ∧ t.tb.slewNs = s.tb.slewNs + 1 ∧ t.tb.slewPhase = 0))
  ∧ (∀ (head off : W64) (s : State), s.pins.pwrGood = true → s.tb.light = true → s.tb.mode ≠ .master →
      ∃ t, exec (.tbSyncReceive head off none) s = .next t
        ∧ (s.anyHerd = true → t.tb.now = s.tb.now ∧ t.tb.slewNs = -off.toInt)
        ∧ (-50 ≤ off.toInt → off.toInt ≤ 50 → t.tb.mode = .locked)
        ∧ (off.toInt < -50 ∨ 50 < off.toInt → s.anyHerd = true → t.tb.mode = .adrift)
        ∧ (off.toInt < -50 ∨ 50 < off.toInt → s.anyHerd = false → t.tb.mode = .locked ∧ t.tb.now = head)
        ∧ (s.tb.mode = .free → s.anyHerd = false → t.tb.now = head ∧ t.tb.mode = .locked)
        ∧ { t.tb with now := s.tb.now, mode := s.tb.mode, stepped := s.tb.stepped, offsetNs := s.tb.offsetNs, slewNs := s.tb.slewNs } = s.tb
        ∧ { t with tb := s.tb, ics := s.ics } = s)
  ∧ (∀ (p : BitVec 5) (head off : W64) (s : State), s.pins.pwrGood = true → s.tb.light = true → s.tb.mode ≠ .master →
      ∃ t, exec (.tbSyncReceive head off (some p)) s = .next t
      ∧ (s.cfg.st ≠ 2 → s.tb.stringFault = false → p ≠ 31 → t.tb.position = p + 1 ∧ t.tb.posValid = true)
      ∧ (s.cfg.st ≠ 2 → s.tb.stringFault = false → p = 31 → t.tb.stringFault = true ∧ t.tb.posValid = false)
      ∧ (s.cfg.st = 2 ∨ s.tb.stringFault = true → t.tb.position = s.tb.position ∧ t.tb.posValid = s.tb.posValid
          ∧ t.tb.stringFault = s.tb.stringFault)
      ∧ { t with tb := s.tb, ics := s.ics } = s)
  ∧ (∀ s : State, s.pins.pwrGood = true → ∃ t, exec .tbSyncTimeout s = .next t
      ∧ t.tb = (if s.tb.mode = .locked then { s.tb with mode := .adrift } else s.tb)
      ∧ { t with tb := s.tb, ics := s.ics } = s)
  ∧ (∀ s : State, s.pins.pwrGood = true → ∃ t, exec .tbSyncSend s = .next t
      ∧ t.tb = (if s.tahr.st = 4 ∧ s.tahr.fail = 9 then s.tb
          else { s.tb with sent := some (s.tb.now, if s.tb.posValid then some s.tb.position else none) })
      ∧ { t with tb := s.tb } = s)
  ∧ (∀ (lit : Bool) (s : State), s.pins.pwrGood = true → s.tb.light ≠ lit →
      ∃ t, exec (.sInLightChange lit) s = .next t
        ∧ t.tb.light = lit ∧ t.tb.now = s.tb.now
        ∧ t.tb.mode = (if lit then (if s.anyHerd then .adrift else .free) else .master)
        ∧ (s.cfg.st ≠ 2 → t.tb.posValid = (!lit && !s.tb.stringFault) ∧ t.tb.stringFault = s.tb.stringFault
            ∧ (lit = false → t.tb.position = 0) ∧ (lit = true → t.tb.position = s.tb.position))
        ∧ (s.cfg.st = 2 → t.tb.stringFault = true ∧ t.tb.posValid = s.tb.posValid ∧ t.tb.position = s.tb.position)
        ∧ t.tb.beacon = none ∧ t.tb.slewNs = s.tb.slewNs
        ∧ t.tahr = { s.tahr with imgAsked := s.tahr.imgAsked
            + (if lit = true ∧ s.pins.bootSrcString = true ∧ s.tahr.st = 1 then 1 else 0) }
        ∧ State.onlyRings { s with tb := t.tb, tahr := t.tahr } t)
  ∧ (∀ s : State, s.pins.pwrGood = true → s.tb.light = true → s.tb.beacon = none → ∃ t, exec .stringBeaconTimeout s = .next t
      ∧ t.tb = { s.tb with stringFault := true, posValid := false } ∧ { t with tb := s.tb } = s)
  ∧ (∀ (v : W64) (s : State), s.regOpen .pf .setup .active = true →
    let u := (s.touchStream .pf .active).dropHeld .pf .setup 0x5_0000
    ∃ t, exec (.tbNowWrite v) s = .next t
      ∧ (s.tb.mode = .master → s.anyHerd = false →
          t.tb.now = v ∧ t.tb.stepped = true ∧ t.tb.slewNs = 0 ∧ { t with tb := s.tb } = u)
      ∧ (s.tb.mode ≠ .master ∨ s.anyHerd = true → v ≠ s.tb.now →
          t.tb = s.tb ∧ t.cfg.lockedWrite = true ∧ State.onlyRings { u with cfg := { s.cfg with lockedWrite := true } } t)
      ∧ (s.tb.mode ≠ .master ∨ s.anyHerd = true → v = s.tb.now → t = u))

/-! ## Chapter 01: the governor's two loops and the timebase -/

/-- GOVERNOR_EVAL (R31, R37, R497), with powers in hundredths of a watt: above the limit the power duty falls by 6 points, to no less than 25 %; below 95 % of
it the duty rises by 3 points, to no more than 100 %; otherwise it stays. The thermal duty and both allowed points stay,
and GATE_DUTY is the lower of the two duties.
POWER_POINT_DOWN, POWER_POINT_UP and SLEW_DONE (R28, R29, R32, R33): the power loop lowers its allowed point by one
step and sets the power duty to 100 %, or raises the point by one step where the input power scaled to the step rate above stays
below 95 % of the limit, and else stays; a new effective point slews the supply, and a slew's end leaves the supply at the VDD of
the effective point. A power loop at P0 has no lower step and stays as it is (log entry 3).
THERMAL_THROTTLE_TICK and THERMAL_RECOVER_TICK (R35, R36): the thermal loop lowers its allowed point by one step, or at
P0 its duty by 6 points to no less than 25 %; recovering, it first restores its duty to 100 % and then raises its point until
it no longer holds the requested one. The power duty stays (R37). -/
def Obligations.GovernorMovesItsTwoLoops : Prop :=
  (∀ (w : BitVec 12) (p56 : BitVec 16) (s : State), s.pins.pwrGood = true →
     ∃ t, exec (.governorEval w p56) s = .next t
       ∧ (let limit := min (100 * s.power.limitW.toNat) (72 * p56.toNat)
          (limit < 100 * w.toNat → t.power.powerDuty = max 25 (s.power.powerDuty - 6))
          ∧ (100 * (100 * w.toNat) < 95 * limit → t.power.powerDuty = min 100 (s.power.powerDuty + 3))
          ∧ (95 * limit ≤ 100 * (100 * w.toNat) → 100 * w.toNat ≤ limit → t.power.powerDuty = s.power.powerDuty))
       ∧ t.power.inputW = w ∧ t.power.p56 = p56
       ∧ t.power.gateDuty = min t.power.powerDuty s.power.thermalDuty
       ∧ { t.power with inputW := s.power.inputW, p56 := s.power.p56, powerDuty := s.power.powerDuty } = s.power
       ∧ { t with power := s.power, ics := s.ics } = s)
  ∧ (∀ s : State, s.pins.pwrGood = true → s.power.powerDuty < 75 → s.power.powerPoint ≠ 0 →
      ∃ t, exec .powerPointDown s = .next t ∧ t.power.powerPoint.val + 1 = s.power.powerPoint.val ∧ t.power.powerDuty = 100
        ∧ { t.power with powerPoint := s.power.powerPoint, powerDuty := s.power.powerDuty, slewing := s.power.slewing }
            = s.power
        ∧ (t.power.effective ≠ s.power.effective → s.power.supplyMv ≠ vddOf t.power.effective → t.power.slewing = true)
        ∧ { t with power := s.power, ics := s.ics } = s)
  ∧ (∀ s : State, s.pins.pwrGood = true → s.power.powerPoint = 0 → exec .powerPointDown s = .next s)
  ∧ (∀ s : State, s.pins.pwrGood = true → (¬ s.power.powerPoint < s.power.point ∨ s.power.roomAbove = false) →
    exec .powerPointUp s = .next s)
  ∧ (∀ p : Power, p.roomAbove = true ↔ 100 * (100 * p.inputW.toNat) * stepRate (pointUp p.powerPoint)
      < 95 * min (100 * p.limitW.toNat) (72 * p.p56.toNat) * stepRate p.powerPoint)
  ∧ (∀ s : State, s.pins.pwrGood = true → s.power.powerPoint < s.power.point → s.power.roomAbove = true →
    ∃ t, exec .powerPointUp s = .next t ∧ t.power.powerPoint.val = s.power.powerPoint.val + 1
      ∧ { t.power with powerPoint := s.power.powerPoint, slewing := s.power.slewing } = s.power
      ∧ (t.power.effective ≠ s.power.effective → s.power.supplyMv ≠ vddOf t.power.effective → t.power.slewing = true)
      ∧ { t with power := s.power, ics := s.ics } = s)
  ∧ (∀ s : State, s.pins.pwrGood = true → s.power.slewing = true →
    ∃ t, exec .slewDone s = .next t ∧ t.power.slewing = false ∧ t.power.supplyMv = vddOf s.power.effective
      ∧ { t.power with slewing := s.power.slewing, supplyMv := s.power.supplyMv } = s.power
      ∧ { t with power := s.power } = s)
  ∧ (∀ p : Power, p.effective.val = min p.point.val (min p.powerPoint.val p.thermalPoint.val))
  ∧ (∀ s : State, s.pins.pwrGood = true → ∃ t, exec .thermalThrottleTick s = .next t
        ∧ (s.power.thermalPoint ≠ 0 → t.power.thermalPoint.val + 1 = s.power.thermalPoint.val
            ∧ t.power.thermalDuty = s.power.thermalDuty)
        ∧ (s.power.thermalPoint = 0 → t.power.thermalPoint = 0
            ∧ t.power.thermalDuty = max 25 (s.power.thermalDuty - 6))
        ∧ t.power.powerDuty = s.power.powerDuty ∧ t.power.powerPoint = s.power.powerPoint
        ∧ t.power.point = s.power.point ∧ t.power.limitW = s.power.limitW
        ∧ t.pins = { s.pins with hot95 := true }
        ∧ { t with power := s.power, ics := s.ics, pins := s.pins } = s)
  ∧ (∀ s : State, s.pins.pwrGood = true → ∃ t, exec .thermalRecoverTick s = .next t
      ∧ (s.power.thermalDuty < 100 → t.power.thermalDuty = 100 ∧ t.power.thermalPoint = s.power.thermalPoint)
      ∧ (100 ≤ s.power.thermalDuty → s.power.thermalPoint < s.power.point →
          t.power.thermalPoint.val = s.power.thermalPoint.val + 1 ∧ t.power.thermalDuty = s.power.thermalDuty)
      ∧ (100 ≤ s.power.thermalDuty → ¬ s.power.thermalPoint < s.power.point → t.power = s.power)
      ∧ t.power.powerDuty = s.power.powerDuty ∧ t.power.powerPoint = s.power.powerPoint
      ∧ t.power.point = s.power.point ∧ t.power.limitW = s.power.limitW
      ∧ t.pins = { s.pins with hot95 := false }
      ∧ { t with power := s.power, ics := s.ics, pins := s.pins } = s)

/-! ## Chapter 19: register accesses -/

/-- REG_WRITE (R517, R518, R519, R526): an access that does not reach the device changes nothing; one of another size or
alignment, of a reserved offset, or of a register of RO fields alone has no effect; the low word of a 64-bit register is
held; its high word takes effect together with the held low word, or with the low word as it stands. Doorbells take 32-bit writes
alone (Table 11.9). Writes of a VF whose herd is being revoked have no effect (R522), and a word of the image is locked while the
unit is VALIDATING (R491).
REG_LOW_WORD_READ (R51, R519): a read of the low word of `TAHR_TB_NOW` answers it and latches the high word; the same
function's next read of the high word answers the latched value, whatever the counter has become, and uses it up. A read of any other
size or alignment answers the bytes of the containing words and has no effect (R518); one that does not reach the device answers
nothing; one of the PF that meets an uncorrectable error completes without data, and the error follows (R475).
Where the spec leaves a point of this open it follows the model's choice (log entries 13, 81, 82 and 83). -/
def Obligations.RegisterWordsAreHeldAndLatched : Prop :=
  (∀ (who : Who) (sp : Space) (off n : Nat) (v : W64) (tl : Tlp) (s : State),
     ∃ t, exec (.regWrite who sp off n v tl) s = .next (t.validateFrom s.cfg.st)
       ∧ (s.regOpen who sp tl = false → t = s)
       ∧ (s.regOpen who sp tl = true → s.frozen who sp = true → t = s.touchStream who tl)
       ∧ (s.regOpen who sp tl = true → s.frozen who sp = false →
           let u := s.touchStream who tl
           ((n ≠ 4 ∧ n ≠ 8 ∨ n = 4 ∧ off % 4 ≠ 0 ∨ n = 8 ∧ off % 8 ≠ 0) → t = u)
           ∧ (n = 4 → off % 4 = 0 → u.regAt who sp off = none → t = u)
           ∧ (n = 8 → onlyWords sp off = true → t = u)
           ∧ ∀ r, u.regAt who sp off = some r → n = 4 → off % 4 = 0 →
               (r.wide = false → (∀ f ∈ r.fields, f.acc = .ro) → (r.img && u.cfg.st == 1) = false → t = u)
               ∧ (r.wide = false → (r.img && u.cfg.st == 1) = true →
                   t.cfg = { s.cfg with lockedWrite := true } ∧ State.onlyRings { u with cfg := t.cfg } t)
               ∧ (r.wide = true → off = r.off → { t with heldLow := u.heldLow } = u
                   ∧ t.heldAt who sp off = some (v.setWidth 32))
               ∧ (r.wide = true → off ≠ r.off →
                   t = r.write (u.dropHeld who sp r.off) who
                     (((u.heldAt who sp r.off).map (·.toNat)).getD (r.value % 2 ^ 32) + (v.setWidth 32).toNat * 2 ^ 32))))
  ∧ (∀ (tl : Tlp) (s : State), s.regOpen .pf .setup tl = true →
       ∃ t, exec (.regLowWordRead .pf .setup 0x5_0000 4 tl none) s = .next t
         ∧ t.reply = leBytes 4 (s.tb.now.toNat % 2 ^ 32)
         ∧ { t with latchedHigh := s.latchedHigh, reply := s.reply } = s.touchStream .pf tl
         ∧ ∀ u : State, u.regOpen .pf .setup tl = true → u.latchedHigh = t.latchedHigh →
             ∃ v, exec (.regLowWordRead .pf .setup 0x5_0004 4 tl none) u = .next v
               ∧ v.reply = leBytes 4 (s.tb.now.toNat / 2 ^ 32)
               ∧ { v with latchedHigh := u.latchedHigh, reply := u.reply } = u.touchStream .pf tl
               ∧ ∀ e ∈ v.latchedHigh, ¬(e.1 = Who.pf ∧ e.2.1 = Space.setup ∧ e.2.2.1 = 0x5_0000))
  ∧ (∀ (who : Who) (sp : Space) (off n : Nat) (tl : Tlp) (s : State),
       (s.regOpen who sp tl = false → exec (.regLowWordRead who sp off n tl none) s = .next { s with reply := [] })
       ∧ (s.regOpen who sp tl = true → n ≠ 4 ∨ off % 4 ≠ 0 →
           let u := s.touchStream who tl
           ∃ t, exec (.regLowWordRead who sp off n tl none) s = .next t ∧ t.reply.length = n
             ∧ (∀ k < n, ∀ r, u.regAt who sp ((off + k) / 4 * 4) = some r → r.claim = none →
                 t.reply.getD k 0 = (leBytes 4 (r.word ((off + k) / 4 * 4)).toNat).getD ((off + k) % 4) 0)
             ∧ { t with reply := s.reply } = u))
  ∧ (∀ (sp : Space) (off n : Nat) (tl : Tlp) (p : Part) (s : State), s.regOpen .pf sp tl = true →
       ∃ t, exec (.regLowWordRead .pf sp off n tl (some p)) s = .next t ∧ t.reply = []
         ∧ (p = .tahrMem → t.tahr.st = 4)
         ∧ (p ≠ .tahrMem → chipPart p = true → t = ({ s with reply := [] } : State).chipError p none 0))

/-- REG_WRITE of `HUB_ARB_WEIGHT_h` by the PF (R10, R11, R530): a weight takes effect; 0 is reserved, so a committed
configuration discards it, sets BAD_VALUE and reports it, while an open one holds it for check 0x33.
PP_POINT_WRITE (R28, R29, R30, R530): POINT is taken, and the supply slews toward a new effective point; LIMIT_W is
taken when it lies in its range, and a committed configuration discards one that does not and sets BAD_VALUE (R11). The
loops' own points and duties stay. -/
def Obligations.WeightAndPointRegistersTakeTheirFields : Prop :=
  (∀ (h : HerdId) (v : W64) (tl : Tlp) (s : State), s.regOpen .pf .setup tl = true → s.cfg.st ≠ 1 →
     ∃ t, exec (.regWrite .pf .setup (0x1_0280 + 4 * h.val) 4 v tl) s = .next t
       ∧ (∀ k : HerdId, k ≠ h → t.weights.get 0x10 k.val = s.weights.get 0x10 k.val)
       ∧ (v.toNat % 256 ≠ 0 ∨ s.cfg.st ≠ 2 → t.weights.get 0x10 h.val = v.setWidth 8
           ∧ { t with weights := s.weights, ide := s.ide, slots := s.slots } = s)
       ∧ (v.toNat % 256 = 0 → s.cfg.st = 2 → t.weights = s.weights ∧ t.cfg = { s.cfg with badValue := true }
           ∧ State.onlyRings { s with cfg := t.cfg, ide := t.ide, slots := t.slots } t))
  ∧ (∀ (v : W32) (s : State), s.regOpen .pf .setup .active = true → s.cfg.st ≠ 1 →
       ∃ t, exec (.ppPointWrite v) s = .next t
         ∧ t.power.point.val = v.toNat % 4
         ∧ (let w := v.toNat / 16 % 4096
            (1200 ≤ w → w ≤ 3600 → t.power.limitW.toNat = w ∧ t.cfg = s.cfg)
            ∧ (w < 1200 ∨ 3600 < w → s.cfg.st = 2 → t.power.limitW = s.power.limitW ∧ t.cfg.badValue = true)
            ∧ (w < 1200 ∨ 3600 < w → s.cfg.st ≠ 2 → t.power.limitW.toNat = w ∧ t.cfg = s.cfg))
         ∧ (t.power.effective ≠ s.power.effective → s.power.supplyMv ≠ vddOf t.power.effective → t.power.slewing = true)
         ∧ (t.power.effective = s.power.effective → t.power.slewing = s.power.slewing)
         ∧ { t.power with point := s.power.point, limitW := s.power.limitW, slewing := s.power.slewing } = s.power
         ∧ { t.cfg with badValue := s.cfg.badValue } = s.cfg
         ∧ State.onlyRings { s with power := t.power, cfg := t.cfg, ide := t.ide, slots := t.slots } t)

/-- CFG_COMMIT (R488, R489, R490): while VALIDATING or COMMITTED it is discarded as locked; else the unit is VALIDATING, and stays so
until its validation ends; then the first check of Table 17.5 that fails makes the configuration INVALID and names its field; when every check passes, it is COMMITTED, the cube address
is latched, M_CFG is taken over the image, and the laser of every enabled lane turns on, so that it trains.
LANE_RETRAIN and LANE_DISABLE (R282): RETRAIN clears CRC_ERR and NO_PEER and puts an enabled lane in TRAIN, a disabled
one staying DARK; DISABLE 1 puts the lane in DARK; DISABLE 0 on a DARK lane makes it train again; writing the present
DISABLE changes nothing. A lane that leaves TEST has no test due any more.
Where the spec leaves a point of this open it follows the model's choice (log entry 83). -/
def Obligations.CommitAndLaneControls : Prop :=
  (∀ (crc : W32) (ends : Bool) (s : State), s.regOpen .pf .setup .active = true →
     let u : State := { s.touchStream .pf .active with cfg := { s.cfg with st := 1, crc := crc } }
     ∃ t, exec (.cfgCommit crc ends) s = .next t
     ∧ (s.cfg.st = 1 ∨ s.cfg.st = 2 → t.cfg = { s.cfg with lockedWrite := true }
         ∧ State.onlyRings { s with cfg := t.cfg, ide := t.ide, slots := t.slots } t)
     ∧ (s.cfg.st ≠ 1 → s.cfg.st ≠ 2 → ends = false → t = u)
     ∧ (s.cfg.st ≠ 1 → s.cfg.st ≠ 2 → ends = true →
         (∀ c o b, u.cfgCheck crc = some (c, o, b) →
           t = { u with cfg := { u.cfg with
             st := 3, check := BitVec.ofNat 8 c, faultOff := BitVec.ofNat 26 o, faultBit := BitVec.ofNat 5 b } })
         ∧ (u.cfgCheck crc = none →
           t.cfg = { u.cfg with st := 2 } ∧ t.cubeAddr = BitVec.ofNat 15 (s.pod.toNat * 32 + s.tb.position.toNat)
           ∧ t.addrValid = true ∧ t.tahr = { s.tahr with mCfg := sha256 s.imageBytes, cfgMeasured := true }
           ∧ (∀ n : LaneId, (s.laneInfo n).2.2 = true → (s.laneAt n).disable = false → (t.laneAt n).st = .train)
           ∧ { t with cubeAddr := s.cubeAddr, addrValid := s.addrValid, tahr := s.tahr, slots := s.slots, cfg := s.cfg,
                      lanes := s.lanes, dims := s.dims, ics := s.ics, meterDue := s.meterDue, ide := s.ide
                      repair := s.repair } = s
           ∧ { t.repair with tests := s.repair.tests } = s.repair)))
  ∧ (∀ (n : LaneId) (s : State), s.regOpen .pf .setup .active = true → s.cfg.st ≠ 1 → ∃ t, exec (.laneRetrain n) s = .next t
        ∧ (t.laneAt n).crcErr = 0 ∧ (t.laneAt n).noPeer = false ∧ (t.laneAt n).disable = (s.laneAt n).disable
        ∧ (t.laneAt n).st = (if (s.laneAt n).disable = false ∧ s.cfg.st = 2 ∧ (s.laneInfo n).2.2 = true then .train
            else (s.laneAt n).st)
        ∧ (∀ k, k ≠ n → (t.laneAt k).st = (s.laneAt k).st ∧ (t.laneAt k).crcErr = (s.laneAt k).crcErr
            ∧ (t.laneAt k).disable = (s.laneAt k).disable)
        ∧ (t.laneAt n).called = (s.laneAt n).called
        ∧ ((s.laneAt n).st = .test → (t.laneAt n).st ≠ .test → ∀ x ∈ t.repair.tests, x.part ≠ .lane n)
        ∧ { t.repair with tests := s.repair.tests } = s.repair
        ∧ { t with lanes := s.lanes, dims := s.dims, slots := s.slots, ics := s.ics, meterDue := s.meterDue, ide := s.ide
                   repair := s.repair } = s)
  ∧ (∀ (n : LaneId) (off : Bool) (s : State), s.regOpen .pf .setup .active = true → s.cfg.st ≠ 1 →
    ∃ t, exec (.laneDisable n off) s = .next t
      ∧ (t.laneAt n).disable = off
      ∧ (off = (s.laneAt n).disable → t = s.touchStream .pf .active)
      ∧ (off = true → (s.laneAt n).disable = false → (t.laneAt n).st = .dark)
      ∧ (off = false → (s.laneAt n).disable = true → (s.laneAt n).st = .dark → s.cfg.st = 2 → (s.laneInfo n).2.2 = true →
          (t.laneAt n).st = .train)
      ∧ (∀ k, k ≠ n → (s.laneAt k).spare = false → (t.laneAt k).st = (s.laneAt k).st)
      ∧ ((s.laneAt n).st = .test → (t.laneAt n).st ≠ .test → ∀ x ∈ t.repair.tests, x.part ≠ .lane n)
      ∧ { t.repair with tests := s.repair.tests } = s.repair
      ∧ { t with lanes := s.lanes, dims := s.dims, slots := s.slots, ics := s.ics, meterDue := s.meterDue, ide := s.ide
                 repair := s.repair } = s)

/-- STAGE_CTRL_WRITE (R234): APPLY_BEAT and ARM are taken together. ARM 1 is late, and sets LATE, when a run is in progress
and the lag of APPLY_BEAT behind the current beat is at or above 2^47; ARM 0 releases the held values to the staged
ones. A 1 written to LATE clears it.
LEDGER_COUNT_WRITE (Table 10.9, R523, R530): an idle herd's COUNT may be lowered; a higher value is reserved, is
discarded and sets BAD_VALUE; while the Sentence runs a different COUNT is discarded and sets LOCKED_WRITE. A 1 written to
FULL clears it in every case. -/
def Obligations.StageAndLedgerRegistersAreGuarded : Prop :=
  (∀ (h : HerdId) (v : W64) (s : State), s.regOpen (.vf h) (.window h) .active = true → (s.herd h).st = .live →
     ∃ t, exec (.stageCtrlWrite h v) s = .next t
       ∧ (let x := s.herd h
          let y := t.herd h
          let late := v.getLsbD 48 && x.run.isSome && decide (2 ^ 47 ≤ (v.setWidth 48 - x.beatNow).toNat)
          y.stageBeat = v.setWidth 48 ∧ y.stageArm = v.getLsbD 48 ∧ y.stageDue = late
          ∧ y.stageLate = ((x.stageLate && !v.getLsbD 49) || late)
          ∧ (v.getLsbD 48 = true → y.staged = x.staged ∧ y.heldStaged = x.heldStaged)
          ∧ (v.getLsbD 48 = false → y.staged = x.staged ++ x.heldStaged ∧ y.heldStaged = [])
          ∧ { y with stageBeat := x.stageBeat, stageArm := x.stageArm, stageDue := x.stageDue, stageLate := x.stageLate,
                     staged := x.staged, heldStaged := x.heldStaged } = x)
       ∧ (∀ k, k ≠ h → t.herd k = s.herd k)
       ∧ { t with herds := s.herds, heldLow := s.heldLow, ide := s.ide, slots := s.slots } = s)
  ∧ (∀ (h : HerdId) (v : W32) (s : State), s.regOpen (.vf h) (.window h) .active = true → (s.herd h).st = .live →
       ∃ t, exec (.ledgerCountWrite h v) s = .next t
         ∧ (let x := s.herd h
            let n := v.toNat % 2 ^ 20
            (t.herd h).ledgerFull = (x.ledgerFull && !v.getLsbD 20)
            ∧ (x.busy = false → n ≤ x.ledgerCount.toNat → (t.herd h).ledgerCount.toNat = n ∧ t.cfg = s.cfg)
            ∧ (x.busy = false → x.ledgerCount.toNat < n →
                (t.herd h).ledgerCount = x.ledgerCount ∧ t.cfg = { s.cfg with badValue := true })
            ∧ (x.busy = true → (t.herd h).ledgerCount = x.ledgerCount)
            ∧ (x.busy = true → n ≠ x.ledgerCount.toNat → t.cfg = { s.cfg with lockedWrite := true })
            ∧ (x.busy = true → n = x.ledgerCount.toNat → t.cfg = s.cfg)
            ∧ { t.herd h with ledgerCount := x.ledgerCount, ledgerFull := x.ledgerFull, rings := x.rings } = x)
         ∧ (∀ k, k ≠ h → t.herd k = s.herd k)
         ∧ { t with herds := s.herds, cfg := s.cfg, hostMem := s.hostMem, ide := s.ide, slots := s.slots } = s)

/-! ## Chapters 03, 05 and 07: verbs -/

/-- Every verb (R101, R102, R220, R227): a block issues only the next verb of its Clause, and any other changes nothing (log entry
122); a verb whose WAIT is not over, or
that names what an earlier verb still uses, is held and changes nothing else; a verb that fails halts the block and stops the
herd's run, and of one that a check of Table 03.8, Table 05.9 or R213 refuses nothing is left but the stop.
Where the spec leaves a point of this open it follows the model's choice (log entries 52 and 53). -/
def Obligations.VerbsIssueInClauseOrder : Prop :=
  ∀ (b : BlockId) (w : VerbWord) (s : State),
    (s.atVerb b w = none → exec (verbInstr b w) s = .next s)
    ∧ (∀ h, s.atVerb b w = some h → ((s.block b).waitOk w.issue.wait = false ∨ s.verbHeld b w.verb = true) →
        ∃ t, exec (verbInstr b w) s = .next t ∧ t.block b = { s.block b with st := .held }
          ∧ (∀ k, k ≠ b → t.block k = s.block k) ∧ { t with blocks := s.blocks } = s)
    ∧ (∀ h, s.canIssue h b w → (s.runVerb h b w.verb).2 ≠ stOK →
        exec (verbInstr b w) s = .next ((s.runVerb h b w.verb).1.stopBlock h b (s.runVerb h b w.verb).2))
    ∧ (∀ h, s.canIssue h b w → s.verbRefused h b w.verb → s.runVerb h b w.verb = (s, stCfgInvalid))
    ∧ (∀ h, s.canIssue h b w → (s.runVerb h b w.verb).2 = stOK →
        ∃ t, exec (verbInstr b w) s = .next t ∧ t.block b = ((s.runVerb h b w.verb).1.block b).issued w
          ∧ { t with blocks := (s.runVerb h b w.verb).1.blocks } = (s.runVerb h b w.verb).1)
    ∧ (∀ h r st, (s.herd h).run = some r → (s.block b).st ≠ .idle →
        ((s.stopBlock h b st).block b).st = .halt ∧ ((s.stopBlock h b st).herd h).seq = .stopping
        ∧ ((s.stopBlock h b st).herd h).run = some { r with stopAtEnd := false, faults := r.faults ++
            [{ status := st.setWidth 8, beat := s.blockBeat h b, slicePos := s.slicePos (s.herd h)
               herdBlock := s.herdIndex h b }] }
        ∧ { s.stopBlock h b st with blocks := s.blocks, herds := s.herds, dims := s.dims, ics := s.ics
                                    freeCtr := s.freeCtr } = s)

/-- `MMA` and `MCLR` (R95, R96, R100, R101). An `MMA` that passes the checks of Table 03.8 runs on the pairs that PAIRS
names, which sit in its grid in rising order; START opens their accumulation anew and otherwise goes on with it. Other
pairs, the generators and the vector cells stay. One that fails a check has no effect but its stop. `MCLR` clears the pairs
it names and leaves them without an accumulation.
`AG_BIND`, `AG_ORIGIN` and `AG_CONV` (R106, R107, R108): the generator named takes its binding, with every origin at 0
and no convolution; the coordinates of the slots that are valid, the last slot of a dimension standing; or its convolution.
Each is refused as its rule says, and nothing but that generator changes. -/
def Obligations.MatrixVerbsSetGeneratorsAndPairs : Prop :=
  (∀ (h : HerdId) (b : BlockId) (i : Issue) (o : MmaOp) (s : State), s.canIssue h b ⟨.mma o, i⟩ → s.mmaOk b o = true →
    ∃ t, exec (.mma b i o) s = .next t
      ∧ (∀ p : PairId, o.pairs.getLsbD p.val = false → (t.block b).pair p = (s.block b).pair p)
      ∧ (∀ p : PairId, o.pairs.getLsbD p.val = true → ∃ r, ((t.block b).pair p).run = some r
          ∧ r.op = o ∧ r.seg = (s.block b).seg ∧ r.group = 0 ∧ r.inGroup = false ∧ r.acks = 0 ∧ r.nextFull = false
          ∧ (o.start = 1 →
              (∃ a, ((t.block b).pair p).acc = some a ∧ a.fmt = o.fmt ∧ a.lcode = o.lcode ∧ a.kCount = 0
                ∧ a.gridRow * gridCols o.arrange + a.gridCol = (pairsOf o.pairs).idxOf p)
              ∧ ((t.block b).pair p).chunk = {} ∧ ((t.block b).pair p).total = {}
              ∧ ((t.block b).pair p).sticky = 0 ∧ ((t.block b).pair p).sat0 = 0 ∧ ((t.block b).pair p).sat1 = 0)
          ∧ (o.start ≠ 1 → ((t.block b).pair p).acc = ((s.block b).pair p).acc
              ∧ ((t.block b).pair p).chunk = ((s.block b).pair p).chunk
              ∧ ((t.block b).pair p).total = ((s.block b).pair p).total))
      ∧ { t.block b with pairs := (s.block b).pairs } = (s.block b).issued ⟨.mma o, i⟩
      ∧ (∀ k, k ≠ b → t.block k = s.block k) ∧ { t with blocks := s.blocks } = s)
  ∧ (∀ (h : HerdId) (b : BlockId) (i : Issue) (o : MmaOp) (s : State), s.canIssue h b ⟨.mma o, i⟩ → s.mmaOk b o = false →
    exec (.mma b i o) s = .next (s.stopBlock h b stCfgInvalid))
  ∧ (∀ (h : HerdId) (b : BlockId) (i : Issue) (m : BitVec 8) (s : State), s.canIssue h b ⟨.mclr m, i⟩ →
    ∃ t, exec (.mclr b i m) s = .next t
      ∧ (∀ p : PairId, m.getLsbD p.val = false → (t.block b).pair p = (s.block b).pair p)
      ∧ (∀ p : PairId, m.getLsbD p.val = true → (t.block b).pair p =
          { (s.block b).pair p with acc := none, chunk := {}, total := {}, sticky := 0, sat0 := 0, sat1 := 0 })
      ∧ { t.block b with pairs := (s.block b).pairs } = (s.block b).issued ⟨.mclr m, i⟩
      ∧ (∀ k, k ≠ b → t.block k = s.block k) ∧ { t with blocks := s.blocks } = s)
  ∧ (∀ (h : HerdId) (b : BlockId) (i : Issue) (o : AgBindOp) (s : State), s.canIssue h b ⟨.agBind o, i⟩ →
      (∀ n, s.nounAt b o.noun = some n → (o.mode = 2 ∨ o.rowDim.toNat < n.rank.toNat ∧ o.colDim.toNat < n.rank.toNat) →
        ∃ t, exec (.agBind b i o) s = .next t
          ∧ (t.block b).ag o.ag = { bound := true, noun := o.noun, mode := o.mode, rowDim := o.rowDim, colDim := o.colDim
                                    oob := o.oob, origin := {}, conv := none }
          ∧ (∀ k, k ≠ o.ag → (t.block b).ag k = (s.block b).ag k)
          ∧ { t.block b with ags := (s.block b).ags } = (s.block b).issued ⟨.agBind o, i⟩
          ∧ (∀ k, k ≠ b → t.block k = s.block k) ∧ { t with blocks := s.blocks } = s)
      ∧ ((s.nounAt b o.noun = none ∨ ∃ n, s.nounAt b o.noun = some n ∧ o.mode ≠ 2
            ∧ (n.rank.toNat ≤ o.rowDim.toNat ∨ n.rank.toNat ≤ o.colDim.toNat)) →
          exec (.agBind b i o) s = .next (s.stopBlock h b stCfgInvalid)))
  ∧ (∀ (h : HerdId) (b : BlockId) (i : Issue) (o : AgOriginOp) (s : State), s.canIssue h b ⟨.agOrigin o, i⟩ →
    let a := (s.block b).ag o.ag
    (∀ n, a.bound = true → s.nounAt b a.noun = some n →
      (∀ e ∈ originSlots o, if 6 ≤ e.1 then a.mode = 2 else e.1 < n.rank.toNat) →
      ∃ t, exec (.agOrigin b i o) s = .next t
        ∧ (∀ d, ((t.block b).ag o.ag).org d =
            (((originSlots o).reverse.find? fun e => e.1 = d).map (·.2)).getD (a.org d))
        ∧ { (t.block b).ag o.ag with origin := a.origin } = a
        ∧ (∀ k, k ≠ o.ag → (t.block b).ag k = (s.block b).ag k)
        ∧ { t.block b with ags := (s.block b).ags } = (s.block b).issued ⟨.agOrigin o, i⟩
        ∧ (∀ k, k ≠ b → t.block k = s.block k) ∧ { t with blocks := s.blocks } = s)
    ∧ (a.bound = false → exec (.agOrigin b i o) s = .next (s.stopBlock h b stCfgInvalid)))
  ∧ (∀ (h : HerdId) (b : BlockId) (i : Issue) (o : AgConvOp) (s : State), s.canIssue h b ⟨.agConv o, i⟩ →
    let a := (s.block b).ag o.ag
    (∀ n, a.bound = true → a.mode = 2 → s.nounAt b a.noun = some n →
      o.dimN.toNat < n.rank.toNat → o.dimC.toNat < n.rank.toNat → o.dimH.toNat < n.rank.toNat →
      o.dimW.toNat < n.rank.toNat → (s.piece n).loc.getD o.dimC.toNat 0 % (o.groups.toNat + 1) = 0 →
      ∃ t, exec (.agConv b i o) s = .next t
        ∧ (t.block b).ag o.ag = { a with conv := some o }
        ∧ (∀ k, k ≠ o.ag → (t.block b).ag k = (s.block b).ag k)
        ∧ { t.block b with ags := (s.block b).ags } = (s.block b).issued ⟨.agConv o, i⟩
        ∧ (∀ k, k ≠ b → t.block k = s.block k) ∧ { t with blocks := s.blocks } = s)
    ∧ (a.mode ≠ 2 → exec (.agConv b i o) s = .next (s.stopBlock h b stCfgInvalid)))

/-- The events of a cell pair (Table 03.2): group start moves the next chunks into use; the A offer broadcasts one row; the
lanes acknowledge it; a complete step goes to the next row, or ends the k-group after the last; the refill loads the next
chunks; the verb's end frees the pair, and its last pair advances the K origins (R97), which past 2^31 - 1 is the model's choice
(log entry 127). Each changes only its pair.
LANE_ACCEPT (R86 to R90, R93): the lane acknowledges the row. In integer mode its total takes the saturating sum, and a
sum that saturates sets the lane's sticky flag. In a float mode its chunk takes chunk + T, rounded to FP32; when that
completes a chunk of L elements, the total takes total + chunk, rounded to W48, and the chunk is cleared. No other output
changes. -/
def Obligations.PairsWalkAndAccumulate : Prop :=
  (∀ (b : BlockId) (p : PairId) (r : MmaRun) (s : State), s.mmaRun b p = some r →
    (r.inGroup = false → r.nextFull = true → r.group ≤ r.op.ksteps.toNat →
      ∃ t, exec (.groupStart b p) s = .next t
        ∧ (t.block b).pair p = { (s.block b).pair p with cur := ((s.block b).pair p).next, next := {}, run := some { r with
            inGroup := true, row := 0, offer := none, acks := 0, nextFull := false } }
        ∧ (∀ q, q ≠ p → (t.block b).pair q = (s.block b).pair q) ∧ State.onlyBlock b s t)
    ∧ (∀ n u d c, r.inGroup = true → r.offer = none → s.nounAt b ((s.block b).ag r.op.aAg).noun = some n →
      s.fetchGroup ((s.block b).ag r.op.aAg) (s.piece n) (fmtG r.op.fmt) (r.m0 + r.row)
        (r.kA + (r.group * fmtG r.op.fmt : Nat)) = (u, stOK, d, c) →
      ∃ t, exec (.aOffer b p) s = .next t
        ∧ (t.block b).pair p = { (u.block b).pair p with run := some { r with offer := some { data := d, scale := c } } }
        ∧ (∀ q, q ≠ p → (t.block b).pair q = (u.block b).pair q) ∧ State.onlyBlock b u t)
    ∧ (r.inGroup = true → r.acks = BitVec.allOnes 128 →
      ∃ t, exec (.stepComplete b p) s = .next t
        ∧ (r.row < r.op.mSweep.toNat → (t.block b).pair p = { (s.block b).pair p with
            run := some { r with row := r.row + 1, offer := none, acks := 0 } })
        ∧ (r.op.mSweep.toNat ≤ r.row → ((t.block b).pair p).run =
            some { r with inGroup := false, group := r.group + 1, offer := none, acks := 0 })
        ∧ (∀ h, s.owner b = some h →
            t.meterDue.get {} h.val = { s.meterDue.get {} h.val with
              cellSteps := satAdd (s.meterDue.get {} h.val).cellSteps 2 })
        ∧ (∀ q, q ≠ p → (t.block b).pair q = (s.block b).pair q) ∧ State.onlyBlock b s t)
    ∧ (∀ n u l, r.nextFull = false → r.fillGroup ≤ r.op.ksteps.toNat →
      s.nounAt b ((s.block b).ag r.op.bAg).noun = some n →
      State.fillLanes ((s.block b).ag r.op.bAg) (s.piece n) (fmtG r.op.fmt) r.n0
        (r.kB + (r.fillGroup * fmtG r.op.fmt : Nat)) 128 0 {} s = (u, stOK, l) →
      ∃ t, exec (.refillComplete b p) s = .next t
        ∧ (t.block b).pair p = { (u.block b).pair p with next := l, run := some { r with nextFull := true } }
        ∧ (∀ q, q ≠ p → (t.block b).pair q = (u.block b).pair q) ∧ State.onlyBlock b u t)
    ∧ (r.inGroup = false → r.op.ksteps.toNat < r.group →
      ∃ t, exec (.mmaVerbEnd b p) s = .next t
        ∧ (t.block b).pair p = { (s.block b).pair p with run := none }
        ∧ (∀ q, q ≠ p → (t.block b).pair q = (s.block b).pair q)
        ∧ ((∀ q, q ≠ p → ∀ e, ((s.block b).pair q).run = some e → e.op.aAg ≠ r.op.aAg ∧ e.op.bAg ≠ r.op.aAg) →
            r.op.aAg ≠ r.op.bAg → ∀ k ∈ [r.op.aAg, r.op.bAg],
              ((t.block b).ag k).org ((s.block b).ag k).kCode =
                ((s.block b).ag k).org ((s.block b).ag k).kCode + ((r.op.ksteps.toNat + 1) * fmtG r.op.fmt : Nat)
              ∧ (∀ d, d ≠ ((s.block b).ag k).kCode → ((t.block b).ag k).org d = ((s.block b).ag k).org d))
        ∧ State.onlyBlock b s t))
  ∧ (∀ (b : BlockId) (p : PairId) (l : PairLane) (r : MmaRun) (acc : OpenAcc) (o : AOffer) (s : State),
       s.mmaRun b p = some r → r.inGroup = true → r.offer = some o → r.acks.getLsbD l.val = false →
       ((s.block b).pair p).acc = some acc →
       ∃ t, exec (.laneAccept b p l) s = .next t
         ∧ (let q := (s.block b).pair p
            let q' := (t.block b).pair p
            let k := outKey l.val r.row
            let xs := (unpack (elemBits (s.mmaElem b r.op.aAg)) (fmtG acc.fmt) o.data).map (elemVal (s.mmaElem b r.op.aAg))
            let ys := (unpack (elemBits (s.mmaElem b r.op.bAg)) (fmtG acc.fmt) (q.cur.get {} l.val).data).map
              (elemVal (s.mmaElem b r.op.bAg))
            let prods := (xs.zip ys).map fun e => e.1.mul e.2
            let chunk := toF32 ((f32 (q.chunk.get 0 k)).add (scaleSum (treeSum prods) o.scale (q.cur.get {} l.val).scale)).1
            let sum := prods.foldl (fun (a : Int) e => match e.1 with | .fin n v _ => if n then a - v else a + v | _ => a) 0
            let exact := ((q.total.get 0 k).setWidth 32).toInt + sum
            q'.run = some { r with acks := r.acks ||| BitVec.ofNat 128 (2 ^ l.val) }
            ∧ q'.acc = q.acc ∧ q'.cur = q.cur ∧ q'.next = q.next
            ∧ (∀ j, j ≠ k → q'.total.get 0 j = q.total.get 0 j ∧ q'.chunk.get 0 j = q.chunk.get 0 j)
            ∧ (fmtInt acc.fmt = false → acc.kCount + fmtG acc.fmt ≠ chunkLen acc.lcode →
                q'.chunk.get 0 k = chunk ∧ q'.total = q.total)
            ∧ (fmtInt acc.fmt = false → acc.kCount + fmtG acc.fmt = chunkLen acc.lcode → q'.chunk.get 0 k = 0
                ∧ q'.total.get 0 k = BitVec.ofNat 48
                    (Fmt.w48.arith ((Fmt.w48.decode (q.total.get 0 k).toNat).add (f32 chunk)).1).1)
            ∧ (fmtInt acc.fmt = true → q'.chunk = q.chunk
                ∧ ((q'.total.get 0 k).setWidth 32).toInt = max (-(2 ^ 31 - 1)) (min (2 ^ 31 - 1) exact)
                ∧ (exact < -(2 ^ 31 - 1) ∨ 2 ^ 31 - 1 < exact → q'.sticky = q.sticky ||| BitVec.ofNat 128 (2 ^ l.val))
                ∧ (-(2 ^ 31 - 1) ≤ exact → exact ≤ 2 ^ 31 - 1 → q'.sticky = q.sticky ∧ q'.sat0 = q.sat0 ∧ q'.sat1 = q.sat1)))
         ∧ (∀ q, q ≠ p → (t.block b).pair q = (s.block b).pair q) ∧ State.onlyBlock b s t)

/-- `MST` (R98, R99, R112, R113, R129): a store that passes the checks of Table 03.8 and whose accesses are all taken. Each pair
named is left without an accumulation, or with it when KEEP is 1, its saturation counts and sticky flags cleared; sticky
flags go to MSAT. Each element in the valid extent holds its total, promoted and converted once with the rounding that RND
selects, in whole bytes or half of one, or, in a scaled Noun, the code that R129 gives it within its block, whose scale
code is stored too; these values are stated for lots and scratch. Every other byte of a lot or of scratch keeps its value, wherever
the tiles lie, and with them every other byte of device memory when no part of them lies in a window. -/
def Obligations.MatrixStoreWritesItsTiles : Prop :=
  ∀ (h : HerdId) (b : BlockId) (i : Issue) (o : MstOp) (n : Noun) (s : State),
    s.canIssue h b ⟨.mst o, i⟩ → s.nounAt b ((s.block b).ag o.cAg).noun = some n →
    s.mstOk h b o ((s.block b).ag o.cAg) n = true → (s.runMst h b o).2 = stOK →
    ∃ t, exec (.mst b i o) s = .next t
      ∧ (∀ q : PairId, o.pairs.getLsbD q.val = false → (t.block b).pair q = (s.block b).pair q)
      ∧ (∀ q : PairId, o.pairs.getLsbD q.val = true →
          ((t.block b).pair q).sat0 = 0 ∧ ((t.block b).pair q).sat1 = 0 ∧ ((t.block b).pair q).sticky = 0
          ∧ (o.keep = 1 → ((t.block b).pair q).acc = (((s.block b).pair q).promote).acc
              ∧ ((t.block b).pair q).total = (((s.block b).pair q).promote).total)
          ∧ (o.keep ≠ 1 → ((t.block b).pair q).acc = none ∧ ((t.block b).pair q).chunk = {}
              ∧ ((t.block b).pair q).total = {}))
      ∧ { t.block b with pairs := (s.block b).pairs, flags := (s.block b).flags } = (s.block b).issued ⟨.mst o, i⟩
      ∧ (∀ k, 0 < k → (t.block b).flags.getLsbD k = (s.block b).flags.getLsbD k)
      ∧ ((t.block b).flags.getLsbD 0 = true ↔ (s.block b).flags.getLsbD 0 = true
          ∨ ∃ q ∈ pairsOf o.pairs, ((s.block b).pair q).sticky ≠ 0)
      ∧ (∀ k, k ≠ b → t.block k = s.block k)
      ∧ (let a := (s.block b).ag o.cAg
         let p := s.piece n
         let tile : PairId → List (List Nat × Nat × Nat) := fun q => match ((s.block b).pair q).acc with
           | some acc => (tileCoords a p acc).filter fun (e : List Nat × Nat × Nat) => p.valid e.1
           | none => []
         let free := fun (x : Nat) => ∀ q ∈ pairsOf o.pairs, ∀ e ∈ tile q,
           (x < p.addr e.1 ∨ p.addr e.1 + elemBytes n.elem ≤ x) ∧ (n.scaled = true → x ≠ p.scaleAddr (p.scaleBlock e.1))
         let alone := fun (q : PairId) (e : List Nat × Nat × Nat) =>
           (∀ q' ∈ pairsOf o.pairs, ∀ e' ∈ tile q', (q', e') ≠ (q, e) →
              p.addr e'.1 ≠ p.addr e.1 ∨ (elemBits n.elem = 4 ∧ n.off e'.1 % 2 ≠ n.off e.1 % 2))
           ∧ (n.scaled = true → ∀ q' ∈ pairsOf o.pairs, ∀ e' ∈ tile q', p.scaleAddr (p.scaleBlock e'.1) < p.addr e.1
              ∨ p.addr e.1 + elemBytes n.elem ≤ p.scaleAddr (p.scaleBlock e'.1))
         let holds := fun (e : List Nat × Nat × Nat) (code : Nat) =>
           (8 ≤ elemBits n.elem → t.mem.readBytes (p.addr e.1) (elemBytes n.elem) = leBytes (elemBytes n.elem) code)
           ∧ (elemBits n.elem = 4 → (t.mem.read (p.addr e.1)).toNat / 16 ^ (n.off e.1 % 2) % 16 = code % 16)
         let mode := fun (e : List Nat × Nat × Nat) =>
           rndOf o.rnd ((s.block b).seed o.srStream) o.srStream o.layer (s.stepNo h) (p.lin e.1)
         let total := fun (q : PairId) (e : List Nat × Nat × Nat) =>
           (((s.block b).pair q).promote).total.get 0 (outKey e.2.1 e.2.2)
         (∀ x, free x → ((∃ l k, s.place x = .lot l k) ∨ ∃ c k, s.place x = .scratch c k) → t.mem.read x = s.mem.read x)
         ∧ ((∀ q ∈ pairsOf o.pairs, ∀ e ∈ tile q, ∀ w k, s.place (p.addr e.1) ≠ .win w k
              ∧ (n.scaled = true → s.place (p.scaleAddr (p.scaleBlock e.1)) ≠ .win w k)) →
           (∀ x, free x → t.mem.read x = s.mem.read x)
           ∧ (∀ q ∈ pairsOf o.pairs, ∀ acc, ((s.block b).pair q).acc = some acc → ∀ e ∈ tile q, alone q e →
               (n.scaled = false → holds e (outCode o.outFmt acc.fmt (mode e) (total q e)).1)
               ∧ (n.scaled = true → ∀ f, elemFmt n.elem = some f →
                   let g := (tile q).filter fun e' => p.scaleBlock e'.1 = p.scaleBlock e.1
                   let r := mxGroup f (g.map fun e' => (outVal acc.fmt (total q e'), mode e'))
                   (∀ k, g[k]? = some e → holds e (r.2.1.getD k 0))
                   ∧ ((∀ q' ∈ pairsOf o.pairs, q' ≠ q → ∀ e' ∈ tile q',
                         p.scaleAddr (p.scaleBlock e'.1) ≠ p.scaleAddr (p.scaleBlock e.1)) →
                       (∀ q' ∈ pairsOf o.pairs, ∀ e' ∈ tile q', p.scaleAddr (p.scaleBlock e.1) < p.addr e'.1
                         ∨ p.addr e'.1 + elemBytes n.elem ≤ p.scaleAddr (p.scaleBlock e.1)) →
                       t.mem.read (p.scaleAddr (p.scaleBlock e.1)) = r.1)))))

/-- Register verbs of class 0x1 (R148, R150, R165): the verb completes whatever its lanes hold; of block `b` it changes the
register VD of cell CELL (and SC, for the arg verbs), that cell's lane flags and the flag word, and moves to the next
verb. Every other register, cell and block, the cursors, the generators, the pairs and all of memory stay. The arg verbs
take free words only when VD and SC are one register.
Where the spec leaves a point of this open it follows the model's choice (log entry 48). -/
def Obligations.RegisterVerbsTouchOneRegister : Prop :=
  ∀ (f : RegFn) (h : HerdId) (b : BlockId) (i : Issue) (o : RegOp) (s : State), s.canIssue h b ⟨.reg f o, i⟩ →
    ∃ t, exec (RegFn.toInstr f b i o) s = .next t
      ∧ { t with blocks := s.blocks, meterDue := s.meterDue, freeCtr := s.freeCtr } = s
      ∧ (∀ k, k ≠ b → t.block k = s.block k)
      ∧ { t.block b with vcells := (s.block b).vcells, flags := (s.block b).flags }
          = { s.block b with st := .issue, pos := (s.block b).pos + 1, seg := (s.block b).seg + b2n i.last }
      ∧ (∀ c, c ≠ o.cell → (t.block b).vcell c = (s.block b).vcell c)
      ∧ ((t.block b).vcell o.cell).curs = ((s.block b).vcell o.cell).curs
      ∧ (∀ r l, l < 64 → (r ≠ o.vd ∨ f = .vclrf) → (r ≠ o.sc ∨ (f ≠ .vargmax ∧ f ≠ .vargmin)) →
          ((t.block b).vcell o.cell).lane r l = ((s.block b).vcell o.cell).lane r l)
      ∧ (f ≠ .vclrf → f ≠ .vgetf → ∀ l, l < 64 → ∀ k, k < 5 →
          (((s.block b).vcell o.cell).flags.get 0 l).getLsbD k = true →
          (((t.block b).vcell o.cell).flags.get 0 l).getLsbD k = true)
      ∧ ((o.vd ≠ o.sc ∨ (f ≠ .vargmax ∧ f ≠ .vargmin)) → t.freeCtr = s.freeCtr)

/-- The FP32 verbs (R117, R153, R154, R156, R157): each lane of VD takes the exact result of its operands rounded once to
nearest even; a NaN operand, or an invalid operation, gives the default NaN 0x7FC00000, and an invalid operation on numbers
sets INV. `VABS` and `VNEG` change only the sign bit of a number.
The four-period verbs (R153, Table 05.4): their special operands with the flags these set, and results that are exact:
the reciprocal and the reciprocal root of a power of two, `VEXP2` of an integer and `VLOG2` of a power of two. -/
def Obligations.FloatVerbsFollowTheirRules : Prop :=
  (let isNan := fun (w : W32) => decide (w.toNat / 2 ^ 23 % 256 = 255 ∧ w.toNat % 2 ^ 23 ≠ 0)
   let meets := fun (nan : Bool) (r : Fv × Bool) (q : W32) (f f' : BitVec 5) =>
     (nan = true → q = 0x7FC00000 ∧ f' = f)
     ∧ (nan = false → r.2 = true → q = 0x7FC00000 ∧ f' = f ||| 1)
     ∧ (nan = false → r.2 = false → q = BitVec.ofNat 32 (Fmt.fp32.arith r.1).1 ∧ f' = f ||| (Fmt.fp32.arith r.1).2.word)
   laneMeets .vadd (fun _ _ _ a b _ q f f' => meets (isNan a || isNan b) ((f32 a).add (f32 b)) q f f')
   ∧ laneMeets .vsub (fun _ _ _ a b _ q f f' => meets (isNan a || isNan b) ((f32 a).add (f32 b).neg) q f f')
   ∧ laneMeets .vmul (fun _ _ _ a b _ q f f' => meets (isNan a || isNan b) ((f32 a).mul (f32 b)) q f f')
   ∧ laneMeets .vfma (fun _ _ _ a b c q f f' => let m := (f32 a).mul (f32 b)
       meets (isNan a || isNan b || isNan c) ((m.1.add (f32 c)).1, m.2 || (m.1.add (f32 c)).2) q f f')
   ∧ laneMeets .vfnma (fun _ _ _ a b c q f f' => let m := (f32 a).neg.mul (f32 b)
       meets (isNan a || isNan b || isNan c) ((m.1.add (f32 c)).1, m.2 || (m.1.add (f32 c)).2) q f f')
   ∧ laneMeets .vdivs (fun _ _ e a b d q f f' =>
       let bq := (f32 b).mul (f32 d)
       let r := (f32 a).add bq.1.neg
       let re := r.1.mul (f32 e)
       let v := (f32 d).add re.1
       meets (isNan e || isNan a || isNan b || isNan d) (v.1, bq.2 || r.2 || re.2 || v.2) q f f')
   ∧ laneMeets .vldexp (fun _ _ _ a b _ q f f' => meets (isNan a) ((f32 a).scale b.toInt, false) q f f')
   ∧ laneMeets .vabs (fun _ _ _ a _ _ q f f' => q = (if isNan a then 0x7FC00000 else a &&& 0x7FFF_FFFF) ∧ f' = f)
   ∧ laneMeets .vneg (fun _ _ _ a _ _ q f f' => q = (if isNan a then 0x7FC00000 else a ^^^ 0x8000_0000) ∧ f' = f))
  ∧ (let isNan := fun (w : W32) => decide (w.toNat / 2 ^ 23 % 256 = 255 ∧ w.toNat % 2 ^ 23 ≠ 0)
     let pow := fun (n : Int) => BitVec.ofInt 32 ((n + 127) * 2 ^ 23)
     laneMeets .vrcp (fun _ _ _ a _ _ q f f' =>
         (isNan a = true → q = 0x7FC00000 ∧ f' = f)
         ∧ (a = 0 → q = 0x7F800000 ∧ f' = f) ∧ (a = 0x80000000 → q = 0xFF800000 ∧ f' = f)
         ∧ (a = 0x7F800000 → q = 0 ∧ f' = f) ∧ (a = 0xFF800000 → q = 0x80000000 ∧ f' = f)
         ∧ (∀ n : Int, -126 ≤ n → n ≤ 126 → a = pow n → q = pow (-n) ∧ f' = f))
     ∧ laneMeets .vrsqrt (fun _ _ _ a _ _ q f f' =>
         (isNan a = true → q = 0x7FC00000 ∧ f' = f)
         ∧ (a = 0 → q = 0x7F800000 ∧ f' = f) ∧ (a = 0x80000000 → q = 0xFF800000 ∧ f' = f)
         ∧ (a = 0x7F800000 → q = 0 ∧ f' = f)
         ∧ (isNan a = false → 0x80000000 < a.toNat → q = 0x7FC00000 ∧ f' = f ||| 1)
         ∧ (∀ n : Int, -63 ≤ n → n ≤ 63 → a = pow (2 * n) → q = pow (-n) ∧ f' = f))
     ∧ laneMeets .vexp2 (fun _ _ _ a _ _ q f f' =>
         (isNan a = true → q = 0x7FC00000 ∧ f' = f)
         ∧ (a = 0xFF800000 → q = 0 ∧ f' = f) ∧ (a = 0x7F800000 → q = 0x7F800000 ∧ f' = f)
         ∧ (∀ n : Int, -126 ≤ n → n ≤ 127 → a = toF32 (Fv.ofInt n) → q = pow n ∧ f' = f)
         ∧ (∀ n : Int, 128 ≤ n → n ≤ 4096 → a = toF32 (Fv.ofInt n) → q = 0x7F800000 ∧ f' = f ||| 0b01010))
     ∧ laneMeets .vlog2 (fun _ _ _ a _ _ q f f' =>
         (isNan a = true → q = 0x7FC00000 ∧ f' = f)
         ∧ (a = 0 ∨ a = 0x80000000 → q = 0xFF800000 ∧ f' = f) ∧ (a = 0x7F800000 → q = 0x7F800000 ∧ f' = f)
         ∧ (isNan a = false → 0x80000000 < a.toNat → q = 0x7FC00000 ∧ f' = f ||| 1)
         ∧ (∀ n : Int, -126 ≤ n → n ≤ 127 → a = pow n → q = toF32 (Fv.ofInt n) ∧ f' = f)))

/-- The integer, logical, moving and comparing verbs (Tables 05.2 and 05.3, R155, R158; R154 for `VMAX` and `VMIN`): the value of each lane of VD
and the flag it sets. Bit 0 of the lane's flags is INV and bit 4 is SAT (Table 05.10). -/
def Obligations.IntegerAndMoveVerbsLaneByLane : Prop :=
  let keep := fun (v : W32) (q : W32) (f f' : BitVec 5) => q = v ∧ f' = f
  let isNan := fun (w : W32) => decide (w.toNat / 2 ^ 23 % 256 = 255 ∧ w.toNat % 2 ^ 23 ≠ 0)
  let value := fun (w : W32) => if w.toNat < 2 ^ 31 then (w.toNat : Int) else 2 ^ 31 - (w.toNat : Int)
  let sat := fun (e : Int) (q : W32) (f f' : BitVec 5) =>
    q.toInt = max (-(2 ^ 31 - 1)) (min (2 ^ 31 - 1) e)
    ∧ f' = f ||| (if e < -(2 ^ 31 - 1) ∨ 2 ^ 31 - 1 < e then 0b10000 else 0)
  let mask := fun (c : Prop) [Decidable c] => if c then (0xFFFFFFFF : W32) else 0
  laneMeets .vand (fun _ _ _ a b _ => keep (a &&& b)) ∧ laneMeets .vor (fun _ _ _ a b _ => keep (a ||| b))
  ∧ laneMeets .vxor (fun _ _ _ a b _ => keep (a ^^^ b))
  ∧ laneMeets .vshl (fun _ _ _ a b _ => keep (a <<< (b.toNat % 32)))
  ∧ laneMeets .vsrl (fun _ _ _ a b _ => keep (a >>> (b.toNat % 32)))
  ∧ laneMeets .vsra (fun _ _ _ a b _ => keep (a.sshiftRight (b.toNat % 32)))
  ∧ laneMeets .viadd (fun _ _ _ a b _ => sat (a.toInt + b.toInt))
  ∧ laneMeets .visub (fun _ _ _ a b _ => sat (a.toInt - b.toInt))
  ∧ laneMeets .vimul (fun _ _ _ a b _ => sat (a.toInt * b.toInt))
  ∧ laneMeets .vimax (fun _ _ _ a b _ q f f' => q.toInt = max a.toInt b.toInt ∧ f' = f)
  ∧ laneMeets .vimin (fun _ _ _ a b _ q f f' => q.toInt = min a.toInt b.toInt ∧ f' = f)
  ∧ laneMeets .vsel (fun _ _ _ a b c => keep (if c = 0 then b else a))
  ∧ laneMeets .vmov (fun _ _ _ a _ _ => keep a) ∧ laneMeets .vlimm (fun o _ _ _ _ _ => keep o.imm)
  ∧ laneMeets .vlane (fun _ l _ _ _ _ => keep (BitVec.ofNat 32 l))
  ∧ laneMeets .vexpadd (fun _ _ _ a b _ q f f' =>
      let c := a.toNat % 256
      (c = 255 → q = 255 ∧ f' = f)
      ∧ (c ≠ 255 → q.toInt = max 0 (min 254 ((c : Int) + b.toInt))
          ∧ f' = f ||| (if (c : Int) + b.toInt < 0 ∨ 254 < (c : Int) + b.toInt then 0b10000 else 0)))
  ∧ laneMeets .vmax (fun _ _ _ a b _ q f f' => f' = f ∧ (isNan a || isNan b → q = 0x7FC00000)
      ∧ (isNan a = false → isNan b = false → (q = a ∨ q = b) ∧ value a ≤ value q ∧ value b ≤ value q
          ∧ (value a = value b → a.toNat < 2 ^ 31 ∨ b.toNat < 2 ^ 31 → q.toNat < 2 ^ 31)))
  ∧ laneMeets .vmin (fun _ _ _ a b _ q f f' => f' = f ∧ (isNan a || isNan b → q = 0x7FC00000)
      ∧ (isNan a = false → isNan b = false → (q = a ∨ q = b) ∧ value q ≤ value a ∧ value q ≤ value b
          ∧ (value a = value b → 2 ^ 31 ≤ a.toNat ∨ 2 ^ 31 ≤ b.toNat → 2 ^ 31 ≤ q.toNat)))
  ∧ laneMeets .vcmp (fun o _ _ a b _ q f f' =>
      let nan := isNan a || isNan b
      let cond := (o.sub.extractLsb' 3 3).toNat
      (cond = 0 → q = mask (nan = false ∧ value a = value b) ∧ f' = f)
      ∧ (cond = 1 → q = mask (nan = false ∧ value a < value b) ∧ f' = f ||| (if nan then 1 else 0))
      ∧ (cond = 2 → q = mask (nan = false ∧ value a ≤ value b) ∧ f' = f ||| (if nan then 1 else 0))
      ∧ (cond = 3 → q = mask (nan = true) ∧ f' = f) ∧ (cond = 4 → q = mask (a = b) ∧ f' = f)
      ∧ (cond = 5 → q = mask (a.toInt < b.toInt) ∧ f' = f) ∧ (cond = 6 → q = mask (a.toInt ≤ b.toInt) ∧ f' = f))

/-- The packed, splat, arg and flag verbs (R153, R165, R166): each half of a packed result is rounded once to the format that
F16 selects; `VSPLAT` copies one lane; `VGETF` reads the lane's flags and `VCLRF` clears them; `VARGMAX` and `VARGMIN` keep
the better of (VD, SC) and (SA, SB), a NaN outranking every number and the lower index winning a tie.
Where the spec leaves a point of this open it follows the model's choice (log entry 48). -/
def Obligations.PackedArgAndFlagVerbs : Prop :=
  let half := fun (o : RegOp) (w : W32) (k : Nat) =>
    (if o.sub.getLsbD 0 then Fmt.fp16 else Fmt.bf16).decode (w.toNat / 2 ^ (16 * k) % 2 ^ 16)
  let isNan := fun (v : Fv) => v == Fv.nan
  let meets := fun (o : RegOp) (r : Nat → Bool × Fv × Bool) (q : W32) => ∀ k, k < 2 →
    let f := if o.sub.getLsbD 0 then Fmt.fp16 else Fmt.bf16
    q.toNat / 2 ^ (16 * k) % 2 ^ 16 =
      (if (r k).1 || (r k).2.2 then f.defaultNan else (f.arith (r k).2.1).1)
  laneMeets .vpadd (fun o _ _ a b _ q _ _ => meets o (fun k =>
      (isNan (half o a k) || isNan (half o b k), (half o a k).add (half o b k))) q)
  ∧ laneMeets .vpmul (fun o _ _ a b _ q _ _ => meets o (fun k =>
      (isNan (half o a k) || isNan (half o b k), (half o a k).mul (half o b k))) q)
  ∧ laneMeets .vpfma (fun o _ _ a b c q _ _ => meets o (fun k =>
      let m := (half o a k).mul (half o b k)
      let r := m.1.add (half o c k)
      (isNan (half o a k) || isNan (half o b k) || isNan (half o c k), r.1, m.2 || r.2)) q)
  ∧ (∀ (h : HerdId) (b : BlockId) (i : Issue) (o : RegOp) (s : State), s.canIssue h b ⟨.reg .vsplat o, i⟩ →
      ∃ t, exec (.vsplat b i o) s = .next t ∧ ∀ l, l < 64 →
        ((t.block b).vcell o.cell).lane o.vd l = ((s.block b).vcell o.cell).lane o.sa o.sub.toNat)
  ∧ laneMeets .vgetf (fun _ _ _ _ _ _ q f f' => q = f.setWidth 32 ∧ f' = f)
  ∧ laneMeets .vclrf (fun _ _ _ _ _ _ _ _ f' => f' = 0)
  ∧ (∀ (f : RegFn) (h : HerdId) (b : BlockId) (i : Issue) (o : RegOp) (s : State), s.canIssue h b ⟨.reg f o, i⟩ →
      (f = .vargmax ∨ f = .vargmin) → o.vd ≠ o.sc →
      ∃ t, exec (RegFn.toInstr f b i o) s = .next t ∧ ∀ l, l < 64 →
        (let c := (s.block b).vcell o.cell
         let d := (t.block b).vcell o.cell
         let new := outranks (f == .vargmax) (c.lane o.sa l) (c.lane o.sb l) (c.lane o.vd l) (c.lane o.sc l)
         d.lane o.vd l = winner (c.lane (if new then o.sa else o.vd) l)
         ∧ d.lane o.sc l = c.lane (if new then o.sb else o.sc) l
         ∧ (isNan32 (c.lane o.sa l) = true → isNan32 (c.lane o.vd l) = false → d.lane o.vd l = 0x7FC00000)
         ∧ (c.lane o.sa l = c.lane o.vd l → d.lane o.sc l =
             (if (c.lane o.sb l).toNat < (c.lane o.sc l).toNat then c.lane o.sb l else c.lane o.sc l))))

/-- `VRED` and `BRED` (R166, R167, R168): a sum combines neighbouring lanes level by level, each addition rounded or
saturated; a maximum or minimum is the winner of R166, with the lane number, or the SB word, of the first lane that holds
it; every other lane of VD is 0. `BRED` combines the cells pairwise in rising number, for every operation and every set of cells;
over a single cell it returns that cell's value, a NaN as the default NaN (log entry 130). Only VD of the destination cell, its
lane flags and the flag word change. -/
def Obligations.ReductionsCombineInTreeOrder : Prop :=
  (∀ (h : HerdId) (b : BlockId) (i : Issue) (o : VredOp) (s : State), s.canIssue h b ⟨.vred o, i⟩ →
    ∃ t, exec (.vred b i o) s = .next t ∧ State.onlyBlock b s t
      ∧ { t.block b with vcells := (s.block b).vcells, flags := (s.block b).flags } = (s.block b).issued ⟨.vred o, i⟩
      ∧ (∀ c, c ≠ o.cell → (t.block b).vcell c = (s.block b).vcell c)
      ∧ (let c := (s.block b).vcell o.cell
         let d := (t.block b).vcell o.cell
         d.curs = c.curs ∧ (∀ r l, l < 64 → r ≠ o.vd → d.lane r l = c.lane r l)
         ∧ (∀ l, 2 ≤ l → l < 64 → d.lane o.vd l = 0)
         ∧ (o.op = 0 ∨ o.op = 5 → d.lane o.vd 1 = 0 ∧ ∃ S : Nat → Nat → W32, (∀ l, l < 64 → S 0 l = c.lane o.sa l)
             ∧ (∀ k j, k < 6 → j < 2 ^ (5 - k) → S (k + 1) j =
                 if o.op = 0 then fAdd (S k (2 * j)) (S k (2 * j + 1))
                 else BitVec.ofInt 32 (max (-(2 ^ 31 - 1)) (min (2 ^ 31 - 1) ((S k (2 * j)).toInt + (S k (2 * j + 1)).toInt))))
             ∧ d.lane o.vd 0 = S 6 0)
         ∧ (o.op = 1 ∨ o.op = 2 → ∃ k, k < 64 ∧ d.lane o.vd 0 = winner (c.lane o.sa k) ∧ d.lane o.vd 1 = BitVec.ofNat 32 k
             ∧ ∀ l, l < 64 →
               outranks (o.op == 1) (c.lane o.sa l) (BitVec.ofNat 32 l) (c.lane o.sa k) (BitVec.ofNat 32 k) = false)
         ∧ (o.op = 3 ∨ o.op = 4 → ∃ k, k < 64 ∧ d.lane o.vd 0 = winner (c.lane o.sa k) ∧ d.lane o.vd 1 = c.lane o.sb k
             ∧ ∀ l, l < 64 →
               outranks (o.op == 3) (c.lane o.sa l) (c.lane o.sb l) (c.lane o.sa k) (c.lane o.sb k) = false)))
  ∧ (∀ (h : HerdId) (b : BlockId) (i : Issue) (o : BredOp) (s : State), s.canIssue h b ⟨.bred o, i⟩ →
    ∃ t, exec (.bred b i o) s = .next t ∧ State.onlyBlock b s t
      ∧ { t.block b with vcells := (s.block b).vcells, flags := (s.block b).flags } = (s.block b).issued ⟨.bred o, i⟩
      ∧ (∀ c, c ≠ o.dest → (t.block b).vcell c = (s.block b).vcell c)
      ∧ (let v := fun (c : BitVec 2) (l : Nat) => ((s.block b).vcell c).lane o.sa l
         let d := (t.block b).vcell o.dest
         (∀ r l, l < 64 → r ≠ o.vd → d.lane r l = ((s.block b).vcell o.dest).lane r l)
         ∧ (o.lanewise = 0 → ∀ l, 2 ≤ l → l < 64 → d.lane o.vd l = 0)
         ∧ (o.op = 0 → o.cells = 0b1111 → d.lane o.vd 0 = fAdd (fAdd (v 0 0) (v 1 0)) (fAdd (v 2 0) (v 3 0)))
         ∧ (o.op = 0 → o.cells = 0b1011 → d.lane o.vd 0 = fAdd (fAdd (v 0 0) (v 1 0)) (v 3 0))
         ∧ (let join := fun (x y : W32 × W32) =>
              if o.op = 0 then (fAdd x.1 y.1, 0)
              else if o.op = 5 then (BitVec.ofInt 32 (max (-(2 ^ 31 - 1)) (min (2 ^ 31 - 1) (x.1.toInt + y.1.toInt))), 0)
              else if outranks (o.op == 1 || o.op == 3) y.1 y.2 x.1 x.2 then y else x
            let tree := fun (l : List (W32 × W32)) => match l with
              | [x] => x
              | [x, y] => join x y
              | [x, y, z] => join (join x y) z
              | [x, y, z, u] => join (join x y) (join z u)
              | _ => (0, 0)
            let cells := ([0, 1, 2, 3] : List (BitVec 2)).filter fun c => o.cells.getLsbD c.toNat
            let value := fun (x : W32 × W32) => if o.op = 5 then x.1 else winner x.1
            o.op.toNat ≤ 5 → o.cells ≠ 0 →
              (o.lanewise = 0 → d.lane o.vd 0 = value (tree (cells.map fun c => (v c 0, v c 1)))
                ∧ d.lane o.vd 1 = (if o.op = 0 ∨ o.op = 5 then 0 else (tree (cells.map fun c => (v c 0, v c 1))).2))
              ∧ (o.lanewise = 1 → ∀ l, l < 64 → d.lane o.vd l = value (tree (cells.map fun c => (v c l, 0)))))))

/-- `VRNG`, `RSEED`, `VCUR` and `BEND` (R159, R169, R171, R172, R215): a lane takes the random word of its stream, layer,
step, DRAW and cursor position, raw or as an FP32 in [0, 1); a stream takes its seed; a cursor its three values; a `BEND`
ends SKIP + 1 segments. Nothing else of the block changes, and nothing outside it but what is metered. -/
def Obligations.RandomCursorAndBeatEndVerbs : Prop :=
  (∀ (h : HerdId) (b : BlockId) (i : Issue) (o : VrngOp) (s : State), s.canIssue h b ⟨.vrng o, i⟩ →
    ∃ t, exec (.vrng b i o) s = .next t ∧ State.onlyBlock b s t
      ∧ { t.block b with vcells := (s.block b).vcells } = (s.block b).issued ⟨.vrng o, i⟩
      ∧ (∀ c, c ≠ o.cell → (t.block b).vcell c = (s.block b).vcell c)
      ∧ (let c := (s.block b).vcell o.cell
         let d := (t.block b).vcell o.cell
         let w := fun l => randWord ((s.block b).seed o.stream) o.stream o.layer (s.stepNo h) o.draw ((c.cursor o.cur).at_ l)
         (∀ l, l < 64 → (o.form = 0 → d.lane o.vd l = w l)
            ∧ (o.form = 1 → d.lane o.vd l = toF32 (.fin false ((w l).toNat / 256) (-24))))
         ∧ (∀ r l, l < 64 → r ≠ o.vd → d.lane r l = c.lane r l) ∧ d.flags = c.flags
         ∧ (d.cursor o.cur).base = (c.cursor o.cur).base + (if o.inc = 1 then (c.cursor o.cur).step.signExtend 48 else 0)
         ∧ (∀ k, k ≠ o.cur → d.cursor k = c.cursor k)))
  ∧ (∀ (h : HerdId) (b : BlockId) (i : Issue) (o : RseedOp) (s : State), s.canIssue h b ⟨.rseed o, i⟩ →
    ∃ t, exec (.rseed b i o) s = .next t ∧ State.onlyBlock b s t
      ∧ (t.block b).seed o.stream = o.seed ∧ (∀ k, k ≠ o.stream → (t.block b).seed k = (s.block b).seed k)
      ∧ { t.block b with seeds := (s.block b).seeds } = (s.block b).issued ⟨.rseed o, i⟩)
  ∧ (∀ (h : HerdId) (b : BlockId) (i : Issue) (o : VcurOp) (s : State), s.canIssue h b ⟨.vcur o, i⟩ →
    ∃ t, exec (.vcur b i o) s = .next t ∧ State.onlyBlock b s t
      ∧ ((t.block b).vcell o.cell).cursor o.cur = { base := o.base, lane := o.lane, step := o.step }
      ∧ (∀ k, k ≠ o.cur → ((t.block b).vcell o.cell).cursor k = ((s.block b).vcell o.cell).cursor k)
      ∧ { (t.block b).vcell o.cell with curs := ((s.block b).vcell o.cell).curs } = (s.block b).vcell o.cell
      ∧ (∀ c, c ≠ o.cell → (t.block b).vcell c = (s.block b).vcell c)
      ∧ { t.block b with vcells := (s.block b).vcells } = (s.block b).issued ⟨.vcur o, i⟩)
  ∧ (∀ (h : HerdId) (b : BlockId) (i : Issue) (k : BitVec 4) (s : State), s.canIssue h b ⟨.bend k, i⟩ →
    ∃ t, exec (.bend b i k) s = .next t ∧ State.onlyBlock b s t
      ∧ t.block b = { s.block b with st := .issue, pos := (s.block b).pos + 1
                                     seg := (s.block b).seg + k.toNat + 1 + b2n i.last })

/-- `VCVT` (R122, R127, R165, Table 05.5): each lane of VD takes its conversion, with the rounding that RND selects at the cursor's
position, and raises the flags of the conversion, and the block's flag word those of any lane; the widening conversions are exact,
make a NaN the default NaN, and raise none. Of the machine outside the block only the layer's increments and what is metered
change. -/
def Obligations.ConversionsRoundAsSelected : Prop :=
  ∀ (h : HerdId) (b : BlockId) (i : Issue) (o : VcvtOp) (s : State), s.canIssue h b ⟨.vcvt o, i⟩ →
    ∃ t, exec (.vcvt b i o) s = .next t
      ∧ { t with blocks := s.blocks, meterDue := s.meterDue, herds := s.herds } = s
      ∧ (∀ k, k ≠ b → t.block k = s.block k) ∧ (∀ k, k ≠ h → t.herd k = s.herd k)
      ∧ { t.herd h with incs := (s.herd h).incs } = s.herd h
      ∧ { t.block b with vcells := (s.block b).vcells, flags := (s.block b).flags } = (s.block b).issued ⟨.vcvt o, i⟩
      ∧ (∀ c, c ≠ o.cell → (t.block b).vcell c = (s.block b).vcell c)
      ∧ (let c := (s.block b).vcell o.cell
         let d := (t.block b).vcell o.cell
         let mode := fun l => rndOf o.rnd ((s.block b).seed o.srStream) o.srStream o.layer (s.stepNo h)
           ((c.cursor o.cur).at_ l)
         let half := fun (f : Fmt) (l : Nat) => (f.conv (mode (2 * l)) (f32 (c.lane o.sa l))).2.1.or
           (f.conv (mode (2 * l + 1)) (f32 (c.lane o.sb l))).2.1
         let raised := fun (l : Nat) =>
           if o.conv = 0 then (convInt (-(2 ^ 31 - 1)) (2 ^ 31 - 1) (mode l) (f32 (c.lane o.sa l))).2.1.word
           else if o.conv = 1 then (Fmt.fp32.conv (mode l) (Fv.ofInt (c.lane o.sa l).toInt)).2.1.word
           else if o.conv = 2 then (half .bf16 l).word else if o.conv = 3 then (half .fp16 l).word else 0
         d.curs = c.curs ∧ (∀ r l, l < 64 → r ≠ o.vd → d.lane r l = c.lane r l)
         ∧ (o.conv.toNat < 8 → (t.block b).flags.getLsbD 0 = (s.block b).flags.getLsbD 0 ∧ ∀ k, k < 5 →
             ((t.block b).flags.getLsbD (k + 1) = true ↔
               (s.block b).flags.getLsbD (k + 1) = true ∨ ∃ l, l < 64 ∧ (raised l).getLsbD k = true))
         ∧ ∀ l, l < 64 →
           (o.conv.toNat < 8 → d.flags.get 0 l = c.flags.get 0 l ||| raised l)
           ∧ (o.conv = 3 → d.lane o.vd l =
               BitVec.ofNat 32 ((Fmt.fp16.conv (mode (2 * l)) (f32 (c.lane o.sa l))).1
                 + (Fmt.fp16.conv (mode (2 * l + 1)) (f32 (c.lane o.sb l))).1 * 2 ^ 16))
           ∧ (o.conv = 6 → d.lane o.vd l = toF32 (Fmt.fp16.decode ((c.lane o.sa l).toNat % 2 ^ 16)))
           ∧ (o.conv = 7 → d.lane o.vd l = toF32 (Fmt.fp16.decode ((c.lane o.sa l).toNat / 2 ^ 16)))
           ∧ ((o.conv = 4 ∧ Fmt.bf16.decode ((c.lane o.sa l).toNat % 2 ^ 16) = .nan
               ∨ o.conv = 5 ∧ Fmt.bf16.decode ((c.lane o.sa l).toNat / 2 ^ 16) = .nan) → d.lane o.vd l = 0x7FC00000)
           ∧ (o.conv = 0 → d.lane o.vd l = BitVec.ofInt 32 (convInt (-(2 ^ 31 - 1)) (2 ^ 31 - 1) (mode l) (f32 (c.lane o.sa l))).1)
           ∧ (o.conv = 1 → d.lane o.vd l =
               BitVec.ofNat 32 (Fmt.fp32.conv (mode l) (Fv.ofInt (c.lane o.sa l).toInt)).1)
           ∧ (o.conv = 2 → d.lane o.vd l =
               BitVec.ofNat 32 ((Fmt.bf16.conv (mode (2 * l)) (f32 (c.lane o.sa l))).1
                 + (Fmt.bf16.conv (mode (2 * l + 1)) (f32 (c.lane o.sb l))).1 * 2 ^ 16))
           ∧ (o.conv = 4 → Fmt.bf16.decode ((c.lane o.sa l).toNat % 2 ^ 16) ≠ .nan →
               d.lane o.vd l = (c.lane o.sa l) <<< (16 : Nat))
           ∧ (o.conv = 5 → Fmt.bf16.decode ((c.lane o.sa l).toNat / 2 ^ 16) ≠ .nan →
               d.lane o.vd l = (c.lane o.sa l) &&& 0xFFFF0000))

/-- `VLOOP` (R164): a loop over register verbs runs its body COUNT + 1 times in Clause order and goes on after it; nothing
outside the block changes but what is metered and, for an arg verb whose VD and SC are one register, the free values.
Where the spec leaves a point of this open it follows the model's choice (log entries 48 and 54). -/
def Obligations.LoopRepeatsItsBody : Prop :=
  ∀ (h : HerdId) (b : BlockId) (i : Issue) (o : VloopOp) (s : State), s.canIssue h b ⟨.vloop o, i⟩ →
    (∀ w ∈ (s.block b).loopBody o, ∃ f q, w.verb = .reg f q) →
    ∃ t, exec (.vloop b i o) s = .next t
      ∧ { t with blocks := s.blocks, meterDue := s.meterDue, freeCtr := s.freeCtr } = s
      ∧ (∀ k, k ≠ b → t.block k = s.block k)
      ∧ (let once := fun (u : State) => ((s.block b).loopBody o).foldl (fun u w => match w.verb with
           | .reg f q => u.runReg b f q
           | _ => u) u
         let u := (List.range (o.count.toNat + 1)).foldl (fun u _ => once u) s
         t.block b = { u.block b with st := .issue, pos := (s.block b).pos + o.body.toNat + 2
                                      seg := (s.block b).seg + b2n i.last } ∧ t.freeCtr = u.freeCtr)

/-- `VLD` (R159, R160, R161, Tables 05.7 to 05.9): a load that its rules let pass and whose reads are all taken fills the
lanes of VD; a lane out of bounds takes +0; the cursor advances when INC is 1. A load that Table 05.9 refuses has no
effect but its stop. -/
def Obligations.LoadFillsLanesInBounds : Prop :=
  ∀ (h : HerdId) (b : BlockId) (i : Issue) (o : VldOp) (n : Noun) (s : State),
    s.canIssue h b ⟨.vld o, i⟩ → s.nounAt b o.noun = some n →
    let c := (s.block b).vcell o.cell
    let cur := c.cursor o.cur
    let p := s.piece n
    let m := s.meterSteps h (s.periods b (.vld o))
    (accessOk b n o.form cur = false → exec (.vld b i o) s = .next (s.stopBlock h b stCfgInvalid))
    ∧ (accessOk b n o.form cur = true → ∀ u r, State.ldLanes p o.form cur 64 0 m = (u, stOK, r) →
        ∃ t, exec (.vld b i o) s = .next t
          ∧ { t with blocks := u.blocks } = u ∧ (∀ k, k ≠ b → t.block k = u.block k)
          ∧ { t.block b with vcells := (u.block b).vcells, flags := (u.block b).flags } = (u.block b).issued ⟨.vld o, i⟩
          ∧ (let d := (t.block b).vcell o.cell
             (∀ l, l < 64 → d.lane o.vd l = ((r[l]?).map (·.1)).getD 0)
             ∧ (∀ q l, l < 64 → q ≠ o.vd → d.lane q l = c.lane q l)
             ∧ (d.cursor o.cur).base = cur.base + (if o.inc = 1 then cur.step.signExtend 48 else 0)))
    ∧ (∀ l, p.inBounds (cur.at_ l) = none → o.form.toNat < 2 → m.ldLane p o.form cur l = (m, stOK, 0, {}))
    ∧ (∀ l e k, accessOk b n o.form cur = true → p.inBounds (cur.at_ l) = some e → o.form = 0 → n.kind = 0 → s.place (p.addr e) = .scratch b.val k →
        s.blockOk p.herd b.val = true → (s.block b).fenced = false → p.addr e % 4 = 0 →
        m.ldLane p o.form cur l = (m, stOK, BitVec.ofNat 32 (leNat (s.mem.readBytes (p.addr e) 4)), {}))

/-- `VST` NUM32 (R160, R162, R194, Table 05.9): of the lanes that the mask leaves, those in the valid extent store their
word, and no other byte of memory changes; the cursor advances when INC is 1. A store through a cursor whose lane step is 0
is refused and has no effect but its stop. The block's own scratch takes every such store. -/
def Obligations.StoreWritesItsLanes : Prop :=
  ∀ (h : HerdId) (b : BlockId) (i : Issue) (o : VstOp) (n : Noun) (s : State),
    s.canIssue h b ⟨.vst o, i⟩ → s.nounAt b o.noun = some n →
    let c := (s.block b).vcell o.cell
    let cur := c.cursor o.cur
    let p := s.piece n
    let on := fun l => decide (l < 64) && (o.maskEn == 0 || c.lane o.mreg l != 0)
    (accessOk b n o.form cur = false ∨ cur.lane = 0 ∨ (n.residual = true ∧ o.form ≠ 0) →
        exec (.vst b i o) s = .next (s.stopBlock h b stCfgInvalid))
    ∧ (accessOk b n o.form cur = true → cur.lane ≠ 0 → o.form = 0 → p.herd = h →
        (s.block b).fenced = false → s.blockOk h b.val = true →
        (∀ l e, on l = true → p.inBounds (cur.at_ l) = some e → p.addr e % 4 = 0 ∧ ∃ k, s.place (p.addr e) = .scratch b.val k) →
        ∃ t, exec (.vst b i o) s = .next t
          ∧ (∀ x, (∀ l e, on l = true → p.inBounds (cur.at_ l) = some e → x < p.addr e ∨ p.addr e + 4 ≤ x) →
              t.mem.read x = s.mem.read x)
          ∧ (∀ l e, on l = true → p.inBounds (cur.at_ l) = some e →
              (∀ l' e', on l' = true → p.inBounds (cur.at_ l') = some e' → l' ≠ l → p.addr e' ≠ p.addr e) →
              t.mem.readBytes (p.addr e) 4 = leBytes 4 (c.lane o.sa l).toNat)
          ∧ (∀ k, k ≠ b → t.block k = s.block k)
          ∧ { t.block b with vcells := (s.block b).vcells } = (s.block b).issued ⟨.vst o, i⟩
          ∧ ((t.block b).vcell o.cell).regs = c.regs
          ∧ (((t.block b).vcell o.cell).cursor o.cur).base = cur.base + (if o.inc = 1 then cur.step.signExtend 48 else 0)
          ∧ t.copies.map (fun j => { j with old := [], met := [] }) = s.copies.map (fun j => { j with old := [], met := [] })
          ∧ { t with mem := s.mem, blocks := s.blocks, herds := s.herds, meterDue := s.meterDue, copies := s.copies } = s)

/-- `MOV` (R212, R213, R194): a move that R213 lets pass and whose accesses are all taken. Each element of the destination's
valid extent takes the source element it comes from, or zero where that lies outside the source's valid extent, and no
other byte changes, for Nouns of whole-byte elements without scales that do not overlap. One that R213 refuses has no
effect but its stop.
Where the spec leaves a point of this open it follows the model's choice (log entry 45). -/
def Obligations.MoveCopiesValidExtent : Prop :=
  ∀ (h : HerdId) (b : BlockId) (i : Issue) (o : MovOp) (n m : Noun) (s : State),
    s.canIssue h b ⟨.mov o, i⟩ → s.nounAt b o.src = some n → s.nounAt b o.dst = some m →
    let p := s.piece n
    let q := s.piece m
    (movOk b o p q = false → exec (.mov b i o) s = .next (s.stopBlock h b stCfgInvalid))
    ∧ (movOk b o p q = true → (s.runMov h b o).2 = stOK →
        ∃ t, exec (.mov b i o) s = .next t
          ∧ t.block b = (s.block b).issued ⟨.mov o, i⟩ ∧ (∀ k, k ≠ b → t.block k = s.block k)
          ∧ (o.scales = 0 → 8 ≤ elemBits m.elem → (∀ c ∈ q.validCoords, ∀ w k, s.place (q.addr c) ≠ .win w k) →
             (∀ c ∈ q.validCoords, ∀ e, movSource o p q c = some e → ∀ w k, s.place (p.addr e) ≠ .win w k) →
              (∀ x, (∀ c ∈ q.validCoords, x < q.addr c ∨ q.addr c + elemBytes m.elem ≤ x) →
                t.mem.read x = s.mem.read x)
              ∧ (∀ c ∈ q.validCoords, (∀ c' ∈ q.validCoords, c' ≠ c → q.addr c' ≠ q.addr c) →
                  (∀ e, movSource o p q c = some e → ∀ c' ∈ q.validCoords,
                    q.addr c' + elemBytes m.elem ≤ p.addr e ∨ p.addr e + elemBytes m.elem ≤ q.addr c') →
                  t.mem.readBytes (q.addr c) (elemBytes m.elem) = match movSource o p q c with
                    | some e => s.mem.readBytes (p.addr e) (elemBytes m.elem)
                    | none => List.replicate (elemBytes m.elem) 0)))

/-- `SETR`, `DCOEF` and `DTOUCH` (R217, R218, R248, R255, R256): a `SETR` of an immediate stages each RWS field of its word
for the start of the beat after the block's own, and one at no RWS word is refused; `DCOEF` puts the row's words as in effect at
the start of the block's own beat into lanes 0 to 17 of VD and 0 into the others, and is refused when MIX_K is not the one expected; `DTOUCH` sets the mask bits of the rows
that its lanes name, clears none, and leaves every other bit of memory as it was. -/
def Obligations.HandOffVerbsStageAndTouch : Prop :=
  (∀ (h : HerdId) (b : BlockId) (i : Issue) (o : SetrOp) (r : Run) (s : State), s.canIssue h b ⟨.setr o, i⟩ →
    (s.herd h).run = some r → o.fromNoun = 0 → o.wide = 0 →
    (rwsFields o.offset.toNat = [] → exec (.setr b i o) s = .next (s.stopBlock h b stCfgInvalid))
    ∧ (rwsFields o.offset.toNat ≠ [] →
        (∀ f ∈ rwsFields o.offset.toNat, f.2.2 (bits (o.imm.setWidth 32).toNat f.1 f.2.1) = false) →
        ∃ t, exec (.setr b i o) s = .next t
          ∧ (t.herd h).setrs = (s.herd h).setrs ++ (rwsFields o.offset.toNat).map (fun f =>
              { off := o.offset.toNat, mask := fieldMask f.1 f.2.1, val := o.imm.setWidth 32, block := s.herdIndex h b,
                seq := (s.block b).pos, beat := (r.beat0 + BitVec.ofNat 48 ((s.block b).pass
                  * ((s.herd h).sentence.map (·.beats)).getD 0 + (s.block b).seg) + 1).toNat })
          ∧ { t.herd h with setrs := (s.herd h).setrs } = s.herd h ∧ (∀ k, k ≠ h → t.herd k = s.herd k)
          ∧ t.block b = (s.block b).issued ⟨.setr o, i⟩ ∧ (∀ k, k ≠ b → t.block k = s.block k)
          ∧ { t with herds := s.herds, blocks := s.blocks } = s))
  ∧ (∀ (h : HerdId) (b : BlockId) (i : Issue) (o : DcoefOp) (s : State), s.canIssue h b ⟨.dcoef o, i⟩ →
    (o.checkK = 1 → (s.herd h).mixK (s.blockBeat h b) o.row.toNat ≠ o.kExpect.toNat →
      exec (.dcoef b i o) s = .next (s.stopBlock h b stCfgInvalid))
    ∧ (o.checkK = 0 ∨ (s.herd h).mixK (s.blockBeat h b) o.row.toNat = o.kExpect.toNat →
        ∃ t, exec (.dcoef b i o) s = .next t ∧ State.onlyBlock b s t
          ∧ (∀ l, l < 64 → ((t.block b).vcell o.cell).lane o.vd l =
              if l < 18 then (s.herd h).rowWordAt (s.blockBeat h b) o.row.toNat l else 0)
          ∧ ((s.herd h).rowHist = [] → ∀ l, (s.herd h).rowWordAt (s.blockBeat h b) o.row.toNat l
              = (s.herd h).rowWord o.row.toNat l)
          ∧ (∀ r l, l < 64 → r ≠ o.vd → ((t.block b).vcell o.cell).lane r l = ((s.block b).vcell o.cell).lane r l)
          ∧ (∀ c, c ≠ o.cell → (t.block b).vcell c = (s.block b).vcell c)
          ∧ { t.block b with vcells := (s.block b).vcells } = (s.block b).issued ⟨.dcoef o, i⟩))
  ∧ (∀ (h : HerdId) (b : BlockId) (i : Issue) (o : DtouchOp) (m : Sentence) (d : DclItem) (s : State),
    s.canIssue h b ⟨.dtouch o, i⟩ → (s.herd h).sentence = some m → m.dcls[o.item.toNat]? = some d →
    (s.runDtouch h b o).2 = stOK →
    ∃ t, exec (.dtouch b i o) s = .next t
      ∧ t.block b = (s.block b).issued ⟨.dtouch o, i⟩ ∧ (∀ k, k ≠ b → t.block k = s.block k)
      ∧ (let a := maskAddr d ((s.stepNo h).toNat % 2)
         (∀ k, k < d.rows → ∀ w q, s.place (a + k / 8) ≠ .win w q) →
         (∀ l, l < 64 → (((s.block b).vcell o.cell).lane o.sa l).toNat < d.rows →
            (t.mem.read (a + (((s.block b).vcell o.cell).lane o.sa l).toNat / 8)).getLsbD
              ((((s.block b).vcell o.cell).lane o.sa l).toNat % 8) = true)
         ∧ (∀ x k, (s.mem.read x).getLsbD k = true → (t.mem.read x).getLsbD k = true)
         ∧ (∀ x k, k < 8 → (∀ l, l < 64 → (((s.block b).vcell o.cell).lane o.sa l).toNat < d.rows →
              ¬(x = a + (((s.block b).vcell o.cell).lane o.sa l).toNat / 8 ∧ k = (((s.block b).vcell o.cell).lane o.sa l).toNat % 8)) →
            (t.mem.read x).getLsbD k = (s.mem.read x).getLsbD k)
         ∧ t.copies.map (fun j => { j with old := [], met := [] }) = s.copies.map (fun j => { j with old := [], met := [] })
         ∧ { t with mem := s.mem, blocks := s.blocks, meterDue := s.meterDue, copies := s.copies } = s))

/-! ## Chapters 11 to 13: orders -/

/-- Every order (R343, R422, R487, R534, Table 11.11): an order that a general rule refuses completes with that rule's status and
has no other effect: `CFG_INVALID` before a configuration is committed, but for FENCE and ATTEST; `NOT_PERMITTED` for a
source that may not issue it; `CFG_INVALID` for a herd that is ABSENT and `HERD_REVOKED` for one that is being revoked;
`NOT_PERMITTED` for a herd or a window of a tampered unit; `CFG_INVALID` for a herd while a life-cycle transition is under way
or awaits its reboot, and `NOT_PERMITTED` for a secure herd outside FIELDED. An order that draws random values waits while the
entropy source fails (R418). An unpowered unit takes none.
Where the spec leaves a point of this open it follows the model's choice (log entries 86, 87, 92 and 137). -/
def Obligations.GeneralRulesRefuseOrders : Prop :=
  (∀ (c : Instr) (src : OrderSrc) (h : HerdId) (tag : W32) (op : OrderOp) (st : Status) (s : State),
      orderOf c = some (src, h, tag, op) → s.pins.pwrGood = true → s.quiet →
      s.orderRefused (s.orderAt src h tag op) = some st → orderRefuses c src s st)
  ∧ (∀ (c : Instr) (src : OrderSrc) (h : HerdId) (tag : W32) (op : OrderOp) (s : State),
      orderOf c = some (src, h, tag, op) → s.pins.pwrGood = false → exec c s = .next s)
  ∧ (∀ (src : OrderSrc) (h : HerdId) (tag : W32) (op : OrderOp) (s : State),
      (let r := s.orderRefused (s.orderAt src h tag op)
       let g := orderHerd src h
       let may := s.mayIssue (s.orderAt src h tag op)
       (reservedOp op = true → r = some stCfgInvalid)
       ∧ (reservedOp op = false → tenantOp op = true → s.serow.tampered = true → r = some stNotPermitted)
       ∧ (reservedOp op = false → tenantOp op = false ∨ s.serow.tampered = false →
          (s.cfg.st ≠ 2 → earlyOp op = false → r = some stCfgInvalid)
          ∧ (s.cfg.st = 2 ∨ earlyOp op = true →
            ((∃ v, src = .ring (.vf v)) → operatorOnly op = true → r = some stNotPermitted)
            ∧ ((∃ k, src = .ring (.pf k)) → vfOnly op = true → s.herdExists g = true → (s.herd g).secure = true →
                r = some stNotPermitted)
            ∧ (may = true → namesHerd (s.orderAt src h tag op) = true → createsHerd op = false →
                ((s.herd g).st = .absent → r = some stCfgInvalid) ∧ ((s.herd g).st = .revoking → r = some stHerdRevoked)
                ∧ ((s.herd g).st = .live → r = none))
            ∧ (may = true → createsHerd op = true →
                (s.lc.seq ≠ none ∨ s.lc.reboot = true → r = some stCfgInvalid)
                ∧ (s.lc.seq = none → s.lc.reboot = false → src = .tahr → s.lcState ≠ 2 → r = some stNotPermitted)
                ∧ (s.lc.seq = none → s.lc.reboot = false → src ≠ .tahr ∨ s.lcState = 2 → r = none))))))
  ∧ (∀ (c : Instr) (src : OrderSrc) (h : HerdId) (tag : W32) (op : OrderOp) (s : State),
      orderOf c = some (src, h, tag, op) → s.pins.pwrGood = true → s.quiet → s.orderRefused (s.orderAt src h tag op) = none →
      s.tahr.entropyBad = true → s.drawsFor (s.orderAt src h tag op) = true →
      (isCheckpoint op = true → s.outstanding (orderHerd src h) = false) →
      ∃ t, exec c s = .next t ∧ t.waitFree = [s.orderAt src h tag op]
        ∧ { t with waitFree := [], ics := s.ics } = s.issued src)

/-- FENCE (R344) and the completion entry of any order (R337, R339, R340, Table 11.13): a `FENCE` completes `OK` at once when nothing
else of its ring is outstanding, and waits otherwise. A completion whose ring has room is written as 16 bytes at BASE + 16 x
the tail: TAG, STATUS, the check code, PHASE and DETAIL; the tail moves on, PHASE turns over when it wraps, one reserved slot is
given back, and no other byte of host memory changes.
Where the spec leaves a point of this open it follows the model's choice (log entry 92). -/
def Obligations.CompletionsReachTheirRing : Prop :=
  (∀ (k : Fin 4) (tag : W32) (s : State), s.pins.pwrGood = true → s.quiet → (s.ring (.pf k)).fences = [] →
      (s.ring (.pf k)).reserved ≠ 0 → ∃ t, exec (.fence (.ring (.pf k)) tag) s = .next t
      ∧ t.ring (.pf k) = { s.ring (.pf k) with reserved := (s.ring (.pf k)).reserved + 1
                                               fences := [s.refBy (.fence (.ring (.pf k)) tag)] }
      ∧ { t with pfRings := s.pfRings, orderSeq := s.orderSeq, ics := s.ics } = s)
  ∧ (∀ (k : Fin 4) (tag : W32) (s : State), s.pins.pwrGood = true → s.quiet → (s.ring (.pf k)).fences = [] →
      (s.ring (.pf k)).reserved = 0 → (s.ring (.pf k)).heldCpl = [] → s.linkUp = true → (s.ring (.pf k)).cpl.room = true →
      ∃ t, exec (.fence (.ring (.pf k)) tag) s = .next t
      ∧ (let x := s.ring (.pf k)
         t.hostRead (x.cpl.base.toNat + 16 * x.cpl.idx.toNat) 16
           = leBytes 4 tag.toNat ++ leBytes 4 (if x.cpl.phase then 2 ^ 31 else 0) ++ leBytes 8 0
         ∧ (t.ring (.pf k)).reserved = 0 ∧ (t.ring (.pf k)).fences = [] ∧ (t.ring (.pf k)).heldCpl = [])
      ∧ { t with pfRings := s.pfRings, orderSeq := s.orderSeq, ics := s.ics, hostMem := s.hostMem } = s)
  ∧ (∀ (k : Fin 4) (ref : OrderRef) (st : Status) (chk : BitVec 8) (d : W64) (s : State),
      ref.src = .ring (.pf k) → ref.gen = (s.ring (.pf k)).gen → (s.ring (.pf k)).fences = [] → (s.ring (.pf k)).heldCpl = [] → s.linkUp = true → (s.ring (.pf k)).cpl.room = true →
      (s.ring (.pf k)).cpl.log2.toNat ≤ 16 →
      (let x := s.ring (.pf k)
       let t := s.complete ref st chk d
       let a := x.cpl.base.toNat + 16 * x.cpl.idx.toNat
       let y := t.ring (.pf k)
       t.hostRead a 16 = leBytes 4 ref.tag.toNat
           ++ leBytes 4 (st.toNat + chk.toNat * 2 ^ 16 + (if x.cpl.phase then 2 ^ 31 else 0)) ++ leBytes 8 d.toNat
       ∧ (∀ n, n < a ∨ a + 16 ≤ n → t.hostMem.read n = s.hostMem.read n)
       ∧ y.cpl.idx.toNat = (x.cpl.idx.toNat + 1) % x.cpl.size
       ∧ y.cpl.phase = (if (x.cpl.idx.toNat + 1) % x.cpl.size = 0 then !x.cpl.phase else x.cpl.phase)
       ∧ y.reserved = x.reserved - 1 ∧ y.heldCpl = [] ∧ y.ord = x.ord ∧ y.evt = x.evt
       ∧ (∀ j, j ≠ k → t.ring (.pf j) = s.ring (.pf j))
       ∧ (∀ h, ref.herd ≠ some h → t.meters.get {} h.val = s.meters.get {} h.val
            ∧ t.meterDue.get {} h.val = s.meterDue.get {} h.val)
       ∧ (∀ h, ref.herd = some h → t.meterDue.get {} h.val = {}
            ∧ (t.meters.get {} h.val).beats = satAdd (s.meters.get {} h.val).beats (s.meterDue.get {} h.val).beats.toNat)
       ∧ { t with pfRings := s.pfRings, ics := s.ics, hostMem := s.hostMem, meters := s.meters
                  meterDue := s.meterDue } = s))

/-- HERD_CREATE, LOT_ASSIGN and LOT_RELEASE (R353, R354, R61, R12): a herd starts LIVE with its registers at their reset values and
its blocks and their scratch cleared; a lot that is free is assigned; a released lot is cleared before it is free again, and
one that an unfinished copy names waits for the copy. A refused order changes nothing.
Where the spec leaves a point of this open it follows the model's choice (log entries 90 and 106). -/
def Obligations.ResourceOrdersGiveAndTake : Prop :=
  (∀ (k : Fin 4) (h : HerdId) (tag : W32) (g : W48) (p : BitVec 15) (s : State),
      s.orderOpen (.ring (.pf k)) h tag (.herdCreate g p) →
      (let src := OrderSrc.ring (.pf k)
       let c := Instr.herdCreate src h tag g p
       (s.createRefused h g p = true → orderRefuses c src s stCfgInvalid)
       ∧ (s.createRefused h g p = false → orderDone c s fun (u : State) =>
          (u.herd h = { st := .live, groups := g, span := p, rings := (s.herd h).rings }
          ∧ (∀ j, j ≠ h → u.herd j = s.herd j)
          ∧ (∀ b : BlockId, g.getLsbD (groupOf b) = true →
              u.block b = { fenced := (s.block b).fenced, fault := (s.block b).fault }
              ∧ ∀ i, i < lotBytes → u.mem.read (scratchAddr b.val 0 + i) = 0)
          ∧ (∀ b : BlockId, g.getLsbD (groupOf b) = false → u.block b = s.block b)
          ∧ (∀ a, a < scratchAddr 0 0 → u.mem.read a = s.mem.read a)
          ∧ { u with herds := s.herds, blocks := s.blocks, mem := s.mem, dims := s.dims, heldLow := s.heldLow
                     latchedHigh := s.latchedHigh, orderSeq := s.orderSeq, pfRings := s.pfRings } = s)))
       )
  ∧ (∀ (src : OrderSrc) (h : HerdId) (tag : W32) (f n : BitVec 10) (s : State), s.orderOpen src h tag (.lotAssign f n) →
      (let free := ∀ l ∈ lotRange f n, l < 1008 ∧ (s.lot l).assigned = false ∧ (s.lot l).clearing = false
          ∧ s.repair.lotRetired.get false l = false
       (¬free → orderRefuses (.lotAssign src h tag f n) src s stCfgInvalid)
       ∧ (free → orderDone (.lotAssign src h tag f n) s fun (u : State) =>
          ((∀ l, l ∈ lotRange f n → u.lot l = { herd := BitVec.ofNat 5 h.val, secure := (s.herd h).secure
                                                assigned := true, since := s.tb.now })
          ∧ (∀ l, l ∉ lotRange f n → u.lot l = s.lot l)
          ∧ { u with lots := s.lots } = s.issued src))))
  ∧ (∀ (src : OrderSrc) (h : HerdId) (tag : W32) (f n : BitVec 10) (s : State), s.orderOpen src h tag (.lotRelease f n) →
      (let mine := (∀ l ∈ lotRange f n, s.holdsLot h l = true ∧ s.nounNames h 1 l = false) ∧ (s.herd h).busy = false
       (¬mine → orderRefuses (.lotRelease src h tag f n) src s stCfgInvalid)
       ∧ (mine → s.copyUses h (lotRange f n) none = true →
          ∃ t, exec (.lotRelease src h tag f n) s = .next t ∧ t.waitFree = [s.orderAt src h tag (.lotRelease f n)]
            ∧ { t with waitFree := [], ics := s.ics } = s.issued src)
       ∧ (mine → s.copyUses h (lotRange f n) none = false → orderDone (.lotRelease src h tag f n) s fun (u : State) =>
          ((∀ l, l ∈ lotRange f n → u.lot l = { s.lot l with clearing := true })
          ∧ (∀ l, l ∉ lotRange f n → u.lot l = s.lot l)
          ∧ { u with lots := s.lots, meters := s.meters } = s.issued src))))

/-- WINDOW_ALLOC, WINDOW_FREE and KEY_ROTATE (R69, R70, R355, R384, R388, R392, R403, R413): a window takes its range and two key slots,
a fresh key in the first; a freed one leaves nothing; ROTATE starts a sweep under a fresh key and completes at its end; RESEED
puts a DAMAGED window in RESEEDING; LINK makes the herd's stream on every dimension of its SPAN advance, and completes at once
with none.
Where the spec leaves a point of this open it follows the model's choice (log entries 89 and 90). -/
def Obligations.WindowAndKeyOrders : Prop :=
  (∀ (src : OrderSrc) (h : HerdId) (tag : W32) (w : WinId) (p : BitVec 4) (b : W48) (n : BitVec 40) (k : BitVec 6) (s : State),
      s.orderOpen src h tag (.windowAlloc w p b n k) →
      (let c := Instr.windowAlloc src h tag w p b n k
       let good := (s.win w).st = 0 ∧ s.rangeServed b.toNat n.toNat = true
          ∧ (∀ v : WinId, (s.win v).st = 0 ∨ winMeets b.toNat n.toNat (s.win v).base (s.win v).size = false)
          ∧ (∀ q ∈ s.repair.pages, coversPage b.toNat n.toNat q = false)
          ∧ (s.herd h).tagOk p = true ∧ (k = 0 ∨ (24 ≤ k.toNat ∧ k.toNat ≤ 36))
       (¬good → orderRefuses c src s stCfgInvalid)
       ∧ (good → s.freeSlots.length < 2 →
            exec c s = .next ((s.issued src).finish s c stCfgInvalid 0 0xFFFF_FF01))
       ∧ (good → ∀ i j r, s.freeSlots = i :: j :: r → orderDone c s fun (u : State) =>
          (u.win w = { st := 1, herd := BitVec.ofNat 5 h.val, secure := (s.herd h).secure, tag := p
                       pinned := !isInter b.toNat, base := b.toNat, size := n.toNat, budgetLog2 := k.toNat
                       slot0 := some i, slot1 := some j }
          ∧ (∀ v, v ≠ w → u.win v = s.win v)
          ∧ (u.slot i).valid = true ∧ (u.slot i).secret = bytes256 (Config.random s.freeCtr) ∧ (u.slot i).tenant = true
          ∧ (u.slot j).valid = false ∧ (u.slot j).held = true
          ∧ (∀ q, q ≠ i → q ≠ j → u.slot q = s.slot q)
          ∧ { u with wins := s.wins, slots := s.slots, freeCtr := s.freeCtr } = s.issued src))))
  ∧ (∀ (src : OrderSrc) (h : HerdId) (tag : W32) (w : WinId) (s : State), s.orderOpen src h tag (.windowFree w) →
      (let mine := s.holdsWin h w = true ∧ s.nounNames h 2 w.val = false ∧ (s.herd h).busy = false
       (¬mine → orderRefuses (.windowFree src h tag w) src s stCfgInvalid)
       ∧ (mine → s.copyUses h [] (some w) = false → (s.win w).rotations = [] →
          orderDone (.windowFree src h tag w) s fun (u : State) =>
          (u.win w = {} ∧ (∀ v, v ≠ w → u.win v = s.win v)
          ∧ (∀ i, (s.win w).slot0 = some i ∨ (s.win w).slot1 = some i → u.slot i = {})
          ∧ (∀ i, (s.win w).slot0 ≠ some i → (s.win w).slot1 ≠ some i → u.slot i = s.slot i)
          ∧ { u with wins := s.wins, slots := s.slots } = s.issued src))))
  ∧ (∀ (src : OrderSrc) (h : HerdId) (tag : W32) (w : WinId) (s : State), s.orderOpen src h tag (.keyRotate w 0) →
      (let g := orderHerd src h
       (s.holdsWin g w = false ∨ (s.win w).epochSt ≠ 0 → orderRefuses (.keyRotateRotate src h tag w) src s stCfgInvalid)
       ∧ (s.holdsWin g w = true → (s.win w).epochSt = 0 → ∀ i, (s.win w).slotOf (!(s.win w).epoch) = some i →
          s.winKeys (s.win w) (s.win w).epoch ≠ none →
          ∃ t, exec (.keyRotateRotate src h tag w) s = .next t
          ∧ t.win w = { s.win w with epoch := !(s.win w).epoch, writes := 0, epochSt := 1, sweepDue := false
                                     rotations := (s.win w).rotations ++ [(s.refBy (.keyRotateRotate src h tag w), s.tb.now)] }
          ∧ t.slot i = { s.slot i with valid := true, held := false, secret := bytes256 (Config.random s.freeCtr) }
          ∧ (∀ q, q ≠ i → t.slot q = s.slot q) ∧ (∀ v, v ≠ w → t.win v = s.win v)
          ∧ { t with wins := s.wins, slots := s.slots, freeCtr := s.freeCtr, ics := s.ics } = s.issued src)))
  ∧ (∀ (src : OrderSrc) (h : HerdId) (tag : W32) (w : WinId) (s : State), s.orderOpen src h tag (.keyRotate w 1) →
      (let g := orderHerd src h
       (s.holdsWin g w = false ∨ (s.win w).st ≠ 2 → orderRefuses (.keyRotateReseed src h tag w) src s stCfgInvalid)
       ∧ (s.holdsWin g w = true → (s.win w).st = 2 → orderDone (.keyRotateReseed src h tag w) s fun (u : State) =>
          ((u.win w).st = 3 ∧ (∀ x ∈ (u.win w).subs, x.reseeding = true) ∧ (∀ v, v ≠ w → u.win v = s.win v)
          ∧ { u with wins := s.wins, ics := s.ics, badNodeCnt := s.badNodeCnt, macFail := s.macFail, repair := s.repair } = s.issued src))))
  ∧ (∀ (src : OrderSrc) (h : HerdId) (tag : W32) (s : State), s.orderOpen src h tag (.keyRotate 0 2) →
      (let g := orderHerd src h
       ((s.herd g).dims = [] → orderDone (.keyRotateLink src h tag) s fun (u : State) => u = s.issued src)
       ∧ ((s.herd g).dims ≠ [] → ∃ t, exec (.keyRotateLink src h tag) s = .next t
          ∧ (∀ d, (t.stream d g).advancing = ((s.stream d g).advancing || decide (d ∈ (s.herd g).dims))
              ∧ { t.stream d g with advancing := (s.stream d g).advancing } = s.stream d g)
          ∧ (t.herd g).rotLinks = (s.herd g).rotLinks ++ [s.refBy (.keyRotateLink src h tag)]
          ∧ { t with streams := s.streams, herds := (s.issued src).herds, ics := s.ics } = s.issued src)))

/-- NOUN_CREATE and NOUN_DESTROY (R176, R190, R191, R193, R231, Tables 06.4 and 06.6): a record whose descriptor passes every check is
written into its entry of each block of the set, and nowhere else; the first check that fails decides status, check code and
offset; a herd whose Sentence runs refuses; a destroyed Noun leaves every block of the herd, once no unfinished copy names it. Nothing
reaches the table of a fenced block (R464): the order ends with the status of its fault.
Where the spec leaves a point of this open it follows the model's choice (log entries 105 and 156). -/
def Obligations.NounOrdersWriteTheTables : Prop :=
  (∀ (src : OrderSrc) (h : HerdId) (tag : W32) (arg : W64) (s : State), s.orderOpen src h tag (.nounCreate arg) →
      (let c := Instr.nounCreate src h tag arg
       let g := orderHerd src h
       let rec_ := nounRecord (s.hostRead arg.toNat 128)
       ((s.herd g).busy = true ∨ arg.toNat % 64 ≠ 0 ∨ rec_ = none → orderRefuses c src s stCfgInvalid)
       ∧ ((s.herd g).busy = false → arg.toNat % 64 = 0 → ∀ e set d, rec_ = some (e, set, d) →
          (∀ st k o, (s.issued src).nounChecks g e set d = .error (st, k, o) →
            exec c s = .next ((s.issued src).finish s c st k (BitVec.ofNat 64 o)))
          ∧ (∀ n, (s.issued src).nounChecks g e set d = .ok n →
            (let k := (s.issued src).nounOverlap g n []
             (k ≠ 0 → exec c s = .next ((s.issued src).finish s c stNounBounds k 0))
             ∧ (∀ st, k = 0 → s.tableFault (set.filterMap fun i => s.blockAt g i) = some st → orderRefuses c src s st)
             ∧ (k = 0 → (∀ i ∈ set, ∀ b, s.blockAt g i = some b → (s.block b).fenced = false) → orderDone c s fun (u : State) =>
                ((∀ b : BlockId, (∃ i ∈ set, s.blockAt g i = some b) → (u.block b).nouns.get {} e.toNat = n
                    ∧ (∀ f, f ≠ e.toNat → (u.block b).nouns.get {} f = (s.block b).nouns.get {} f)
                    ∧ { u.block b with nouns := (s.block b).nouns } = s.block b)
                ∧ (∀ b : BlockId, (∀ i ∈ set, s.blockAt g i ≠ some b) → u.block b = s.block b)
                ∧ { u with blocks := s.blocks } = s.issued src)))))))
  ∧ (∀ (src : OrderSrc) (h : HerdId) (tag : W32) (e : BitVec 6) (b : BitVec 9) (s : State),
      s.orderOpen src h tag (.nounDestroy e b) →
      (let c := Instr.nounDestroy src h tag e b
       let g := orderHerd src h
       let noun := (s.blockAt g b.toNat).bind fun k => s.nounAt k e
       ((s.herd g).busy = true ∨ noun = none → orderRefuses c src s stCfgInvalid)
       ∧ (∀ n st, (s.herd g).busy = false → noun = some n → n ∉ s.copyNouns g → s.tableFault (s.nounBlocks g e n) = some st →
            orderRefuses c src s st)
       ∧ (∀ n, (s.herd g).busy = false → noun = some n → n ∉ s.copyNouns g →
            (∀ k ∈ s.blocksOf g, (s.block k).nouns.get {} e.toNat = n → (s.block k).fenced = false) →
            orderDone c s fun (u : State) =>
          ((∀ k ∈ s.blocksOf g, ((s.block k).nouns.get {} e.toNat = n → (u.block k).nouns.get {} e.toNat = {})
              ∧ ((s.block k).nouns.get {} e.toNat ≠ n → u.block k = s.block k)
              ∧ { u.block k with nouns := (s.block k).nouns } = s.block k)
          ∧ (∀ k : BlockId, k ∉ s.blocksOf g → u.block k = s.block k)
          ∧ { u with blocks := s.blocks } = s.issued src))
       ∧ (∀ n, (s.herd g).busy = false → noun = some n → n ∈ s.copyNouns g → ∃ t, exec c s = .next t
          ∧ t.waitFree = [s.orderAt src h tag (.nounDestroy e b)]
          ∧ { t with waitFree := [], ics := s.ics } = s.issued src)))

/-- COPY_ORDER, NOUN_COPY and COPY_COMPLETE (R72, R73, R74, R77, R360, R361): a copy that a check refuses, with none of its herd before
it, completes with that status at once; any other joins its herd's copies in order; when the oldest, between lots of its
herd or host memory, ends, its bytes have moved, nothing else has, and it completes `OK`; data from the host comes in the herd's stream (R336).
Where the spec leaves a point of this open it follows the model's choice (log entries 97, 103, 104, 118 and 126). -/
def Obligations.CopiesMoveInOrder : Prop :=
  (let joins := fun (c : Instr) (src : OrderSrc) (h : HerdId) (tag : W32) (op : OrderOp) =>
      ∀ s : State, s.orderOpen src h tag op →
        (let g := orderHerd src h
         let st := (s.issued src).copyCheck g op
         let first := s.copies.any (fun j => j.herd == g) = false
         (∀ k, first → st = some k → orderRefuses c src s k)
         ∧ (¬first ∨ st = none → ∃ t, exec c s = .next t
            ∧ t.copies = s.copies ++ [{ ref := s.refBy c, herd := g, op := op, status := st, quiet := st.isSome,
                                        src := (s.copyRanges g op).1, dst := (s.copyRanges g op).2 }]
            ∧ { t with copies := s.copies, ics := s.ics } = s.issued src))
   (∀ (src : OrderSrc) (h : HerdId) (tag : W32) (a d : W64) (n : BitVec 40) (x y : Bool),
      joins (.copyOrder src h tag a d n x y) src h tag (.copy a d n x y false))
   ∧ (∀ (src : OrderSrc) (h : HerdId) (tag : W32) (e f : BitVec 6) (b c : BitVec 9),
      joins (.nounCopy src h tag e b f c) src h tag (.copy (BitVec.ofNat 64 (e.toNat + b.toNat * 64))
        (BitVec.ofNat 64 (f.toNat + c.toNat * 64)) 0 false false true)))
  ∧ (∀ (h : HerdId) (j : CopyJob) (a d : W64) (n : BitVec 40) (x y : Bool) (l m : Nat) (s : State), s.pins.pwrGood = true →
      s.quiet → s.copies.find? (fun j => j.herd == h) = some j → j.status = none → j.op = .copy a d n x y false →
      j.old = [] → j.met = [] → (∀ k, (s.copies.erase j).find? (fun j => j.herd == h) = some k → k.status = none) →
      (x = true ∨ y = true → s.hostReach h = true) → s.repair.lotLost = {} →
      (x = false → s.lotOk h l = true ∧ lotAddr l 0 ≤ a.toNat ∧ a.toNat + n.toNat ≤ lotAddr l lotBytes) →
      (y = false → s.lotOk h m = true ∧ lotAddr m 0 ≤ d.toNat ∧ d.toNat + n.toNat ≤ lotAddr m lotBytes) →
      ∃ u : State, exec (.copyComplete h) s = .next ((u.complete j.ref stOK 0 0).icNote)
      ∧ (let from_ := if x then s.hostMem else s.mem
         let into := if y then s.hostMem else s.mem
         let after := if y then u.hostMem else u.mem
         (∀ i, i < n.toNat → after.read (d.toNat + i) = from_.read (a.toNat + i))
         ∧ (∀ k, k < d.toNat ∨ d.toNat + n.toNat ≤ k → after.read k = into.read k)
         ∧ (y = true → u.mem = s.mem) ∧ (y = false → u.hostMem = s.hostMem))
      ∧ u.copies = s.copies.erase j
      ∧ { u with copies := s.copies, mem := s.mem, hostMem := s.hostMem, meters := s.meters, meterDue := s.meterDue }
          = if x then s.touchStream (.vf h) .active else s)
  ∧ (∀ (h : HerdId) (j : CopyJob) (st : Status) (s : State), s.pins.pwrGood = true → s.quiet →
      s.copies.find? (fun j => j.herd == h) = some j → j.status = some st → j.quiet = true →
      (∀ k, (s.copies.erase j).find? (fun j => j.herd == h) = some k → k.status = none) →
      ∃ u : State, exec (.copyComplete h) s = .next ((u.complete j.ref st 0 0).icNote) ∧ u.copies = s.copies.erase j
      ∧ { u with copies := s.copies, meters := s.meters, meterDue := s.meterDue } = s)

/-- SENTENCE_LOAD, SENTENCE_LOAD_DONE and SENTENCE_RUN (R103, R149, R207, R225, R231, Table 07.12): a load makes the herd LOADING and is
checked as it stands; it ends READY with the Sentence, or EMPTY with the code of the first check that failed; a run that
nothing forbids is RUNNING from the present beat number, each block of the herd cleared, with its own Clause and the seeds of
HRD_RNG_SEED_n, or those drawn anew for the run where HRD_RNG_DRAW says so, as the unit has them (R172; it is STOPPING at once when a slice peer has already asked for a stop, or memory that its items name is not held); while a run is in progress
both are refused. That a load halts the blocks a completed run left behind is the model's choice (log entry 76).
Where the spec leaves another point of this open it follows the model's choice (log entries 43, 78, 94 and 165). -/
def Obligations.SentencesLoadAndRun : Prop :=
  (∀ (src : OrderSrc) (h : HerdId) (tag : W32) (a : W64) (n : W32) (s : State), s.orderOpen src h tag (.sentenceLoad a n) →
      (let c := Instr.sentenceLoad src h tag a n
       let g := orderHerd src h
       let x := s.herd g
       (a.toNat % 64 ≠ 0 ∨ x.busy = true → orderRefuses c src s stCfgInvalid)
       ∧ (a.toNat % 64 = 0 → x.seq = .loading → ∃ t, exec c s = .next t
          ∧ t.herd g = { (s.issued src).herd g with loadQueue := x.loadQueue ++ [s.orderAt src h tag (.sentenceLoad a n)] }
          ∧ (∀ j, j ≠ g → t.herd j = (s.issued src).herd j)
          ∧ { t with herds := s.herds, ics := s.ics, orderSeq := s.orderSeq, pfRings := s.pfRings } = s)
       ∧ (a.toNat % 64 = 0 → x.seq = .empty ∨ x.seq = .ready → x.commit ≠ .recording → ∃ t, exec c s = .next t
          ∧ t.herd g = { (s.issued src).herd g with
              seq := .loading, tail := none, load := some ((s.issued src).loadOf g (s.refBy c) a.toNat n.toNat) }
          ∧ (∀ j, j ≠ g → t.herd j = (s.issued src).herd j)
          ∧ (∀ b : BlockId, t.block b = if x.tail ≠ none ∧ b ∈ s.blocksOf g then (s.block b).halt else s.block b)
          ∧ { t with herds := s.herds, ics := s.ics, orderSeq := s.orderSeq, pfRings := s.pfRings, blocks := s.blocks } = s)
       ∧ (∀ m, a.toNat % 64 = 0 → x.seq = .empty ∨ x.seq = .ready → x.commit ≠ .recording → x.loadQueue = [] →
          ((s.issued src).loadOf g (s.refBy c) a.toNat n.toNat).result = some m →
          ∃ t, exec c s = .next t ∧ ∃ u, exec (.sentenceLoadDone g) t = .next u
            ∧ (u.herd g).seq = .ready ∧ (u.herd g).sentence = some m)))
  ∧ (∀ (h : HerdId) (l : LoadRun) (s : State), s.pins.pwrGood = true → (s.herd h).seq = .loading →
      (s.herd h).load = some l → (s.herd h).loadQueue = [] →
      (l.result = none → ∃ u : State, exec (.sentenceLoadDone h) s = .next (u.complete l.ref (l.status.setWidth 16) l.code
            (l.where_.setWidth 64))
          ∧ u.herd h = { s.herd h with seq := .empty, load := none, sentence := none, lastCheck := l.code }
          ∧ (∀ j, j ≠ h → u.herd j = s.herd j) ∧ { u with herds := s.herds } = s)
      ∧ (∀ m, l.result = some m → (∀ old, (s.herd h).sentence = some old → old.meas = m.meas) →
          ∃ u : State, exec (.sentenceLoadDone h) s = .next (u.complete l.ref stOK 0 0)
          ∧ u.herd h = { s.herd h with seq := .ready, load := none, sentence := some m, lastCheck := 0 }
          ∧ (∀ j, j ≠ h → u.herd j = s.herd j) ∧ { u with herds := s.herds } = s)
      ∧ (∀ m, l.result = some m → ∃ u : State, exec (.sentenceLoadDone h) s = .next (u.complete l.ref stOK 0 0)
          ∧ (u.herd h).seq = .ready ∧ (u.herd h).load = none ∧ (u.herd h).sentence = some m ∧ (u.herd h).lastCheck = 0
          ∧ (∀ old, (s.herd h).sentence = some old → old.meas ≠ m.meas → (u.herd h).reds = {} ∧ (u.herd h).routes = {})
          ∧ (∀ j, j ≠ h → u.herd j = s.herd j) ∧ u.blocks = s.blocks ∧ u.lots = s.lots ∧ u.copies = s.copies))
  ∧ (∀ (src : OrderSrc) (h : HerdId) (tag : W32) (n : W32) (s : State), s.orderOpen src h tag (.sentenceRun n) →
      (s.herd (orderHerd src h)).commit ≠ .recording →
      (let c := Instr.sentenceRun src h tag n
       let g := orderHerd src h
       ((s.herd g).sentence = none → orderRefuses c src s stCfgInvalid)
       ∧ (∀ m, (s.herd g).sentence = some m → (s.issued src).runAllowed g m n = false → orderRefuses c src s stCfgInvalid)
       ∧ (∀ m, (s.herd g).sentence = some m → (s.issued src).runAllowed g m n = true → ∃ t, exec c s = .next t
          ∧ ∃ r, (t.herd g).run = some r ∧ r.ref = s.refBy c ∧ r.steps = n.setWidth 64 ∧ r.beat0 = (s.herd g).beatNow
          ∧ r.pass = 0 ∧ r.beat = 0 ∧ r.done = 0 ∧ (t.herd g).sentence = some m
          ∧ ((t.herd g).seq = .running ∨ (t.herd g).seq = .stopping)
          ∧ (s.startsClean g m → (t.herd g).seq = .running ∧ (t.herd g).tail = none)
          ∧ (let seeds := (t.herd g).unitSeeds
             let drawn := fun (k : Nat) => (s.herd g).rngDraw.getLsbD k
             (∀ n, n < 64 → seeds.get 0 n = if drawn n then
                (Config.random (s.freeCtr + ((List.range n).filter drawn).length)).setWidth 64 else (s.herd g).rngSeed.get 0 n)
             ∧ ∀ b ∈ s.blocksOf g,
              (let y := (s.block b).startRun (s.clauseOf g m b) seeds
               { t.block b with st := y.st } = y
               ∧ ((t.herd g).seq = .running → t.block b = y)))
          ∧ (∀ b : BlockId, b ∉ s.blocksOf g → t.block b = s.block b)
          ∧ (∀ j, j ≠ g → t.herd j = (s.issued src).herd j)
          ∧ { t with blocks := s.blocks, herds := (s.issued src).herds, denied := s.denied, dims := s.dims, freeCtr := s.freeCtr
                     ics := s.ics, badNodeCnt := s.badNodeCnt, macFail := s.macFail, meterDue := s.meterDue
                     wins := s.wins, repair := s.repair } = s.issued src)))

/-- HERD_QUIESCE and HERD_REVOKE (R227, R231, R534, Tables 07.12 and 12.9): a quiesce of an idle herd completes at once; of a running one,
it waits, and the run stops once its beat has ended; of a loading one, it ends the load. A revocation stops the run, ends what the herd
waits for, halts blocks that a completed run left behind, and leaves the herd REVOKING, at its first stage, with the order to be
completed last.
Where the spec leaves a point of this open it follows the model's choice (log entries 93 and 95). -/
def Obligations.QuiesceAndRevokeStopAHerd : Prop :=
  (∀ (src : OrderSrc) (h : HerdId) (tag : W32) (s : State), s.orderOpen src h tag .herdQuiesce →
      (let c := Instr.herdQuiesce src h tag
       let g := orderHerd src h
       let x := s.herd g
       (x.seq = .empty ∨ x.seq = .ready → orderDone c s fun (u : State) => u = s.issued src)
       ∧ (∀ r, x.run = some r → x.seq = .running ∨ x.seq = .stopping → ∃ t, exec c s = .next t
          ∧ (t.herd g).seq = .stopping ∧ ∃ q, (t.herd g).run = some q ∧ q.quiesces = r.quiesces ++ [s.refBy c]
          ∧ (x.seq = .running → q.stopAtEnd = true ∧ ∃ f : FaultRec, f.status = 1 ∧ q.faults = r.faults ++ [f])
          ∧ (x.seq = .stopping → q = { r with quiesces := q.quiesces })
          ∧ (∀ j, j ≠ g → t.herd j = (s.issued src).herd j)
          ∧ { t with herds := (s.issued src).herds, dims := s.dims, freeCtr := s.freeCtr, ics := s.ics } = s.issued src)
       ∧ (∀ l, x.seq = .loading → x.load = some l → x.loadQueue = [] → ∃ u : State, exec c s = .next (u.finish s c stOK 0 0)
          ∧ (u.herd g).seq = .empty ∧ (u.herd g).load = none ∧ (u.herd g).sentence = none
          ∧ { u with herds := s.herds, pfRings := s.pfRings, hostMem := s.hostMem, ics := s.ics, orderSeq := s.orderSeq
                     tahr := s.tahr, slots := s.slots } = s)))
  ∧ (∀ (src : OrderSrc) (h : HerdId) (tag : W32) (s : State), s.orderOpen src h tag .herdRevoke →
      (let c := Instr.herdRevoke src h tag
       let g := orderHerd src h
       ∃ t, exec c s = .next t ∧ (t.herd g).st = .revoking ∧ ∃ v, (t.herd g).rev = some v ∧ v.stage = .executed
         ∧ v.t0 = s.tb.now ∧ v.refs = [s.refBy c]
         ∧ (∀ r, (s.herd g).run = some r → (t.herd g).seq = .stopping ∧ ∃ q, (t.herd g).run = some q ∧ q.closed = true
            ∧ ∃ f : FaultRec, f.status = 2 ∧ q.faults = r.faults ++ [f])
         ∧ ((s.herd g).run = none → (s.herd g).tail ≠ none → (t.herd g).tail = none ∧ ∀ b ∈ s.blocksOf g, t.block b = (s.block b).halt)
         ∧ (t.herd g).load = none ∧ (t.herd g).loadQueue = [] ∧ (t.herd g).rotLinks = []
         ∧ (∀ j ∈ t.copies, j.herd ≠ g)
         ∧ (∀ j, j ≠ g → (s.herd j).st ≠ .revoking → { t.herd j with rings := (s.herd j).rings } = s.herd j)
         ∧ t.lots = s.lots ∧ t.cfg = s.cfg ∧ t.pending = s.pending ∧ t.ide = s.ide))

/-- CHECKPOINT_SEAL, CHECKPOINT_RESTORE and ATTEST (R364, R366, R367, R368, R427, R431, Tables 12.7 and 12.8): a seal whose checks pass writes header,
section table, table tag and sealed sections, in this order, at its destination, and nothing when the room is short; a
restore whose checks pass writes the sections back and takes the commit registers of a COMMIT section; both are refused in a
state in which the Sentence is loading or running. A report is written where there is room for it, and its LENGTH is the
DETAIL; while no leaf is free, or the host cannot be reached, it waits.
Where the spec leaves a point of this open it follows the model's choice (log entries 2, 69, 99, 107, 110, 111, 137 and 145). -/
def Obligations.CheckpointsAndReports : Prop :=
  (∀ (src : OrderSrc) (h : HerdId) (tag : W32) (a d : W64) (n : BitVec 40) (mode : BitVec 2) (rcp : BitVec 3) (auto : Bool)
      (p : W64) (s : State), s.orderOpen src h tag (.checkpointSeal a d n mode rcp auto p) →
      (s.herd (orderHerd src h)).commit ≠ .recording →
      (let c := Instr.checkpointSeal src h tag a d n mode rcp auto p
       let g := orderHerd src h
       let x := s.herd g
       let z := s.issued src
       let raw := (s.sealList a.toNat).1
       let auto_ := if auto then x.sentence.map (autoSects x) else some []
       ((s.sealList a.toNat).2 = none ∨ auto_ = none ∨ x.noCheckpoint = true ∨ d.toNat % 64 ≠ 0
          ∨ (auto = true ∧ x.seq = .empty) → orderRefuses c src s stCfgInvalid)
       ∧ (∀ own more, (s.sealList a.toNat).2 = some own → auto_ = some more → x.noCheckpoint = false → d.toNat % 64 = 0 →
          (auto = true → x.seq ≠ .empty) → let l := own ++ more
          (z.sectsHeld g l = false → orderRefuses c src s stNounBounds)
          ∧ (z.sectsHeld g l = true → z.sealClass g l = none → orderRefuses c src s stCfgInvalid)
          ∧ (∀ cls party, z.sectsHeld g l = true → z.sealClass g l = some (cls, party) → mode = 1 → cls ≠ 0 →
              x.parties ≤ rcp.toNat → orderRefuses c src s stCfgInvalid)
          ∧ (∀ cls party, z.sectsHeld g l = true → z.sealClass g l = some (cls, party) → (mode = 1 → cls ≠ 0 → rcp.toNat < x.parties) →
            let rec_ := s.hostRead p.toNat 512
            (z.approved g cls party mode.toNat rcp.toNat rec_ raw = false → orderRefuses c src s stNotPermitted)
            ∧ (z.approved g cls party mode.toNat rcp.toNat rec_ raw = true →
                (s.protected_ g = true ∧ (s.ideAt (ideOf g)).st ≠ .secure → orderRefuses c src s stKeyRetired)
                ∧ (s.protected_ g = false ∨ (s.ideAt (ideOf g)).st = .secure →
                  (n.toNat < containerSize l →
                      exec c s = .next (z.finish s c stCfgInvalid 0 (BitVec.ofNat 64 (containerSize l))))
                  ∧ (containerSize l ≤ n.toNat →
                      let (hcls, hparty) := if cls = 0 ∨ mode = 2 then (0, 0) else if mode = 1 then (1, rcp.toNat) else (cls, party)
                      let y := if hcls = 0 then z else { z with freeCtr := s.freeCtr + 1 }
                      let cnonce := if hcls = 0 then List.replicate 32 0 else bytes256 (Config.random s.freeCtr)
                      let key := z.sealKey g hcls hparty cnonce
                      let head := sealHead hcls hparty auto x.committed.toNat l.length x.sealMeas cnonce
                      let q := State.sealAll g key head l.zipIdx y
                      let bytes := head ++ sealTable l ++ tableTag key head (sealTable l) ++ q.2.2
                      q.2.1 = stOK → orderDone c s fun (u : State) =>
                        (u.hostRead d.toNat bytes.length = bytes
                        ∧ (∀ k, k < d.toNat ∨ d.toNat + bytes.length ≤ k → u.hostMem.read k = s.hostMem.read k)
                        ∧ u.mem = s.mem ∧ u.lots = s.lots ∧ u.blocks = s.blocks))))))))
  ∧ (∀ (src : OrderSrc) (h : HerdId) (tag : W32) (a : W64) (n : BitVec 40) (s : State),
      s.orderOpen src h tag (.checkpointRestore a n) → (s.herd (orderHerd src h)).commit ≠ .recording →
      (let c := Instr.checkpointRestore src h tag a n
       let g := orderHerd src h
       let x := s.herd g
       let z := s.issued src
       let m := s.hostRead a.toNat n.toNat
       let w := fieldLe m 4 4
       let cls := bits w 16 2
       let l := tableSects m
       let open_ := x.noCheckpoint = false ∧ (s.protected_ g = false ∨ (s.ideAt (ideOf g)).st = .secure)
       let party := bits w 18 3
       let key := z.sealKey g cls party (sliceBytes m 0x40 32)
       let head := m.take 128
       let tagGood := tableTag key head (sliceBytes m 128 (32 * l.length)) = sliceBytes m (128 + 32 * l.length) 16
       let keyed := (cls = 0 ∨ x.secure = true) ∧ (cls = 1 → party < x.parties)
       (x.noCheckpoint = true → orderRefuses c src s stCfgInvalid)
       ∧ (x.noCheckpoint = false → s.protected_ g = true → (s.ideAt (ideOf g)).st ≠ .secure → orderRefuses c src s stKeyRetired)
       ∧ (open_ → containerBad m n.toNat = true → orderRefuses c src s stCfgInvalid)
       ∧ (open_ → containerBad m n.toNat = false → cls = 1 → x.secure = true → x.parties ≤ party → orderRefuses c src s stCfgInvalid)
       ∧ (open_ → containerBad m n.toNat = false → keyed → ¬tagGood → orderRefuses c src s stCfgInvalid)
       ∧ (open_ → containerBad m n.toNat = false → (cls = 0 ∧ x.secure = true ∧ tagGood) ∨ (cls ≠ 0 ∧ x.secure = false) →
          orderRefuses c src s stNotPermitted)
       ∧ (open_ → containerBad m n.toNat = false → keyed → tagGood → (cls = 0 ↔ x.secure = false) →
          (x.secure = true → digest ((x.form.map (·.meas)).getD []) ≠ sliceBytes m 0x20 32 → orderRefuses c src s stMeasMismatch)
          ∧ ((x.secure = true → digest ((x.form.map (·.meas)).getD []) = sliceBytes m 0x20 32) → bit w 21 = false →
              z.sectsHeld g l = false ∨ (cls = 1 ∧ ∃ q ∈ l, z.sectParty q ≠ some party) → orderRefuses c src s stNounBounds)
          ∧ ((x.secure = true → digest ((x.form.map (·.meas)).getD []) = sliceBytes m 0x20 32) →
              bit w 21 = false → z.sectsHeld g l = true → ∀ q k b, l = [q] → q.kind = 1 → q.bytes ≤ chunkBytes →
              (cls = 1 → z.sectParty q = some party) →
              s.lotOk g k = true → lotAddr k 0 ≤ q.addr → q.addr + q.bytes ≤ lotAddr k lotBytes → s.repair.lotLost = {} →
              openPiece key (sealIv 0 0) head (sliceBytes m 176 q.bytes) (sliceBytes m (176 + q.bytes) 16) = some b →
              orderDone c s fun (u : State) =>
              ((∀ i, i < q.bytes → u.mem.read (q.addr + i) = b.getD i 0)
              ∧ (∀ i, i < q.addr ∨ q.addr + q.bytes ≤ i → u.mem.read i = s.mem.read i)
              ∧ { u with mem := s.mem, meters := s.meters, meterDue := s.meterDue } = z))
          ∧ ((x.secure = true → digest ((x.form.map (·.meas)).getD []) = sliceBytes m 0x20 32) →
              bit w 21 = false → l.length = 1 → (∀ q ∈ l, q.kind = 7 ∧ (cls = 1 → z.sectParty q = some party)) →
              z.sectsHeld g l = true → ∀ b,
              openPiece key (sealIv 0 0) head (sliceBytes m 176 16) (sliceBytes m 192 16) = some b →
              orderDone c s fun (u : State) =>
              ((u.herd g).committed.toNat = fieldLe b 0 6 ∧ (u.herd g).commitValid = bit (fieldLe b 6 1) 0
              ∧ (u.herd g).present = bit (fieldLe b 6 1) 1 ∧ (u.herd g).ledgerCount.toNat = fieldLe b 8 4 % 2 ^ 20
              ∧ { u.herd g with committed := x.committed, commitValid := x.commitValid, present := x.present
                                ledgerCount := x.ledgerCount, rings := x.rings } = x
              ∧ (∀ j, j ≠ g → u.herd j = z.herd j) ∧ u.mem = s.mem)))))
  ∧ (∀ (src : OrderSrc) (h : HerdId) (tag : W32) (d : W64) (n : W32) (hr : Bool) (k : W256) (s : State),
      s.orderOpen src h tag (.attest d n hr k) →
      (let c := Instr.attest src h tag d n hr k
       let g := orderHerd src h
       let who := if hr then some g else none
       let len := reportLength (s.reportSlots who).length
       let dark := ∃ v, src = .ring (.vf v) ∧ s.protected_ v = true ∧ (s.ideAt (ideOf v)).st ≠ .secure
       (d.toNat % 64 ≠ 0 → orderRefuses c src s stCfgInvalid)
       ∧ (d.toNat % 64 = 0 → s.serow.tampered = true → hr = false ∨ s.herdExists g = true → orderRefuses c src s stKeyRetired)
       ∧ (d.toNat % 64 = 0 → hr = false ∨ s.herdExists g = true → s.serow.tampered = false → ¬dark → s.signGone = false →
          s.canSign = false ∨ s.canReport src = false → ∃ t, exec c s = .next t
          ∧ t.tahr = { s.tahr with waitAttests := s.tahr.waitAttests ++ [s.orderAt src h tag (.attest d n hr k)] }
          ∧ { t with tahr := s.tahr, ics := s.ics } = s.issued src)
       ∧ (d.toNat % 64 = 0 → hr = false ∨ s.herdExists g = true → s.serow.tampered = false → ¬dark → s.signGone = false →
          s.canSign = true → s.canReport src = true →
          (n.toNat < len → exec c s = .next ((s.issued src).finish s c stCfgInvalid 0 (BitVec.ofNat 64 len)))
          ∧ (len ≤ n.toNat → ∃ u : State, exec c s = .next (u.finish s c stOK 0 (BitVec.ofNat 64 len))
              ∧ (let r := ((s.issued src).report who (bytes256 k)).2
                 u.hostRead d.toNat r.length = r
                 ∧ (∀ i, i < d.toNat ∨ d.toNat + r.length ≤ i → u.hostMem.read i = s.hostMem.read i))
              ∧ { u with hostMem := s.hostMem, tahr := s.tahr, slots := s.slots } = s.issued src))))

/-- The stages of a revocation (R369, R370, R414, Tables 12.9 and 12.11): Zeroize takes every key slot of the herd but its stream's,
its formation secrets and its commit entry, and abandons the sweeps of its windows; Last entries writes what the VF is still owed; Stream off drops the stream and
its keys; Clear clears its blocks with their scratch, releases its lots and frees its windows; Free leaves the herd number ABSENT and
completes the order with the time from Execute to Stream off.
Where the spec leaves a point of this open it follows the model's choice (log entries 96 and 106). -/
def Obligations.RevocationGoesThroughItsStages : Prop :=
  (∀ (h : HerdId) (s : State), s.canonical = true → s.pins.pwrGood = true → s.atStage h .executed = true →
      ∃ t, exec (.revokeZeroize h) s = .next t
      ∧ t.atStage h .zeroized = true
      ∧ (∀ n, (s.slot n).owner = 2 → (s.slot n).herd.toNat = h.val → (s.slot n).type ≠ 6 → t.slot n = {})
      ∧ (∀ n, (s.slot n).owner ≠ 2 ∨ (s.slot n).herd.toNat ≠ h.val ∨ (s.slot n).type = 6 → t.slot n = s.slot n)
      ∧ (∀ w, s.holdsWin h w = true → t.win w = { s.win w with
          slot0 := none, slot1 := none, waiting := [], epochSt := 0, sweepDue := false })
      ∧ (∀ w, s.holdsWin h w = false → t.win w = s.win w)
      ∧ (∀ f, (t.herd h).form = some f → f.fnonce = 0 ∧ f.meas = [] ∧ f.pkSlots = [])
      ∧ t.tahr = { s.tahr with commits := t.tahr.commits } ∧ t.tahr.commits.get none h.val = none
      ∧ (∀ j, j ≠ h → t.herd j = s.herd j)
      ∧ { t with slots := s.slots, wins := s.wins, herds := s.herds, tahr := s.tahr } = s)
  ∧ (∀ (h : HerdId) (s : State), s.pins.pwrGood = true → s.atStage h .zeroized = true → ∃ t, exec (.revokeLastEntries h) s = .next t
      ∧ t.atStage h .lastWritten = true
      ∧ (∀ r, (t.herd h).rev = some r → r.lasts = [] ∧ ∀ f ∈ r.refs, f.isVf = false)
      ∧ (∀ j, j ≠ h → t.herd j = s.herd j) ∧ { t with herds := s.herds, hostMem := s.hostMem } = s)
  ∧ (∀ (h : HerdId) (s : State), s.canonical = true → s.pins.pwrGood = true → s.atStage h .lastWritten = true →
      ∃ t, exec (.revokeStreamOff h) s = .next t
      ∧ t.atStage h .streamOff = true ∧ (∀ r, (t.herd h).rev = some r → r.tOff = s.tb.now)
      ∧ (t.herd h).keysGone = true ∧ (t.herd h).rings.heldCpl = [] ∧ (t.herd h).rings.heldEvt = []
      ∧ t.ideAt (ideOf h) = {} ∧ (∀ k, k ≠ ideOf h → t.ideAt k = s.ideAt k)
      ∧ (∀ n, (s.slot n).type = 6 → (s.slot n).index.toNat = (ideOf h).val → t.slot n = {})
      ∧ (∀ j, j ≠ h → t.herd j = s.herd j) ∧ { t with herds := s.herds, ide := s.ide, slots := s.slots } = s)
  ∧ (∀ (h : HerdId) (s : State), s.pins.pwrGood = true → s.atStage h .streamOff = true → (s.herd h).run = none →
      (s.herd h).tail = none → s.testing h = false →
      (∀ w, s.holdsWin h w = true → (s.win w).rotations = []) → ∃ t, exec (.revokeClear h) s = .next t
      ∧ t.atStage h .cleared = true
      ∧ (∀ b ∈ s.blocksOf h, t.block b = { fenced := (s.block b).fenced, fault := (s.block b).fault }
          ∧ ∀ i, i < lotBytes → t.mem.read (scratchAddr b.val 0 + i) = 0)
      ∧ (∀ b : BlockId, b ∉ s.blocksOf h → t.block b = s.block b)
      ∧ (∀ a, (∀ b ∈ s.blocksOf h, a < scratchAddr b.val 0 ∨ scratchAddr b.val 0 + lotBytes ≤ a) →
          t.mem.read a = s.mem.read a)
      ∧ (∀ n, (∀ w, s.holdsWin h w = true → (s.win w).slot0 ≠ some n ∧ (s.win w).slot1 ≠ some n) → t.slot n = s.slot n)
      ∧ { t.herd h with rev := (s.herd h).rev } = s.herd h
      ∧ (∀ l, s.holdsLot h l = true → (t.lot l).clearing = true) ∧ (∀ l, s.holdsLot h l = false → t.lot l = s.lot l)
      ∧ (∀ w, s.holdsWin h w = true → t.win w = {}) ∧ (∀ w, s.holdsWin h w = false → t.win w = s.win w)
      ∧ (∀ j, j ≠ h → t.herd j = s.herd j)
      ∧ { t with blocks := s.blocks, herds := s.herds, lots := s.lots, mem := s.mem, meters := s.meters, slots := s.slots
                 wins := s.wins } = s)
  ∧ (∀ (h : HerdId) (v : Revocation) (s : State), s.pins.pwrGood = true → (s.herd h).rev = some v → v.stage = .cleared →
      (∀ e ∈ s.lots.entries, e.2.assigned = false ∨ e.2.herd.toNat ≠ h.val) →
      ∃ u : State, u.herd h = { rings := (s.herd h).rings, keysGone := true } ∧ (∀ j, j ≠ h → u.herd j = s.herd j)
      ∧ { u with herds := s.herds } = s
      ∧ (v.refs = [] → exec (.revokeFree h) s = .next u)
      ∧ (∀ r, v.refs = [r] → r.isVf = false → exec (.revokeFree h) s = .next (u.complete r stOK 0
          (BitVec.ofNat 64 ((v.tOff.toNat - v.t0.toNat) % 2 ^ 32)))))

/-- TAHR_REQ_GO, FORM and PARTY_REVOKE (R356, R357, R358, R359, R422, R451, Tables 12.3 to 12.6 and 12.15): a write of GO hands Tahr the
record at the request address, unless one is in hand; Tahr refuses a formation while a debug right is open, outside
FIELDED, while TAMPERED, for a malformed record, for resources that cannot be given, for a party whose check fails and
for measurements that differ; else it draws FNONCE and issues the herd's `HERD_CREATE`. While the entropy source fails the record
waits. A revocation needs the token of a party whose key is held.
Where the spec leaves a point of this open it follows the model's choice (log entries 99, 108 and 137). -/
def Obligations.TahrAnswersRequestRecords : Prop :=
  (∀ (hd : HostData) (s : State), s.reach .pf = true → ∃ t, exec (.tahrReqGo hd) s = .next t
      ∧ (s.tahr.reqBusy = true → t.cfg = { s.cfg with lockedWrite := true } ∧ t.tahr = s.tahr)
      ∧ (s.tahr.reqBusy = false →
          let a := s.tahr.reqAddr.toNat
          let p := s.hostPlace hd
          let d := p.hostRead a 64
          (fieldLe d 0 4 ≠ 0x46564652 → t.tahr.reqBusy = false ∧ t.tahr.reqResult = stCfgInvalid ∧ t.tahr.reqDetail = 0)
          ∧ (fieldLe d 0 4 = 0x46564652 → fieldLe d 4 1 ≠ 1 → fieldLe d 4 1 ≠ 2 →
              t.tahr.reqBusy = false ∧ t.tahr.reqResult = stCfgInvalid ∧ t.tahr.reqDetail = 4)
          ∧ (fieldLe d 0 4 = 0x46564652 → fieldLe d 4 1 = 1 → t.tahr.reqBusy = true
              ∧ t.tahr.request = some { bytes := p.hostRead a (64 + 1792 * recParties d) })
          ∧ (fieldLe d 0 4 = 0x46564652 → fieldLe d 4 1 = 2 → t.tahr.reqBusy = true ∧ t.tahr.request = some { bytes := d })
          ∧ t.tahr.reqHerd.toNat = fieldLe d 5 1 % 32 ∧ t.cfg = s.cfg ∧ t.hostMem = p.hostMem)
      ∧ { t with tahr := s.tahr, cfg := s.cfg, hostMem := s.hostMem, pfRings := s.pfRings } = s)
  ∧ (∀ (q : Request) (s : State), s.pins.pwrGood = true → s.tahr.request = some q → q.issued = false → s.tahr.st = 3 →
      fieldLe q.bytes 4 1 = 1 → ∃ t, exec .form s = .next t
      ∧ (s.tahr.entropyBad = true → t = s)
      ∧ (s.tahr.entropyBad = false → let r := q.bytes
         let h := recHerd r
         let n := recParties r
         let groups := BitVec.ofNat 48 (fieldLe r 8 6)
         let span := BitVec.ofNat 15 (fieldLe r 16 2)
         let ends := fun (st : Status) (d : W32) =>
           t = { s with tahr := { s.tahr with request := none, reqBusy := false, reqResult := st, reqDetail := d } }
         (s.lc.rights ≠ 0 → ends stNotPermitted 0xFFFF_FF02)
         ∧ (s.lc.rights = 0 → s.serow.tampered = true ∨ s.lcState ≠ 2 → ends stNotPermitted 0)
         ∧ (s.lc.rights = 0 → s.serow.tampered = false → s.lcState = 2 →
            (∀ o, formAt r = some o → ends stCfgInvalid (BitVec.ofNat 32 o))
            ∧ (∀ o, formAt r = none → s.formRefused h groups span = some o → ends stCfgInvalid (BitVec.ofNat 32 o))
            ∧ (formAt r = none → s.formRefused h groups span = none →
              (s.freeSlots.length < n + 1 → ends stCfgInvalid 0)
              ∧ (n < s.freeSlots.length →
                (∀ i, i < n → s.partySecret r i = none → (∀ j, j < i → s.partySecret r j ≠ none) →
                    ends stNotPermitted (BitVec.ofNat 32 i))
                ∧ ((∀ i, i < n → s.partySecret r i ≠ none) →
                  (∀ i, i < n → recMeas r i ≠ recMeas r 0 → (∀ j, j < i → recMeas r j = recMeas r 0) →
                      ends stMeasMismatch (BitVec.ofNat 32 i))
                  ∧ ((∀ i, i < n → recMeas r i = recMeas r 0) →
                      (∃ f o, t.tahr.form = some (h, f) ∧ f.n = n ∧ f.meas = recMeas r 0 ∧ f.seq = 0
                        ∧ f.fnonce = Config.random s.freeCtr ∧ f.pkSlots = s.freeSlots.take n
                        ∧ t.tahr.orders = s.tahr.orders ++ [o] ∧ o.src = .tahr ∧ o.herd = h ∧ o.tag = 1
                        ∧ o.op = .herdCreate groups span)
                      ∧ t.tahr.request = some { q with issued := true } ∧ t.tahr.reqBusy = s.tahr.reqBusy
                      ∧ (∀ k, k ∉ s.freeSlots.take (n + 1) → t.slot k = s.slot k)
                      ∧ { t with tahr := s.tahr, slots := s.slots, freeCtr := s.freeCtr, pfRings := s.pfRings
                                 ics := s.ics } = s)))))))
  ∧ (∀ (q : Request) (s : State), s.pins.pwrGood = true → s.tahr.request = some q → q.issued = false → s.tahr.st = 3 →
      fieldLe q.bytes 4 1 = 2 → ∃ t, exec .partyRevoke s = .next t
      ∧ (s.tokenOk q.bytes = false → t = { s with tahr := { s.tahr with
          request := none, reqBusy := false, reqResult := stNotPermitted, reqDetail := 0 } })
      ∧ (s.tokenOk q.bytes = true → ∃ o : Order, o.src = .tahr ∧ o.herd = recHerd q.bytes ∧ o.tag = 2 ∧ o.op = .herdRevoke
          ∧ t.tahr = { s.tahr with orders := s.tahr.orders ++ [o], request := some { q with issued := true } }
          ∧ { t with tahr := s.tahr, pfRings := s.pfRings, ics := s.ics } = s))

/-- ORD_TAIL, CPL_HEAD, EVT_HEAD, RING_EN_WRITE and MSIX_HOLDOFF_EXPIRY (R331, R338, R339, R341, R342, R531): a doorbell value of N or
above sets RING_ERR, is reported, and moves nothing; a smaller one is the ring's new tail or head. A completion held is written
as soon as its ring has room and its TLPs can be sent, and an `EVENTS_LOST` entry due is the first event written. EN set from
0 starts a new first pass. A hold-off that ends sends the vector that is due. A function that cannot reach its ring does nothing.
ORDER_FETCH and BATCH_DISPATCH (R337, R339, R343, R345, R346, Tables 11.10 and 11.17): an order is fetched once, in ring order, while a
completion slot can be reserved for it. A batch stands in order of class, source and ring position. A batch of one malformed
order completes it `CFG_INVALID`, and one of a refused order completes it with the refusal; an order that nothing refuses
executes. An order that names a herd which a `HERD_REVOKE` of its own batch has revoked completes `SUPERSEDED`.
Where the spec leaves a point of this open it follows the model's choice (log entries 88, 92 and 115). -/
def Obligations.DoorbellsFetchAndBatchOrders : Prop :=
  (∀ (r : RingId) (v : W32) (hd : HostData) (s : State), s.barOpen (ringWho r) = false →
      exec (.ordTail r v hd) s = .next (s.hostPlace hd) ∧ exec (.cplHead r v) s = .next s
      ∧ exec (.evtHead r v) s = .next s ∧ ∀ w on, exec (.ringEnWrite r w on) s = .next s)
  ∧ (∀ (r : RingId) (v : W32) (hd : HostData) (s : State), s.barOpen (ringWho r) = true →
      (let x := s.ring r
       let d := v.setWidth 16
       let p := s.touchStream (ringWho r) .active
       (x.ord.size ≤ d.toNat → doorRefused (.ordTail r v hd) r 0 d s (p.hostPlace hd))
       ∧ (x.cpl.size ≤ d.toNat → doorRefused (.cplHead r v) r 4 d s p)
       ∧ (x.evt.size ≤ d.toNat → doorRefused (.evtHead r v) r 8 d s p)
       ∧ (d.toNat < x.ord.size → ∃ t, exec (.ordTail r v hd) s = .next t ∧ p.onlyRings t
          ∧ t.ring r = { x with ord := { x.ord with door := d } } ∧ t.hostMem = (s.hostPlace hd).hostMem)
       ∧ (d.toNat < x.cpl.size → ∃ t, exec (.cplHead r v) s = .next t ∧ p.onlyRings t
          ∧ (t.ring r).cpl.door = d ∧ (t.ring r).ord = x.ord ∧ (t.ring r).evt = x.evt
          ∧ (∃ m, (t.ring r).heldCpl = x.heldCpl.drop m
              ∧ (m < x.heldCpl.length → s.ringReach r = false ∨ (t.ring r).cpl.room = false))
          ∧ (x.heldCpl = [] → t.ring r = { x with cpl := { x.cpl with door := d } } ∧ t.hostMem = s.hostMem))
       ∧ (d.toNat < x.evt.size → ∃ t, exec (.evtHead r v) s = .next t ∧ p.onlyRings t
          ∧ (t.ring r).evt.door = d ∧ (t.ring r).ord = x.ord ∧ (t.ring r).cpl = x.cpl
          ∧ (x.heldEvt = [] → x.lostSince = 0 →
              t.ring r = { x with evt := { x.evt with door := d } } ∧ t.hostMem = s.hostMem)
          ∧ (x.heldEvt = [] → x.lostSince ≠ 0 → s.ringReach r = true → ({ x.evt with door := d } : Ring).room = true →
              (t.ring r).lostSince = 0 ∧ (t.ring r).evt.idx.toNat = (x.evt.idx.toNat + 1) % x.evt.size % 2 ^ 16
              ∧ t.hostRead (x.evt.base.toNat + 32 * x.evt.idx.toNat) 16
                = leBytes 4 (0x0009 + (if x.evt.phase then 2 ^ 31 else 0)) ++ leBytes 8 s.tb.now.toNat
                  ++ leBytes 4 x.lostSince))))
  ∧ (∀ (r : RingId) (w : Fin 3) (on : Bool) (s : State), s.barOpen (ringWho r) = true →
      ∃ t, exec (.ringEnWrite r w on) s = .next t ∧ (s.touchStream (ringWho r) .active).onlyRings t
      ∧ (let x := s.ring r
         let set := fun (q : Ring) => if on && !q.en then { q with en := true, idx := 0, door := 0, phase := true }
           else { q with en := on }
         (w = 0 → t.ring r = { x with ord := set x.ord } ∧ t.hostMem = s.hostMem)
         ∧ (w = 1 → x.heldCpl = [] → t.ring r = { x with cpl := set x.cpl } ∧ t.hostMem = s.hostMem)
         ∧ (w = 2 → x.heldEvt = [] → x.lostSince = 0 → t.ring r = { x with evt := set x.evt } ∧ t.hostMem = s.hostMem)
         ∧ (∀ c, w = 1 → x.heldCpl = [c] → on = true → x.cpl.en = false → x.cpl.log2 ≠ 0 → s.ringReach r = true →
             (t.ring r).heldCpl = [] ∧ t.hostRead x.cpl.base.toNat 16 = c.bytes true)))
  ∧ (∀ (r : RingId) (s : State), s.pins.pwrGood = true → (s.ring r).vecBusy = true →
      ∃ t, exec (.msixHoldoffExpiry r) s = .next t ∧ s.onlyRings t ∧ t.hostMem = s.hostMem ∧ t.ics = s.ics
      ∧ (let x := s.ring r
         (x.vecDue = false → t.ring r = { x with vecBusy := false })
         ∧ (x.vecDue = true → x.masked = true →
             t.ring r = { x with vecDue := false, pend := true, vecBusy := false })
         ∧ (x.vecDue = true → x.masked = false →
             t.ring r = { x with vecDue := false, vecSent := x.vecSent + 1, vecBusy := x.holdoffUs != 0 })))
  ∧ (∀ (r : RingId) (s : State), s.reach (ringWho r) = true → s.pins.pwrGood = true → s.ringReach r = true →
        (∀ h, r = .vf h → (s.herd h).st = .live) →
        (let x := s.ring r
         x.ord.en = true → x.cpl.en = true → x.ord.idx ≠ x.ord.door →
         x.cpl.unread + x.reserved + x.heldCpl.length + 1 ≤ x.cpl.size - 1 →
         x.fences = [] → (∀ f ∈ x.fetched, fieldLe f.bytes 0 1 ≠ 1) →
         ∃ t, exec (.orderFetch r) s = .next t ∧ (s.touchStream (ringWho r) .active).onlyRings t ∧ t.hostMem = s.hostMem
           ∧ t.ring r = { x with
              ord := { x.ord with idx := BitVec.ofNat 16 ((x.ord.idx.toNat + 1) % x.ord.size) }
              fetched := x.fetched ++ [{ bytes := s.hostRead (x.ord.base.toNat + 64 * x.ord.idx.toNat) 64, gen := x.gen }]
              reserved := x.reserved + 1 }
           ∧ ∀ q, q ≠ r → t.ring q = s.ring q))
  ∧ (∀ s : State, s.batchItems.Pairwise fun a b => a.rank < b.rank ∨ (a.rank = b.rank ∧ a.srcRank ≤ b.srcRank))
  ∧ (∀ (e : BatchItem) (s : State), s.pins.pwrGood = true → s.quiet → s.batchItems = [e] →
      (let o := { e.order with seq := s.orderSeq, batch := s.orderSeq + 1 }
       let u := { s.takeItems with orderSeq := s.orderSeq + 1 }
       (e.ok = false → exec .batchDispatch s = .next ((u.done (refOf o) stCfgInvalid).icNote))
       ∧ (∀ st, e.ok = true → s.orderRefused e.order = some st → exec .batchDispatch s = .next ((u.done (refOf o) st).icNote))
       ∧ (e.ok = true → s.orderRefused e.order = none → exec .batchDispatch s = .next ((u.execute o []).settle.icNote))))
  ∧ (∀ (a b : BatchItem) (s : State), s.pins.pwrGood = true → s.quiet → s.batchItems = [a, b] → a.ok = true → b.ok = true →
      a.order.op = .herdRevoke → s.orderRefused a.order = none → b.order.herd = a.order.herd → namesHerd b.order = true →
      s.mayIssue b.order = true → reservedOp b.order.op = false →
      (let u := ({ s.takeItems with orderSeq := s.orderSeq + 1 }).execute
         { a.order with seq := s.orderSeq, batch := s.orderSeq + 1 } []
       let v := { u with orderSeq := s.orderSeq + 2 }.done (refOf { b.order with seq := s.orderSeq + 1 }) stSuperseded
       exec .batchDispatch s = .next v.settle.icNote ∧ (v.herd a.order.herd).st = .revoking))

/-- DL_UP, DL_DOWN and HOST_LINK_TIMEOUT (R327, R334): DL_Down takes every IDE stream to DISABLED with its keys zeroized and
ends the copies with a host end of herds whose stream was lost, each herd's in its order; the others with a host end wait for the
timeout. DL_Up, at a rate and width that Table 11.3 reports, and of a unit whose TEST lands have not left it dark (R504), writes the completions held, in their order, as far as the rings
have room.
VF_FLR, PF_FLR and VF_ENABLE_WRITE (R329, R332, R532): a function-level reset clears the function's ring registers and
discards what has not been written; that of a VF quiesces its live herd and drops the herd's copies with a host end; that
of the PF clears VF Enable and drops its own such copies, and the herds persist. VF Enable takes 1 only once a configuration is
committed, and NumVFs changes only while it is 0.
Where the spec leaves a point of this open it follows the model's choice (log entries 91 and 104). -/
def Obligations.LinkLossAndFunctionResets : Prop :=
  (∀ (v : BitVec 3) (w : BitVec 5) (s : State), s.pins.pwrGood = true → s.linkUp = false → s.pins.perst = false →
      s.quiet → s.tahr.waitAttests = [] → s.tahr.waitReports = [] →
      (linkTrains v w = false ∨ (s.tahr.st = 4 ∧ s.tahr.fail = 9) → exec (.dlUp v w) s = .next s)
      ∧ (linkTrains v w = true → ¬(s.tahr.st = 4 ∧ s.tahr.fail = 9) → ∃ t, exec (.dlUp v w) s = .next t ∧ t.linkUp = true ∧ t.linkSpeed = v ∧ t.linkWidth = w
      ∧ s.onlyRings { t with linkUp := s.linkUp, linkSpeed := s.linkSpeed, linkWidth := s.linkWidth } ∧ t.ics = s.ics
      ∧ (∀ r, ((s.ring r).heldCpl = [] → (s.ring r).heldEvt = [] → (s.ring r).lostSince = 0 → t.ring r = s.ring r)
          ∧ ∃ m, (t.ring r).heldCpl = (s.ring r).heldCpl.drop m
            ∧ (m < (s.ring r).heldCpl.length → t.ringReach r = false ∨ (t.ring r).cpl.room = false))))
  ∧ (∀ s : State, s.canonical = true → s.pins.pwrGood = true → s.linkUp = true → s.quiet → ∃ t, exec .dlDown s = .next t
      ∧ t.linkUp = false ∧ t.linkSpeed = 0 ∧ t.linkWidth = 0
      ∧ (∀ k, (t.ideAt k).st = .disabled)
      ∧ copiesStopped stKeyRetired (fun j => j.hostEnd && (s.ideAt (ideOf j.herd)).st != .disabled) s t
      ∧ ((∀ j ∈ s.copies, j.hostEnd = false) →
          (∀ k n, (s.ideAt k).st ≠ .disabled → (s.slot n).type = 6 → (s.slot n).index.toNat = k.val → t.slot n = {})
          ∧ s.onlyRings { t with
          ide := s.ide, slots := s.slots, linkUp := s.linkUp, linkSpeed := s.linkSpeed, linkWidth := s.linkWidth }))
  ∧ (∀ s : State, s.pins.pwrGood = true → s.linkUp = false → s.quiet → ∃ t, exec .hostLinkTimeout s = .next t
      ∧ copiesStopped stCfgInvalid CopyJob.hostEnd s t ∧ t.ide = s.ide ∧ t.lots = s.lots
      ∧ ((∀ j ∈ s.copies, j.hostEnd = false ∨ j.status ≠ none) → t = s))
  ∧ (∀ (h : HerdId) (s : State), s.reach (.vf h) = true → s.quiet → ∃ t, exec (.vfFlr h) s = .next t
        ∧ ((s.herd h).st = .live → t.copies = s.copies.filter fun j => !(j.herd == h && j.hostEnd))
        ∧ ((s.herd h).st ≠ .live → t.copies = s.copies)
        ∧ (t.herd h).st = (s.herd h).st ∧ (t.herd h).groups = (s.herd h).groups ∧ t.lots = s.lots
        ∧ ((s.herd h).st ≠ .live ∨ (s.herd h).seq = .empty ∨ (s.herd h).seq = .ready →
            (∀ j ∈ s.copies, j.herd = h → j.hostEnd = false) →
            t.herd h = { s.herd h with
              rings := { gen := (s.herd h).rings.gen + 1, fetched := (s.herd h).rings.fetched } }
            ∧ (∀ k, k ≠ h → t.herd k = s.herd k)
            ∧ { t with herds := s.herds, heldLow := s.heldLow, latchedHigh := s.latchedHigh, ics := s.ics, meters := s.meters
                       meterDue := s.meterDue, d3hot := s.d3hot } = s)
        ∧ (∀ r, (s.herd h).st = .live → (s.herd h).seq = .running → (s.herd h).run = some r →
            (∀ j ∈ s.copies, j.herd = h → j.hostEnd = false) → (t.herd h).seq = .stopping ∧ ∃ q, (t.herd h).run = some q
            ∧ q.quiesces = r.quiesces ++ [{ src := .ring (.vf h), tag := 0, gen := (s.herd h).rings.gen, herd := some h }]))
  ∧ (∀ s : State, s.reach .pf = true → s.quiet → ∃ t, exec .pfFlr s = .next t ∧ t.vfEnable = false
      ∧ t.copies = s.copies.filter (fun j => !(j.ref.isPf && j.hostEnd)) ∧ t.numVfs = s.numVfs
      ∧ (∀ h : HerdId, (t.herd h).st = (s.herd h).st ∧ (t.herd h).seq = (s.herd h).seq ∧ (t.herd h).rings = (s.herd h).rings)
      ∧ ((∀ j ∈ s.copies, j.ref.isPf = true → j.hostEnd = false) →
          (∀ k, t.ring (.pf k) = { gen := (s.ring (.pf k)).gen + 1, fetched := (s.ring (.pf k)).fetched })
          ∧ { t with pfRings := s.pfRings, heldLow := s.heldLow, latchedHigh := s.latchedHigh, ics := s.ics
                     vfEnable := s.vfEnable, doeError := s.doeError, d3hot := s.d3hot } = s))
  ∧ (∀ (n : BitVec 16) (on : Bool) (s : State),
      (s.reach .pf = true → exec (.vfEnableWrite n on) s = .next { s with
        numVfs := if s.vfEnable then s.numVfs else n, vfEnable := on && decide (s.cfg.st = 2) })
      ∧ (s.reach .pf = false → exec (.vfEnableWrite n on) s = .next s))

/-- REPORT_REQ, KEY_OFFER, KEY_GO, KEY_STOP and IDE_INTEGRITY_FAIL (R325, R333, R335, R336, R422, R427, Tables 11.6 and 11.7): an offer that no check
refuses keys the named set with the six keys of R336 and answers CONFIRM; KEY_GO makes a keyed set active; KEY_STOP, and a TLP of a
SECURE stream that fails integrity, take the stream to DISABLED with both sets zeroized. A report waits while an alias leaf
is to come; a reserved message code is answered REFUSED, a discovery names the mailbox's object types (log entry 151), and an object
of a type that it does not carry sets its Error bit. A copy with a host end of a herd whose stream leaves DISABLED ends (R334).
The first TLP under a new active set zeroizes the old one: here a doorbell of a protected herd, and each DOE object for the link
stream (R336).
Where the spec leaves a point of this open it follows the model's choice (log entries 99, 107, 109, 148 and 151). -/
def Obligations.StreamsAreKeyedAndLost : Prop :=
  (∀ (doe code : BitVec 8) (nonce : W256) (s : State), s.reach .pf = true →
      let u := s.ideTouch 0
      (3 < doe.toNat → exec (.reportReq doe code nonce) s = .next { u with doeError := true })
      ∧ (doe = 0 → ∃ b, exec (.reportReq doe code nonce) s = .next { u with reply := b }
          ∧ (code = 0 → b = [1, 0, 0, 1])
          ∧ (1 ≤ code.toNat → code.toNat ≤ 3 → b = leBytes 2 Config.vendorId.toNat ++ leBytes 1 code.toNat
              ++ leBytes 1 ((code.toNat + 1) % 4)))
      ∧ (doe = 1 → code = 0 ∨ 8 ≤ code.toNat →
          exec (.reportReq doe code nonce) s = .next { u with reply := ideHeader 0x06 0 false ++ leBytes 4 1 })
      ∧ (doe = 2 ∨ doe = 3 ∨ (doe = 1 ∧ 2 ≤ code.toNat ∧ code.toNat < 8) → exec (.reportReq doe code nonce) s = .next u))
  ∧ (∀ (nonce : W256) (s : State), s.reach .pf = true →
      let u := s.ideTouch 0
      ∃ t, exec (.reportReq 1 1 nonce) s = .next t
      ∧ (u.canSign = true → t.reply = ideHeader 0x07 0 false ++ (u.report none (bytes256 nonce)).2)
      ∧ (u.canSign = false → u.signGone = true → t = { u with reply := ideHeader 0x06 0 false ++ leBytes 4 1 })
      ∧ (u.canSign = false → u.signGone = false →
          t = { u with tahr := { u.tahr with waitReports := u.tahr.waitReports ++ [nonce] } })
      ∧ { t with tahr := u.tahr, slots := u.slots, reply := u.reply } = u)
  ∧ (∀ (k : Fin 33) (set : Bool) (ct : List Byte) (salt : W256) (auth : Option W256) (s₀ : State), s₀.reach .pf = true →
      s₀.quiet →
      let s := s₀.ideTouch 0
      let kept := (s.ideAt k).st ≠ .disabled ∨ ∀ j ∈ s.copies, ideOf j.herd = k → j.hostEnd = false
      ∃ t, exec (.keyOffer k set ct salt auth) s₀ = .next t
      ∧ (let x := s.ideAt k
         let id := leBytes 1 k.val ++ leBytes 1 (if set then 1 else 0)
         let msg := ideHeader 0x02 k.val set ++ ct ++ bytes256 salt
         let refused := ct.length ≠ 1568 ∨ s.ideAuthOk k msg auth = false ∨ (x.st = .secure ∧ x.active = set)
           ∨ s.serow.tampered = true ∨ s.signGone = true ∨ (s.slot 11).valid = false
           ∨ (s.prkSlot k set = none ∧ s.freeSlots = [])
         let prk := hkdfExtract (bytes256 salt) (bytes256 (kemDecaps (s.slot 11).secret ct))
         (refused → t = { s with reply := ideHeader 0x06 k.val set ++ leBytes 4 1 })
         ∧ (¬refused → x.st = .disabled → copiesStopped stKeyRetired (fun j => j.hostEnd && decide (ideOf j.herd = k)) s t)
         ∧ (¬refused → kept → ∀ n, (s.prkSlot k set <|> s.freeSlots.head?) = some n →
              t.reply = ideHeader 0x03 k.val set ++ hmac (hkdfExpand prk (ascii "FV20-IDE-CONF" ++ id)) msg
              ∧ (t.ideAt k).st = (if x.st = .disabled then .keyed else x.st) ∧ (t.ideAt k).active = x.active
              ∧ (if set then (t.ideAt k).set0 = x.set0 else (t.ideAt k).set1 = x.set1)
              ∧ (∀ sub dir : Nat, sub < 3 → dir < 2 →
                  (if set then (t.ideAt k).set1 else (t.ideAt k).set0).getD (3 * dir + sub) 0
                    = word256 (hkdfExpand prk (ascii "FV20-IDE" ++ id ++ leBytes 1 sub ++ leBytes 1 dir)))
              ∧ (t.slot n).secret = prk ∧ (t.slot n).type = 6 ∧ (t.slot n).index.toNat = k.val ∧ (t.slot n).tenant = true
              ∧ (∀ m, m ≠ n → t.slot m = s.slot m) ∧ ∀ j, j ≠ k → t.ideAt j = s.ideAt j))
      ∧ (kept → { t with ide := s.ide, slots := s.slots, reply := s.reply } = s))
  ∧ (∀ (k : Fin 33) (set : Bool) (s₀ : State), s₀.reach .pf = true →
      let s := s₀.ideTouch 0
      ∃ t, exec (.keyGo k set) s₀ = .next t
      ∧ (let x := s.ideAt k
         let keyed := (if set then x.set1 else x.set0) ≠ []
         (x.st = .disabled ∨ ¬keyed → t = { s with reply := ideHeader 0x06 k.val set ++ leBytes 4 1 })
         ∧ (x.st ≠ .disabled → keyed → t.reply = ideHeader 0x06 k.val set ++ leBytes 4 0
              ∧ (x.st = .keyed → t.ideAt k = { x with st := .secure, active := set, both := false })
              ∧ (x.st = .secure → x.active ≠ set → t.ideAt k = { x with active := set, both := true })
              ∧ (x.st = .secure → x.active = set → t.ideAt k = x)))
      ∧ (∀ j, j ≠ k → t.ideAt j = s.ideAt j) ∧ s.onlyRings { t with ide := s.ide, reply := s.reply })
  ∧ (∀ (h : HerdId) (v : W32) (s : State), s.barOpen (.vf h) = true → s.protected_ h = true →
      (s.ideAt (ideOf h)).both = true → ∃ t, exec (.evtHead (.vf h) v) s = .next t
      ∧ (let k := ideOf h
         let x := s.ideAt k
         t.ideAt k = (if x.active then { x with set0 := [], both := false } else { x with set1 := [], both := false })
         ∧ (∀ n, s.prkSlot k (!x.active) = some n → t.slot n = {}) ∧ ∀ j, j ≠ k → t.ideAt j = s.ideAt j))
  ∧ (∀ (k : Fin 33) (s : State), s.canonical = true → s.reach .pf = true → s.quiet → ∃ t, exec (.keyStop k) s = .next t
      ∧ t.reply = ideHeader 0x06 k.val false ++ leBytes 4 0 ∧ streamGone k (s.ideTouch 0) t)
  ∧ (∀ (k : Fin 33) (s : State), s.canonical = true → s.pins.pwrGood = true → s.linkUp = true → s.quiet →
      (s.ideAt k).st = .secure → ∃ t, exec (.ideIntegrityFail k) s = .next t ∧ t.reply = s.reply ∧ streamGone k s t)

/-! ## Chapter 13: memory and link encryption -/

/-- LINE_READ and LINE_WRITE (R350, R375, R376, R380, R381, R390, R391, R394, Tables 13.3 and 13.7): an access that the admission rule
refuses touches nothing, one of a herd that is being revoked ends `HERD_REVOKED`, as does one of the debug mailbox without its right or while a secure herd exists; a line
never written reads as zeros; a line whose MAC is right reads as its decryption, and one whose MAC is wrong delivers nothing and
is counted; a line of an unverifiable subtree, of a fenced page or with an uncorrectable error delivers nothing. A whole line written under an open budget is read back as it was
written, and the bytes stored for it are its ciphertext and its MAC under the advanced minor counter; no other byte changes.
SWEEP_END, ADVANCE_SEND and ALIAS_READY (R384, R388, R403, R427, Table 13.5): at the end of a sweep the old key is zeroized
and its slot stays held, each rotation completes with the µs it took, and a sweep that is due starts under a fresh key. An
advance takes a stream to the next generation and tells the peer in a sealed CONTROL frame; with the last stream of the herd,
the link rotations complete. A further alias is certified while a DeviceID leaf is left.
Where the spec leaves a point of this open it follows the model's choice (log entries 2, 101, 102, 116, 125 and 137). -/
def Obligations.EncryptedLinesAndTheirSweeps : Prop :=
  (∀ (dbg : Bool) (h : HerdId) (w : WinId) (off st : Nat) (l : List Byte) (ev : List (Nat × Nat)) (bad : List Nat) (s : State),
      s.pins.pwrGood = true →
      (s.admits dbg h w off false = false →
        exec (.lineRead dbg h w off ev bad) s = .next { s with reply := [], lineStatus := stNounBounds })
      ∧ (s.admits dbg h w off true = false → st + l.length ≤ 64 →
        exec (.lineWrite dbg h w off st l ev bad) s = .next { s with lineStatus := stNounBounds })
      ∧ ((s.herd h).st ≠ .live → s.admits dbg h w off false = true →
        exec (.lineRead dbg h w off ev bad) s = .next { s with reply := [], lineStatus := stHerdRevoked })
      ∧ ((s.herd h).st ≠ .live → s.admits dbg h w off true = true → st + l.length ≤ 64 →
        exec (.lineWrite dbg h w off st l ev bad) s = .next { s with lineStatus := stHerdRevoked })
      ∧ (s.lc.rights = 0 ∨ (∃ k, s.herdExists k = true ∧ (s.herd k).secure = true) →
        s.admits true h w off false = false ∧ s.admits true h w off true = false))
  ∧ (∀ (dbg : Bool) (h : HerdId) (w : WinId) (off : Nat) (bad : List Nat) (v : BitVec 448) (s : State), s.pins.pwrGood = true →
      s.admits dbg h w off false = true → (s.herd h).st = .live → (s.win w).cache.get none (nodeKey 0 (pageOfOff off)) = some v →
      ∃ t, exec (.lineRead dbg h w off [] bad) s = .next t
      ∧ t.hbmBad = (s.hbmFail w bad).hbmBad
      ∧ (let x := s.win w
         let n := nodeMinor v (off % 4096 / 64)
         let a := x.phys off
         let ma := x.phys (macOff x.size off)
         let gives := fun (l : List Byte) (st : Status) => t.reply = l ∧ t.lineStatus = st
         let here := (∀ e ∈ x.waiting, e.1 ≠ off) ∧ x.blocked off false = false
         (∀ d q, x.waiting = q ++ [(off, d)] → gives d stOK)
         ∧ ((∀ e ∈ x.waiting, e.1 ≠ off) → x.blocked off false = true → gives [] stUnverifiable)
         ∧ (here → s.pageFenced a = true → gives [] stHwHbm)
         ∧ (here → n = 0 → s.pageFenced a = false → gives (List.replicate 64 0) stOK)
         ∧ (here → n ≠ 0 → s.pageFenced ma = true → gives [] stHwHbm)
         ∧ (here → n ≠ 0 → s.pageFenced a = false → s.pageFenced ma = false → a ∈ t.hbmBad →
              gives [] stIntegrityFail ∧ t.edgeAt 0 20 ∧ t.testOf (.hbmLine (BitVec.ofNat 28 (pageOf a))))
         ∧ (∀ ke km, here → n ≠ 0 → s.pageFenced a = false → s.pageFenced ma = false → a ∉ t.hbmBad →
              s.winKeys x (s.lineEpoch.get false a) = some (ke, km) →
              (let m := lineMac km (lineBlock (off / 64) (nodeMajor v) n true 0) (s.hbmLine a)
               (m = s.mem.readBytes ma 8 → gives (lineCrypt ke (off / 64) (nodeMajor v) n (s.hbmLine a)) stOK
                  ∧ t.macFail = s.macFail ∧ t.ics = s.ics ∧ t.repair = s.repair)
               ∧ (m ≠ s.mem.readBytes ma 8 → gives [] stIntegrityFail ∧ t.macFail = satAdd s.macFail 1 ∧ t.edgeAt 0 20)))
         ∧ { t with reply := s.reply, lineStatus := s.lineStatus, macFail := s.macFail, ics := s.ics, meterDue := s.meterDue
                    hbmBad := s.hbmBad, repair := s.repair } = s))
  ∧ (∀ (dbg : Bool) (h : HerdId) (w : WinId) (off : Nat) (l : List Byte) (v : BitVec 448) (ke km : List Byte) (s : State),
      s.pins.pwrGood = true → s.admits dbg h w off true = true → (s.herd h).st = .live → l.length = 64 →
      (let x := s.win w
       let i := off % 4096 / 64
       x.base % 65536 = 0 → x.size % 65536 = 0 → x.subs = [] → x.waiting = [] → x.epochSt ≠ 2 →
       s.pageFenced (x.phys off) = false → s.pageFenced (x.phys (macOff x.size off)) = false →
       x.cache.get none (nodeKey 0 (pageOfOff off)) = some v → nodeMinor v i < 63 → (x.writes + 1) * 8 < 7 * x.budget →
       s.winKeys x x.epoch = some (ke, km) →
       ∃ t, exec (.lineWrite dbg h w off 0 l [] []) s = .next t ∧ t.lineStatus = stOK
        ∧ (let a := x.phys off
           let ma := x.phys (macOff x.size off)
           let c := lineCrypt ke (off / 64) (nodeMajor v) (nodeMinor v i + 1) l
           t.hbmLine a = c ∧ t.mem.readBytes ma 8 = lineMac km (lineBlock (off / 64) (nodeMajor v) (nodeMinor v i + 1) true 0) c
           ∧ (∀ b, (b < a ∨ a + 64 ≤ b) → (b < ma ∨ ma + 8 ≤ b) → t.mem.read b = s.mem.read b)
           ∧ (t.win w).cache.get none (nodeKey 0 (pageOfOff off)) = some (setMinor v i (nodeMinor v i + 1))
           ∧ (t.win w).writes = x.writes + 1 ∧ (∀ q, q ≠ w → t.win q = s.win q)
           ∧ { t with mem := s.mem, lineEpoch := s.lineEpoch, wins := s.wins, meterDue := s.meterDue, hbmBad := s.hbmBad
                      lineStatus := s.lineStatus } = s)
        ∧ (s.admits dbg h w off false = true →
            ∃ u, exec (.lineRead dbg h w off [] []) t = .next u ∧ u.reply = l ∧ u.lineStatus = stOK)))
  ∧ (∀ (w : WinId) (s : State), s.pins.pwrGood = true → s.quiet → (s.win w).st ≠ 0 → (s.win w).epochSt ≠ 0 →
        s.sweeping w = true → (s.win w).waiting = [] → ∃ t, exec (.sweepEnd w) s = .next t
        ∧ (t.win w).rotations = [] ∧ (∀ q, q ≠ w → t.win q = s.win q)
        ∧ (let x := (s.sweep w).win w
           (x.epochSt = 1 → x.sweepDue = false → (t.win w).epochSt = 0 ∧ (t.win w).epoch = x.epoch
              ∧ (∀ n, x.slotOf (!x.epoch) = some n → (∀ e ∈ x.rotations, e.1.src ≠ .tahr) →
                  t.slot n = { s.slot n with valid := false, held := true, secret := [] }
                  ∧ ∀ m, m ≠ n → t.slot m = s.slot m))
           ∧ (∀ n m, s.tahr.entropyBad = false → x.epochSt = 2 ∨ x.sweepDue = true → x.slotOf (!x.epoch) = some n → x.slotOf x.epoch = some m → m ≠ n →
                (s.slot m).valid = true → (∀ e ∈ x.rotations, e.1.src ≠ .tahr) → (t.win w).epochSt = 1 ∧ (t.win w).epoch = !x.epoch ∧ (t.win w).writes = 0
                ∧ (t.slot n).valid = true ∧ (t.slot n).secret = bytes256 (Config.random s.freeCtr))
           ∧ (∀ (k : Fin 4) (ref : OrderRef) (t0 : W64), x.rotations = [(ref, t0)] → ref.src = .ring (.pf k) →
                ref.gen = (s.ring (.pf k)).gen → s.linkUp = true → (s.ring (.pf k)).heldCpl = [] → (s.ring (.pf k)).fences = [] →
                (s.ring (.pf k)).cpl.room = true →
                (let r := s.ring (.pf k)
                 t.hostRead (r.cpl.base.toNat + 16 * r.cpl.idx.toNat) 16 = leBytes 4 ref.tag.toNat
                   ++ leBytes 4 (if r.cpl.phase then 2 ^ 31 else 0)
                   ++ leBytes 8 ((s.tb.now.toNat - t0.toNat) / 1000 % 2 ^ 32)))))
  ∧ (∀ (d : DimId) (h : HerdId) (s : State), s.pins.pwrGood = true → s.quiet → (s.stream d h).advancing = true →
      s.dimUp d.val = true → (∀ f ∈ (s.dimAt d).held, f.herd ≠ h) → ∃ t, exec (.advanceSend d h) s = .next t
      ∧ (let g := (s.stream d h).sendCtr.toNat / 2 ^ 48 + 1
         t.stream d h = { s.stream d h with sendCtr := BitVec.ofNat 64 (g * 2 ^ 48), advancing := false }
         ∧ (let p := pay512 (leBytes 1 h.val ++ leBytes 2 g)
            let f : OutFrame := { type := 4, herd := 0, last := true, item := 0, offset := 0, payload := p }
            t.dimAt d = { s.dimAt d with queue := (s.dimAt d).queue ++ [f] })
         ∧ (∀ e, e ≠ d → t.dimAt e = s.dimAt e) ∧ (∀ e j, e ≠ d ∨ j ≠ h → t.stream e j = s.stream e j))
      ∧ ((∃ e, e ≠ d ∧ (s.stream e h).advancing = true) → { t with dims := s.dims, streams := s.streams } = s)
      ∧ ((∀ e, e ≠ d → (s.stream e h).advancing = false) → (t.herd h).rotLinks = []))
  ∧ (∀ s : State, s.pins.pwrGood = true → s.quiet → s.aliasDue = true → s.tahr.waitAttests = [] → s.tahr.waitReports = [] →
      (∀ d, (s.dimAt d).helloDue = false) → ∃ t, exec .aliasReady s = .next t
      ∧ (let n := if s.tahr.aliasSlot10 then 9 else 10
         s.leafRec.isSome = true → s.devidLeaf < 1048576 →
           (t.slot n).valid = true ∧ (t.slot n).type = 2 ∧ (t.slot n).tenant = true
           ∧ (t.slot n).secret = bytes256 (Config.random s.freeCtr) ++ (bytes256 (Config.random (s.freeCtr + 1))).take 16
           ∧ (s.aliasLeaf < 1024 → t.tahr.altReady = true ∧ t.tahr.aliasSlot10 = s.tahr.aliasSlot10
                ∧ ∀ m, m ≠ n → t.slot m = s.slot m)
           ∧ (1024 ≤ s.aliasLeaf → t.tahr.altReady = false ∧ t.tahr.aliasSlot10 = !s.tahr.aliasSlot10))
      ∧ { t with tahr := s.tahr, slots := s.slots, freeCtr := s.freeCtr } = s)

/-- The ACK word `a` of herd `h`'s stream passes a held frame (R272). -/
def passedBy (h : HerdId) (a : BitVec 26) (f : HeldFrame) : Prop :=
  f.herd = h ∧ 0 < (a - f.frame.counter.setWidth 26).toNat ∧ (a - f.frame.counter.setWidth 26).toNat ≤ 2 ^ 25
/-- HELLO, ENCAP and CONFIRM (R396, R397, R398, R418, R422, R433, Table 13.8): a peer whose report, life cycle, firmware or address is wrong is REFUSED
with the cause, whatever this unit's own state; an accepted one is sent the encapsulated secret of this unit. Once both secrets are held, the hop key is derived,
that of the lower cube address first, and CONFIRM is sent. A right CONFIRM makes the dimension KEYED and takes its READY lanes to
ACTIVE, or a spare that is not called to STANDBY.
JOIN and ADVANCE (R271, R397, R400, R403): a sealed message that does not open is counted, and one whose counter is not above the
last accepted changes nothing. A message comes in the frames `via` (R270, R272): each on a lane that receives and holds its boundaries ends
that lane's row of failures, and its ACK word releases frames it passes alone; with one of them missing the message has no effect.
JOIN maps the peer's herd number to the local herd whose JOIN value and world match, or to none; ADVANCE
moves a stream's expected counter to the start of the named generation.
Where the spec leaves a point of this open it follows the model's choice (log entries 99, 113, 137, 140 and 147). -/
def Obligations.HopKeysAndHerdsAreAgreed : Prop :=
  (∀ (d : DimId) (via : List Carried) (s : State),
      (via = [] ∨ (∃ c ∈ via, (s.laneAt c.lane).locked = false ∨ (s.laneAt c.lane).dimId ≠ some d ∨ (s.laneAt c.lane).hunting = true) →
        (s.carry d via).2 = false)
      ∧ (via ≠ [] → (∀ c ∈ via, (s.laneAt c.lane).locked = true ∧ (s.laneAt c.lane).dimId = some d ∧ (s.laneAt c.lane).hunting = false) →
          ∃ u, s.carry d via = (u, true)
          ∧ (∀ n, (∀ c ∈ via, c.lane ≠ n) → u.laneAt n = s.laneAt n)
          ∧ (∀ c ∈ via, (u.laneAt c.lane).fails = 0
              ∧ { u.laneAt c.lane with fails := (s.laneAt c.lane).fails, descram := (s.laneAt c.lane).descram } = s.laneAt c.lane)
          ∧ (∀ f, f ∈ (u.dimAt d).held ↔ f ∈ (s.dimAt d).held ∧ ∀ c ∈ via, ∀ a, c.ack = some a → ¬passedBy a.1 a.2 f)
          ∧ { u.dimAt d with held := (s.dimAt d).held } = s.dimAt d ∧ (∀ e, e ≠ d → u.dimAt e = s.dimAt e)
          ∧ { u with lanes := s.lanes, dims := s.dims, herds := s.herds } = s
          ∧ ((∀ c ∈ via, c.ack = none) → u.dims = s.dims ∧ u.herds = s.herds)))
  ∧ (∀ (d : DimId) (via : List Carried) (l : List Byte) (p : BitVec 5) (w : Bool) (g : BitVec 16) (c : W64) (a : Bool) (s : State),
      s.pins.pwrGood = true → (s.carry d via).2 = false ∨ (s.carry d via).1.hopReady d = false →
      ∀ i ∈ [Instr.hello d via l c, .encap d via l c, .confirm d via l c, .join d via p w l c a, .advance d via p g c a],
        exec i s = .next (s.carry d via).1)
  ∧ (∀ (d : DimId) (via : List Carried) (c : W64) (s u : State),
      s.pins.pwrGood = true → s.carry d via = (u, true) → u.hopReady d = true →
      (∃ o, (u.dimAt d).ctlSeen = some o ∧ c ≤ o) →
      ∀ l, exec (.hello d via l c) s = .next u ∧ exec (.encap d via l c) s = .next u ∧ exec (.confirm d via l c) s = .next u)
  ∧ (∀ (d : DimId) (via : List Carried) (r : List Byte) (c : W64) (s u : State),
      s.pins.pwrGood = true → s.carry d via = (u, true) → u.hopReady d = true →
      (∀ o, (u.dimAt d).ctlSeen = some o → o < c) → ∃ t, exec (.hello d via r c) s = .next t
      ∧ (let x := { u.dimAt d with ctlSeen := some c }
         let refused := fun (c : BitVec 3) =>
           t.dimAt d = { x with hop := .refused, cause := c } ∧ { t with dims := u.dims } = u
         let life := fieldLe r 0x18 1 % 8 = 2
         let same := sliceBytes r 0x40 64 = bytes256 Config.romDigest ++ digest u.tahr.mFw
         let place := fieldLe r 0x1A 2 = (u.cubeAddr ^^^ (1 <<< d.val)).toNat + 2 ^ 15
         let e := kemEncaps (sliceBytes r 0xA0 1568) (Config.random u.freeCtr)
         (reportOk r = false → refused 1) ∧ (reportOk r = true → ¬life → refused 2)
         ∧ (reportOk r = true → life → ¬same → refused 3) ∧ (reportOk r = true → life → same → ¬place → refused 4)
         ∧ (reportOk r = true → life → same → place →
            (u.hopAble = false → t.dimAt d = x ∧ { t with dims := u.dims } = u)
            ∧ (u.hopAble = true → u.tahr.entropyBad = true →
                t.dimAt d = { x with hop := .exchanging, cause := 0, encapDue := some (sliceBytes r 0xA0 1568) }
                ∧ { t with dims := u.dims } = u)
            ∧ (u.hopAble = true → u.tahr.entropyBad = false → t.freeCtr = u.freeCtr + 1
                ∧ (t.dimAt d).hop = .exchanging ∧ (t.dimAt d).cause = 0 ∧ (t.dimAt d).ssOwn = some e.2
                ∧ (x.ssPeer = none → (t.dimAt d).queue = x.queue ++ keyxFrames e.1 true ∧ t.slots = u.slots
                    ∧ (t.dimAt d).hk = x.hk)
                ∧ (∀ b, x.ssPeer = some b → hopKeyed d e.2 b u t
                    ∧ (t.dimAt d).queue = x.queue ++ keyxFrames e.1 true ++ u.hopConfirm d e.2 b))))
      ∧ (∀ e, e ≠ d → t.dimAt e = u.dimAt e) ∧ { t with dims := u.dims, slots := u.slots, freeCtr := u.freeCtr } = u)
  ∧ (∀ (d : DimId) (via : List Carried) (ct : List Byte) (c : W64) (s u : State),
      s.pins.pwrGood = true → s.carry d via = (u, true) → u.hopReady d = true →
      (∀ o, (u.dimAt d).ctlSeen = some o → o < c) → ∃ t, exec (.encap d via ct c) s = .next t
      ∧ (let x := { u.dimAt d with ctlSeen := some c }
         let b := kemDecaps (u.slot 11).secret ct
         ((u.slot 11).valid = false ∨ x.hop = .keyed → t.dimAt d = x ∧ { t with dims := u.dims } = u)
         ∧ ((u.slot 11).valid = true → x.hop ≠ .keyed → (t.dimAt d).ssPeer = some b ∧ (t.dimAt d).hop = x.hop
            ∧ (x.ssOwn = none → t.dimAt d = { x with ssPeer := some b } ∧ t.slots = u.slots)
            ∧ (∀ a, x.ssOwn = some a → hopKeyed d a b u t ∧ (t.dimAt d).queue = x.queue ++ u.hopConfirm d a b)))
      ∧ (∀ e, e ≠ d → t.dimAt e = u.dimAt e) ∧ { t with dims := u.dims, slots := u.slots } = u)
  ∧ (∀ (d : DimId) (via : List Carried) (m : List Byte) (c : W64) (s u : State),
      s.pins.pwrGood = true → s.carry d via = (u, true) → u.hopReady d = true →
      (∀ o, (u.dimAt d).ctlSeen = some o → o < c) → ∃ t, exec (.confirm d via m c) s = .next t
      ∧ (let x := { u.dimAt d with ctlSeen := some c }
         let right := fun (k : W256) =>
           hmac (bytes256 k) (ascii "FV20-HOP-CONF" ++ leBytes 2 (u.cubeAddr ^^^ (1 <<< d.val)).toNat) = m
         (x.hk = none → t.dimAt d = x ∧ { t with dims := u.dims } = u)
         ∧ (∀ k, x.hk = some k → ¬right k → t.dimAt d = { x with hop := .refused, cause := 5 } ∧ { t with dims := u.dims } = u)
         ∧ (∀ k, x.hk = some k → right k → (t.dimAt d).hop = .keyed ∧ (t.dimAt d).cause = 0 ∧ (t.dimAt d).hk = some k
            ∧ (∀ n ∈ u.lanesOf d.val, (t.laneAt n).st = (if (u.laneAt n).st ≠ .ready then (u.laneAt n).st
                else if (u.laneAt n).spare && !(u.laneAt n).called then .standby else .active))))
      ∧ (∀ n, n ∉ u.lanesOf d.val → t.laneAt n = u.laneAt n) ∧ (∀ e, e ≠ d → t.dimAt e = u.dimAt e)
      ∧ { t with dims := u.dims, slots := u.slots, lanes := u.lanes, ics := u.ics, meterDue := u.meterDue } = u)
  ∧ (∀ (d : DimId) (via : List Carried) (p : BitVec 5) (w : Bool) (m : List Byte) (g : BitVec 16) (c : W64) (s u : State), s.pins.pwrGood = true →
       s.carry d via = (u, true) → u.hopReady d = true →
       (let x := u.dimAt d
        let fresh := ∀ o, x.ctlSeen = some o → o < c
        (∃ t, exec (.join d via p w m c false) s = .next t ∧ exec (.advance d via p g c false) s = .next t
           ∧ t.dimAt d = { x with authFail := satAdd x.authFail 1 } ∧ (∀ e, e ≠ d → t.dimAt e = u.dimAt e)
           ∧ { t with dims := u.dims } = u)
        ∧ (x.hk = none ∨ ¬fresh → exec (.join d via p w m c true) s = .next u ∧ exec (.advance d via p g c true) s = .next u)
        ∧ (∀ k, x.hk = some k → fresh → ∃ t, exec (.join d via p w m c true) s = .next t
           ∧ (let mine := fun (h : HerdId) => (u.herd h).st == .live && (u.herd h).span.getLsbD d.val && (u.herd h).secure == w
                && joinValue k (u.linkId h) w == m
              (∀ h : HerdId, mine h = true → (∀ j : HerdId, j < h → mine j = false) → (t.dimAt d).map.get 0 p.toNat = h.val + 1)
              ∧ ((∀ h, mine h = false) → (t.dimAt d).map.get 0 p.toNat = 0))
           ∧ { t.dimAt d with ctlSeen := x.ctlSeen, joins := x.joins, map := x.map } = x ∧ (t.dimAt d).ctlSeen = some c
           ∧ (∀ e, e ≠ d → t.dimAt e = u.dimAt e) ∧ { t with dims := u.dims } = u)
        ∧ (∀ k, x.hk = some k → fresh → ∃ t, exec (.advance d via p g c true) s = .next t
           ∧ t.dimAt d = { x with ctlSeen := some c } ∧ (∀ e, e ≠ d → t.dimAt e = u.dimAt e)
           ∧ (let q : HerdId := ⟨p.toNat, p.isLt⟩
              t.stream d q = { u.stream d q with e := BitVec.ofNat 64 (g.toNat * 2 ^ 48), seen := [] }
              ∧ ∀ e j, e ≠ d ∨ j ≠ q → t.stream e j = u.stream e j)
           ∧ { t with dims := u.dims, streams := u.streams } = u)))

/-! ## Chapter 7: beats and stops -/

/-- BLOCK_DONE, ROW_DONE, UNIT_DONE and SLICE_ROUND (R219, R225, Table 07.10): a block signals its next complete segment, and at the
last of a pass waits for the pass to end (as late blocks of a completed run still do, R309); a row signals when all its Clause-running blocks have; the unit when every row and engine
has, which starts slice round 0; a round passes once the neighbour's token is there, and the next token goes out. A token that
differs marks the run.
BEAT_END and BEAT_END_SEEN (R219, R220, R225, R226, Tables 07.10 and 07.11): when the unit is done and its rounds have finished, the beat
number advances, the next beat of the pass begins, the herd's beats are metered and its regions are told; the tense flips at the last
beat of a pass without step commit. The last beat of a run under step commit completes the run; blocks that a miss left behind work on
(R309). A mismatch stops the
run `CFG_INVALID`, and a quiesce stops it at the beat's end. A block sees each beat end once, in order.
Where the spec leaves a point of this open it follows the model's choice (log entries 70, 71, 76 and 77). -/
def Obligations.BeatsEndOnTheirTokens : Prop :=
  (∀ (b : BlockId) (h : HerdId) (r : Run) (m : Sentence) (s : State), s.pins.pwrGood = true → s.owner b = some h →
      (s.herd h).workRun = some r → (s.herd h).sentence = some m → (s.herd h).working = true →
      (s.block b).st = .issue ∨ (s.block b).st = .held → (s.block b).doneSegs < (s.block b).seg →
      (s.block b).segComplete (s.block b).pass (s.block b).doneSegs = true →
      (s.herd h).captureDue m (s.block b).pass (s.block b).doneSegs = false → ∃ t, exec (.blockDone b) s = .next t
      ∧ (let x := s.block b
         (x.doneSegs + 1 ≠ m.beats → t.block b = { x with doneSegs := x.doneSegs + 1 })
         ∧ (x.doneSegs + 1 = m.beats → x.seen ≠ m.beats → t.block b = { x with doneSegs := x.doneSegs + 1, st := .passEnd })
         ∧ (x.doneSegs + 1 = m.beats → x.seen = m.beats → x.pass + 1 < r.steps.toNat → t.block b = { x with
              st := .issue, pass := x.pass + 1, pos := 0, seg := 0, seen := 0, doneSegs := 0 })
         ∧ (x.doneSegs + 1 = m.beats → x.seen = m.beats → r.steps.toNat ≤ x.pass + 1 →
              t.block b = { x with doneSegs := x.doneSegs + 1, st := .idle }))
      ∧ (∀ c, c ≠ b → t.block c = s.block c) ∧ { t with blocks := s.blocks } = s)
  ∧ (∀ (h : HerdId) (g : RegionId) (row : Fin 10) (r : Run) (s : State), s.pins.pwrGood = true →
      (s.herd h).run = some r → (s.herd h).active = true → s.rowBlocks h g.val row.val ≠ [] →
      (∀ b ∈ s.rowBlocks h g.val row.val, r.pass < (s.block b).pass
        ∨ ((s.block b).pass = r.pass ∧ r.beat < (s.block b).doneSegs)) →
      g.val * 10 + row.val ∉ r.rows → ∃ t, exec (.rowDone h g row) s = .next t
      ∧ t.herd h = { s.herd h with run := some { r with rows := r.rows ++ [g.val * 10 + row.val] } } ∧ s.onlyHerd h t
      ∧ t.dims = s.dims)
  ∧ (∀ (h : HerdId) (r : Run) (m : Sentence) (s : State), s.pins.pwrGood = true → (s.herd h).run = some r →
      (s.herd h).sentence = some m → (s.herd h).active = true → r.unitDone = false →
      s.rowsDone h r = true ∨ s.missedNow h m r.beat = true → s.enginesDone h m r = true →
      ∃ t, exec (.unitDone h) s = .next t
      ∧ t.herd h = { s.herd h with run := some { r with unitDone := true, round := 0 } } ∧ s.onlyHerd h t ∧ tokenSent h 0 s t)
  ∧ (∀ (h : HerdId) (r : Run) (m : Sentence) (k : BeatToken) (s : State), s.pins.pwrGood = true → (s.herd h).run = some r →
      (s.herd h).sentence = some m → (s.herd h).active = true → r.round < (s.herd h).dims.length →
      (let ready := decide ((s.herd h).commit = .ready)
       ready = true ∨ r.unitDone = true → (s.herd h).tokenAt r r.round ready = some k →
       ∃ t, exec (.sliceRound h) s = .next t
        ∧ (let bad := k.mismatch || (r.first && (s.herd h).differs r m k ready)
           t.herd h = { s.herd h with run := some { r with
             round := r.round + 1, mismatch := r.mismatch || bad, dropped := r.dropped || k.dropped } })
        ∧ (r.first = true → k.meas ≠ m.meas ∨ k.steps ≠ r.steps ∨ k.firstBeat ≠ r.beat0 →
            (s.herd h).differs r m k ready = true)
        ∧ s.onlyHerd h t ∧ tokenSent h (r.round + 1) s t))
  ∧ (∀ (h : HerdId) (r : Run) (m : Sentence) (s : State), s.pins.pwrGood = true → (s.herd h).run = some r →
        (s.herd h).sentence = some m → (s.herd h).active = true → r.unitDone = true → (s.herd h).commit = .opened →
        r.round = (s.herd h).dims.length →
        ∃ t, exec (.beatEnd h) s = .next t
        ∧ (r.mismatch = true → State.stopsWith h stCfgInvalid s t ∧ (t.herd h).beatNow = (s.herd h).beatNow)
        ∧ (r.mismatch = false → (t.herd h).beatNow = (s.herd h).beatNow + 1
            ∧ (∀ b ∈ s.blocksOf h, (t.icAt (regionOf b + 1)).level.get false 109 = true)
            ∧ (t.meters.get {} h.val).beats = satAdd (s.meters.get {} h.val).beats
                (satAdd (s.meterDue.get {} h.val).beats 1).toNat
            ∧ (r.beat + 1 ≠ m.beats ∨ m.commit = true → (t.herd h).present = (s.herd h).present)
            ∧ (r.beat + 1 = m.beats → m.commit = false → (t.herd h).present = !(s.herd h).present)
            ∧ (r.beat + 1 ≠ m.beats → r.stopAtEnd = false → ∃ q, (t.herd h).run = some q ∧ q.beat = r.beat + 1
                ∧ q.pass = r.pass ∧ q.rows = [] ∧ q.unitDone = false ∧ q.round = 0 ∧ q.ended = r.ended + 1)
            ∧ (r.beat + 1 ≠ m.beats ∨ m.commit = true → r.stopAtEnd = true → (∃ q, (t.herd h).run = some q ∧ q.between = true
                ∧ q.stopAtEnd = false ∧ q.atBoundary = decide (r.beat + 1 = m.beats) ∧ q.faults = r.faults)
                ∧ ∀ b ∈ s.blocksOf h, (s.block b).st ≠ .idle → (t.block b).st = .halt)
            ∧ (r.beat + 1 = m.beats → m.commit = true → r.stopAtEnd = false → r.done ≠ r.steps →
                ∃ q, (t.herd h).run = some q ∧ q.beat = 0 ∧ q.pass = r.pass + 1 ∧ q.flipped = false)
            ∧ (r.beat + 1 = m.beats → m.commit = true → r.stopAtEnd = false → r.done = r.steps →
                (t.herd h).seq = .ready ∧ (t.herd h).run = none
                ∧ (∀ b ∈ s.blocksOf h, (s.herd h).seq = .running →
                    (t.block b).st = if (s.block b).late then (s.block b).st else .idle)
                ∧ ((t.herd h).tail = none ↔ ∀ b ∈ s.blocksOf h, (t.block b).late = false)
                ∧ (r.closed = false → r.quiesces = [] → entryWritten r.ref (if r.dropped then stLateDropped else stOK)
                    (r.done.toNat % 2 ^ 32 + (s.herd h).beatNow.toNat % 2 ^ 32 * 2 ^ 32) s t))))
  ∧ (∀ (b : BlockId) (s : State), s.pins.pwrGood = true → (s.block b).st = .idle ∨ (s.block b).st = .halt →
      exec (.beatEndSeen b) s = .next s)
  ∧ (∀ (b : BlockId) (h : HerdId) (r : Run) (m : Sentence) (s : State), s.pins.pwrGood = true → s.owner b = some h →
      (s.herd h).workRun = some r → (s.herd h).sentence = some m → (s.block b).st ≠ .idle → (s.block b).st ≠ .halt →
      (s.block b).pass * m.beats + (s.block b).seen < r.ended → (s.block b).seen < m.beats →
      ∃ t, exec (.beatEndSeen b) s = .next t
      ∧ (let x := s.block b
         (x.st ≠ .passEnd ∨ x.seen + 1 ≠ m.beats → t.block b = { x with seen := x.seen + 1 })
         ∧ (x.st = .passEnd → x.seen + 1 = m.beats → x.pass + 1 < r.steps.toNat → t.block b = { x with
              st := .issue, pass := x.pass + 1, pos := 0, seg := 0, seen := 0, doneSegs := 0 })
         ∧ (x.st = .passEnd → x.seen + 1 = m.beats → r.steps.toNat ≤ x.pass + 1 →
              t.block b = { x with seen := x.seen + 1, st := .idle }))
      ∧ (∀ c, c ≠ b → t.block c = s.block c) ∧ { t with blocks := s.blocks } = s)

/-- BEAT_TIMEOUT, STOP_REQUEST, STOP_BEAT_END and STOP_LIMIT_EXPIRY (R224, R227, R228, R322, Table 10.13): a stop request gathers its fault,
halts the herd's blocks and its fabric items, whose unsent DATA and REDUCE frames are gone, and travels on, as does the first fault
behind a quiesce; that of a quiesce alone lets the beat in progress end. The stop beat ends the
run with the status of the first of the faults gathered in the order of R228. Under step commit a unit that is READY then goes on to
record its step t when a peer has recorded t, or has COMMITTED = t, and is OPEN again when none has (R321); one that is READY when
the limit expires is UNRESOLVED.
Where the spec leaves a point of this open it follows the model's choice (log entries 15, 73, 74, 75, 80, 93 and 141). -/
def Obligations.StopsEndTheRun : Prop :=
  (∀ (h : HerdId) (m : Sentence) (s : State), s.pins.pwrGood = true →
      (s.herd h).active = true ∨ ((s.herd h).seq = .stopping ∧ (s.herd h).run ≠ none) → (s.herd h).sentence = some m →
      m.beatLimitMs ≠ 0 → ∃ t, exec (.beatTimeout h) s = .next t ∧ State.stopsWith h stBeatTimeout s t
      ∧ (∀ b ∈ s.blocksOf h, (t.block b).st = if (s.block b).st = .idle then .idle else .halt)
      ∧ (∀ b : BlockId, b ∉ s.blocksOf h → t.block b = s.block b) ∧ (∀ k, k ≠ h → t.herd k = s.herd k)
      ∧ { t with blocks := s.blocks, herds := s.herds, dims := s.dims, ics := s.ics, freeCtr := s.freeCtr } = s)
  ∧ (∀ (h : HerdId) (f : FaultRec) (r : Run) (s : State), s.pins.pwrGood = true → (s.herd h).run = some r →
      ∃ t, exec (.stopRequest h f) s = .next t ∧ (t.herd h).seq = .stopping
      ∧ (f.status ≠ 0x01 → (t.herd h).run = some { r with faults := r.faults ++ [f], stopAtEnd := false }
          ∧ ∀ b ∈ s.blocksOf h, (t.block b).st = if (s.block b).st = .idle then .idle else .halt)
      ∧ (f.status = 0x01 → t.blocks = s.blocks ∧ t.ics = s.ics ∧ (t.herd h).run = some { r with
          faults := r.faults ++ [f], stopAtEnd := r.stopAtEnd || decide ((s.herd h).seq = .running) })
      ∧ (let sends := (s.herd h).seq = .running ∨ (f.status ≠ 0x01 ∧ r.stopAtEnd = true)
         (sends → let u := if f.status = 0x01 then s else s.endFrames h
            (f.status ≠ 0x01 → (t.herd h).reds = {} ∧ (t.herd h).routes = {})
            ∧ ∀ d, (d ∈ (s.herd h).dims → tokenOn h d u t) ∧ (d ∉ (s.herd h).dims → t.dimAt d = u.dimAt d))
         ∧ (¬sends → t.dims = s.dims))
      ∧ (∀ d, (s.endFrames h).dimAt d = { s.dimAt d with
            queue := (s.dimAt d).queue.filter fun o => !(o.herd == h && (o.type = 1 || o.type = 2))
            held := (s.dimAt d).held.map fun q => if q.herd = h then { q with stale := true } else q })
      ∧ (∀ b : BlockId, b ∉ s.blocksOf h → t.block b = s.block b) ∧ (∀ k, k ≠ h → t.herd k = s.herd k)
      ∧ { t with blocks := s.blocks, herds := s.herds, dims := s.dims, ics := s.ics, freeCtr := s.freeCtr } = s)
  ∧ (∀ l : List FaultRec, l ≠ [] → ∃ f ∈ l, decide_ l = f.status.setWidth 16 ∧ ∀ g ∈ l, faultRank f.status ≤ faultRank g.status)
  ∧ (([0x02, 0x04, 0x03, 0x40, 0x41, 0x5F, 0x05, 0x0B, 0x06, 0x01] : List (BitVec 8)).Pairwise fun a b =>
      faultRank a < faultRank b)
  ∧ (∀ (h : HerdId) (l : List BeatToken) (r : Run) (m : Sentence) (s : State), s.pins.pwrGood = true →
      (s.herd h).run = some r → (s.herd h).sentence = some m → (s.herd h).seq = .stopping → r.stopAtEnd = false →
      (s.herd h).st = .revoking ∨ l.length + 1 = 2 ^ (s.herd h).dims.length →
      ∃ t, exec (.stopBeatEnd h l) s = .next t ∧ State.runEnded h s t
      ∧ (t.herd h).beatNow = (if r.between then (s.herd h).beatNow else (s.herd h).beatNow + 1)
      ∧ (t.icAt 0).level.get false (52 + h.val) = true
      ∧ (let agreed := ∃ k ∈ l, k.recorded = true ∨ k.committed = s.stepNo h
         (s.herd h).st = .live → m.commit = true → (s.herd h).commit = .ready → r.flipped = false → r.atBoundary = false →
           (agreed → (t.herd h).commit = .recording ∧ (t.herd h).recorded = false ∧ (t.herd h).hbmRecorded = false ∧ t.mem = s.mem
              ∧ (t.herd h).present = (s.herd h).present ∧ (t.herd h).committed = (s.herd h).committed)
           ∧ (¬agreed → (t.herd h).commit = .opened ∧ (t.herd h).present = (s.herd h).present
              ∧ (t.herd h).committed = (s.herd h).committed ∧ (t.herd h).pendLedger = []))
      ∧ (r.flipped = true ∨ r.atBoundary = true → (s.herd h).st = .live → t.mem = s.mem
          ∧ (t.herd h).present = (s.herd h).present ∧ (t.herd h).commit = (s.herd h).commit
          ∧ (r.closed = false → r.quiesces = [] → entryWritten r.ref (decide_ (r.faults ++ l.flatMap (·.faults)))
              (r.done.toNat % 2 ^ 32 + ((t.herd h).beatNow.toNat + 2 ^ 48 - 1) % 2 ^ 32 * 2 ^ 32) s t)))
  ∧ (∀ (h : HerdId) (r : Run) (m : Sentence) (s : State), s.pins.pwrGood = true → (s.herd h).st = .live →
      (s.herd h).run = some r → (s.herd h).sentence = some m → m.commit = true → (s.herd h).seq = .stopping →
      r.stopAtEnd = false → ∃ t, exec (.stopLimitExpiry h) s = .next t ∧ State.runEnded h s t
      ∧ (t.icAt 0).level.get false (52 + h.val) = true
      ∧ ((s.herd h).commit = .ready → r.flipped = false → (t.herd h).commit = .unresolved ∧ t.mem = s.mem
          ∧ (t.herd h).present = (s.herd h).present ∧ (t.herd h).committed = (s.herd h).committed))

/-! ## Chapters 8 to 10: engines, collectives and step commit -/

/-- COMMIT_READY, COMMIT_ALL_READY, COMMIT_RECORD, COMMIT_HBM_RECORD, COMMIT_FLIP, RESOLVE_FORWARD and RESOLVE_BACK (R317, R318, R319,
R323, Tables 10.10, 10.11 and 10.13): the commit beat goes OPEN, READY, RECORDING and OPEN again; Tahr's log entry is written before
the HBM record, and COMMITTED and the tense change only at the flip, after both. An UNRESOLVED unit is taken forward to RECORDING, or
back to OPEN with its tense unchanged; any other unit refuses, and a write outside a protected herd's stream does nothing.
Where the spec leaves a point of this open it follows the model's choice (log entries 70, 72, 73, 120 and 138). -/
def Obligations.CommitRecordsThenFlips : Prop :=
  (∀ (h : HerdId) (r : Run) (m : Sentence) (s : State), s.pins.pwrGood = true → (s.herd h).run = some r →
      (s.herd h).sentence = some m → (s.herd h).active = true → m.commit = true → r.beat + 1 = m.beats → r.flipped = false →
      (s.herd h).commit = .opened → (s.herd h).captures = [] → s.localDone h r.pass r.beat = true →
      ∃ t, exec (.commitReady h) s = .next t
      ∧ t.herd h = { s.herd h with commit := .ready, run := some { r with round := 0 } } ∧ s.onlyHerd h t ∧ tokenSent h 0 s t)
  ∧ (∀ (h : HerdId) (r : Run) (s : State), s.pins.pwrGood = true → (s.herd h).run = some r → (s.herd h).st = .live →
      (s.herd h).commit = .ready → r.round = (s.herd h).dims.length → r.mismatch = false →
      ∃ t, exec (.commitAllReady h) s = .next t
      ∧ t.herd h = { s.herd h with commit := .recording, recorded := false, hbmRecorded := false } ∧ s.onlyHerd h t
      ∧ t.dims = s.dims)
  ∧ (∀ (h : HerdId) (s : State), s.pins.pwrGood = true → (s.herd h).st = .live → (s.herd h).commit = .recording →
      s.hasRecorded h = false → ∃ t, exec (.commitRecord h) s = .next t ∧ t.hasRecorded h = true
      ∧ (let p := !(s.herd h).present
         t.tahr.commits.get none h.val = some { step := s.stepNo h, present := p, mac := s.commitMac h (s.stepNo h) p }
         ∧ (∀ k, k ≠ h.val → t.tahr.commits.get none k = s.tahr.commits.get none k))
      ∧ { t.tahr with commits := s.tahr.commits } = s.tahr ∧ t.herd h = { s.herd h with recorded := true }
      ∧ s.onlyHerd h { t with tahr := s.tahr })
  ∧ (∀ (h : HerdId) (s : State), s.pins.pwrGood = true → (s.herd h).st = .live → (s.herd h).commit = .recording →
      s.hasRecorded h = true → (s.herd h).hbmRecorded = false →
      (∀ u, s.wr h (s.herd h).commitAddr.toNat (s.commitBytes h) = (u, stOK) →
        exec (.commitHbmRecord h) s = .next (u.setHerd h { u.herd h with hbmRecorded := true }))
      ∧ (∀ u, s.wr h (s.herd h).commitAddr.toNat (s.commitBytes h) = (u, stUnverifiable) →
        ∃ t, exec (.commitHbmRecord h) s = .next t ∧ (t.herd h).hbmRecorded = true
        ∧ ∀ r, (u.herd h).run = some r → (t.herd h).seq = .stopping)
      ∧ (let a := (s.herd h).commitAddr.toNat
         ∀ l, s.lotOk h l = true → lotAddr l 0 ≤ a → a + 64 ≤ lotAddr l lotBytes → s.repair.lotLost = {} →
          ∃ t, exec (.commitHbmRecord h) s = .next t ∧ t.herd h = { s.herd h with hbmRecorded := true }
          ∧ (∀ i, i < 64 → t.mem.read (a + i) = (s.commitBytes h).getD i 0)
          ∧ ∀ i, i < a ∨ a + 64 ≤ i → t.mem.read i = s.mem.read i)
      ∧ (s.commitBytes h).length = 64)
  ∧ (∀ (h : HerdId) (r : Run) (s : State), s.pins.pwrGood = true → (s.herd h).st = .live → (s.herd h).commit = .recording →
      (s.herd h).hbmRecorded = true → (s.herd h).run = some r → ∃ t, exec (.commitFlip h) s = .next t
      ∧ (t.herd h).committed = s.stepNo h ∧ (t.herd h).commitValid = true ∧ (t.herd h).commit = .opened
      ∧ (t.herd h).present = !(s.herd h).present ∧ (t.herd h).recorded = false ∧ (t.herd h).hbmRecorded = false
      ∧ (∃ q, (t.herd h).run = some q ∧ q.flipped = true ∧ q.round = 0 ∧ q.done = r.done + 1)
      ∧ (∀ k, k ≠ h → t.herd k = s.herd k) ∧ t.tahr = s.tahr)
  ∧ (∀ (h : HerdId) (s : State), s.regOpen (.vf h) (.window h) .active = false →
      exec (.resolveForward h) s = .next s ∧ exec (.resolveBack h) s = .next s)
  ∧ (∀ (h : HerdId) (s : State), s.regOpen (.vf h) (.window h) .active = true → (s.herd h).st = .live →
      let p := s.touchStream (.vf h) .active
      ((s.herd h).commit = .unresolved →
          (∃ t, exec (.resolveForward h) s = .next t
            ∧ t.herd h = { s.herd h with commit := .recording, recorded := false, hbmRecorded := false } ∧ p.onlyHerd h t)
          ∧ (∃ t, exec (.resolveBack h) s = .next t ∧ (t.herd h).commit = .opened ∧ (t.herd h).present = (s.herd h).present
            ∧ (t.herd h).committed = (s.herd h).committed ∧ (t.herd h).pendLedger = []
            ∧ ∀ k, k ≠ h → t.herd k = s.herd k))
      ∧ ((s.herd h).commit ≠ .unresolved → (s.herd h).rings.evt.room = true → (s.herd h).rings.lostSince = 0 →
          s.hostReach h = true →
          (∃ t, exec (.resolveForward h) s = .next t ∧ p.onlyRings t ∧ t.hostRead
            ((s.herd h).rings.evt.base.toNat + 32 * (s.herd h).rings.evt.idx.toNat) 13
              = leBytes 4 (0x0008 + (if (s.herd h).rings.evt.phase then 2 ^ 31 else 0)) ++ leBytes 8 s.tb.now.toNat ++ leBytes 1 2)
          ∧ ∃ t, exec (.resolveBack h) s = .next t ∧ p.onlyRings t ∧ t.hostRead
            ((s.herd h).rings.evt.base.toNat + 32 * (s.herd h).rings.evt.idx.toNat) 13
              = leBytes 4 (0x0008 + (if (s.herd h).rings.evt.phase then 2 ^ 31 else 0)) ++ leBytes 8 s.tb.now.toNat
                ++ leBytes 1 1))

/-- REDUCE_SCATTER, ALL_GATHER, ALL_REDUCE, ALL_TO_ALL, SMALL_SUM and NORM_FINISH (R301, R303, R307, R308): an item of its operation
starts in its beat, which goes on where the memory it names can be read and written, or its failure stops the run, and nothing
outside the herd's own data changes. Under TREE what a member sends in a
round over a group bit is what the member across that bit receives in it. The REDUCE frame that completes a SMALL_SUM of two members
writes to DST, word for word, the sum of the lower position's value and the higher's.
Where the spec leaves a point of this open it follows the model's choice (log entries 63, 65, 119 and 141). -/
def Obligations.CollectivesRunTheirRounds : Prop :=
  (∀ (c : HerdId → Nat → Instr) (op : Nat),
      (c, op) ∈ [(Instr.reduceScatter, 1), (.allGather, 2), (.allReduce, 3), (.allToAll, 4), (.smallSum, 5), (.normFinish, 6)] →
      ∀ (h : HerdId) (e : Nat) (r : Run) (i : RedItem) (d : Nat) (s : State), s.pins.pwrGood = true →
      s.fabricNow h e = some (r, i, d) → i.op.toNat = op → (s.redRun h e).started = false →
      i.patient = false ∨ (s.redRun h e).missed = true ∨ s.localDone h r.pass r.beat = true →
      ∃ t, exec (c h e) s = .next t
      ∧ ((t.herd h).seq = .running ∧ (t.redRun h e).started = true
          ∨ (t.herd h).seq = .stopping ∧ ∃ q, (t.herd h).run = some q ∧ r.faults.length ≤ q.faults.length)
      ∧ (t.herd h).beatNow = (s.herd h).beatNow ∧ (t.herd h).present = (s.herd h).present
      ∧ (t.herd h).rings = (s.herd h).rings ∧ (∀ k, k ≠ h → t.herd k = s.herd k)
      ∧ (∀ b : BlockId, b ∉ s.blocksOf h → t.block b = s.block b)
      ∧ t.hostMem = s.hostMem ∧ t.lots = s.lots ∧ t.tahr = s.tahr ∧ t.meters = s.meters ∧ t.lanes = s.lanes
      ∧ t.streams = s.streams
      ∧ (∀ u, s.redStart h e i d = (u, stOK) → t = u ∧ (t.redRun h e).started = true ∧ (t.herd h).seq = (s.herd h).seq
          ∧ ∃ q, (t.herd h).run = some q ∧ q.faults = r.faults))
  ∧ (∀ (i : RedItem) (p k : Nat) (r : RedRound), i.ring = false → p < redMembers i → (redRounds i p)[k]? = some r →
      ∃ q, (redRounds i (p ^^^ 2 ^ r.sendBit))[k]? = some q ∧ q.recv = r.send ∧ q.recvBit = r.sendBit ∧ q.unit = r.unit
        ∧ q.sums = r.sums)
  ∧ (∀ (n : LaneId) (f : Frame) (h : HerdId) (d : DimId) (p : List Byte) (i : RedItem) (u s : State), s.pins.pwrGood = true →
      (s.laneAt n).locked = true → (s.laneAt n).hunting = false → (s.laneAt n).dimId = some d → f.type = 2 →
      (s.setLane n { (s.laneAt n).took with fails := 0 }).receive n d f = (u, some (h, p)) → u.current h d f = true →
      (let e := f.item.toNat
       let q := u.redRun h e
       let mine := u.groupPosOf h i
       u.redItem h e = some i → i.op = 5 → (groupBits i).length = 1 → (u.herd h).bitOf i d = some 0 → i.n ≤ 16 → 0 < i.n →
       f.offset = 0 → q.started = true → q.done = false → q.round = 0 → q.early = [] → (u.herd h).active = true →
       (let sums := (List.range i.n).map fun j =>
          let y := BitVec.ofNat 32 (fieldLe p (4 * j) 4)
          let own := q.x.get 0 j
          if mine.testBit 0 then fAdd y own else fAdd own y
        ∃ w : State, { w with herds := u.herds } = u ∧ (∀ k, k ≠ h → w.herd k = u.herd k)
          ∧ { w.herd h with reds := (u.herd h).reds } = u.herd h
          ∧ (∀ v, w.runWr h i.dst (sums.flatMap fun x => leBytes 4 x.toNat) = (v, stOK) →
              ∃ t, exec (.reduceFrame n f) s = .next t ∧ t.mem = v.mem ∧ (t.redRun h e).done = true))))

/-- PATIENCE_EXPIRY, CARRY_CAPTURE, ROUTE_ENTRY and DECLENSION_ITEM (R290, R291, R293, R308, R311, R313, R314, R317): a miss is recorded as a pending
ledger entry and the engine goes on; without room in the ledger it does not happen, and FULL is set. A capture is made once. A route
entry queues its array as frames in order on the first dimension it crosses, the last of them marked; under DET 0 that is one which is
UP, where any that it has to cross is. A declension item runs once in its beat, or its failure stops the run; none of these flips the tense.
Where the spec leaves a point of this open it follows the model's choice (log entries 60, 61, 63, 66, 143 and 164). -/
def Obligations.EnginesWorkThroughTheirItems : Prop :=
  (∀ (h : HerdId) (e : Nat) (r : Run) (i : RedItem) (d : Nat) (s : State), s.pins.pwrGood = true →
      s.fabricNow h e = some (r, i, d) → i.patient = true → (s.redRun h e).started = false → (s.redRun h e).missed = false →
      (s.redRun h e).budget = true ∨ redMembers i = 1 → (s.herd h).replay = false → s.localDone h r.pass r.beat = false →
      ∃ t, exec (.patienceExpiry h e) s = .next t
      ∧ ((s.herd h).ledgerCap.toNat ≤ (s.herd h).ledgerCount.toNat + (s.herd h).pendLedger.length →
          (t.herd h).ledgerFull = true ∧ (t.herd h).pendLedger = (s.herd h).pendLedger ∧ t.mem = s.mem
          ∧ (t.redRun h e).missed = false ∧ (r.fullRaised = true → t.hostMem = s.hostMem)
          ∧ (t.herd h).run = some { r with fullRaised := true })
      ∧ ((s.herd h).ledgerCount.toNat + (s.herd h).pendLedger.length < (s.herd h).ledgerCap.toNat →
          (t.herd h).pendLedger = (s.herd h).pendLedger ++ [(e, if i.drop then 1 else 0)] ∧ (t.redRun h e).missed = true
          ∧ (t.herd h).captures = (s.herd h).captures ++
              (if i.drop then [] else [(e, (s.stepNo h).toNat, r.pass)]) ∧ t.hostMem = s.hostMem)
      ∧ (t.herd h).present = (s.herd h).present ∧ (t.herd h).beatNow = (s.herd h).beatNow
      ∧ ∀ k, k ≠ h → t.herd k = s.herd k)
  ∧ (∀ (h : HerdId) (e step pass : Nat) (m : Sentence) (i : RedItem) (s : State), s.pins.pwrGood = true →
      (s.herd h).captures.find? (fun c => c.1 = e) = some (e, step, pass) → (s.herd h).sentence = some m →
      m.reds[e]? = some i → (s.herd h).active = true →
      s.localDone h pass (((m.plan.find? fun p => p.kind = 1 && p.item = e).map (·.beat)).getD 0) = true →
      ∃ t, exec (.carryCapture h e) s = .next t
      ∧ (t.herd h).captures = (s.herd h).captures.filter (fun c => !(c.1 = e && c.2.1 = step))
      ∧ ((t.herd h).written = (s.herd h).written ++ [(e, step % m.carryD)] ∨ (t.herd h).seq = .stopping)
      ∧ (let y := s.setHerd h { s.herd h with captures := (s.herd h).captures.filter fun c => !(c.1 = e && c.2.1 = step) }
         ∀ u, y.capture h e i m.carryD step = (u, stOK) → t = u ∧ (t.herd h).seq = (s.herd h).seq
           ∧ (t.herd h).written = (s.herd h).written ++ [(e, step % m.carryD)])
      ∧ (t.herd h).present = (s.herd h).present ∧ (∀ k, k ≠ h → t.herd k = s.herd k) ∧ t.hostMem = s.hostMem)
  ∧ (∀ (h : HerdId) (e : Nat) (r : Run) (m : Sentence) (x : RouteEnt) (s : State), s.pins.pwrGood = true →
      (s.herd h).run = some r → (s.herd h).sentence = some m → m.routes[e]? = some x → (s.herd h).active = true →
      x.beat = r.beat → s.slicePos (s.herd h) &&& x.mask.toNat = x.mtch.toNat → (0, e) ∉ r.items →
      ∃ t, exec (.routeEntry h e) s = .next t
      ∧ (t.herd h).present = (s.herd h).present ∧ (∀ k, k ≠ h → t.herd k = s.herd k) ∧ t.hostMem = s.hostMem
      ∧ (let q := s.setHerd h { s.herd h with run := some { r with items := r.items ++ [(0, e)] } }
         ∀ (u : State) (l : List Byte) (dim : DimId), q.rdIn h x.src x.bytes = (u, stOK, l) →
           let way := if m.det then routeOrder x else u.wayOf h x (routeOrder x)
           (m.det = false → (∃ b ∈ routeOrder x, u.bitUp h b = true) → ∃ b ∈ routeOrder x, way.head? = some b ∧ u.bitUp h b = true) ∧
           (way.head?.bind (s.herd h).sliceDim = some dim →
           (t.herd h).run = some { r with items := r.items ++ [(0, e)] } ∧ (t.herd h).seq = (s.herd h).seq
           ∧ ((t.herd h).routes.get {} e).sent = ((s.herd h).routes.get {} e).sent + cdiv l.length 512
           ∧ (t.dimAt dim).queue = (u.dimAt dim).queue ++ (List.range (cdiv l.length 512)).map fun j =>
             { type := 1, herd := h, last := decide (j + 1 = cdiv l.length 512), item := BitVec.ofNat 20 e
               offset := BitVec.ofNat 24 j, payload := sliceBytes l (512 * j) 512, path := if m.det then [] else way })))
  ∧ (∀ (h : HerdId) (k : Nat) (r : Run) (m : Sentence) (i : DclItem) (s : State), s.pins.pwrGood = true →
      (s.herd h).run = some r → (s.herd h).sentence = some m → m.dcls[k]? = some i → (s.herd h).active = true →
      k ∈ itemsIn m 2 r.beat → (2, k) ∉ r.items → ∃ t, exec (.declensionItem h k) s = .next t
      ∧ (∃ q, (t.herd h).run = some q ∧ q.beat = r.beat ∧ q.pass = r.pass
          ∧ (q.items = r.items ++ [(2, k)] ∧ q.faults = r.faults ∨ (t.herd h).seq = .stopping ∧ r.faults.length < q.faults.length))
      ∧ (∀ u, s.runDcl h m k i = (u, stOK) → (t.herd h).seq = (s.herd h).seq ∧ t.mem = u.mem
          ∧ t.herd h = { u.herd h with run := (t.herd h).run }
          ∧ ∀ q, (t.herd h).run = some q → q = { r with items := r.items ++ [(2, k)], wrote := q.wrote })
      ∧ (t.herd h).present = (s.herd h).present ∧ (t.herd h).beatNow = (s.herd h).beatNow
      ∧ (∀ j, j ≠ h → t.herd j = s.herd j) ∧ t.lots = s.lots ∧ t.tahr = s.tahr)

/-! ## Chapter 9: lanes and frames -/

/-- LANE_LOCK, LANE_TRAIN_TIMEOUT, LANE_LIGHT_LOST, PROBE_TIMER, PROBE_FRAME, IDLE_FRAME, FRAME_CRC_FAIL, SPARE_RETURN, TEST_REQUEST and
CRC_LIMIT_REACHED (R269, R270, R281, R282, R283, R284, Tables 09.4 to 09.6): a lane moves between the states of Table 09.6 alone. A lane that
has left ACTIVE holds no frame while another lane of its dimension is ACTIVE. A working lane that fails calls the lowest spare in
STANDBY. A frame that fails its CRC counts as an error whether the lane searches or not, one whose codewords the decoder corrects does
not fail (R267). Its probe carries the address, the lane and the echo of the
last probe received.
Where the spec leaves a point of this open it follows the model's choice (log entries 16, 37, 98, 113, 139, 140, 144 and 158). -/
def Obligations.LanesFollowTheStateTable : Prop :=
  (∀ (n : LaneId) (s : State), s.pins.pwrGood = true → (s.laneAt n).st = .train →
      (∃ t, exec (.laneLock n) s = .next t ∧ t.laneAt n = { s.laneAt n with
            st := .probe, hunting := true, goods := 0, fails := 0, line := { scram := Config.lineSeed s.freeCtr }
            descram := Config.lineSeed (s.freeCtr + 1) }
        ∧ t.dims = s.dims ∧ s.onlyLane n { t with freeCtr := s.freeCtr })
      ∧ (∃ t, exec (.laneTrainTimeout n) s = .next t ∧ t.laneAt n = { s.laneAt n with noPeer := true }
        ∧ { t with lanes := s.lanes } = s ∧ s.onlyLane n t)
      ∧ ∃ t, exec (.laneLightLost n) s = .next t ∧ t.laneAt n = s.laneAt n)
  ∧ (∀ (n : LaneId) (s : State), s.pins.pwrGood = true → (s.laneAt n).locked = true → (s.laneAt n).st ≠ .mismatch →
      ∃ t, exec (.laneLightLost n) s = .next t ∧ (t.laneAt n).st = .train
      ∧ (∀ d, (s.laneAt n).dimId = some d → (s.laneAt n).st = .active → (∃ m ∈ s.activeLanes d.val, m ≠ n) →
          (t.dimAt d).held.length = (s.dimAt d).held.length ∧ ∀ f ∈ (t.dimAt d).held, f.lane ≠ n)
      ∧ (∀ d, (s.laneAt n).dimId = some d → (∀ m ∈ s.lanesOf d.val, m ≠ n → (s.laneAt m).locked = false
            ∧ (s.laneAt m).st ≠ .test) →
          (t.dimAt d).hop = .none ∧ (t.dimAt d).hk = none ∧ t.slot (12 + d.val) = {}))
  ∧ (∀ (n : LaneId) (s : State), s.pins.pwrGood = true → (s.laneAt n).st = .mismatch →
      exec (.laneLightLost n) s = .next s)
  ∧ (∀ (n : LaneId) (s : State), s.pins.pwrGood = true → (s.laneAt n).st = .test → ∃ t, exec (.laneLightLost n) s = .next t
      ∧ (t.laneAt n).st = .failed ∧ (∀ x ∈ t.repair.tests, x.part ≠ .lane n)
      ∧ ∀ d m, (s.laneAt n).dimId = some d → (s.laneAt n).spare = false → (s.laneAt n).called = false →
          ((s.lanesOf d.val).filter fun k => (s.laneAt k).spare).find? (fun k => (s.laneAt k).st == .standby) = some m →
          (t.laneAt m).st = .active ∧ (t.laneAt m).called = true ∧ (t.laneAt n).called = true)
  ∧ (∀ (n : LaneId) (s : State), s.pins.pwrGood = true → (s.laneAt n).st = .probe → ∃ t, exec (.probeTimer n) s = .next t
      ∧ (let x := s.laneAt n
         t.laneAt n = x.put (.probe (s.probeOf n)) ∧ (t.laneAt n).sentCount = x.sentCount + 1
         ∧ (t.laneAt n).out = some (frameBytes (bareFrame 5 (probeBytes (s.probeOf n))))
         ∧ (s.probeOf n).addr = s.cubeAddr ∧ (s.probeOf n).lane.toNat = n.val ∧ (s.probeOf n).dim = x.dim
         ∧ (∀ a l, x.last = some (a, l) → (s.probeOf n).echoV = true ∧ (s.probeOf n).echoAddr = a ∧ (s.probeOf n).echoLane = l)
         ∧ (x.last = none → (s.probeOf n).echoV = false))
      ∧ { t with lanes := s.lanes } = s ∧ s.onlyLane n t)
  ∧ (∀ (n : LaneId) (s : State), s.pins.pwrGood = true → (s.laneAt n).locked = true →
      (let x := s.laneAt n
       let good := if x.hunting then
           { x.took with fails := 0, goods := if 3 ≤ x.goods then 0 else x.goods + 1, hunting := decide (x.goods < 3) }
         else { x.took with fails := 0 }
       let counted := fun (y : Lane) => { y with
         crcErr := satAdd x.crcErr 1
         errs := (x.errs.filter fun t => decide ((s.tb.now - t).toNat < 1000000)) ++ [s.tb.now] }
       let bad := { counted x.took with
         fails := if 3 ≤ x.fails then 0 else x.fails + 1
         hunting := x.hunting || decide (3 ≤ x.fails)
         goods := 0 }
       (∃ t, exec (.idleFrame n) s = .next t ∧ t.laneAt n = good ∧ { t with lanes := s.lanes } = s ∧ s.onlyLane n t)
       ∧ (∀ errs, rsCorrects errs = true → exec (.frameCrcFail n errs) s = .next s)
       ∧ (∀ errs, rsCorrects errs = false →
            ∃ t, exec (.frameCrcFail n errs) s = .next t ∧ t.laneAt n = bad ∧ { t with lanes := s.lanes } = s ∧ s.onlyLane n t)
       ∧ (∀ (f : Frame) (rest : List Nat), 7 ≤ f.type.toNat → ∃ t, exec (.dataFrame n f rest) s = .next t ∧ t.laneAt n = counted good
          ∧ { t with lanes := s.lanes } = s ∧ s.onlyLane n t)
       ∧ (∀ (p : Probe) (rtt : Nat), x.hunting = true → ∃ t, exec (.probeFrame n p rtt) s = .next t ∧ t.laneAt n = good
          ∧ { t with lanes := s.lanes } = s ∧ s.onlyLane n t)
       ∧ ∀ (p : Probe) (rtt : Nat), x.hunting = false → ∃ t, exec (.probeFrame n p rtt) s = .next t
          ∧ (let y := { x.took with
                       fails := 0, last := some (p.addr, p.lane), peerLane := p.lane, rtt := if p.echoV then rtt else x.rtt }
             let ok := p.addr = s.cubeAddr ^^^ (1 <<< x.dim.toNat) ∧ p.dim = x.dim ∧ p.profile = s.profile
               ∧ (s.profile = 3 → p.smallD = s.smallD) ∧ p.echoAddr = s.cubeAddr ∧ p.echoLane.toNat = n.val
             (p.echoV = false → t.laneAt n = y ∧ { t with lanes := s.lanes } = s)
             ∧ (p.echoV = true → ok → x.st ≠ .probe → t.laneAt n = y ∧ { t with lanes := s.lanes } = s)
             ∧ (∀ d, p.echoV = true → ok → x.st = .probe → x.dimId = some d → (t.laneAt n).st =
                  (if (s.dimAt d).hop ≠ .keyed then .ready else if x.spare && !x.called then .standby else .active))
             ∧ (p.echoV = true → ¬ok → (t.laneAt n).st = .mismatch)
             ∧ (p.echoV = true → ¬ok → x.st = .mismatch → t.laneAt n = y))))
  ∧ (∀ (n : LaneId) (d : DimId) (s : State), s.pins.pwrGood = true → (s.laneAt n).spare = true → (s.laneAt n).st = .active →
      (s.laneAt n).toStandby = true → (s.laneAt n).dimId = some d → (∀ f ∈ (s.dimAt d).held, f.lane ≠ n) →
      ∃ t, exec (.spareReturn n) s = .next t
      ∧ t.laneAt n = { s.laneAt n with st := .standby, toStandby := false, called := false } ∧ s.onlyLane n t
      ∧ ((∃ m ∈ s.activeLanes d.val, m ≠ n) → t.dims = s.dims))
  ∧ (∀ (n : LaneId) (s : State), s.pins.pwrGood = true →
      (s.laneAt n).testable = false ∨ (s.laneAt n).errs.length ≤ s.crcLimit.toNat → exec (.crcLimitReached n) s = .next s)
  ∧ (∀ (n : LaneId) (s : State), s.pins.pwrGood = true → (s.laneAt n).testable = true →
      s.crcLimit.toNat < (s.laneAt n).errs.length → ∃ t, exec (.crcLimitReached n) s = .next t ∧ (t.laneAt n).st = .test
      ∧ (t.laneAt n).errs = [] ∧ t.testOf (.lane n)
      ∧ (∀ d k, (s.laneAt n).dimId = some d → (s.dimAt d).hk = some k → (s.laneAt n).st ≠ .active ∨ (s.dimAt d).held = [] →
          (let sealed := fun (j : Nat) =>
             let c := (s.dimAt d).ctlSent.toNat + j
             let f : Frame := { bareFrame 4 (pay512 (leBytes 1 (s.laneAt n).peerLane.toNat)) with
               last := true, counter := BitVec.ofNat 64 c }
             let g := gcmSeal (ctlKey k (s.dirOut d) (c / 2 ^ 48)) (frameIv d.val (s.dirOut d) 0 1 c) (frameHead f) f.payload
             frameBytes { f with payload := g.1, tag := g.2 }
           (t.laneAt n).out = some (sealed 1)
           ∧ ∀ m, (s.activeLanes d.val).find? (fun q => q != n) = some m → (s.dimAt d).ctlSent.toNat + 2 < 2 ^ 64 →
               (t.laneAt m).out = some (sealed 2))))
  ∧ (∀ (n : LaneId) (d : DimId) (via : List Carried) (c : W64) (a : Bool) (s : State), s.pins.pwrGood = true →
      ((s.laneAt n).dimId = none → exec (.testRequest n via c a) s = .next s)
      ∧ ((s.laneAt n).dimId = some d → (s.carry d via).2 = false ∨ (s.carry d via).1.hopReady d = false →
          exec (.testRequest n via c a) s = .next (s.carry d via).1))
  ∧ (∀ (n : LaneId) (d : DimId) (via : List Carried) (c : W64) (s u : State), s.pins.pwrGood = true → (s.laneAt n).dimId = some d →
      s.carry d via = (u, true) → u.hopReady d = true →
      (let fresh := (u.dimAt d).hk ≠ none ∧ ∀ o, (u.dimAt d).ctlSeen = some o → o < c
       (∃ t, exec (.testRequest n via c false) s = .next t
          ∧ t.dimAt d = { u.dimAt d with authFail := satAdd (u.dimAt d).authFail 1 } ∧ { t with dims := u.dims } = u)
       ∧ (¬fresh → exec (.testRequest n via c true) s = .next u)
       ∧ (fresh → ∃ t, exec (.testRequest n via c true) s = .next t ∧ (t.dimAt d).ctlSeen = some c
          ∧ ((u.laneAt n).testable = true → (t.laneAt n).st = .test ∧ t.testOf (.lane n))
          ∧ ((u.laneAt n).testable = false → t.laneAt n = u.laneAt n ∧ { t with dims := u.dims } = u))))

/-- FRAME_SLOT, ACK_REPORT, ACK_TIMER and RESEND_TIMEOUT (R42, R269, R271, R272, R273, R274): each frame slot sends one frame: a PROBE in every
1,024th slot and always in MISMATCH, IDLE when nothing waits, else a sealed frame of the queue, which stays held until an acknowledgement of
its stream passes it and is sent again unchanged but for its ACK word. In SLOT mode a data frame leaves only in a slot of its herd.
DATA_FRAME, REDUCE_FRAME and BEAT_FRAME (R271, R290, R291, R293, R308, R400, R404, Tables 07.10 and 09.2): a frame below E, or one accepted before, is
discarded; one 1,024 or more above E counts as a CRC error; a frame of a herd that has no match here is dropped, and one that does not
open is counted, with its counter taken; while a lane searches for frame boundaries, no frame is used. The bytes of a DATA frame
reach the destination of its route; under DET 0 its way ends where nothing is left of it (R293). A DATA or REDUCE frame of a run that has
ended has no effect: its sender's last BEAT frame stands above it, or this unit's run stops (R291). The token of an accepted BEAT frame
waits for its slice round; one with a stop stops the run that is in progress.
Where the spec leaves a point of this open it follows the model's choice (log entries 70, 99, 100, 139, 141, 143 and 144). -/
def Obligations.FramesTravelOnceInOrder : Prop :=
  (∀ (n : LaneId) (s : State), s.pins.pwrGood = true → (s.laneAt n).locked = true → ∃ t, exec (.frameSlot n) s = .next t
      ∧ (t.laneAt n).sentCount = (s.laneAt n).sentCount + 1 ∧ (∀ m, m ≠ n → t.laneAt m = s.laneAt m)
      ∧ (let x := s.laneAt n
         let idle := some (frameBytes (bareFrame 0 (List.replicate 512 0)))
         (x.st = .mismatch ∨ x.sentCount % 1024 = 1023 →
            (t.laneAt n).out = some (frameBytes (bareFrame 5 (probeBytes (s.probeOf n))))
            ∧ { t with lanes := s.lanes } = s)
         ∧ (x.st ≠ .mismatch → x.sentCount % 1024 ≠ 1023 →
            (x.dimId = none → (t.laneAt n).out = idle)
            ∧ ∀ d, x.dimId = some d →
              ((s.dimAt d).queue = [] → (t.laneAt n).out = idle ∧ { t with lanes := s.lanes } = s)
              ∧ (1024 ≤ (s.dimAt d).held.length → (∀ o ∈ (s.dimAt d).queue, o.type ≠ 4 ∧ o.type ≠ 6) → x.st = .active →
                  (t.laneAt n).out = idle ∧ t.dims = s.dims)
              ∧ (∀ o, x.st = .ready ∨ x.st = .active → (s.dimAt d).queue = [o] → o.type = 6 → o.clear = true →
                  (s.dimAt d).ackDue = [] → (t.laneAt n).out = some (frameBytes { bareFrame 6 o.payload with
                    last := o.last, item := o.item, offset := o.offset, counter := (s.dimAt d).ctlSent + 1 })
                  ∧ (t.dimAt d).queue = [] ∧ (t.dimAt d).held = (s.dimAt d).held)
              ∧ (∀ o k, x.st = .active → (s.dimAt d).queue = [o] → o.type = 3 → (s.dimAt d).hk = some k →
                  (s.dimAt d).held.length < 1024 → (s.dimAt d).ackDue = [] →
                  (let c := (s.stream d o.herd).sendCtr
                   let f : Frame := { type := 3, herd := BitVec.ofNat 5 o.herd.val, last := o.last, item := o.item
                                      offset := o.offset, counter := c, payload := o.payload, tag := List.replicate 16 0
                                      ack := 0, ackV := false, ackHerd := 0 }
                   let g := gcmSeal (s.subKey k o.herd (s.dirOut d) (c.toNat / 2 ^ 48))
                     (frameIv d.val (s.dirOut d) o.herd.val 0 c.toNat) (frameHead f) o.payload
                   (t.laneAt n).out = some (frameBytes { f with payload := g.1, tag := g.2 })
                   ∧ (t.dimAt d).queue = []
                   ∧ (t.dimAt d).held = (s.dimAt d).held ++
                      [{ herd := o.herd, frame := { f with payload := g.1, tag := g.2 }, lane := n }]
                   ∧ (t.stream d o.herd).sendCtr = c + 1))
              ∧ (∀ o, x.st = .active → (s.dimAt d).queue = [o] → o.type = 1 ∨ o.type = 2 → (s.dimAt d).held.length < 1024 →
                  (let ws := if x.arbPos = 0 then s.arbNow else x.arb
                   (s.arbSlot = true → slotOwner ws x.arbPos ≠ some o.herd → (t.laneAt n).out = idle
                      ∧ (t.laneAt n).arbPos = slotNext ws x.arbPos ∧ (t.laneAt n).arb = ws ∧ t.dims = s.dims)
                   ∧ (s.arbSlot = true → slotOwner ws x.arbPos = some o.herd → (s.dimAt d).hk ≠ none →
                      (t.laneAt n).arbPos = slotNext ws x.arbPos ∧ (t.laneAt n).arb = ws ∧ (t.dimAt d).queue = []
                      ∧ (t.dimAt d).held.length = (s.dimAt d).held.length + 1)
                   ∧ (s.arbSlot = false → (s.weights.get 0x10 o.herd.val).toNat ≠ 0 → (s.dimAt d).hk ≠ none →
                      (t.dimAt d).queue = [] ∧ (t.dimAt d).held.length = (s.dimAt d).held.length + 1))))))
  ∧ (∀ (n : LaneId) (h : HerdId) (a : BitVec 26) (c : W64) (s : State), s.pins.pwrGood = true → (s.laneAt n).locked = true →
      (s.laneAt n).hunting = true ∨ (∃ d, (s.laneAt n).dimId = some d ∧
          ((s.dimAt d).hk = none ∨ ∃ o, (s.dimAt d).ctlSeen = some o ∧ c ≤ o)) →
      ∃ t, exec (.ackReport n h a c true) s = .next t ∧ { t with lanes := s.lanes } = s ∧ s.onlyLane n t)
  ∧ (∀ (n : LaneId) (d : DimId) (h : HerdId) (a : BitVec 26) (c : W64) (s : State), s.pins.pwrGood = true →
      (s.laneAt n).locked = true → (s.laneAt n).hunting = false → (s.laneAt n).dimId = some d →
      ∃ t, exec (.ackReport n h a c false) s = .next t
        ∧ t.dimAt d = { s.dimAt d with authFail := satAdd (s.dimAt d).authFail 1 } ∧ s.onlyLane n t
        ∧ { t with dims := s.dims, lanes := s.lanes } = s)
  ∧ (∀ (n : LaneId) (d : DimId) (h : HerdId) (a : BitVec 26) (c : W64) (s : State), s.pins.pwrGood = true →
      (s.laneAt n).locked = true → (s.laneAt n).hunting = false → (s.laneAt n).dimId = some d → (s.dimAt d).hk ≠ none →
      (∀ o, (s.dimAt d).ctlSeen = some o → o < c) → ∃ t, exec (.ackReport n h a c true) s = .next t
      ∧ (∀ f, f ∈ (t.dimAt d).held ↔ f ∈ (s.dimAt d).held ∧ ¬passedBy h a f)
      ∧ ((∀ f ∈ (s.dimAt d).held, passedBy h a f → f.frame.type ≠ 1) → t.herds = s.herds)
      ∧ (t.dimAt d).ctlSeen = some c
      ∧ { t.dimAt d with held := (s.dimAt d).held, ctlSeen := (s.dimAt d).ctlSeen } = s.dimAt d
      ∧ (∀ e, e ≠ d → t.dimAt e = s.dimAt e) ∧ t.laneAt n = { (s.laneAt n).took with fails := 0 } ∧ (∀ m, m ≠ n → t.laneAt m = s.laneAt m)
      ∧ { t with dims := s.dims, herds := s.herds, lanes := s.lanes } = s)
  ∧ (∀ (d : DimId) (s : State), s.pins.pwrGood = true → (s.dimAt d).ackDue ≠ [] → ∃ t, exec (.ackTimer d) s = .next t
      ∧ (∃ o, (t.dimAt d).queue = (s.dimAt d).queue ++ [o] ∧ o.type = 4 ∧ o.clear = false ∧ o.payload = List.replicate 512 0)
      ∧ (t.dimAt d).ackDue = (s.dimAt d).ackDue ∧ (∀ e, e ≠ d → t.dimAt e = s.dimAt e) ∧ { t with dims := s.dims } = s)
  ∧ (∀ (d : DimId) (k : Nat) (f : HeldFrame) (s : State), s.pins.pwrGood = true → (s.dimAt d).held[k]? = some f →
      s.dimUp d.val = true → ∃ t, exec (.resendTimeout d k) s = .next t ∧ ∃ m, m ∈ s.activeLanes d.val
      ∧ (∃ g : Frame, (t.laneAt m).out = some (frameBytes g)
          ∧ { g with ack := f.frame.ack, ackV := f.frame.ackV, ackHerd := f.frame.ackHerd } = f.frame
          ∧ (∀ p r, (s.dimAt d).ackDue = p :: r → g.ackV = true ∧ g.ackHerd = p
              ∧ g.ack = ((s.streams.get {} (d.val * 32 + p.toNat)).e).setWidth 26 ∧ (t.dimAt d).ackDue = r)
          ∧ ((s.dimAt d).ackDue = [] → g.ackV = false))
      ∧ (t.dimAt d).held = (s.dimAt d).held.set k { f with lane := m } ∧ (∀ q, q ≠ m → t.laneAt q = s.laneAt q)
      ∧ (∀ e, e ≠ d → t.dimAt e = s.dimAt e)
      ∧ { t with dims := s.dims, lanes := s.lanes, meterDue := s.meterDue } = s)
  ∧ ((∀ (n : LaneId) (f : Frame) (rest : List Nat) (tok : BeatToken) (s : State), s.pins.pwrGood = true → (s.laneAt n).locked = true →
       (s.laneAt n).dimId ≠ none → (s.laneAt n).hunting = true →
       ∀ c ∈ [(1, Instr.dataFrame n f rest), (2, .reduceFrame n f), ((3 : BitVec 4), .beatFrame n f tok)], f.type = c.1 →
         ∃ t, exec c.2 s = .next t ∧ s.onlyLane n t ∧ { t with lanes := s.lanes } = s)
     ∧ ∀ (n : LaneId) (d : DimId) (f : Frame) (rest : List Nat) (tok : BeatToken) (s : State), s.pins.pwrGood = true →
       (s.laneAt n).locked = true → (s.laneAt n).dimId = some d → (s.laneAt n).hunting = false → f.ackV = false →
       (let key := d.val * 32 + f.herd.toNat
        let st := s.streams.get {} key
        let x := s.laneAt n
        let y := { x.took with fails := 0 }
        ∀ c ∈ [(1, Instr.dataFrame n f rest), (2, .reduceFrame n f), ((3 : BitVec 4), .beatFrame n f tok)], f.type = c.1 →
         (f.counter < st.e ∨ f.counter ∈ st.seen → ∃ t, exec c.2 s = .next t ∧ t.laneAt n = y ∧ s.onlyLane n t
           ∧ { t with lanes := s.lanes } = s)
         ∧ (st.e.toNat + 1024 ≤ f.counter.toNat → f.counter ∉ st.seen → ∃ t, exec c.2 s = .next t
           ∧ t.laneAt n = { y with crcErr := satAdd x.crcErr 1
                                   errs := (x.errs.filter fun t => decide ((s.tb.now - t).toNat < 1000000)) ++ [s.tb.now] }
           ∧ s.onlyLane n t ∧ { t with lanes := s.lanes } = s)
         ∧ (st.e ≤ f.counter → f.counter.toNat < st.e.toNat + 1024 → f.counter ∉ st.seen → ∃ t, exec c.2 s = .next t
           ∧ t.laneAt n = y ∧ (∀ m, m ≠ n → t.laneAt m = s.laneAt m)
           ∧ (let z := t.streams.get {} key
              (st.seen = [] → f.counter = st.e → z = { st with e := st.e + 1, cut := z.cut, halted := z.halted })
              ∧ (f.counter ≠ st.e → st.e ∉ st.seen → z = { st with seen := f.counter :: st.seen, cut := z.cut, halted := z.halted })
              ∧ (c.1 ≠ 3 → z.cut = st.cut ∧ z.halted = st.halted))
           ∧ (∀ j, j ≠ key → t.streams.get {} j = s.streams.get {} j)
           ∧ ((s.dimAt d).hk ≠ none → (s.dimAt d).map.get 0 f.herd.toNat = 0 →
               { t with lanes := s.lanes, streams := s.streams, dims := s.dims } = s ∧ (t.dimAt d).authFail = (s.dimAt d).authFail)
           ∧ (∀ (hk : W256) (h : HerdId), (s.dimAt d).hk = some hk → (s.dimAt d).map.get 0 f.herd.toNat = h.val + 1 →
               (let o := gcmOpen (s.subKey hk h (1 - s.dirOut d) (f.counter.toNat / 2 ^ 48))
                  (frameIv d.val (1 - s.dirOut d) f.herd.toNat 0 f.counter.toNat) (frameHead f) f.payload f.tag
                ((s.herd h).st ≠ .live ∨ o = none → (t.dimAt d).authFail = satAdd (s.dimAt d).authFail 1
                   ∧ { t with lanes := s.lanes, streams := s.streams, dims := s.dims } = s)
                ∧ (c.1 ≠ 3 → s.current h d f = false → t.mem = s.mem ∧ t.herds = s.herds)
                ∧ (∀ p m e, (s.herd h).st = .live → o = some p → c.1 = 1 → s.current h d f = true → (s.herd h).active = true →
                   s.plan h = some m → m.routes[f.item.toNat]? = some e → ∀ b, (s.herd h).sliceBit d = some b →
                   (∀ v, (m.det = true ∧ routeOrder e = [b] ∧ routeSends e (s.slicePos (s.herd h) ^^^ 2 ^ b) = true)
                       ∨ (m.det = false ∧ rest = [] ∧ routeTakes e (s.slicePos (s.herd h)) = true) → 512 * f.offset.toNat < e.bytes →
                     s.runWr h (e.dst + 512 * f.offset.toNat) (p.take (min 512 (e.bytes - 512 * f.offset.toNat))) = (v, stOK) →
                     t.mem = v.mem ∧ (t.herd h).seq = (s.herd h).seq ∧ ((t.herd h).routes.get {} f.item.toNat).got
                       = ((s.herd h).routes.get {} f.item.toNat).got + min 512 (e.bytes - 512 * f.offset.toNat)))
                ∧ (∀ p, (s.herd h).st = .live → o = some p → c.1 = 3 →
                   (let z := t.streams.get {} key
                    (gentleStop tok = false ∧ st.cut < f.counter → z.cut = f.counter ∧ z.halted = tok.stop)
                    ∧ (gentleStop tok = true ∨ f.counter ≤ st.cut → z.cut = st.cut ∧ z.halted = st.halted))
                   ∧ (∀ b, tok.stop = false ∨ (s.herd h).run = none → (s.herd h).sliceBit d = some b →
                     t.herd h = { s.herd h with tokens := (s.herd h).tokens ++ [(b, tok)] } ∧ (∀ k, k ≠ h → t.herd k = s.herd k))
                   ∧ (∀ r g, tok.stop = true → (s.herd h).run = some r → tok.faults = [g] →
                     (t.herd h).seq = .stopping ∧ ∃ q, (t.herd h).run = some q ∧ q.faults = r.faults ++ [g])))))))

/-! ## Chapter 16: interrupt controllers -/

/-- IC_CLAIM (R457, R461): a target that holds a source reads that source again; else the lowest-numbered eligible source
becomes active for it, its latched edge is used up, and its group is held off where a hold-off is set; without an
eligible source, or once GDIS has withdrawn the request (Table 16.17), the claim reads 1023 once after a request was raised, and 0
otherwise. A target that the controller does
not have reads 0.
IC_COMPLETE (R458): the target's active source ends when it is the source written; any other write is ignored.
IC_EDGE, IC_CTRL_WRITE and IC_HOLDOFF_EXPIRY (R455, R460, R461): an edge becomes pending at its source and merges with
one already latched; a write of IC_CTRL takes GDIS, VECTOR and VECTOR_BASE and leaves what is pending; a hold-off that
ends frees its group. IC_VECTOR_DELIVER (R459): a raised request in vector mode marks the winning source active, as a
claim does, and hands the target VECTOR_BASE + 16 x s.
Where the spec leaves a point of this open it follows the model's choice (log entries 13 and 15). -/
def Obligations.InterruptControllersArbitrate : Prop :=
  (∀ (c : IcId) (k : Fin 5) (s : State), s.pins.pwrGood = true → ∃ t, exec (.icClaim c k) s = .next t
     ∧ { t with ics := s.ics, reply := s.reply } = s
     ∧ (∀ j, j ≠ icIdx c → t.icAt j = s.icAt j)
     ∧ (let x := s.icAt (icIdx c)
        let y := t.icAt (icIdx c)
        (icTargets (icIdx c) ≤ k.val → t.reply = leBytes 4 0 ∧ t.ics = s.ics)
        ∧ (k.val < icTargets (icIdx c) →
           (∀ n, x.active.get 0 k.val = n + 1 → t.reply = leBytes 4 n ∧ t.ics = s.ics)
           ∧ (x.active.get 0 k.val = 0 → x.gdis = true → x.raised.get false k.val = true → y.active = x.active ∧ y.edge = x.edge
               ∧ y.held = x.held ∧ y.raised.get false k.val = false ∧ t.reply = leBytes 4 1023)
           ∧ (x.active.get 0 k.val = 0 → s.icBest (icIdx c) k.val = none → y.active = x.active ∧ y.edge = x.edge
               ∧ y.held = x.held ∧ y.raised.get false k.val = false
               ∧ t.reply = leBytes 4 (if x.raised.get false k.val then 1023 else 0))
           ∧ ∀ n, x.active.get 0 k.val = 0 → x.gdis = false ∨ x.raised.get false k.val = false → s.icBest (icIdx c) k.val = some n →
               t.reply = leBytes 4 n ∧ y.active.get 0 k.val = n + 1
               ∧ (∀ j, j ≠ k.val → y.active.get 0 j = x.active.get 0 j)
               ∧ (∀ e, y.edge.get false e = (x.edge.get false e && !(decide (e = n) && !icLevel (icIdx c) n)))
               ∧ (∀ g, y.held.get false g =
                   (x.held.get false g || (decide (g = icGroup (icIdx c) n) && x.holdoff.get 0 g != 0)))
               ∧ { y with active := x.active, edge := x.edge, held := x.held, raised := x.raised } = x)))
  ∧ (∀ (c : IcId) (k : Fin 5) (src : BitVec 10) (s : State), s.pins.pwrGood = true →
       ∃ t, exec (.icComplete c k src) s = .next t
         ∧ { t with ics := s.ics } = s
         ∧ (let x := s.icAt (icIdx c)
            let y := t.icAt (icIdx c)
            (k.val < icTargets (icIdx c) → x.active.get 0 k.val = src.toNat + 1 →
               y.active.get 0 k.val = 0 ∧ (∀ j, j ≠ k.val → y.active.get 0 j = x.active.get 0 j) ∧ y.edge = x.edge
               ∧ y.enable = x.enable ∧ y.held = x.held)
            ∧ (icTargets (icIdx c) ≤ k.val ∨ x.active.get 0 k.val ≠ src.toNat + 1 → t = s)))
  ∧ (∀ (c : IcId) (src : Fin 512) (s : State), s.pins.pwrGood = true → icSource (icIdx c) src.val = true →
        icLevel (icIdx c) src.val = false → ∃ t, exec (.icEdge c src) s = .next t ∧ { t with ics := s.ics } = s
        ∧ (∀ n, (t.icAt (icIdx c)).edge.get false n = (decide (n = src.val) || (s.icAt (icIdx c)).edge.get false n))
        ∧ (t.icAt (icIdx c)).active = (s.icAt (icIdx c)).active ∧ (t.icAt (icIdx c)).held = (s.icAt (icIdx c)).held)
  ∧ (∀ (c : IcId) (v : W32) (s : State), s.pins.pwrGood = true → ∃ t, exec (.icCtrlWrite c v) s = .next t
      ∧ { t with ics := s.ics } = s
      ∧ (let x := s.icAt (icIdx c)
         let y := t.icAt (icIdx c)
         y.gdis = v.getLsbD 0 ∧ y.vector = v.getLsbD 1 ∧ y.vectorBase.toNat = v.toNat / 2 ^ 14
         ∧ { y with gdis := x.gdis, vector := x.vector, vectorBase := x.vectorBase, raised := x.raised } = x
         ∧ (v.getLsbD 0 = true → ∀ k, t.icRequest (icIdx c) k = false)))
  ∧ (∀ (c : IcId) (g : Fin 16) (s : State), s.pins.pwrGood = true → (s.icAt (icIdx c)).held.get false g.val = true →
    ∃ t, exec (.icHoldoffExpiry c g) s = .next t ∧ { t with ics := s.ics } = s
      ∧ (∀ n, (t.icAt (icIdx c)).held.get false n = ((s.icAt (icIdx c)).held.get false n && decide (n ≠ g.val)))
      ∧ (t.icAt (icIdx c)).active = (s.icAt (icIdx c)).active ∧ (t.icAt (icIdx c)).edge = (s.icAt (icIdx c)).edge)
  ∧ (∀ (c : IcId) (k : Fin 5) (n : Nat) (s : State), s.pins.pwrGood = true → k.val < icTargets (icIdx c) →
      (s.icAt (icIdx c)).vector = true → s.icRequest (icIdx c) k.val = true → s.icBest (icIdx c) k.val = some n →
    ∃ t, exec (.icVectorDeliver c k) s = .next t ∧ { t with ics := s.ics } = s
      ∧ (let x := s.icAt (icIdx c)
         let y := t.icAt (icIdx c)
         y.active.get 0 k.val = n + 1 ∧ (∀ j, j ≠ k.val → y.active.get 0 j = x.active.get 0 j)
         ∧ y.entry.get 0 k.val = BitVec.ofNat 32 (x.vectorBase.toNat * 16384 + 16 * n)
         ∧ (icLevel (icIdx c) n = false → y.edge.get false n = false)
         ∧ { y with active := x.active, edge := x.edge, held := x.held, entry := x.entry } = x))

/-! ## Chapters 17 and 18: power, resets and images -/

/-- POWER_GOOD (Tables 14.1, 16.17, 17.1 and 18.11, R20, R421, R435, R436, R445, R446, R484, R498, R499, R500): with PWR_EN asserted, the
regulators free to start and P56 within 48 V to 60 V, a rise of PWR_GOOD is a cold boot: memories, herds, lots, lanes and registers are cleared, fuses and Serow's
registers stay, and the boot counter advances. With TEST lands set Tahr halts with FAIL 9; with no pending intent it waits
for an image with the keys of DeviceID in slots 0 and 1, or, SCRAPPED or INVALID, halts with FAIL 8; a boot count that
cannot be written halts it with FAIL 7, and a leaf-state copy that `mram` shows invalid is not used. A tamper condition that
holds marks the unit TAMPERED. A unit without a tenant root that is not TAMPERED draws one. C_HOLD is the charge of the load step over its
droop. Each shutdown since the last boot is counted. A block whose test is still due stays fenced.
Where the spec leaves a point of this open it follows the model's choice (log entries 17, 18, 20, 21, 22, 23, 27, 136 and 168). -/
def Obligations.PowerGoodIsAColdBoot : Prop :=
  (∀ (light boot : Bool) (test : BitVec 4) (c m : BitVec 3) (v : BitVec 16) (droop : Nat) (s : State),
    v.toNat < 4800 ∨ 6000 < v.toNat ∨ s.pins.pwrEn = false ∨ s.pins.blocked = true →
      exec (.powerGood light boot test c m v droop) s = .next s)
  ∧ ∀ (light boot : Bool) (test : BitVec 4) (c m : BitVec 3) (v : BitVec 16) (droop : Nat) (s : State), s.pins.pwrEn = true →
    s.pins.pwrGood = false → s.pins.blocked = false → c.toNat < 6 → 4800 ≤ v.toNat → v.toNat ≤ 6000 →
    ∃ t, exec (.powerGood light boot test c m v droop) s = .next t
      ∧ t.serow.vin = v ∧ (droop ≠ 0 → t.serow.cHold = 200000000000 / droop) ∧ t.serow.p56 = 0 ∧ t.serow.holdup = 0
      ∧ t.repair.tests = s.repair.tests
      ∧ (∀ q ∈ s.repair.tests, ∀ b, partBlock q.part = some b → (t.block b).fenced = true ∧ (t.block b).fault = (s.block b).fault)
      ∧ t.pins.pwrGood = true ∧ t.pins.bootSrcString = boot
      ∧ t.mem = {} ∧ t.lots = {} ∧ t.herds = {} ∧ t.wins = {} ∧ t.lanes = {} ∧ t.streams = {} ∧ t.ide = {} ∧ t.cfg = {}
      ∧ t.tahr.bootCount = (if m.getLsbD 0 then s.tahr.bootCount else s.tahr.bootCount + 1)
      ∧ t.tb.light = light ∧ t.tb.now = 0 ∧ t.tb.mode = (if light then .free else .master) ∧ t.tb.posValid = !light
      ∧ (c ≠ 0 → t.serow.tampered = true ∧ t.serow.cause = c)
      ∧ (test ≠ 0 → t.tahr.st = 4 ∧ t.tahr.fail = 9)
      ∧ (test = 0 → m.getLsbD 0 = true → t.tahr.st = 4 ∧ t.tahr.fail = 7)
      ∧ (test = 0 → m.getLsbD 0 = false → s.pendingIntent = none → s.lcState < 4 →
          t.tahr.st = 1 ∧ t.lc.rights = (if s.lcState = 0 then 0x3F else 0) ∧ t.tahr.imgAsked = (if boot && light then 1 else 0)
          ∧ (t.slot 0).valid = true ∧ (t.slot 0).secret = (devidTree s.devidKey 0).secret
          ∧ (t.slot 1).secret = hkdfExpand s.devidKey (ascii "FV20-VENDOR"))
      ∧ (test = 0 → m.getLsbD 0 = false → s.pendingIntent = none → 4 ≤ s.lcState → t.tahr.st = 4 ∧ t.tahr.fail = 8)
      ∧ (test = 0 → m.getLsbD 0 = false → ∀ k, k < 2 →
          (m.getLsbD (k + 1) = true → (t.tahr.recs.get {} (s.lcState * 2 + k)).ok = false)
          ∧ (m.getLsbD (k + 1) = false → t.tahr.recs.get {} (s.lcState * 2 + k) = s.tahr.recs.get {} (s.lcState * 2 + k)))
      ∧ (∀ k, s.serow.root = some k → t.serow.root = some k)
      ∧ (test = 0 → m.getLsbD 0 = false → s.serow.root = none → c = 0 → s.serow.latent = none → t.serow.root ≠ none ∧ t.tahr.rootNew = true)
      ∧ t.serow.trips = [] ∧ t.serow.tripCount = satAdd s.serow.tripCount s.serow.trips.length
      ∧ t.serow.tripCause = s.serow.trips.getLast?.getD s.serow.tripCause
      ∧ t.hostMem = s.hostMem ∧ t.pending = s.pending ∧ t.repair.moved = s.repair.moved ∧ t.repair.pages = s.repair.pages

/-- PERST_ASSERT and PERST_RELEASE (R12, R278, R371, R480, R484, R492, R519, Tables 13.6 and 17.9): a warm reset returns the PERST-domain
registers to their reset values, windows FREE and lots unassigned and zero among them, takes the link down, and leaves no herd LIVE; the
timebase, the boot counter, Serow, the fuses and the image requests received stay, as do words held for registers of domain POR. A unit
without light on S_IN takes position 0, one with light that of a beacon heard since S_IN changed. Without PWR_GOOD only the land
changes.
RAIL_FAULT, INPUT_VOLTAGE_FAULT, THERMAL_TRIP, PWR_EN_ASSERT and PWR_EN_DEASSERT (R479, R496, R498, R499, R503, R507): a
shutdown turns every rail but Serow's off, and Serow records its cause, if there was a rail on and PWR_EN was asserted; after a trip or an
input voltage fault the regulators stay off, and THERM_TRIP_n low, until PWR_EN has been low. With neither supply present both lands read
high.
Where the spec leaves a point of this open it follows the model's choice (log entries 17, 19, 20, 28, 122 and 152). -/
def Obligations.WarmResetsAndShutdowns : Prop :=
  (∀ s : State, s.pins.pwrGood = true → ∃ t, exec .perstAssert s = .next t ∧ t.pins = { s.pins with perst := true }
      ∧ t.linkUp = false ∧ t.cfg = {} ∧ t.power.point = 2 ∧ t.power.limitW = 0xE10 ∧ t.weights = {} ∧ t.operWeight = 0x10
      ∧ t.arbSlot = false ∧ t.wdogUs = 0x00C8 ∧ t.linkTimeoutMs = 0x0064 ∧ t.numVfs = 0 ∧ t.vfEnable = false
      ∧ t.denied = 0 ∧ t.meters = {} ∧ t.linkIds = {} ∧ t.macFail = 0 ∧ t.badNodeCnt = 0 ∧ t.profile = 0 ∧ t.smallD = 0
      ∧ t.dimEn = 0x7FFF ∧ t.pod = 0 ∧ t.spareDim = 0xFFFF_FFFF ∧ t.crcLimit = 0x10 ∧ t.cubeAddr = 0 ∧ t.addrValid = false
      ∧ t.lanes = {} ∧ t.dims = {} ∧ t.streams = {} ∧ t.copies = [] ∧ t.repair.repeatMs = 0x03E8 ∧ t.repair.unitFault = false
      ∧ t.lc.rights = 0 ∧ t.tahr.reqBusy = false ∧ t.tahr.form = none
      ∧ t.doeError = false ∧ t.tahr.imageLen = 0
      ∧ (∀ h : HerdId, (t.herd h).st ≠ .live ∧ (t.herd h).seq = .empty
          ∧ ((s.herd h).st = .absent → (t.herd h).keysGone = false))
      ∧ (∀ w, (t.win w).st = 0) ∧ (∀ n, t.lot n = {})
      ∧ (∀ n, n < 1008 → s.lot n ≠ {} → ∀ i, i < lotBytes → t.mem.read (lotAddr n 0 + i) = 0)
      ∧ t.aer = 0 ∧ t.heldLow = s.heldLow.filter inPor ∧ t.latchedHigh = s.latchedHigh.filter inPor
      ∧ (∀ q ∈ t.repair.tests, ∀ n, q.part ≠ .lane n) ∧ t.tahr.imgRequests = s.tahr.imgRequests
      ∧ (s.tb.light = false → t.tb.position = 0 ∧ t.tb.posValid = true ∧ t.tb.stringFault = false)
      ∧ (∀ p, s.tb.light = true → s.tb.beacon = some p → t.tb.position = p + 1 ∧ t.tb.posValid = true ∧ t.tb.stringFault = false)
      ∧ (s.tb.light = true → s.tb.beacon = none → t.tb.posValid = false ∧ t.tb.stringFault = s.tb.stringFault)
      ∧ t.tb.now = s.tb.now ∧ t.tb.mode = s.tb.mode ∧ t.tahr.bootCount = s.tahr.bootCount ∧ t.serow = s.serow
      ∧ t.lc.fuseState = s.lc.fuseState ∧ t.hbm = s.hbm ∧ t.pending = s.pending)
  ∧ (∀ s : State, s.pins.pwrGood = false → exec .perstAssert s = .next { s with pins := { s.pins with perst := true } })
  ∧ (∀ s : State, exec .perstRelease s = .next { s with pins := { s.pins with perst := false } })
  ∧ (∀ s : State, s.pins.pwrGood = true → ∃ t, exec .railFault s = .next t ∧ t.pins = { s.pins with pwrGood := false, hot95 := false }
        ∧ t.serow = { s.serow with tampered := false, cause := 0, p56 := 0, holdup := 0
                                   trips := if s.pins.railsOn then s.serow.trips ++ [5] else s.serow.trips } ∧ t.mem = {} ∧ t.herds = {} ∧ t.slots = {}
        ∧ t.hostMem = s.hostMem)
  ∧ (∀ (tooHigh : Bool) (s : State), s.pins.pwrEn = true → ∃ t, exec (.inputVoltageFault tooHigh) s = .next t
      ∧ t.pins.pwrGood = false ∧ t.pins.pwrEn = true ∧ t.pins.blocked = true ∧ t.pins.thermTrip = s.pins.thermTrip
      ∧ t.serow.trips = (if s.pins.blocked then s.serow.trips else s.serow.trips ++ [if tooHigh then 3 else 4])
      ∧ t.serow.root = s.serow.root
      ∧ (s.pins.pwrGood = true → t.mem = {} ∧ t.herds = {} ∧ t.slots = {})
      ∧ (s.pins.pwrGood = false → { t with pins := s.pins, serow := s.serow } = s) ∧ t.hostMem = s.hostMem)
  ∧ (∀ s : State, s.pins.pwrEn = false → exec (.inputVoltageFault false) s = .next s
      ∧ (s.pins.pwrGood = false → exec (.inputVoltageFault true) s = .next { s with pins := { s.pins with blocked := true } }))
  ∧ (∀ (hbm : Bool) (s : State), ∃ t, exec (.thermalTrip hbm) s = .next t
      ∧ t.pins.pwrGood = false ∧ t.pins.blocked = true ∧ t.pins.thermTrip = true ∧ t.pins.pwrEn = s.pins.pwrEn
      ∧ (let l := if s.pins.railsOn then s.serow.trips ++ [if hbm then 2 else 1] else s.serow.trips
         (s.pins.pwrGood = true → t.serow = { s.serow with tampered := false, cause := 0, p56 := 0, holdup := 0, trips := l }
            ∧ t.mem = {} ∧ t.herds = {} ∧ t.slots = {})
         ∧ (s.pins.pwrGood = false → t = { s with pins := t.pins, serow := { s.serow with trips := l } }))
      ∧ t.hostMem = s.hostMem)
  ∧ (∀ s : State, exec .pwrEnAssert s = .next (if s.pins.pwrEn then s else
      { s with pins := { s.pins with pwrEn := true, blocked := false, thermTrip := false } }))
  ∧ (∀ s : State, (s.pwrGoodLand = true ↔ s.pins.pwrGood = true ∨ (s.serow.vin = 0 ∧ s.serow.vbatMv = 0))
      ∧ (s.thermTripLand = true ↔ s.pins.thermTrip = false ∨ (s.serow.vin = 0 ∧ s.serow.vbatMv = 0)))
  ∧ (∀ s : State, ∃ t, exec .pwrEnDeassert s = .next t ∧ t.pins.pwrEn = false ∧ t.pins.pwrGood = false
      ∧ t.pins.blocked = s.pins.blocked ∧ t.pins.thermTrip = s.pins.thermTrip
      ∧ t.serow.trips = s.serow.trips ∧ t.serow.root = s.serow.root ∧ t.hostMem = s.hostMem
      ∧ (s.pins.pwrGood = true → t.mem = {} ∧ t.herds = {} ∧ t.slots = {})
      ∧ (s.pins.pwrGood = true → s.fuseBusy = false → t.lc.fuseState = s.lc.fuseState ∧ t.lc.kill = s.lc.kill)
      ∧ (s.pins.pwrGood = true → s.lc.svnWriting = true → t.lc.svnFuse = blowSvn s.lc.svnFuse)
      ∧ (s.pins.pwrGood = false → { t with pins := s.pins } = s))

/-- BEGIN, DATA, END and QUERY (R408, R434, R483, Table 17.3): BEGIN starts an image of TOTAL bytes and drops any partial one;
DATA places its bytes; END takes an image whose every byte has arrived, its first IMAGE_BYTES bytes into lots 1008 to 1011
and its signature into Tahr's SRAM; QUERY answers the status. A message that the state does not allow changes nothing and answers
REFUSED; one that arrives while another image is verified waits. A message comes in the link stream. IMAGE_REQUEST (R484) is counted
among those received, and is served once an image is held: the counters are the model's own (log entry 27).
IMAGE_VERIFY (R407, R408, R415, R418, R434, R483, Tables 14.3 and 14.4): the first check that fails names itself in FAIL, drops
the image and leaves Tahr waiting for another, or takes the one that waited; an image that passes every check is measured
and runs. While the entropy source fails, the load waits. An image that completes over the string, asked for upstream, is taken like one
of the mailbox, or waits while another is verified; one whose signature fails is asked for again.
Where the spec leaves a point of this open it follows the model's choice (log entries 22, 24, 25, 27, 97, 109 and 149). -/
def Obligations.RecoveryTakesAndVerifiesAnImage : Prop :=
  (∀ (c : Instr) (m : RecMsg) (s : State), s.reach .pf = true → s.tahr.st = 2 →
      (∃ n, c = .beginImage n ∧ m = .start n) ∨ (∃ o l, c = .data o l ∧ m = .data o l) ∨ (c = .endImage ∧ m = .finish) →
      exec c s = .next { s.ideTouch 0 with tahr := { s.tahr with imgWaits := s.tahr.imgWaits ++ [m] } })
  ∧ (∀ (n : W32) (s : State), s.reach .pf = true → s.tahr.st ≠ 2 → ∃ t, exec (.beginImage n) s = .next t
      ∧ (s.tahr.st = 1 → t.tahr = { s.tahr with total := some n.toNat, got := [], img := {} })
      ∧ (s.tahr.st ≠ 1 → t.tahr = s.tahr)
      ∧ t.reply = leBytes 8 0x81 ++ leBytes 4 t.bootStatus ++ leBytes 4 (if s.tahr.st = 1 then 0 else 1)
      ∧ { t with tahr := s.tahr, reply := s.reply } = s.ideTouch 0)
  ∧ (∀ (o : W32) (l : List Byte) (s : State), s.reach .pf = true → s.tahr.st ≠ 2 → ∃ t, exec (.data o l) s = .next t
      ∧ (let ok := s.tahr.st = 1 ∧ ∃ n, s.tahr.total = some n ∧ o.toNat + l.length ≤ n ∧ 64 ≤ l.length ∧ l.length ≤ 65536
            ∧ (l.length % 64 = 0 ∨ o.toNat + l.length = n)
         (ok → (∀ k, k < l.length → t.tahr.img.read (o.toNat + k) = l.getD k 0)
            ∧ (∀ a, a < o.toNat ∨ o.toNat + l.length ≤ a → t.tahr.img.read a = s.tahr.img.read a)
            ∧ { t.tahr with img := s.tahr.img, got := s.tahr.got } = s.tahr ∧ t.reply.drop 12 = leBytes 4 0)
         ∧ (¬ok → t.tahr = s.tahr ∧ t.reply.drop 12 = leBytes 4 1))
      ∧ { t with tahr := s.tahr, reply := s.reply } = s.ideTouch 0)
  ∧ (∀ s : State, s.reach .pf = true → s.tahr.st ≠ 2 → ∃ t, exec .endImage s = .next t
      ∧ (∀ n, s.tahr.st = 1 → s.tahr.total = some n → (∀ a, a < n → ∃ r ∈ s.tahr.got, r.1 ≤ a ∧ a < r.2) →
          (let d := s.tahr.img.readBytes 0 n
           let k := min (n - 5076) 8388608
           t.tahr = { s.tahr with st := 2, total := none, got := [], img := {}, fromString := false, candLen := k
                                  sig := d.drop k }
           ∧ t.reply.drop 12 = leBytes 4 0
           ∧ (∀ a, a < k → t.mem.read (lotAddr 1008 0 + a) = d.getD a 0)
           ∧ (∀ a, a < lotAddr 1008 0 ∨ lotAddr 1008 0 + k ≤ a → t.mem.read a = s.mem.read a)))
      ∧ (¬(s.tahr.st = 1 ∧ ∃ n, s.tahr.total = some n ∧ ∀ a, a < n → ∃ r ∈ s.tahr.got, r.1 ≤ a ∧ a < r.2) →
          t.tahr = s.tahr ∧ t.mem = s.mem ∧ t.reply.drop 12 = leBytes 4 1)
      ∧ { t with tahr := s.tahr, reply := s.reply, mem := s.mem } = s.ideTouch 0)
  ∧ (∀ s : State, s.reach .pf = true →
      exec .query s = .next { s.ideTouch 0 with reply := leBytes 8 0x81 ++ leBytes 4 s.bootStatus ++ leBytes 4 0 })
  ∧ (∀ s : State, s.pins.pwrGood = true → ∃ t, exec .imageRequest s = .next t
      ∧ t.tahr.imgRequests = s.tahr.imgRequests + 1
      ∧ (s.tahr.imageLen ≠ 0 → t.tahr.imgServed = t.tahr.imgRequests)
      ∧ (s.tahr.imageLen = 0 → t.tahr.imgServed = s.tahr.imgServed)
      ∧ { t.tahr with imgRequests := s.tahr.imgRequests, imgServed := s.tahr.imgServed } = s.tahr
      ∧ { t with tahr := s.tahr } = s)
  ∧ (∀ s : State, s.pins.pwrGood = true → s.tahr.st = 2 → s.tahr.entropyBad = false →
      ∃ t, exec (.imageVerify none) s = .next t
        ∧ (let d := s.mem.readBytes (lotAddr 1008 0) s.tahr.candLen ++ s.tahr.sig
           let n := fieldLe d 8 4
           (s.imageFail d ≠ 0 → t.tahr.fail = BitVec.ofNat 4 (s.imageFail d) ∧ t.tahr.imageLen = s.tahr.imageLen
              ∧ t.slots = s.slots
              ∧ (s.tahr.strWait = none → s.tahr.imgWaits = [] →
                  (let again := s.tahr.fromString && s.tb.light && (s.imageFail d == 5 || s.imageFail d == 6)
                   t.tahr = { s.tahr with st := 1, fail := BitVec.ofNat 4 (s.imageFail d), candLen := 0, sig := [], fromString := false
                                          imgAsked := s.tahr.imgAsked + b2n again })
                  ∧ { t with tahr := s.tahr } = s)
              ∧ (∀ x, s.tahr.strWait = some x → t.tahr.st = 2 ∧ t.tahr.strWait = none ∧ t.tahr.fromString = true
                  ∧ t.tahr.candLen = min (x.length - 5076) 8388608 ∧ t.tahr.sig = x.drop t.tahr.candLen
                  ∧ (∀ k, k < t.tahr.candLen → t.mem.read (lotAddr 1008 0 + k) = x.getD k 0)
                  ∧ { t with tahr := s.tahr, mem := s.mem } = s))
           ∧ (s.imageFail d = 0 → t.tahr.st = 3 ∧ t.tahr.mFw = sha256 (d.take n) ∧ t.tahr.imageLen = n
              ∧ t.tahr.svn.toNat = fieldLe d 6 1 ∧ t.tahr.source = s.tahr.fromString
              ∧ t.tahr.imgWaits = [] ∧ t.tahr.strWait = none
              ∧ (s.serow.tampered = true → t.slots = s.slots ∧ t.tahr.aliasOk = s.tahr.aliasOk)
              ∧ (s.serow.tampered = false → (t.slot 11).valid = true ∧ (t.slot 11).type = 3)
              ∧ { t with tahr := s.tahr, slots := s.slots, lc := s.lc, freeCtr := s.freeCtr, reply := s.reply } = s)))
  ∧ (∀ s : State, s.pins.pwrGood = true → s.tahr.st = 2 → s.tahr.entropyBad = true → exec (.imageVerify none) s = .next s)
  ∧ (∀ (d : List Byte) (s : State), s.pins.pwrGood = true → s.tahr.imgAsked ≠ 0 → s.tahr.st = 1 →
    ∃ t, exec (.imageVerify (some d)) s = .next t
      ∧ (let k := min (d.length - 5076) 8388608
         t.tahr = { s.tahr with st := 2, fromString := true, candLen := k, sig := d.drop k }
         ∧ (∀ a, a < k → t.mem.read (lotAddr 1008 0 + a) = d.getD a 0)
         ∧ (∀ a, a < lotAddr 1008 0 ∨ lotAddr 1008 0 + k ≤ a → t.mem.read a = s.mem.read a))
      ∧ { t with tahr := s.tahr, mem := s.mem } = s)
  ∧ (∀ (d : List Byte) (s : State), s.pins.pwrGood = true → s.tahr.imgAsked ≠ 0 → s.tahr.st = 2 → s.tahr.strWait = none →
    exec (.imageVerify (some d)) s = .next { s with tahr := { s.tahr with strWait := some d } })
  ∧ (∀ (d : List Byte) (s : State), s.tahr.imgAsked = 0 → exec (.imageVerify (some d)) s = .next s)

/-! ## Chapters 14 and 15: Serow, the leaf record, life cycle and debug -/

/-- TAMPER and TAHR_FAULT (R421, R424): a tamper condition erases the tenant root and, while the unit is powered, every TENANT slot, marks
the unit TAMPERED with its cause, counts it, takes every IDE stream and every hop down and leaves no herd LIVE; a Tahr fault halts Tahr
and acts as tamper cause 6; without power the root alone is erased, and the first cause waits for the next boot.
HOLDUP_MEASURE, VBAT_T_LOSS, ENTROPY_RESEED and ENTROPY_HEALTH_FAIL (R418, R423, R500, R505): HOLDUP is
C_HOLD x (V^2 - 45^2) / 2P in units of 100 µs, 0 at or below 45 V; VBAT_LOW is 1 while VBAT_T reads below 2.6 V, and the root is lost
below 2.2 V without P56, with no count of it; a draw that waited for the entropy source, such as that of a RENEW or of an accepted
transition, is made when it recovers.
Where the spec leaves a point of this open it follows the model's choice (log entries 21, 23, 29, 30, 122 and 137). -/
def Obligations.SerowGuardsItsSecrets : Prop :=
  (∀ (c : Fin 7) (s : State), c.val ≠ 0 → c.val ≠ 6 → s.pins.pwrGood = true → ∃ t, exec (.tamper c) s = .next t
      ∧ t.serow = { s.serow with root := none, tampered := true, cause := BitVec.ofNat 3 c.val
                                 tamperCount := satAdd s.serow.tamperCount 1 }
      ∧ (∀ e ∈ t.slots.entries, e.2.tenant = false) ∧ (∀ k : Fin 33, (t.ideAt k).st = .disabled)
      ∧ (∀ d, (t.dimAt d).hop = .none ∧ (t.dimAt d).hk = none)
      ∧ (∀ h : HerdId, (t.herd h).st ≠ .live) ∧ t.tahr.aliasOk = false ∧ t.tahr.st = s.tahr.st
      ∧ t.lc = s.lc ∧ t.lots = s.lots ∧ t.pins = s.pins ∧ t.pending = s.pending)
  ∧ (∀ s : State, s.pins.pwrGood = true → ∃ t, exec .tahrFault s = .next t ∧ t.tahr.st = 4
      ∧ t.serow = { s.serow with root := none, tampered := true, cause := 6, tamperCount := satAdd s.serow.tamperCount 1 }
      ∧ (∀ e ∈ t.slots.entries, e.2.tenant = false) ∧ (∀ k : Fin 33, (t.ideAt k).st = .disabled)
      ∧ (∀ h : HerdId, (t.herd h).st ≠ .live) ∧ exec (.tamper 6) s = .next t)
  ∧ (∀ (c : Fin 7) (s : State), s.pins.pwrGood = false →
      (let watched := c.val = 1 ∨ c.val = 2 ∨ c.val = 5 ∨ (s.serow.vin ≠ 0 ∧ (c.val = 3 ∨ c.val = 4))
       (watched → exec (.tamper c) s = .next { s with serow := { s.serow with
          root := none, latent := some (s.serow.latent.getD (BitVec.ofNat 3 c.val)) } })
       ∧ (¬watched → exec (.tamper c) s = .next s)))
  ∧ (∀ (p : BitVec 16) (w : BitVec 12) (s : State), s.pins.pwrGood = true → p ≠ 0 → ∃ t, exec (.holdupMeasure p w) s = .next t
        ∧ t.serow.p56 = p ∧ t.serow.vin = p ∧ t.serow.cHold = s.serow.cHold
        ∧ (p.toNat ≤ 4500 → t.serow.holdup = 0)
        ∧ (4500 < p.toNat → w ≠ 0 →
            t.serow.holdup.toNat = min 0xFFFF (s.serow.cHold * (p.toNat ^ 2 - 4500 ^ 2) / (2000000000 * w.toNat)))
        ∧ { t.serow with p56 := s.serow.p56, holdup := s.serow.holdup, vin := s.serow.vin } = s.serow
        ∧ { t with serow := s.serow, lc := s.lc } = s)
  ∧ (∀ (p : BitVec 16) (w : BitVec 12) (s : State),
      (s.pins.pwrGood = true → exec (.holdupMeasure 0 w) s = .next s)
      ∧ (s.pins.pwrGood = false → exec (.holdupMeasure p w) s = .next { s with serow := { s.serow with
          vin := p, root := if p = 0 ∧ s.serow.vbatMv.toNat < 2200 then none else s.serow.root } }))
  ∧ (∀ (mv : BitVec 12) (s : State), ∃ t, exec (.vbatTLoss mv) s = .next t
      ∧ t = { s with serow := { s.serow with
          vbatMv := mv, root := if s.serow.vin = 0 ∧ mv.toNat < 2200 then none else s.serow.root } }
      ∧ (t.serow.vbatLow = true ↔ mv.toNat < 2600))
  ∧ (∀ s : State, s.pins.pwrGood = true → s.tahr.entropyBad = false → ∃ t, exec .entropyReseed s = .next t
      ∧ t.freeCtr = s.freeCtr + 1 ∧ { t with freeCtr := s.freeCtr } = s)
  ∧ (∀ s : State, s.pins.pwrGood = true → s.tahr.entropyBad = false → ∃ t, exec (.entropyHealthFail true) s = .next t
      ∧ t.tahr = { s.tahr with entropyBad := true } ∧ (t.icAt 0).edge.get false 51 = true
      ∧ { t with tahr := s.tahr, ics := s.ics } = s)
  ∧ (∀ s : State, s.pins.pwrGood = true → s.tahr.entropyBad = true → s.quiet → (∀ d, (s.dimAt d).encapDue = none) →
      (∀ w, (s.win w).sweepDue = false ∧ (s.win w).waiting = []) → ∃ t, exec (.entropyHealthFail false) s = .next t
      ∧ t.tahr = { s.tahr with entropyBad := false, renewDue := false }
      ∧ (∀ q, s.lc.seq = some q → q.draws = true → s.tahr.renewDue = false → t.lc.dnonce = Config.random s.freeCtr
          ∧ t.lc.seq = some { q with draws := false, writing := q.writing || (s.powerOk && !s.lc.svnWriting && !s.raisesSvn) })
      ∧ ((∀ q, s.lc.seq = some q → q.draws = false) → s.tahr.renewDue = true → t.lc = { s.lc with dnonce := Config.random s.freeCtr, rights := 0, expiry := 0, haltHerd := none }
          ∧ t.reply = leBytes 8 0x82 ++ leBytes 4 0)
      ∧ ((∀ q, s.lc.seq = some q → q.draws = false) → s.tahr.renewDue = false → { t with tahr := s.tahr, ics := s.ics } = s)
      ∧ { t with tahr := s.tahr, lc := s.lc, reply := s.reply, freeCtr := s.freeCtr, ics := s.ics } = s)

/-- CHALLENGE, PRESENT, CLOSE, RENEW, DEVID_KEYS and DEVID_CERTS (R417, R436, R447, R448, R452, Tables 15.5 and 15.6): PRESENT adds
the rights of a certificate that passes the checks and no others; CLOSE and RENEW leave no right open, and RENEW draws a
new DNONCE, or waits for the entropy source; a message whose header is none of the five is refused; a SCRAPPED or INVALID unit
answers CHALLENGE alone; the DeviceID requests are for MAKER only, DEVID_KEYS before a kill bit is blown.
TRANSITION and FUSE_WRITE_DONE (R441, R442, R443, R445, R449, R411, Table 15.3): a target that Table 15.3 does not give, a herd
that exists, a certificate that fails or a short hold-up refuses the transition and writes no fuse; a word of TARGET that is no
byte is refused; an accepted one draws DNONCE where a certificate was needed, once the entropy source serves, and writes
the INTENT field, then the kill bits, then the STATE field, each once the hold-up condition holds, after which every slot
is zeroized, the rights close and Tahr halts; an SVN raise blows one bit at a time, and a transition waits until the raise has ended
(Table 15.9). While a formation is in hand no certificate opens a right (R450, R451). Each message comes in the link stream.
Where the spec leaves a point of this open it follows the model's choice (log entries 26, 97, 109, 137 and 153). -/
def Obligations.DebugAndLifeCycleMessages : Prop :=
  (∀ s : State, s.reach .pf = true → s.debugAlive = true → exec (.challenge 1) s = .next { s.ideTouch 0 with
      reply := leBytes 8 0x81 ++ leBytes 8 Config.serial.toNat ++ leBytes 4 s.lcState ++ leBytes 4 s.tahr.bootCount.toNat
        ++ bytes256 s.lc.dnonce })
  ∧ (∀ (x : W64) (s : State), s.reach .pf = true → s.debugAlive = true → x ≠ 1 → x ≠ 3 → x ≠ 4 →
      exec (.challenge x) s = .next { s.ideTouch 0 with reply := leBytes 8 0x82 ++ leBytes 4 1 })
  ∧ (∀ s : State, exec (.challenge 3) s = exec .close s ∧ exec (.challenge 4) s = exec .renew s)
  ∧ (∀ s : State, s.reach .pf = true → s.debugAlive = true → s.lcState < 4 → s.tahr.entropyBad = true →
      exec .renew s = .next { s.ideTouch 0 with tahr := { s.tahr with renewDue := true } })
  ∧ (∀ (c : List Byte) (s : State), s.reach .pf = true → s.debugAlive = true → s.lcState < 4 → ∃ t, exec (.present c) s = .next t
      ∧ t.reply = leBytes 8 0x82 ++ leBytes 4 (s.certCheck 1 0 c)
      ∧ (s.tahr.form ≠ none → s.certCheck 1 0 c ≠ 0) ∧ (s.certCheck 1 0 c ≠ 0 → t.lc = s.lc)
      ∧ (s.certCheck 1 0 c = 0 → (∀ i, t.lc.rights.getLsbD i = (s.lc.rights.getLsbD i || (i < 6 && bit (fieldLe c 0x34 4) i)))
          ∧ t.lc.expiry.toNat = max s.lc.expiry.toNat (fieldLe c 0x30 4)
          ∧ { t.lc with rights := s.lc.rights, expiry := s.lc.expiry } = s.lc)
      ∧ { t with lc := s.lc, reply := s.reply } = s.ideTouch 0)
  ∧ (∀ s : State, s.reach .pf = true → s.debugAlive = true → s.lcState < 4 → ∃ t, exec .close s = .next t
      ∧ t.lc = { s.lc with rights := 0, expiry := 0, haltHerd := none } ∧ t.reply = leBytes 8 0x82 ++ leBytes 4 0
      ∧ { t with lc := s.lc, reply := s.reply } = s.ideTouch 0)
  ∧ (∀ s : State, s.reach .pf = true → s.debugAlive = true → s.lcState < 4 → s.tahr.entropyBad = false → ∃ t, exec .renew s = .next t
      ∧ t.lc = { s.lc with dnonce := Config.random s.freeCtr, rights := 0, expiry := 0, haltHerd := none }
      ∧ t.reply = leBytes 8 0x82 ++ leBytes 4 0 ∧ { t with lc := s.lc, reply := s.reply, freeCtr := s.freeCtr } = s.ideTouch 0)
  ∧ (∀ (c : Instr) (s : State), c = .close ∨ c = .renew ∨ (∃ x, c = .present x) ∨ (∃ k x, c = .transition k x) →
      s.reach .pf = true → s.debugAlive = true → 4 ≤ s.lcState → exec c s = .next { s.ideTouch 0 with reply := leBytes 8 0x82 ++ leBytes 4 1 })
  ∧ (∀ s : State, s.reach .pf = true → s.tahr.st ≠ 4 → ∃ t, exec .devidKeys s = .next t ∧ { t with reply := s.reply } = s.ideTouch 0
      ∧ (s.lcState = 0 → s.lc.kill = 0 → t.reply = leBytes 8 0x82 ++
          (List.finRange 4).flatMap fun k => hssPublic (devidTree (s.deviceKey k) 0))
      ∧ (s.lcState ≠ 0 ∨ s.lc.kill ≠ 0 → t.reply = leBytes 8 0x81 ++ leBytes 4 s.bootStatus ++ leBytes 4 1))
  ∧ (∀ (l : List Byte) (s : State), s.reach .pf = true → s.tahr.st ≠ 4 → ∃ t, exec (.devidCerts l) s = .next t
      ∧ (s.lcState = 0 → l.length = 20624 → t.tahr = { s.tahr with devidCerts := l } ∧ t.reply.drop 12 = leBytes 4 0)
      ∧ (s.lcState ≠ 0 ∨ l.length ≠ 20624 → t.tahr = s.tahr ∧ t.reply.drop 12 = leBytes 4 1)
      ∧ { t with tahr := s.tahr, reply := s.reply } = s.ideTouch 0)
  ∧ (∀ (k : W32) (c : List Byte) (s : State), s.reach .pf = true → s.debugAlive = true → s.lcState < 4 → 256 ≤ k.toNat →
      exec (.transition k c) s = .next { s.ideTouch 0 with reply := leBytes 8 0x82 ++ leBytes 4 1 })
  ∧ (∀ (k : W32) (c : List Byte) (s : State), s.reach .pf = true → s.debugAlive = true → s.lcState < 4 → k.toNat < 256 →
    ∃ t, exec (.transition k c) s = .next t
      ∧ t.lc.fuseState = s.lc.fuseState ∧ t.lc.fuseIntent = s.lc.fuseIntent ∧ t.lc.kill = s.lc.kill
      ∧ (let open_ := (k.toNat = s.lcState + 1 ∧ k.toNat ≤ 3) ∨ k.toNat = 4
         let cert := if k.toNat = 1 ∨ k.toNat = 3 then s.certCheck 2 k.toNat c else 0
         (s.lc.seq ≠ none ∨ ¬open_ → t = { s.ideTouch 0 with reply := leBytes 8 0x82 ++ leBytes 4 7 })
         ∧ (s.lc.seq = none → open_ → s.anyHerd = true → t = { s.ideTouch 0 with reply := leBytes 8 0x82 ++ leBytes 4 6 })
         ∧ (s.lc.seq = none → open_ → s.anyHerd = false → cert ≠ 0 → t = { s.ideTouch 0 with reply := leBytes 8 0x82 ++ leBytes 4 cert })
         ∧ (s.lc.seq = none → open_ → s.anyHerd = false → cert = 0 → s.powerOk = false →
              t = { s.ideTouch 0 with reply := leBytes 8 0x82 ++ leBytes 4 5 })
         ∧ (s.lc.seq = none → open_ → s.anyHerd = false → cert = 0 → s.powerOk = true →
              (let waits := (k.toNat == 1 || k.toNat == 3) && s.tahr.entropyBad
               t.lc.seq = some { k := k.toNat, stage := 0, writing := !waits && !s.lc.svnWriting && !s.raisesSvn, resumed := false, draws := waits })
              ∧ (k.toNat = 1 ∨ k.toNat = 3 → s.tahr.entropyBad = false → t.lc.dnonce = Config.random s.freeCtr)
              ∧ (s.tahr.entropyBad = true → t.lc.dnonce = s.lc.dnonce ∧ t.freeCtr = s.freeCtr)
              ∧ { t with lc := s.lc, freeCtr := s.freeCtr } = s.ideTouch 0)))
  ∧ (∀ (q : FuseSeq) (s : State), s.pins.pwrGood = true → s.lc.svnWriting = false → s.lc.seq = some q → q.writing = true →
    ∃ t, exec .fuseWriteDone s = .next t
      ∧ (q.stage = 0 → t.lc.fuseIntent = fuseSet s.lc.fuseIntent q.k 0xC3A5 ∧ t.lc.kill = s.lc.kill
          ∧ t.lc.fuseState = s.lc.fuseState ∧ t.lc.seq = some { q with stage := 1, writing := s.powerOk && !q.draws && !s.raisesSvn }
          ∧ { t with lc := s.lc } = s)
      ∧ (q.stage = 1 → t.lc.kill = s.lc.kill ||| killMask q.k ∧ t.lc.fuseIntent = s.lc.fuseIntent
          ∧ t.lc.fuseState = s.lc.fuseState ∧ t.lc.seq = some { q with stage := 2, writing := s.powerOk && !q.draws && !s.raisesSvn }
          ∧ { t with lc := s.lc } = s)
      ∧ (q.stage = 2 → t.lc.fuseState = fuseSet s.lc.fuseState q.k 0x5A3C ∧ t.lc.seq = none
          ∧ (q.resumed = false → t.slots = {} ∧ (∀ k : Fin 33, (t.ideAt k).st = .disabled) ∧ (∀ d, (t.dimAt d).hk = none) ∧ t.lc.rights = 0 ∧ t.lc.reboot = true ∧ t.tahr.st = 4
              ∧ t.reply = leBytes 8 0x82 ++ leBytes 4 0)
          ∧ (q.resumed = true → t.lc.resumed = true ∧ t.tahr.st = (if 4 ≤ t.lcState then 4 else 1))))
  ∧ (∀ s : State, s.fuseBusy = false → exec .fuseWriteDone s = .next s)
  ∧ (∀ s : State, s.pins.pwrGood = true → s.lc.svnWriting = true → ∃ t, exec .fuseWriteDone s = .next t
      ∧ t.lc.svnFuse = blowSvn s.lc.svnFuse ∧ t.lc.fuseState = s.lc.fuseState ∧ t.lc.kill = s.lc.kill
      ∧ { t with lc := s.lc } = s)

/-! ## Chapter 16: errors, self-tests and repair; chapter 02: stacks -/

/-- BLOCK_FAULT and HANDSHAKE_STALL (R43, R44, R76, R464, R465, R468, Table 16.10): an uncorrectable error of a block halts and
fences it, makes its test due, stops the run of its herd with the part's status and ends copies into its scratch; a stalled
handshake does the same with `HW_STALL`, and one of a row port or of the hub channel raises its source and stops the operand's
operation. Without an outstanding Offer on an idle channel nothing stalls, and a channel that stalled keeps its Offer.
REGION_OR_CHIP_ERROR and CORRECTABLE_ERROR (R463, R467, R470, R474, R475, Tables 16.10 and 16.11): an uncorrectable error of a
row port, a mesh channel, a central-store row, an HBM line or its PHY, a region controller, an engine, a Nyala node or the hub raises its source,
makes the test due that follows it, and stops the run of the herd concerned, and the copies that read the part, with the part's status; a
second hub error within REPEAT_MS is a unit fault; a link error is held for source 44. A correctable error is counted and, but for
Nyala's nodes and Tahr's memory, followed by a test; it stops nothing.
Where the spec leaves a point of this open it follows the model's choice (log entries 31, 32, 33, 123, 151 and 154). -/
def Obligations.ErrorsReachTheirHerdRegionOrChip : Prop :=
  (∀ (p : Part) (b : BlockId) (s : State), s.pins.pwrGood = true → s.quiet → partBlock p = some b →
      ∃ t, exec (.blockFault p) s = .next t ∧ State.blockFaulted b p (blockStatus p) s t)
  ∧ (∀ (p : Part) (b : BlockId) (g : Option HerdId) (s : State), s.pins.pwrGood = true → s.quiet →
      (∃ c, p = .cell b c) ∨ p = .blockChan b → s.offering p = true → s.idleChan p = true →
      ∃ t, exec (.handshakeStall p g) s = .next t ∧ State.blockFaulted b p stHwStall s t ∧ t.idleChan p = false)
  ∧ (∀ (p : Part) (g : Option HerdId) (s : State), s.offering p = false ∨ s.idleChan p = false →
      exec (.handshakeStall p g) s = .next s)
  ∧ (∀ (x : Instr) (p : Part) (who : Option HerdId) (st : Status) (c src : Nat) (ended : CopyJob → Bool) (g : Option HerdId)
        (line : BitVec 6) (s : State), s.pins.pwrGood = true → s.quiet →
      (x = .handshakeStall p g ∧ s.offering p = true ∧ s.idleChan p = true ∧ who = g ∧ st = stHwStall
          ∧ ((∃ r k, p = .rowPort r k ∧ c = r.val + 1 ∧ src = 97 + k.val ∧ ended = fun _ => false)
            ∨ (p = .hubChan ∧ c = 0 ∧ src = 5 ∧ ended = s.opCopy g)))
        ∨ (x = .regionOrChipError p g line
          ∧ ((∃ r k, p = .rowPort r k ∧ who = g ∧ st = stHwMesh ∧ c = r.val + 1 ∧ src = 97 + k.val ∧ ended = fun _ => false)
            ∨ (∃ b, p = .blockChan b ∧ who = g ∧ st = stHwMesh ∧ c = regionOf b + 1 ∧ src = 107 ∧ ended = fun _ => false)
            ∨ (∃ k r l, p = .csRow k r l ∧ r.toNat < 2048 ∧ who = (if g.isSome then g else s.partHerd p) ∧ st = stHwCs ∧ c = 0 ∧ src = 6
                ∧ ended = fun j => j.src.any fun r => (rowRanges p).any fun q => rangesMeet r.1 r.2 q.1 q.2)
            ∨ (∃ k, p = .hbmPhy k ∧ who = g ∧ st = stHwHbm ∧ c = 0 ∧ src = 8 + k.val ∧ ended = s.opCopy g)
            ∨ (p = .hubChan ∧ s.repair.hubErr.any s.recent = false ∧ who = g ∧ st = stHwHub ∧ c = 0 ∧ src = 5
                ∧ ended = s.opCopy g))) →
      ∃ t, exec x s = .next t ∧ t.edgeAt c src ∧ ((∀ k, p ≠ .hbmPhy k) → t.testOf p) ∧ State.errorTaken who st ended s t
        ∧ (x = .handshakeStall p g → t.idleChan p = false))
  ∧ (∀ (g : Option HerdId) (line : BitVec 6) (s : State), s.pins.pwrGood = true → s.quiet → s.repair.hubErr.any s.recent = true →
      ∃ t, exec (.regionOrChipError .hubChan g line) s = .next t ∧ t.repair.unitFault = true ∧ t.testOf .hubChan
        ∧ ∀ h, (s.herd h).run.isSome = true → (t.herd h).seq = .stopping ∧ (g ≠ some h → State.stopsWith h stHwHub s t))
  ∧ (∀ (pg : BitVec 28) (g : Option HerdId) (line : BitVec 6) (s : State), s.pins.pwrGood = true → s.quiet →
      ∃ t, exec (.regionOrChipError (.hbmLine pg) g line) s = .next t
      ∧ (let a := linOf (4096 * pg.toNat + 64 * line.toNat)
         t.edgeAt 0 (8 + pageOf a % 12) ∧ t.testOf (.hbmLine (BitVec.ofNat 28 (pageOf a)))
         ∧ (s.winAt a = none → { t with ics := s.ics, repair := s.repair } = s)
         ∧ (∀ w o, s.winAt a = some (w, o) → t.edgeAt 0 20
            ∧ (if (nodeAt (s.win w).size (o / 64 * 64)).isSome then
                (t.win w).st = 2 ∧ t.badNodeCnt = satAdd s.badNodeCnt 1 ∧ t.mem = s.mem ∧ t.copies = s.copies
                ∧ (∀ h, g = some h → State.stopsWith h stUnverifiable s t) ∧ ∀ l ∈ (s.win w).affected a, l ∈ t.hbmBad
               else
                (∀ h, g = some h → State.stopsWith h stIntegrityFail s t)
                ∧ (let ended := fun (j : CopyJob) => j.src.any fun r => (physRanges r.1 r.2).any fun q =>
                     ((s.win w).affected a).any fun b => meets q (b, b + 64)
                   copiesStopped stIntegrityFail ended s t
                   ∧ ((∀ j ∈ s.copies, j.status = none → ended j = false) →
                       t.mem = s.mem ∧ t.wins = s.wins ∧ ∀ l ∈ (s.win w).affected a, l ∈ t.hbmBad))))))
  ∧ (∀ (r : RegionId) (k : BitVec 20) (g : Option HerdId) (line : BitVec 6) (s : State), s.pins.pwrGood = true → s.quiet →
    ∃ t, exec (.regionOrChipError (.rcRow r k) g line) s = .next t ∧ t.testOf (.rcRow r k)
      ∧ t.repair.restarts.get false r.val = true ∧ t.icCond 0 (r.val + 1) = true
      ∧ (∀ h ∈ s.herdsIn r, State.stopsWith h stHwRegion s t)
      ∧ (∀ h, h ∉ s.herdsIn r → { t.herd h with rings := (s.herd h).rings } = s.herd h)
      ∧ { t with blocks := s.blocks, dims := s.dims, freeCtr := s.freeCtr, herds := s.herds, hostMem := s.hostMem
                 ics := s.ics, pfRings := s.pfRings, repair := s.repair } = s)
  ∧ (∀ (e : BitVec 3) (g : Option HerdId) (line : BitVec 6) (s : State), s.pins.pwrGood = true → s.quiet →
    ∃ t, exec (.regionOrChipError (.engine e) g line) s = .next t ∧ t.repair = s.repair
      ∧ t.edgeAt 0 (if e = 6 then 27 else if e = 7 then 28 else 21 + e.toNat)
      ∧ (e ≠ 6 → State.errorTaken g stHwEngine (fun _ => false) s t)
      ∧ (e = 6 → State.errorTaken none stHwEngine
          (fun k => s.copies.find? (fun j => g == some j.herd && j.status.isNone) == some k) s t))
  ∧ (∀ (g : Option HerdId) (line : BitVec 6) (s : State), s.pins.pwrGood = true → s.quiet →
    ∃ t, exec (.regionOrChipError .hostLink g line) s = .next t ∧ t.icCond 0 44 = true
      ∧ { t with ics := s.ics } = { s with aer := s.aer ||| 0x10 })
  ∧ (∀ (p : Part) (w : WinId) (g : Option HerdId) (line : BitVec 6) (s : State), s.pins.pwrGood = true → s.quiet →
      (∃ l n, p = .nyaNode w l n) ∨ p = .nyaRoot w → (s.win w).st ≠ 0 →
    ∃ t, exec (.regionOrChipError p g line) s = .next t ∧ (t.win w).st = 2 ∧ t.badNodeCnt = satAdd s.badNodeCnt 1
      ∧ t.edgeAt 0 20 ∧ (∀ v, v ≠ w → t.win v = s.win v) ∧ t.mem = s.mem
      ∧ (∀ h, g = some h → State.stopsWith h stUnverifiable s t) ∧ (∀ h, g ≠ some h → t.herd h = s.herd h))
  ∧ (∀ (p : Part) (due : Bool) (s : State), s.pins.pwrGood = true → correctable p = some due →
    ∃ t, exec (.correctableError p) s = .next t
      ∧ t.repair.ceCount = satAdd s.repair.ceCount 1 ∧ (due = true → t.testOf p)
      ∧ (due = false → t.repair.tests = s.repair.tests)
      ∧ { t.repair with ceCount := s.repair.ceCount, tests := s.repair.tests } = s.repair
      ∧ State.onlyRings { s with repair := t.repair } t)

/-- SELF_TEST_VERDICT and REMAP_RECORD (R20, R43, R468, R469, R471, R473): a test that passes, in a part that met no further error
and was not judged transient within REPEAT_MS, makes the fault transient; any other verdict is lasting, and its record
waits; a row that an uncorrectable error took is left zero, and a channel that stalled is idle again. Tahr's record of a scratch row,
the whole of a cell, a block or an HBM page takes effect: a row spare is used, the seventeenth cell takes
the cell's place, a corner block takes the block's, the page is fenced, a retired group stops the herds that hold it; a block with no
test or record left returns to service. No record is made for a block while a Clause runs on it.
REGION_RESTART (R470): once every block of the region is idle or halted its controller is reset and its escalation ends.
LOT_CLEAR_DONE, HBM_TRAINING_DONE, HBM_HOT_ENTER and HBM_HOT_EXIT (R61, R66, R71, R473, R481): a cleared lot reads
zeros and is free; a trained stack is READY unless its record of fenced pages was full, and the interleaved view serves only
while all twelve stacks are READY; HOT follows the temperature.
Where the spec leaves a point of this open it follows the model's choice (log entries 34, 35, 36, 37, 38, 124, 133 and 155). -/
def Obligations.RepairsRunTheirCourse : Prop :=
  (∀ (x : Test) (pass : Bool) (s : State), s.pins.pwrGood = true → s.dueTest x.part = some x →
    ∃ t, exec (.selfTestVerdict x.part pass) s = .next t
      ∧ (let ok := pass && !x.again && !s.repeated x.part
         (ok = true → (x.part, s.tb.now) ∈ t.repair.transient ∧ t.repair.records = s.repair.records)
         ∧ (ok = false → t.repair.transient = s.repair.transient)
         ∧ t.idleChan x.part = true
         ∧ ((∀ n, x.part ≠ .lane n) → t.repair.tests = s.repair.tests.erase x)
         ∧ (x.part ≠ .hubChan → (∀ n, x.part ≠ .lane n) →
            (ok = false → t.repair.records = s.repair.records
                ++ [{ part := x.part, kind := s.lastingKind x.part, status := x.status, herds := x.herds, lost := x.loses }])
            ∧ (∀ k, partBlock x.part ≠ some k → t.block k = s.block k)
            ∧ (∀ b, partBlock x.part = some b →
                (t.block b).fenced = ((s.block b).fenced && !(ok && !((s.repair.tests.erase x).any fun q => partBlock q.part == some b)
                  && !(s.repair.records.any fun q => partBlock q.part == some b)))))
         ∧ (∀ n, x.part = .lane n → (t.laneAt n).st = if ok then .probe else .failed)
         ∧ (x.part = .hubChan → ok = false → t.repair.unitFault = true ∧ ∀ h, State.stopsWith h stHwHub s t))
      ∧ (x.loses = false → t.mem = s.mem)
      ∧ (x.loses = true → ∀ a, t.mem.read a =
          if (rowRanges x.part).any fun r => decide (r.1 ≤ a) && decide (a < r.1 + r.2) then 0 else s.mem.read a)
      ∧ t.pins = s.pins ∧ t.tahr = s.tahr ∧ t.lots = s.lots ∧ t.pending = s.pending ∧ t.cfg = s.cfg)
  ∧ (∀ (r : MramRecord) (rest : List MramRecord) (s : State), s.pins.pwrGood = true → s.quiet → s.tahr.st ≠ 4 →
      s.repair.records = r :: rest → s.recordable r = true → ∃ t, exec .remapRecord s = .next t
      ∧ t.repair.records = rest ∧ t.repair.tests = s.repair.tests
      ∧ (∀ b k w, r.part = .scratchRow b k w → s.lastingKind r.part = .row →
          t.repair.rows.get 0 (rowKey r.part) = s.repair.rows.get 0 (rowKey r.part) + 1 ∧ t.repair.pages = s.repair.pages)
      ∧ (∀ b c, r.part = .cell b c → s.repair.cellMoved.get 0 b.val = 0 →
          t.repair.cellMoved.get 0 b.val = c.toNat + 1 ∧ t.repair.moved = s.repair.moved)
      ∧ (∀ b, partBlock r.part = some b → s.lastingKind r.part = .blockMoved →
          t.repair.moved.get 0 b.val = s.repair.cornersUsed.get 0 (regionOf b) + 1
          ∧ t.repair.cornersUsed.get 0 (regionOf b) = s.repair.cornersUsed.get 0 (regionOf b) + 1)
      ∧ (∀ b w, r.part = .seqRow b w → s.lastingKind r.part = .blockMoved → r.status ≠ 0 →
          (∀ e ∈ Config.seqRowNouns w, (t.block b).nouns.get {} e = {})
          ∧ ∀ j ∈ Config.seqRowWords w, (t.block b).clause.length ≤ j)
      ∧ (∀ n, r.part = .hbmLine n → s.lastingKind r.part = .pageFenced → s.repair.pages.length < 4096 →
          n.toNat ∈ t.repair.pages ∧ t.hbm = s.hbm)
      ∧ (∀ b, partBlock r.part = some b → (∀ x ∈ s.repair.tests, partBlock x.part ≠ some b) →
          (∀ x ∈ rest, partBlock x.part ≠ some b) → (t.block b).fenced = false)
      ∧ (s.lastingKind r.part = .groupRetired → ∀ h, (s.herd h).active = true → (∃ g ∈ s.groupsOf r.part, (s.herd h).hasGroup g = true) →
          State.stopsWith h r.faultStatus s t)
      ∧ ((∀ b, partBlock r.part = some b → ∀ j ∈ s.copies, j.status = none → j.into b = false) →
          t.copies = s.copies
          ∧ (s.badRows { r with kind := s.lastingKind r.part } = [] →
              { t with blocks := s.blocks, herds := s.herds, hostMem := s.hostMem, ics := s.ics, pfRings := s.pfRings
                       repair := s.repair, hbm := s.hbm, dims := s.dims, freeCtr := s.freeCtr } = s)))
  ∧ (∀ s : State, (∀ r ∈ s.repair.records, s.recordable r = false) → exec .remapRecord s = .next s)
  ∧ (∀ (r : RegionId) (s : State), s.pins.pwrGood = true → s.repair.restarts.get false r.val = true →
      (∀ b : BlockId, regionOf b = r.val → (s.block b).st = .idle ∨ (s.block b).st = .halt) →
      ∃ t, exec (.regionRestart r) s = .next t ∧ t.icAt (r.val + 1) = {}
        ∧ (∀ j, j ≠ r.val + 1 → { t.icAt j with raised := (s.icAt j).raised } = s.icAt j)
        ∧ (∀ j, t.repair.restarts.get false j = if j = r.val then false else s.repair.restarts.get false j)
        ∧ t.icCond 0 (r.val + 1) = s.repair.records.any (fun q => partRegion q.part == some r.val)
        ∧ { t.repair with restarts := s.repair.restarts } = s.repair
        ∧ { t with ics := s.ics, repair := s.repair } = s)
  ∧ (∀ (r : RegionId) (s : State), s.repair.restarts.get false r.val = false
        ∨ (∃ b : BlockId, regionOf b = r.val ∧ (s.block b).st ≠ .idle ∧ (s.block b).st ≠ .halt) → exec (.regionRestart r) s = .next s)
  ∧ (∀ (l : LotId) (s : State), s.pins.pwrGood = true → (s.lot l.val).clearing = true →
      ∃ t, exec (.lotClearDone l) s = .next t
        ∧ t.lot l.val = {} ∧ (∀ n, n ≠ l.val → t.lot n = s.lot n)
        ∧ (∀ a, t.mem.read a = if lotAddr l.val 0 ≤ a ∧ a < lotAddr l.val 0 + lotBytes then 0 else s.mem.read a)
        ∧ { t with lots := s.lots, mem := s.mem, healthRo := s.healthRo } = s)
  ∧ (∀ (k : StackId) (ok : Bool) (s : State), s.pins.pwrGood = true → (s.stack k).st = 0 →
    ∃ t, exec (.hbmTrainingDone k ok) s = .next t
      ∧ t.stack k = { s.stack k with st := if ok && !s.repair.stackFull.get false k.val then 1 else 2 }
      ∧ (∀ j, j ≠ k → t.stack j = s.stack j)
      ∧ (t.interleavedOk = true ↔ ∀ j : StackId, (t.stack j).st = 1)
      ∧ ((t.stack k).st = 2 → t.edgeAt 0 (8 + k.val))
      ∧ { t with hbm := s.hbm, interleavedOk := s.interleavedOk, ics := s.ics } = s)
  ∧ (∀ (k : StackId) (c : BitVec 8) (s : State), s.pins.pwrGood = true → (s.stack k).hot = false → 85 < c.toNat →
    ∃ t, exec (.hbmHotEnter k c) s = .next t ∧ t.stack k = { s.stack k with hot := true, tempC := c }
      ∧ (∀ j, j ≠ k → t.stack j = s.stack j) ∧ { t with hbm := s.hbm } = s)
  ∧ (∀ (k : StackId) (c : BitVec 8) (s : State), s.pins.pwrGood = true → (s.stack k).hot = true → c.toNat ≤ 80 →
    ∃ t, exec (.hbmHotExit k c) s = .next t ∧ t.stack k = { s.stack k with hot := false, tempC := c }
      ∧ (∀ j, j ≠ k → t.stack j = s.stack j) ∧ { t with hbm := s.hbm } = s)

/-! ## The whole machine -/

/-- Right after reset (R5, R12, Tables 01.2 to 01.8, 02.2, 02.5, 09.9 to 09.13, 11.2, 11.18, 15.6, 16.3, 17.4): the unit is unpowered, no command
waits, and every register the spec gives a reset value holds it: POINT is P2 with a limit of 0xE10 W, every weight 0x10, and so
on; no herd exists, lanes are DARK and carry no dimension, streams are DISABLED, and the canonical form holds. The power and thermal loops
allow P3 and memory reads as zeros: the model's choices (log entries 4 and 5). -/
def Obligations.ResetLeavesItsValues : Prop :=
  (let s := State.reset
   s.pending = [] ∧ s.pins.pwrGood = false ∧ s.canonical = true
   ∧ s.power.point = 2 ∧ s.power.limitW = 0xE10 ∧ s.power.powerPoint = 3 ∧ s.power.thermalPoint = 3
   ∧ s.power.powerDuty = 100 ∧ s.power.thermalDuty = 100
   ∧ s.arbSlot = false ∧ s.operWeight = 0x10 ∧ (∀ h, s.weights.get 0x10 h = 0x10) ∧ s.wdogUs = 0x00C8
   ∧ s.cfg = {} ∧ s.linkTimeoutMs = 0x0064 ∧ s.linkUp = false ∧ s.numVfs = 0 ∧ s.vfEnable = false
   ∧ s.profile = 0 ∧ s.smallD = 0 ∧ s.dimEn = 0x7FFF ∧ s.pod = 0 ∧ s.spareDim = 0xFFFF_FFFF ∧ s.crcLimit = 0x10
   ∧ s.addrValid = false ∧ s.denied = 0 ∧ s.macFail = 0 ∧ s.badNodeCnt = 0
   ∧ (∀ a, s.mem.read a = 0) ∧ (∀ l, (s.lot l).assigned = false) ∧ (∀ h : HerdId, s.herdExists h = false)
   ∧ (∀ h : HerdId, (s.herd h).seq = .empty ∧ (s.herd h).commit = .opened ∧ (s.herd h).alphaShift = 6 ∧ (s.herd h).lossK = 0x60
        ∧ (s.herd h).warmup = 0x40 ∧ (s.herd h).beatNow = 0)
   ∧ (∀ b : BlockId, (s.block b).st = .idle ∧ (s.block b).fenced = false)
   ∧ (∀ n : LaneId, (s.laneAt n).st = .dark ∧ (s.laneAt n).dim = 0xF) ∧ (∀ d : DimId, (s.dimAt d).hop = .none)
   ∧ (∀ k, (s.ideAt k).st = .disabled) ∧ (∀ w : WinId, (s.win w).st = 0) ∧ (∀ k : StackId, (s.stack k).st = 0)
   ∧ (∀ c src, s.icPending c src = true → icLevel c src = true) ∧ (∀ c t, s.icRequest c t = false)
   ∧ s.tahr.st = 0 ∧ s.tahr.reqBusy = false ∧ s.serow.tampered = false ∧ s.serow.holdup = 0 ∧ s.lc.rights = 0
   ∧ s.repair.repeatMs = 0x03E8 ∧ s.reply = [])

/-- A verb word is decoded to the verb it encodes, with every operand at every value that its load checks allow, and each
word that decodes has one encoding: no bit of it is dropped (R94, R151, R209, R210, R254, Table 07.6). -/
def Obligations.VerbWordsEncodeAndDecode : Prop :=
  (∀ v : VerbWord, verbOk v.verb = true → decodeVerb (encodeVerb v) = some v)
  ∧ (∀ (w : W128) (v : VerbWord), decodeVerb w = some v → encodeVerb v = w ∧ verbOk v.verb = true)

/-- Every step keeps the canonical form of the memories and the key slots (the model's own invariant, log entry 5): keys
rise, and no entry equals what an unlisted key reads as, so equal memories are equal data. -/
def Obligations.StepsKeepTheCanonicalForm : Prop :=
  ∀ s t : State, s.canonical = true → step s = .next t → t.canonical = true

/-- No command's effect touches the queue, and every step with a command waiting takes exactly that one (log entry 1). -/
def Obligations.CommandsLeaveTheQueue : Prop :=
  (∀ (c : Instr) (s t : State), exec c s = .next t → t.pending = s.pending)
  ∧ (∀ (c : Instr) (r : List Instr) (s t : State), s.pending = c :: r → step s = .next t → t.pending = r)

/-- A COMMITTED configuration stays until a reset (R10, R276, R279, R280, R485, R490, R492): no step changes the latched cube address, the
lane profile, the enabled dimensions, the pod or the spares while CFG_STATUS.STATE stays COMMITTED; a step leaves COMMITTED
only for UNCOMMITTED, and only when its command is a power-up, a loss of power or PERST_n. -/
def Obligations.CommittedConfigurationStays : Prop :=
  ∀ s t : State, s.cfg.st = 2 → step s = .next t →
    (t.cfg.st = 0 ∧ ∃ c r, s.pending = c :: r ∧ resetsUnit c = true)
    ∨ (t.cfg.st = 2 ∧ t.cubeAddr = s.cubeAddr ∧ t.addrValid = s.addrValid ∧ t.profile = s.profile ∧ t.smallD = s.smallD
        ∧ t.dimEn = s.dimEn ∧ t.pod = s.pod ∧ t.spareDim = s.spareDim)

/-- A fault in one block stops only the run of the herd that owns that block (R465): its run is stopping, with the fault's status
among its faults. Every other herd keeps its state, its beat and its faults, and every block that the owner does not hold stays
as it is. -/
def Obligations.BlockFaultsStopOneHerd : Prop :=
  ∀ (p : Part) (b : BlockId) (s : State), s.pins.pwrGood = true → s.quiet → partBlock p = some b →
    ∃ t, exec (.blockFault p) s = .next t
      ∧ (∀ h, s.owner b = some h → State.stopsWith h (blockStatus p) s t)
      ∧ (∀ h, s.owner b ≠ some h → (t.herd h).st = (s.herd h).st ∧ (t.herd h).seq = (s.herd h).seq
          ∧ (t.herd h).beatNow = (s.herd h).beatNow ∧ (t.herd h).run.map (·.faults) = (s.herd h).run.map (·.faults))
      ∧ ∀ c, c ≠ b → (∀ h, s.owner b = some h → c ∉ s.blocksOf h) → t.block c = s.block c
end

