-- ==== Sys2Proof/Laws/Tbl.lean ====
section
/-!
SUPPORT. Laws of the sparse tables and of memory: what a read gives after a write, and that every operation keeps the
canonical form.
-/
namespace Sys2Proof.Machine

theorem Tbl.find_del_same {β : Type} (k : Nat) : (l : List (Nat × β)) → Tbl.find (Tbl.del l k) k = none
  | [] => rfl
  | (a, v) :: r => by
    have ih := Tbl.find_del_same k r
    by_cases h : a = k <;> simp [Tbl.del, Tbl.find, h, ih]

theorem Tbl.find_del_ne {β : Type} {j k : Nat} (n : j ≠ k) :
    (l : List (Nat × β)) → Tbl.find (Tbl.del l k) j = Tbl.find l j
  | [] => rfl
  | (a, v) :: r => by
    have ih := Tbl.find_del_ne n r
    by_cases h : a = k
    · simp [Tbl.del, Tbl.find, h, ih, Ne.symm n]
    · simp [Tbl.del, Tbl.find, h, ih]

theorem Tbl.find_ins_same {β : Type} (k : Nat) (v : β) : (l : List (Nat × β)) → Tbl.find (Tbl.ins l k v) k = some v
  | [] => by simp [Tbl.ins, Tbl.find]
  | (a, w) :: r => by
    have ih := Tbl.find_ins_same k v r
    by_cases h : a = k
    · simp [Tbl.ins, Tbl.find, h]
    · by_cases g : k < a <;> simp [Tbl.ins, Tbl.find, h, g, ih]

theorem Tbl.find_ins_ne {β : Type} {j k : Nat} (n : j ≠ k) (v : β) :
    (l : List (Nat × β)) → Tbl.find (Tbl.ins l k v) j = Tbl.find l j
  | [] => by simp [Tbl.ins, Tbl.find, Ne.symm n]
  | (a, w) :: r => by
    have ih := Tbl.find_ins_ne n v r
    by_cases h : a = k
    · simp [Tbl.ins, Tbl.find, h, Ne.symm n]
    · by_cases g : k < a <;> simp [Tbl.ins, Tbl.find, h, g, ih, Ne.symm n]

/-- A key reads as what was last written to it. -/
@[simp] theorem Tbl.get_set_same {β : Type} [DecidableEq β] (t : Tbl β) (d : β) (k : Nat) (v : β) :
    (t.set d k v).get d k = v := by
  by_cases h : v = d
  · simp [Tbl.set, Tbl.get, h, Tbl.find_del_same]
  · simp [Tbl.set, Tbl.get, h, Tbl.find_ins_same]

/-- A write leaves every other key alone. -/
theorem Tbl.get_set_ne {β : Type} [DecidableEq β] (t : Tbl β) (d : β) {j k : Nat} (v : β) (n : j ≠ k) :
    (t.set d k v).get d j = t.get d j := by
  by_cases h : v = d
  · simp [Tbl.set, Tbl.get, h, Tbl.find_del_ne n]
  · simp [Tbl.set, Tbl.get, h, Tbl.find_ins_ne n]

/-- What a key reads as after a write. -/
theorem Tbl.get_set {β : Type} [DecidableEq β] (t : Tbl β) (d : β) (j k : Nat) (v : β) :
    (t.set d k v).get d j = if j = k then v else t.get d j := by
  by_cases h : j = k
  · simp [h]
  · simp [h, Tbl.get_set_ne _ _ _ h]

@[simp] theorem Tbl.get_empty {β : Type} (d : β) (k : Nat) : (⟨[]⟩ : Tbl β).get d k = d := rfl

/-! ## The canonical form -/

/-- Every key of a list is at least `n`. -/
def Tbl.above {β : Type} (n : Nat) (l : List (Nat × β)) : Prop := ∀ e ∈ l, n ≤ e.1

theorem Tbl.sorted_cons {β : Type} {a : Nat} {v : β} {r : List (Nat × β)} :
    Tbl.sorted ((a, v) :: r) = true ↔ Tbl.above (a + 1) r ∧ Tbl.sorted r = true := by
  induction r generalizing a v with
  | nil => simp [Tbl.sorted, Tbl.above]
  | cons e r ih =>
    obtain ⟨b, w⟩ := e
    simp only [Tbl.sorted, Bool.and_eq_true, decide_eq_true_eq, Tbl.above, List.mem_cons, forall_eq_or_imp]
    constructor
    · rintro ⟨h, s⟩
      refine ⟨⟨h, fun e m => ?_⟩, s⟩
      have := (ih.1 s).1 e m
      omega
    · rintro ⟨⟨h, _⟩, s⟩
      exact ⟨h, s⟩

theorem Tbl.above_del {β : Type} {n : Nat} (k : Nat) : {l : List (Nat × β)} → Tbl.above n l → Tbl.above n (Tbl.del l k)
  | [], _ => by simp [Tbl.del, Tbl.above]
  | (a, v) :: r, h => by
    have hr : Tbl.above n r := fun e m => h e (List.mem_cons_of_mem _ m)
    have ih := Tbl.above_del k hr
    by_cases g : a = k
    · simpa [Tbl.del, g] using ih
    · simp only [Tbl.del, g, if_false]
      intro e m
      rcases List.mem_cons.1 m with rfl | m
      · exact h _ (by simp)
      · exact ih e m

theorem Tbl.above_ins {β : Type} {n k : Nat} (v : β) (hk : n ≤ k) :
    {l : List (Nat × β)} → Tbl.above n l → Tbl.above n (Tbl.ins l k v)
  | [], _ => by simp [Tbl.ins, Tbl.above, hk]
  | (a, w) :: r, h => by
    have hr : Tbl.above n r := fun e m => h e (List.mem_cons_of_mem _ m)
    have ih := Tbl.above_ins v hk hr
    have ha : n ≤ a := h (a, w) (by simp)
    intro e m
    by_cases g : a = k
    · simp only [Tbl.ins, g, if_true, List.mem_cons] at m
      rcases m with rfl | m
      · exact hk
      · exact hr e m
    · by_cases g' : k < a
      · simp only [Tbl.ins, g, g', if_false, if_true, List.mem_cons] at m
        rcases m with rfl | rfl | m
        · exact hk
        · exact ha
        · exact hr e m
      · simp only [Tbl.ins, g, g', if_false, List.mem_cons] at m
        rcases m with rfl | m
        · exact ha
        · exact ih e m

theorem Tbl.sorted_del {β : Type} (k : Nat) : {l : List (Nat × β)} → Tbl.sorted l = true → Tbl.sorted (Tbl.del l k) = true
  | [], _ => rfl
  | (a, v) :: r, h => by
    obtain ⟨h1, h2⟩ := Tbl.sorted_cons.1 h
    by_cases g : a = k
    · simpa [Tbl.del, g] using Tbl.sorted_del k h2
    · simpa [Tbl.del, g] using Tbl.sorted_cons.2 ⟨Tbl.above_del k h1, Tbl.sorted_del k h2⟩

theorem Tbl.sorted_ins {β : Type} (k : Nat) (v : β) :
    {l : List (Nat × β)} → Tbl.sorted l = true → Tbl.sorted (Tbl.ins l k v) = true
  | [], _ => rfl
  | (a, w) :: r, h => by
    obtain ⟨h1, h2⟩ := Tbl.sorted_cons.1 h
    by_cases g : a = k
    · subst g
      simpa [Tbl.ins] using Tbl.sorted_cons.2 ⟨h1, h2⟩
    · by_cases g' : k < a
      · simp only [Tbl.ins, g, g', if_false, if_true]
        refine Tbl.sorted_cons.2 ⟨fun e m => ?_, h⟩
        rcases List.mem_cons.1 m with rfl | m
        · exact g'
        · have := h1 e m
          omega
      · simp only [Tbl.ins, g, g', if_false]
        exact Tbl.sorted_cons.2 ⟨Tbl.above_ins v (by omega) h1, Tbl.sorted_ins k v h2⟩

theorem Tbl.mem_del {β : Type} {k : Nat} {e : Nat × β} : {l : List (Nat × β)} → e ∈ Tbl.del l k → e ∈ l
  | [], h => by simp [Tbl.del] at h
  | (a, v) :: r, h => by
    by_cases g : a = k
    · exact List.mem_cons_of_mem _ (Tbl.mem_del (by simpa [Tbl.del, g] using h))
    · simp only [Tbl.del, g, if_false, List.mem_cons] at h
      rcases h with rfl | h
      · simp
      · exact List.mem_cons_of_mem _ (Tbl.mem_del h)

theorem Tbl.mem_ins {β : Type} {k : Nat} {v : β} {e : Nat × β} :
    {l : List (Nat × β)} → e ∈ Tbl.ins l k v → e = (k, v) ∨ e ∈ l
  | [], h => by simpa [Tbl.ins] using h
  | (a, w) :: r, h => by
    by_cases g : a = k
    · simp only [Tbl.ins, g, if_true, List.mem_cons] at h
      rcases h with h | h
      · exact .inl h
      · exact .inr (List.mem_cons_of_mem _ h)
    · by_cases g' : k < a
      · simp only [Tbl.ins, g, g', if_false, if_true, List.mem_cons] at h
        rcases h with h | h
        · exact .inl h
        · exact .inr (by simpa using h)
      · simp only [Tbl.ins, g, g', if_false, List.mem_cons] at h
        rcases h with rfl | h
        · exact .inr (by simp)
        · rcases Tbl.mem_ins h with h | h
          · exact .inl h
          · exact .inr (List.mem_cons_of_mem _ h)

/-- A write keeps the canonical form. -/
theorem Tbl.wf_set {β : Type} [DecidableEq β] {t : Tbl β} {d : β} (k : Nat) (v : β) (h : t.wf d = true) :
    (t.set d k v).wf d = true := by
  simp only [Tbl.wf, Bool.and_eq_true, List.all_eq_true] at h ⊢
  obtain ⟨h1, h2⟩ := h
  by_cases g : v = d
  · simp only [Tbl.set, g, if_true]
    exact ⟨Tbl.sorted_del k h1, fun e m => h2 e (Tbl.mem_del m)⟩
  · simp only [Tbl.set, g, if_false]
    refine ⟨Tbl.sorted_ins k v h1, fun e m => ?_⟩
    rcases Tbl.mem_ins m with rfl | m
    · simpa using g
    · exact h2 e m

theorem Tbl.sorted_filter {β : Type} (p : Nat → Bool) :
    {l : List (Nat × β)} → Tbl.sorted l = true → Tbl.sorted (l.filter fun e => p e.1) = true
  | [], _ => rfl
  | (a, v) :: r, h => by
    obtain ⟨h1, h2⟩ := Tbl.sorted_cons.1 h
    by_cases g : p a = true
    · simpa [List.filter, g] using
        Tbl.sorted_cons.2 ⟨fun e m => h1 e (List.mem_filter.1 m).1, Tbl.sorted_filter p h2⟩
    · simpa [List.filter, g] using Tbl.sorted_filter p h2

/-- Dropping keys keeps the canonical form. -/
theorem Tbl.wf_filter {β : Type} [DecidableEq β] {t : Tbl β} {d : β} (p : Nat → Bool) (h : t.wf d = true) :
    (t.filter p).wf d = true := by
  simp only [Tbl.wf, Bool.and_eq_true, List.all_eq_true, Tbl.filter] at h ⊢
  exact ⟨Tbl.sorted_filter p h.1, fun e m => h.2 e (List.mem_filter.1 m).1⟩

theorem Tbl.find_filter {β : Type} (p : Nat → Bool) (k : Nat) :
    (l : List (Nat × β)) → Tbl.find (l.filter fun e => p e.1) k = if p k then Tbl.find l k else none
  | [] => by simp [Tbl.find]
  | (a, v) :: r => by
    have ih := Tbl.find_filter p k r
    by_cases g : p a = true <;> by_cases e : a = k
    · subst e; simp [List.filter, g, Tbl.find]
    · simp [List.filter, g, Tbl.find, e, ih]
    · subst e; simp [List.filter, g, ih]
    · simp [List.filter, g, Tbl.find, e, ih]

/-- What a key reads as once the keys outside `p` are dropped. -/
theorem Tbl.get_filter {β : Type} (t : Tbl β) (d : β) (p : Nat → Bool) (k : Nat) :
    (t.filter p).get d k = if p k then t.get d k else d := by
  simp only [Tbl.get, Tbl.filter, Tbl.find_filter]
  by_cases g : p k = true <;> simp [g]

/-- Two tables in canonical form that read alike are equal data. -/
theorem Tbl.find_above {β : Type} {n k : Nat} (hk : k < n) : {l : List (Nat × β)} → Tbl.above n l → Tbl.find l k = none
  | [], _ => rfl
  | (a, v) :: r, h => by
    have ha : n ≤ a := h (a, v) (by simp)
    have hr : Tbl.above n r := fun e m => h e (List.mem_cons_of_mem _ m)
    simp [Tbl.find, show a ≠ k by omega, Tbl.find_above hk hr]

/-! ## Memory -/

@[simp] theorem Mem.read_write_same (m : Mem) (a : Nat) (v : Byte) : (m.write a v).read a = v := by
  simp [Mem.read, Mem.write]

theorem Mem.read_write_ne (m : Mem) {a b : Nat} (v : Byte) (n : b ≠ a) : (m.write a v).read b = m.read b := by
  simp [Mem.read, Mem.write, Tbl.get_set_ne _ _ _ n]

/-- A byte outside the bytes written reads as before. -/
theorem Mem.read_writeBytes_out (l : List Byte) : (m : Mem) → (a b : Nat) → (b < a ∨ a + l.length ≤ b) →
    (m.writeBytes a l).read b = m.read b := by
  induction l with
  | nil => intros; rfl
  | cons x r ih =>
    intro m a b h
    simp only [List.length_cons] at h
    rw [Mem.writeBytes, ih _ _ _ (by omega), Mem.read_write_ne _ _ (by omega)]

/-- A byte inside the bytes written reads as the byte written there. -/
theorem Mem.read_writeBytes_in (l : List Byte) : (m : Mem) → (a : Nat) → (i : Nat) → (h : i < l.length) →
    (m.writeBytes a l).read (a + i) = l[i] := by
  induction l with
  | nil => intro m a i h; simp at h
  | cons x r ih =>
    intro m a i h
    rw [Mem.writeBytes]
    cases i with
    | zero =>
      rw [Mem.read_writeBytes_out r _ _ _ (by omega)]
      simp
    | succ i =>
      have := ih (m.write a x) (a + 1) i (by simpa using h)
      simpa [Nat.add_assoc, Nat.add_comm 1 i] using this

/-- A write of bytes keeps the canonical form. -/
theorem Memory.wf_write {m : Mem} (a : Nat) (v : Byte) (h : Memory.wf m = true) : Memory.wf (m.write a v) = true :=
  Tbl.wf_set a v h

theorem Memory.wf_writeBytes (l : List Byte) : {m : Mem} → (a : Nat) → Memory.wf m = true →
    Memory.wf (m.writeBytes a l) = true := by
  induction l with
  | nil => intro m a h; exact h
  | cons x r ih => intro m a h; exact ih (a + 1) (Memory.wf_write a x h)

theorem Memory.wf_filter {m : Mem} (p : Nat → Bool) (h : Memory.wf m = true) : Memory.wf (Tbl.filter m p) = true :=
  Tbl.wf_filter p h

/-- Memory with nothing listed is in canonical form. -/
theorem Memory.wf_empty : Memory.wf {} = true := rfl

end Sys2Proof.Machine
end

