-- ==== Sys2Proof/Laws/State.lean ====
section
/-!
SUPPORT. Laws of State: what each named update leaves of each field, and what each accessor reads after it.
-/
namespace Sys2Proof.Machine

variable (s : State)

/-! ## `State.setHerd` -/
@[simp] theorem State.setHerd_pending (h : HerdId) (v : Herd) : (s.setHerd h v).pending = s.pending := rfl
@[simp] theorem State.setHerd_power (h : HerdId) (v : Herd) : (s.setHerd h v).power = s.power := rfl
@[simp] theorem State.setHerd_arbSlot (h : HerdId) (v : Herd) : (s.setHerd h v).arbSlot = s.arbSlot := rfl
@[simp] theorem State.setHerd_operWeight (h : HerdId) (v : Herd) : (s.setHerd h v).operWeight = s.operWeight := rfl
@[simp] theorem State.setHerd_weights (h : HerdId) (v : Herd) : (s.setHerd h v).weights = s.weights := rfl
@[simp] theorem State.setHerd_wdogUs (h : HerdId) (v : Herd) : (s.setHerd h v).wdogUs = s.wdogUs := rfl
@[simp] theorem State.setHerd_tb (h : HerdId) (v : Herd) : (s.setHerd h v).tb = s.tb := rfl
@[simp] theorem State.setHerd_pins (h : HerdId) (v : Herd) : (s.setHerd h v).pins = s.pins := rfl
@[simp] theorem State.setHerd_cfg (h : HerdId) (v : Herd) : (s.setHerd h v).cfg = s.cfg := rfl
@[simp] theorem State.setHerd_linkTimeoutMs (h : HerdId) (v : Herd) : (s.setHerd h v).linkTimeoutMs = s.linkTimeoutMs := rfl
@[simp] theorem State.setHerd_linkUp (h : HerdId) (v : Herd) : (s.setHerd h v).linkUp = s.linkUp := rfl
@[simp] theorem State.setHerd_linkSpeed (h : HerdId) (v : Herd) : (s.setHerd h v).linkSpeed = s.linkSpeed := rfl
@[simp] theorem State.setHerd_linkWidth (h : HerdId) (v : Herd) : (s.setHerd h v).linkWidth = s.linkWidth := rfl
@[simp] theorem State.setHerd_doeError (h : HerdId) (v : Herd) : (s.setHerd h v).doeError = s.doeError := rfl
@[simp] theorem State.setHerd_aer (h : HerdId) (v : Herd) : (s.setHerd h v).aer = s.aer := rfl
@[simp] theorem State.setHerd_d3hot (h : HerdId) (v : Herd) : (s.setHerd h v).d3hot = s.d3hot := rfl
@[simp] theorem State.setHerd_numVfs (h : HerdId) (v : Herd) : (s.setHerd h v).numVfs = s.numVfs := rfl
@[simp] theorem State.setHerd_vfEnable (h : HerdId) (v : Herd) : (s.setHerd h v).vfEnable = s.vfEnable := rfl
@[simp] theorem State.setHerd_lots (h : HerdId) (v : Herd) : (s.setHerd h v).lots = s.lots := rfl
@[simp] theorem State.setHerd_denied (h : HerdId) (v : Herd) : (s.setHerd h v).denied = s.denied := rfl
@[simp] theorem State.setHerd_hbm (h : HerdId) (v : Herd) : (s.setHerd h v).hbm = s.hbm := rfl
@[simp] theorem State.setHerd_interleavedOk (h : HerdId) (v : Herd) : (s.setHerd h v).interleavedOk = s.interleavedOk := rfl
@[simp] theorem State.setHerd_mem (h : HerdId) (v : Herd) : (s.setHerd h v).mem = s.mem := rfl
@[simp] theorem State.setHerd_lineEpoch (h : HerdId) (v : Herd) : (s.setHerd h v).lineEpoch = s.lineEpoch := rfl
@[simp] theorem State.setHerd_hbmBad (h : HerdId) (v : Herd) : (s.setHerd h v).hbmBad = s.hbmBad := rfl
@[simp] theorem State.setHerd_healthRo (h : HerdId) (v : Herd) : (s.setHerd h v).healthRo = s.healthRo := rfl
@[simp] theorem State.setHerd_hostMem (h : HerdId) (v : Herd) : (s.setHerd h v).hostMem = s.hostMem := rfl
@[simp] theorem State.setHerd_copies (h : HerdId) (v : Herd) : (s.setHerd h v).copies = s.copies := rfl
@[simp] theorem State.setHerd_waitFree (h : HerdId) (v : Herd) : (s.setHerd h v).waitFree = s.waitFree := rfl
@[simp] theorem State.setHerd_blocks (h : HerdId) (v : Herd) : (s.setHerd h v).blocks = s.blocks := rfl
@[simp] theorem State.setHerd_pfRings (h : HerdId) (v : Herd) : (s.setHerd h v).pfRings = s.pfRings := rfl
@[simp] theorem State.setHerd_ide (h : HerdId) (v : Herd) : (s.setHerd h v).ide = s.ide := rfl
@[simp] theorem State.setHerd_meters (h : HerdId) (v : Herd) : (s.setHerd h v).meters = s.meters := rfl
@[simp] theorem State.setHerd_meterDue (h : HerdId) (v : Herd) : (s.setHerd h v).meterDue = s.meterDue := rfl
@[simp] theorem State.setHerd_linkIds (h : HerdId) (v : Herd) : (s.setHerd h v).linkIds = s.linkIds := rfl
@[simp] theorem State.setHerd_heldLow (h : HerdId) (v : Herd) : (s.setHerd h v).heldLow = s.heldLow := rfl
@[simp] theorem State.setHerd_latchedHigh (h : HerdId) (v : Herd) : (s.setHerd h v).latchedHigh = s.latchedHigh := rfl
@[simp] theorem State.setHerd_wins (h : HerdId) (v : Herd) : (s.setHerd h v).wins = s.wins := rfl
@[simp] theorem State.setHerd_macFail (h : HerdId) (v : Herd) : (s.setHerd h v).macFail = s.macFail := rfl
@[simp] theorem State.setHerd_badNodeCnt (h : HerdId) (v : Herd) : (s.setHerd h v).badNodeCnt = s.badNodeCnt := rfl
@[simp] theorem State.setHerd_profile (h : HerdId) (v : Herd) : (s.setHerd h v).profile = s.profile := rfl
@[simp] theorem State.setHerd_smallD (h : HerdId) (v : Herd) : (s.setHerd h v).smallD = s.smallD := rfl
@[simp] theorem State.setHerd_dimEn (h : HerdId) (v : Herd) : (s.setHerd h v).dimEn = s.dimEn := rfl
@[simp] theorem State.setHerd_pod (h : HerdId) (v : Herd) : (s.setHerd h v).pod = s.pod := rfl
@[simp] theorem State.setHerd_spareDim (h : HerdId) (v : Herd) : (s.setHerd h v).spareDim = s.spareDim := rfl
@[simp] theorem State.setHerd_crcLimit (h : HerdId) (v : Herd) : (s.setHerd h v).crcLimit = s.crcLimit := rfl
@[simp] theorem State.setHerd_cubeAddr (h : HerdId) (v : Herd) : (s.setHerd h v).cubeAddr = s.cubeAddr := rfl
@[simp] theorem State.setHerd_addrValid (h : HerdId) (v : Herd) : (s.setHerd h v).addrValid = s.addrValid := rfl
@[simp] theorem State.setHerd_lanes (h : HerdId) (v : Herd) : (s.setHerd h v).lanes = s.lanes := rfl
@[simp] theorem State.setHerd_dims (h : HerdId) (v : Herd) : (s.setHerd h v).dims = s.dims := rfl
@[simp] theorem State.setHerd_streams (h : HerdId) (v : Herd) : (s.setHerd h v).streams = s.streams := rfl
@[simp] theorem State.setHerd_slots (h : HerdId) (v : Herd) : (s.setHerd h v).slots = s.slots := rfl
@[simp] theorem State.setHerd_tahr (h : HerdId) (v : Herd) : (s.setHerd h v).tahr = s.tahr := rfl
@[simp] theorem State.setHerd_serow (h : HerdId) (v : Herd) : (s.setHerd h v).serow = s.serow := rfl
@[simp] theorem State.setHerd_lc (h : HerdId) (v : Herd) : (s.setHerd h v).lc = s.lc := rfl
@[simp] theorem State.setHerd_repair (h : HerdId) (v : Herd) : (s.setHerd h v).repair = s.repair := rfl
@[simp] theorem State.setHerd_ics (h : HerdId) (v : Herd) : (s.setHerd h v).ics = s.ics := rfl
@[simp] theorem State.setHerd_orderSeq (h : HerdId) (v : Herd) : (s.setHerd h v).orderSeq = s.orderSeq := rfl
@[simp] theorem State.setHerd_freeCtr (h : HerdId) (v : Herd) : (s.setHerd h v).freeCtr = s.freeCtr := rfl
@[simp] theorem State.setHerd_lineStatus (h : HerdId) (v : Herd) : (s.setHerd h v).lineStatus = s.lineStatus := rfl
@[simp] theorem State.setHerd_reply (h : HerdId) (v : Herd) : (s.setHerd h v).reply = s.reply := rfl

/-! ## `State.modHerd` -/
@[simp] theorem State.modHerd_pending (h : HerdId) (f : Herd → Herd) : (s.modHerd h f).pending = s.pending := rfl
@[simp] theorem State.modHerd_power (h : HerdId) (f : Herd → Herd) : (s.modHerd h f).power = s.power := rfl
@[simp] theorem State.modHerd_arbSlot (h : HerdId) (f : Herd → Herd) : (s.modHerd h f).arbSlot = s.arbSlot := rfl
@[simp] theorem State.modHerd_operWeight (h : HerdId) (f : Herd → Herd) : (s.modHerd h f).operWeight = s.operWeight := rfl
@[simp] theorem State.modHerd_weights (h : HerdId) (f : Herd → Herd) : (s.modHerd h f).weights = s.weights := rfl
@[simp] theorem State.modHerd_wdogUs (h : HerdId) (f : Herd → Herd) : (s.modHerd h f).wdogUs = s.wdogUs := rfl
@[simp] theorem State.modHerd_tb (h : HerdId) (f : Herd → Herd) : (s.modHerd h f).tb = s.tb := rfl
@[simp] theorem State.modHerd_pins (h : HerdId) (f : Herd → Herd) : (s.modHerd h f).pins = s.pins := rfl
@[simp] theorem State.modHerd_cfg (h : HerdId) (f : Herd → Herd) : (s.modHerd h f).cfg = s.cfg := rfl
@[simp] theorem State.modHerd_linkTimeoutMs (h : HerdId) (f : Herd → Herd) : (s.modHerd h f).linkTimeoutMs = s.linkTimeoutMs := rfl
@[simp] theorem State.modHerd_linkUp (h : HerdId) (f : Herd → Herd) : (s.modHerd h f).linkUp = s.linkUp := rfl
@[simp] theorem State.modHerd_linkSpeed (h : HerdId) (f : Herd → Herd) : (s.modHerd h f).linkSpeed = s.linkSpeed := rfl
@[simp] theorem State.modHerd_linkWidth (h : HerdId) (f : Herd → Herd) : (s.modHerd h f).linkWidth = s.linkWidth := rfl
@[simp] theorem State.modHerd_doeError (h : HerdId) (f : Herd → Herd) : (s.modHerd h f).doeError = s.doeError := rfl
@[simp] theorem State.modHerd_aer (h : HerdId) (f : Herd → Herd) : (s.modHerd h f).aer = s.aer := rfl
@[simp] theorem State.modHerd_d3hot (h : HerdId) (f : Herd → Herd) : (s.modHerd h f).d3hot = s.d3hot := rfl
@[simp] theorem State.modHerd_numVfs (h : HerdId) (f : Herd → Herd) : (s.modHerd h f).numVfs = s.numVfs := rfl
@[simp] theorem State.modHerd_vfEnable (h : HerdId) (f : Herd → Herd) : (s.modHerd h f).vfEnable = s.vfEnable := rfl
@[simp] theorem State.modHerd_lots (h : HerdId) (f : Herd → Herd) : (s.modHerd h f).lots = s.lots := rfl
@[simp] theorem State.modHerd_denied (h : HerdId) (f : Herd → Herd) : (s.modHerd h f).denied = s.denied := rfl
@[simp] theorem State.modHerd_hbm (h : HerdId) (f : Herd → Herd) : (s.modHerd h f).hbm = s.hbm := rfl
@[simp] theorem State.modHerd_interleavedOk (h : HerdId) (f : Herd → Herd) : (s.modHerd h f).interleavedOk = s.interleavedOk := rfl
@[simp] theorem State.modHerd_mem (h : HerdId) (f : Herd → Herd) : (s.modHerd h f).mem = s.mem := rfl
@[simp] theorem State.modHerd_lineEpoch (h : HerdId) (f : Herd → Herd) : (s.modHerd h f).lineEpoch = s.lineEpoch := rfl
@[simp] theorem State.modHerd_hbmBad (h : HerdId) (f : Herd → Herd) : (s.modHerd h f).hbmBad = s.hbmBad := rfl
@[simp] theorem State.modHerd_healthRo (h : HerdId) (f : Herd → Herd) : (s.modHerd h f).healthRo = s.healthRo := rfl
@[simp] theorem State.modHerd_hostMem (h : HerdId) (f : Herd → Herd) : (s.modHerd h f).hostMem = s.hostMem := rfl
@[simp] theorem State.modHerd_copies (h : HerdId) (f : Herd → Herd) : (s.modHerd h f).copies = s.copies := rfl
@[simp] theorem State.modHerd_waitFree (h : HerdId) (f : Herd → Herd) : (s.modHerd h f).waitFree = s.waitFree := rfl
@[simp] theorem State.modHerd_blocks (h : HerdId) (f : Herd → Herd) : (s.modHerd h f).blocks = s.blocks := rfl
@[simp] theorem State.modHerd_pfRings (h : HerdId) (f : Herd → Herd) : (s.modHerd h f).pfRings = s.pfRings := rfl
@[simp] theorem State.modHerd_ide (h : HerdId) (f : Herd → Herd) : (s.modHerd h f).ide = s.ide := rfl
@[simp] theorem State.modHerd_meters (h : HerdId) (f : Herd → Herd) : (s.modHerd h f).meters = s.meters := rfl
@[simp] theorem State.modHerd_meterDue (h : HerdId) (f : Herd → Herd) : (s.modHerd h f).meterDue = s.meterDue := rfl
@[simp] theorem State.modHerd_linkIds (h : HerdId) (f : Herd → Herd) : (s.modHerd h f).linkIds = s.linkIds := rfl
@[simp] theorem State.modHerd_heldLow (h : HerdId) (f : Herd → Herd) : (s.modHerd h f).heldLow = s.heldLow := rfl
@[simp] theorem State.modHerd_latchedHigh (h : HerdId) (f : Herd → Herd) : (s.modHerd h f).latchedHigh = s.latchedHigh := rfl
@[simp] theorem State.modHerd_wins (h : HerdId) (f : Herd → Herd) : (s.modHerd h f).wins = s.wins := rfl
@[simp] theorem State.modHerd_macFail (h : HerdId) (f : Herd → Herd) : (s.modHerd h f).macFail = s.macFail := rfl
@[simp] theorem State.modHerd_badNodeCnt (h : HerdId) (f : Herd → Herd) : (s.modHerd h f).badNodeCnt = s.badNodeCnt := rfl
@[simp] theorem State.modHerd_profile (h : HerdId) (f : Herd → Herd) : (s.modHerd h f).profile = s.profile := rfl
@[simp] theorem State.modHerd_smallD (h : HerdId) (f : Herd → Herd) : (s.modHerd h f).smallD = s.smallD := rfl
@[simp] theorem State.modHerd_dimEn (h : HerdId) (f : Herd → Herd) : (s.modHerd h f).dimEn = s.dimEn := rfl
@[simp] theorem State.modHerd_pod (h : HerdId) (f : Herd → Herd) : (s.modHerd h f).pod = s.pod := rfl
@[simp] theorem State.modHerd_spareDim (h : HerdId) (f : Herd → Herd) : (s.modHerd h f).spareDim = s.spareDim := rfl
@[simp] theorem State.modHerd_crcLimit (h : HerdId) (f : Herd → Herd) : (s.modHerd h f).crcLimit = s.crcLimit := rfl
@[simp] theorem State.modHerd_cubeAddr (h : HerdId) (f : Herd → Herd) : (s.modHerd h f).cubeAddr = s.cubeAddr := rfl
@[simp] theorem State.modHerd_addrValid (h : HerdId) (f : Herd → Herd) : (s.modHerd h f).addrValid = s.addrValid := rfl
@[simp] theorem State.modHerd_lanes (h : HerdId) (f : Herd → Herd) : (s.modHerd h f).lanes = s.lanes := rfl
@[simp] theorem State.modHerd_dims (h : HerdId) (f : Herd → Herd) : (s.modHerd h f).dims = s.dims := rfl
@[simp] theorem State.modHerd_streams (h : HerdId) (f : Herd → Herd) : (s.modHerd h f).streams = s.streams := rfl
@[simp] theorem State.modHerd_slots (h : HerdId) (f : Herd → Herd) : (s.modHerd h f).slots = s.slots := rfl
@[simp] theorem State.modHerd_tahr (h : HerdId) (f : Herd → Herd) : (s.modHerd h f).tahr = s.tahr := rfl
@[simp] theorem State.modHerd_serow (h : HerdId) (f : Herd → Herd) : (s.modHerd h f).serow = s.serow := rfl
@[simp] theorem State.modHerd_lc (h : HerdId) (f : Herd → Herd) : (s.modHerd h f).lc = s.lc := rfl
@[simp] theorem State.modHerd_repair (h : HerdId) (f : Herd → Herd) : (s.modHerd h f).repair = s.repair := rfl
@[simp] theorem State.modHerd_ics (h : HerdId) (f : Herd → Herd) : (s.modHerd h f).ics = s.ics := rfl
@[simp] theorem State.modHerd_orderSeq (h : HerdId) (f : Herd → Herd) : (s.modHerd h f).orderSeq = s.orderSeq := rfl
@[simp] theorem State.modHerd_freeCtr (h : HerdId) (f : Herd → Herd) : (s.modHerd h f).freeCtr = s.freeCtr := rfl
@[simp] theorem State.modHerd_lineStatus (h : HerdId) (f : Herd → Herd) : (s.modHerd h f).lineStatus = s.lineStatus := rfl
@[simp] theorem State.modHerd_reply (h : HerdId) (f : Herd → Herd) : (s.modHerd h f).reply = s.reply := rfl

/-! ## `State.setBlock` -/
@[simp] theorem State.setBlock_pending (b : BlockId) (v : Block) : (s.setBlock b v).pending = s.pending := rfl
@[simp] theorem State.setBlock_power (b : BlockId) (v : Block) : (s.setBlock b v).power = s.power := rfl
@[simp] theorem State.setBlock_arbSlot (b : BlockId) (v : Block) : (s.setBlock b v).arbSlot = s.arbSlot := rfl
@[simp] theorem State.setBlock_operWeight (b : BlockId) (v : Block) : (s.setBlock b v).operWeight = s.operWeight := rfl
@[simp] theorem State.setBlock_weights (b : BlockId) (v : Block) : (s.setBlock b v).weights = s.weights := rfl
@[simp] theorem State.setBlock_wdogUs (b : BlockId) (v : Block) : (s.setBlock b v).wdogUs = s.wdogUs := rfl
@[simp] theorem State.setBlock_tb (b : BlockId) (v : Block) : (s.setBlock b v).tb = s.tb := rfl
@[simp] theorem State.setBlock_pins (b : BlockId) (v : Block) : (s.setBlock b v).pins = s.pins := rfl
@[simp] theorem State.setBlock_cfg (b : BlockId) (v : Block) : (s.setBlock b v).cfg = s.cfg := rfl
@[simp] theorem State.setBlock_linkTimeoutMs (b : BlockId) (v : Block) : (s.setBlock b v).linkTimeoutMs = s.linkTimeoutMs := rfl
@[simp] theorem State.setBlock_linkUp (b : BlockId) (v : Block) : (s.setBlock b v).linkUp = s.linkUp := rfl
@[simp] theorem State.setBlock_linkSpeed (b : BlockId) (v : Block) : (s.setBlock b v).linkSpeed = s.linkSpeed := rfl
@[simp] theorem State.setBlock_linkWidth (b : BlockId) (v : Block) : (s.setBlock b v).linkWidth = s.linkWidth := rfl
@[simp] theorem State.setBlock_doeError (b : BlockId) (v : Block) : (s.setBlock b v).doeError = s.doeError := rfl
@[simp] theorem State.setBlock_aer (b : BlockId) (v : Block) : (s.setBlock b v).aer = s.aer := rfl
@[simp] theorem State.setBlock_d3hot (b : BlockId) (v : Block) : (s.setBlock b v).d3hot = s.d3hot := rfl
@[simp] theorem State.setBlock_numVfs (b : BlockId) (v : Block) : (s.setBlock b v).numVfs = s.numVfs := rfl
@[simp] theorem State.setBlock_vfEnable (b : BlockId) (v : Block) : (s.setBlock b v).vfEnable = s.vfEnable := rfl
@[simp] theorem State.setBlock_lots (b : BlockId) (v : Block) : (s.setBlock b v).lots = s.lots := rfl
@[simp] theorem State.setBlock_denied (b : BlockId) (v : Block) : (s.setBlock b v).denied = s.denied := rfl
@[simp] theorem State.setBlock_hbm (b : BlockId) (v : Block) : (s.setBlock b v).hbm = s.hbm := rfl
@[simp] theorem State.setBlock_interleavedOk (b : BlockId) (v : Block) : (s.setBlock b v).interleavedOk = s.interleavedOk := rfl
@[simp] theorem State.setBlock_mem (b : BlockId) (v : Block) : (s.setBlock b v).mem = s.mem := rfl
@[simp] theorem State.setBlock_lineEpoch (b : BlockId) (v : Block) : (s.setBlock b v).lineEpoch = s.lineEpoch := rfl
@[simp] theorem State.setBlock_hbmBad (b : BlockId) (v : Block) : (s.setBlock b v).hbmBad = s.hbmBad := rfl
@[simp] theorem State.setBlock_healthRo (b : BlockId) (v : Block) : (s.setBlock b v).healthRo = s.healthRo := rfl
@[simp] theorem State.setBlock_hostMem (b : BlockId) (v : Block) : (s.setBlock b v).hostMem = s.hostMem := rfl
@[simp] theorem State.setBlock_copies (b : BlockId) (v : Block) : (s.setBlock b v).copies = s.copies := rfl
@[simp] theorem State.setBlock_waitFree (b : BlockId) (v : Block) : (s.setBlock b v).waitFree = s.waitFree := rfl
@[simp] theorem State.setBlock_herds (b : BlockId) (v : Block) : (s.setBlock b v).herds = s.herds := rfl
@[simp] theorem State.setBlock_pfRings (b : BlockId) (v : Block) : (s.setBlock b v).pfRings = s.pfRings := rfl
@[simp] theorem State.setBlock_ide (b : BlockId) (v : Block) : (s.setBlock b v).ide = s.ide := rfl
@[simp] theorem State.setBlock_meters (b : BlockId) (v : Block) : (s.setBlock b v).meters = s.meters := rfl
@[simp] theorem State.setBlock_meterDue (b : BlockId) (v : Block) : (s.setBlock b v).meterDue = s.meterDue := rfl
@[simp] theorem State.setBlock_linkIds (b : BlockId) (v : Block) : (s.setBlock b v).linkIds = s.linkIds := rfl
@[simp] theorem State.setBlock_heldLow (b : BlockId) (v : Block) : (s.setBlock b v).heldLow = s.heldLow := rfl
@[simp] theorem State.setBlock_latchedHigh (b : BlockId) (v : Block) : (s.setBlock b v).latchedHigh = s.latchedHigh := rfl
@[simp] theorem State.setBlock_wins (b : BlockId) (v : Block) : (s.setBlock b v).wins = s.wins := rfl
@[simp] theorem State.setBlock_macFail (b : BlockId) (v : Block) : (s.setBlock b v).macFail = s.macFail := rfl
@[simp] theorem State.setBlock_badNodeCnt (b : BlockId) (v : Block) : (s.setBlock b v).badNodeCnt = s.badNodeCnt := rfl
@[simp] theorem State.setBlock_profile (b : BlockId) (v : Block) : (s.setBlock b v).profile = s.profile := rfl
@[simp] theorem State.setBlock_smallD (b : BlockId) (v : Block) : (s.setBlock b v).smallD = s.smallD := rfl
@[simp] theorem State.setBlock_dimEn (b : BlockId) (v : Block) : (s.setBlock b v).dimEn = s.dimEn := rfl
@[simp] theorem State.setBlock_pod (b : BlockId) (v : Block) : (s.setBlock b v).pod = s.pod := rfl
@[simp] theorem State.setBlock_spareDim (b : BlockId) (v : Block) : (s.setBlock b v).spareDim = s.spareDim := rfl
@[simp] theorem State.setBlock_crcLimit (b : BlockId) (v : Block) : (s.setBlock b v).crcLimit = s.crcLimit := rfl
@[simp] theorem State.setBlock_cubeAddr (b : BlockId) (v : Block) : (s.setBlock b v).cubeAddr = s.cubeAddr := rfl
@[simp] theorem State.setBlock_addrValid (b : BlockId) (v : Block) : (s.setBlock b v).addrValid = s.addrValid := rfl
@[simp] theorem State.setBlock_lanes (b : BlockId) (v : Block) : (s.setBlock b v).lanes = s.lanes := rfl
@[simp] theorem State.setBlock_dims (b : BlockId) (v : Block) : (s.setBlock b v).dims = s.dims := rfl
@[simp] theorem State.setBlock_streams (b : BlockId) (v : Block) : (s.setBlock b v).streams = s.streams := rfl
@[simp] theorem State.setBlock_slots (b : BlockId) (v : Block) : (s.setBlock b v).slots = s.slots := rfl
@[simp] theorem State.setBlock_tahr (b : BlockId) (v : Block) : (s.setBlock b v).tahr = s.tahr := rfl
@[simp] theorem State.setBlock_serow (b : BlockId) (v : Block) : (s.setBlock b v).serow = s.serow := rfl
@[simp] theorem State.setBlock_lc (b : BlockId) (v : Block) : (s.setBlock b v).lc = s.lc := rfl
@[simp] theorem State.setBlock_repair (b : BlockId) (v : Block) : (s.setBlock b v).repair = s.repair := rfl
@[simp] theorem State.setBlock_ics (b : BlockId) (v : Block) : (s.setBlock b v).ics = s.ics := rfl
@[simp] theorem State.setBlock_orderSeq (b : BlockId) (v : Block) : (s.setBlock b v).orderSeq = s.orderSeq := rfl
@[simp] theorem State.setBlock_freeCtr (b : BlockId) (v : Block) : (s.setBlock b v).freeCtr = s.freeCtr := rfl
@[simp] theorem State.setBlock_lineStatus (b : BlockId) (v : Block) : (s.setBlock b v).lineStatus = s.lineStatus := rfl
@[simp] theorem State.setBlock_reply (b : BlockId) (v : Block) : (s.setBlock b v).reply = s.reply := rfl

/-! ## `State.modBlock` -/
@[simp] theorem State.modBlock_pending (b : BlockId) (f : Block → Block) : (s.modBlock b f).pending = s.pending := rfl
@[simp] theorem State.modBlock_power (b : BlockId) (f : Block → Block) : (s.modBlock b f).power = s.power := rfl
@[simp] theorem State.modBlock_arbSlot (b : BlockId) (f : Block → Block) : (s.modBlock b f).arbSlot = s.arbSlot := rfl
@[simp] theorem State.modBlock_operWeight (b : BlockId) (f : Block → Block) : (s.modBlock b f).operWeight = s.operWeight := rfl
@[simp] theorem State.modBlock_weights (b : BlockId) (f : Block → Block) : (s.modBlock b f).weights = s.weights := rfl
@[simp] theorem State.modBlock_wdogUs (b : BlockId) (f : Block → Block) : (s.modBlock b f).wdogUs = s.wdogUs := rfl
@[simp] theorem State.modBlock_tb (b : BlockId) (f : Block → Block) : (s.modBlock b f).tb = s.tb := rfl
@[simp] theorem State.modBlock_pins (b : BlockId) (f : Block → Block) : (s.modBlock b f).pins = s.pins := rfl
@[simp] theorem State.modBlock_cfg (b : BlockId) (f : Block → Block) : (s.modBlock b f).cfg = s.cfg := rfl
@[simp] theorem State.modBlock_linkTimeoutMs (b : BlockId) (f : Block → Block) : (s.modBlock b f).linkTimeoutMs = s.linkTimeoutMs := rfl
@[simp] theorem State.modBlock_linkUp (b : BlockId) (f : Block → Block) : (s.modBlock b f).linkUp = s.linkUp := rfl
@[simp] theorem State.modBlock_linkSpeed (b : BlockId) (f : Block → Block) : (s.modBlock b f).linkSpeed = s.linkSpeed := rfl
@[simp] theorem State.modBlock_linkWidth (b : BlockId) (f : Block → Block) : (s.modBlock b f).linkWidth = s.linkWidth := rfl
@[simp] theorem State.modBlock_doeError (b : BlockId) (f : Block → Block) : (s.modBlock b f).doeError = s.doeError := rfl
@[simp] theorem State.modBlock_aer (b : BlockId) (f : Block → Block) : (s.modBlock b f).aer = s.aer := rfl
@[simp] theorem State.modBlock_d3hot (b : BlockId) (f : Block → Block) : (s.modBlock b f).d3hot = s.d3hot := rfl
@[simp] theorem State.modBlock_numVfs (b : BlockId) (f : Block → Block) : (s.modBlock b f).numVfs = s.numVfs := rfl
@[simp] theorem State.modBlock_vfEnable (b : BlockId) (f : Block → Block) : (s.modBlock b f).vfEnable = s.vfEnable := rfl
@[simp] theorem State.modBlock_lots (b : BlockId) (f : Block → Block) : (s.modBlock b f).lots = s.lots := rfl
@[simp] theorem State.modBlock_denied (b : BlockId) (f : Block → Block) : (s.modBlock b f).denied = s.denied := rfl
@[simp] theorem State.modBlock_hbm (b : BlockId) (f : Block → Block) : (s.modBlock b f).hbm = s.hbm := rfl
@[simp] theorem State.modBlock_interleavedOk (b : BlockId) (f : Block → Block) : (s.modBlock b f).interleavedOk = s.interleavedOk := rfl
@[simp] theorem State.modBlock_mem (b : BlockId) (f : Block → Block) : (s.modBlock b f).mem = s.mem := rfl
@[simp] theorem State.modBlock_lineEpoch (b : BlockId) (f : Block → Block) : (s.modBlock b f).lineEpoch = s.lineEpoch := rfl
@[simp] theorem State.modBlock_hbmBad (b : BlockId) (f : Block → Block) : (s.modBlock b f).hbmBad = s.hbmBad := rfl
@[simp] theorem State.modBlock_healthRo (b : BlockId) (f : Block → Block) : (s.modBlock b f).healthRo = s.healthRo := rfl
@[simp] theorem State.modBlock_hostMem (b : BlockId) (f : Block → Block) : (s.modBlock b f).hostMem = s.hostMem := rfl
@[simp] theorem State.modBlock_copies (b : BlockId) (f : Block → Block) : (s.modBlock b f).copies = s.copies := rfl
@[simp] theorem State.modBlock_waitFree (b : BlockId) (f : Block → Block) : (s.modBlock b f).waitFree = s.waitFree := rfl
@[simp] theorem State.modBlock_herds (b : BlockId) (f : Block → Block) : (s.modBlock b f).herds = s.herds := rfl
@[simp] theorem State.modBlock_pfRings (b : BlockId) (f : Block → Block) : (s.modBlock b f).pfRings = s.pfRings := rfl
@[simp] theorem State.modBlock_ide (b : BlockId) (f : Block → Block) : (s.modBlock b f).ide = s.ide := rfl
@[simp] theorem State.modBlock_meters (b : BlockId) (f : Block → Block) : (s.modBlock b f).meters = s.meters := rfl
@[simp] theorem State.modBlock_meterDue (b : BlockId) (f : Block → Block) : (s.modBlock b f).meterDue = s.meterDue := rfl
@[simp] theorem State.modBlock_linkIds (b : BlockId) (f : Block → Block) : (s.modBlock b f).linkIds = s.linkIds := rfl
@[simp] theorem State.modBlock_heldLow (b : BlockId) (f : Block → Block) : (s.modBlock b f).heldLow = s.heldLow := rfl
@[simp] theorem State.modBlock_latchedHigh (b : BlockId) (f : Block → Block) : (s.modBlock b f).latchedHigh = s.latchedHigh := rfl
@[simp] theorem State.modBlock_wins (b : BlockId) (f : Block → Block) : (s.modBlock b f).wins = s.wins := rfl
@[simp] theorem State.modBlock_macFail (b : BlockId) (f : Block → Block) : (s.modBlock b f).macFail = s.macFail := rfl
@[simp] theorem State.modBlock_badNodeCnt (b : BlockId) (f : Block → Block) : (s.modBlock b f).badNodeCnt = s.badNodeCnt := rfl
@[simp] theorem State.modBlock_profile (b : BlockId) (f : Block → Block) : (s.modBlock b f).profile = s.profile := rfl
@[simp] theorem State.modBlock_smallD (b : BlockId) (f : Block → Block) : (s.modBlock b f).smallD = s.smallD := rfl
@[simp] theorem State.modBlock_dimEn (b : BlockId) (f : Block → Block) : (s.modBlock b f).dimEn = s.dimEn := rfl
@[simp] theorem State.modBlock_pod (b : BlockId) (f : Block → Block) : (s.modBlock b f).pod = s.pod := rfl
@[simp] theorem State.modBlock_spareDim (b : BlockId) (f : Block → Block) : (s.modBlock b f).spareDim = s.spareDim := rfl
@[simp] theorem State.modBlock_crcLimit (b : BlockId) (f : Block → Block) : (s.modBlock b f).crcLimit = s.crcLimit := rfl
@[simp] theorem State.modBlock_cubeAddr (b : BlockId) (f : Block → Block) : (s.modBlock b f).cubeAddr = s.cubeAddr := rfl
@[simp] theorem State.modBlock_addrValid (b : BlockId) (f : Block → Block) : (s.modBlock b f).addrValid = s.addrValid := rfl
@[simp] theorem State.modBlock_lanes (b : BlockId) (f : Block → Block) : (s.modBlock b f).lanes = s.lanes := rfl
@[simp] theorem State.modBlock_dims (b : BlockId) (f : Block → Block) : (s.modBlock b f).dims = s.dims := rfl
@[simp] theorem State.modBlock_streams (b : BlockId) (f : Block → Block) : (s.modBlock b f).streams = s.streams := rfl
@[simp] theorem State.modBlock_slots (b : BlockId) (f : Block → Block) : (s.modBlock b f).slots = s.slots := rfl
@[simp] theorem State.modBlock_tahr (b : BlockId) (f : Block → Block) : (s.modBlock b f).tahr = s.tahr := rfl
@[simp] theorem State.modBlock_serow (b : BlockId) (f : Block → Block) : (s.modBlock b f).serow = s.serow := rfl
@[simp] theorem State.modBlock_lc (b : BlockId) (f : Block → Block) : (s.modBlock b f).lc = s.lc := rfl
@[simp] theorem State.modBlock_repair (b : BlockId) (f : Block → Block) : (s.modBlock b f).repair = s.repair := rfl
@[simp] theorem State.modBlock_ics (b : BlockId) (f : Block → Block) : (s.modBlock b f).ics = s.ics := rfl
@[simp] theorem State.modBlock_orderSeq (b : BlockId) (f : Block → Block) : (s.modBlock b f).orderSeq = s.orderSeq := rfl
@[simp] theorem State.modBlock_freeCtr (b : BlockId) (f : Block → Block) : (s.modBlock b f).freeCtr = s.freeCtr := rfl
@[simp] theorem State.modBlock_lineStatus (b : BlockId) (f : Block → Block) : (s.modBlock b f).lineStatus = s.lineStatus := rfl
@[simp] theorem State.modBlock_reply (b : BlockId) (f : Block → Block) : (s.modBlock b f).reply = s.reply := rfl

/-! ## `State.setLane` -/
@[simp] theorem State.setLane_pending (n : LaneId) (v : Lane) : (s.setLane n v).pending = s.pending := rfl
@[simp] theorem State.setLane_power (n : LaneId) (v : Lane) : (s.setLane n v).power = s.power := rfl
@[simp] theorem State.setLane_arbSlot (n : LaneId) (v : Lane) : (s.setLane n v).arbSlot = s.arbSlot := rfl
@[simp] theorem State.setLane_operWeight (n : LaneId) (v : Lane) : (s.setLane n v).operWeight = s.operWeight := rfl
@[simp] theorem State.setLane_weights (n : LaneId) (v : Lane) : (s.setLane n v).weights = s.weights := rfl
@[simp] theorem State.setLane_wdogUs (n : LaneId) (v : Lane) : (s.setLane n v).wdogUs = s.wdogUs := rfl
@[simp] theorem State.setLane_tb (n : LaneId) (v : Lane) : (s.setLane n v).tb = s.tb := rfl
@[simp] theorem State.setLane_pins (n : LaneId) (v : Lane) : (s.setLane n v).pins = s.pins := rfl
@[simp] theorem State.setLane_cfg (n : LaneId) (v : Lane) : (s.setLane n v).cfg = s.cfg := rfl
@[simp] theorem State.setLane_linkTimeoutMs (n : LaneId) (v : Lane) : (s.setLane n v).linkTimeoutMs = s.linkTimeoutMs := rfl
@[simp] theorem State.setLane_linkUp (n : LaneId) (v : Lane) : (s.setLane n v).linkUp = s.linkUp := rfl
@[simp] theorem State.setLane_linkSpeed (n : LaneId) (v : Lane) : (s.setLane n v).linkSpeed = s.linkSpeed := rfl
@[simp] theorem State.setLane_linkWidth (n : LaneId) (v : Lane) : (s.setLane n v).linkWidth = s.linkWidth := rfl
@[simp] theorem State.setLane_doeError (n : LaneId) (v : Lane) : (s.setLane n v).doeError = s.doeError := rfl
@[simp] theorem State.setLane_aer (n : LaneId) (v : Lane) : (s.setLane n v).aer = s.aer := rfl
@[simp] theorem State.setLane_d3hot (n : LaneId) (v : Lane) : (s.setLane n v).d3hot = s.d3hot := rfl
@[simp] theorem State.setLane_numVfs (n : LaneId) (v : Lane) : (s.setLane n v).numVfs = s.numVfs := rfl
@[simp] theorem State.setLane_vfEnable (n : LaneId) (v : Lane) : (s.setLane n v).vfEnable = s.vfEnable := rfl
@[simp] theorem State.setLane_lots (n : LaneId) (v : Lane) : (s.setLane n v).lots = s.lots := rfl
@[simp] theorem State.setLane_denied (n : LaneId) (v : Lane) : (s.setLane n v).denied = s.denied := rfl
@[simp] theorem State.setLane_hbm (n : LaneId) (v : Lane) : (s.setLane n v).hbm = s.hbm := rfl
@[simp] theorem State.setLane_interleavedOk (n : LaneId) (v : Lane) : (s.setLane n v).interleavedOk = s.interleavedOk := rfl
@[simp] theorem State.setLane_mem (n : LaneId) (v : Lane) : (s.setLane n v).mem = s.mem := rfl
@[simp] theorem State.setLane_lineEpoch (n : LaneId) (v : Lane) : (s.setLane n v).lineEpoch = s.lineEpoch := rfl
@[simp] theorem State.setLane_hbmBad (n : LaneId) (v : Lane) : (s.setLane n v).hbmBad = s.hbmBad := rfl
@[simp] theorem State.setLane_healthRo (n : LaneId) (v : Lane) : (s.setLane n v).healthRo = s.healthRo := rfl
@[simp] theorem State.setLane_hostMem (n : LaneId) (v : Lane) : (s.setLane n v).hostMem = s.hostMem := rfl
@[simp] theorem State.setLane_copies (n : LaneId) (v : Lane) : (s.setLane n v).copies = s.copies := rfl
@[simp] theorem State.setLane_waitFree (n : LaneId) (v : Lane) : (s.setLane n v).waitFree = s.waitFree := rfl
@[simp] theorem State.setLane_blocks (n : LaneId) (v : Lane) : (s.setLane n v).blocks = s.blocks := rfl
@[simp] theorem State.setLane_herds (n : LaneId) (v : Lane) : (s.setLane n v).herds = s.herds := rfl
@[simp] theorem State.setLane_pfRings (n : LaneId) (v : Lane) : (s.setLane n v).pfRings = s.pfRings := rfl
@[simp] theorem State.setLane_ide (n : LaneId) (v : Lane) : (s.setLane n v).ide = s.ide := rfl
@[simp] theorem State.setLane_meters (n : LaneId) (v : Lane) : (s.setLane n v).meters = s.meters := rfl
@[simp] theorem State.setLane_meterDue (n : LaneId) (v : Lane) : (s.setLane n v).meterDue = s.meterDue := rfl
@[simp] theorem State.setLane_linkIds (n : LaneId) (v : Lane) : (s.setLane n v).linkIds = s.linkIds := rfl
@[simp] theorem State.setLane_heldLow (n : LaneId) (v : Lane) : (s.setLane n v).heldLow = s.heldLow := rfl
@[simp] theorem State.setLane_latchedHigh (n : LaneId) (v : Lane) : (s.setLane n v).latchedHigh = s.latchedHigh := rfl
@[simp] theorem State.setLane_wins (n : LaneId) (v : Lane) : (s.setLane n v).wins = s.wins := rfl
@[simp] theorem State.setLane_macFail (n : LaneId) (v : Lane) : (s.setLane n v).macFail = s.macFail := rfl
@[simp] theorem State.setLane_badNodeCnt (n : LaneId) (v : Lane) : (s.setLane n v).badNodeCnt = s.badNodeCnt := rfl
@[simp] theorem State.setLane_profile (n : LaneId) (v : Lane) : (s.setLane n v).profile = s.profile := rfl
@[simp] theorem State.setLane_smallD (n : LaneId) (v : Lane) : (s.setLane n v).smallD = s.smallD := rfl
@[simp] theorem State.setLane_dimEn (n : LaneId) (v : Lane) : (s.setLane n v).dimEn = s.dimEn := rfl
@[simp] theorem State.setLane_pod (n : LaneId) (v : Lane) : (s.setLane n v).pod = s.pod := rfl
@[simp] theorem State.setLane_spareDim (n : LaneId) (v : Lane) : (s.setLane n v).spareDim = s.spareDim := rfl
@[simp] theorem State.setLane_crcLimit (n : LaneId) (v : Lane) : (s.setLane n v).crcLimit = s.crcLimit := rfl
@[simp] theorem State.setLane_cubeAddr (n : LaneId) (v : Lane) : (s.setLane n v).cubeAddr = s.cubeAddr := rfl
@[simp] theorem State.setLane_addrValid (n : LaneId) (v : Lane) : (s.setLane n v).addrValid = s.addrValid := rfl
@[simp] theorem State.setLane_dims (n : LaneId) (v : Lane) : (s.setLane n v).dims = s.dims := rfl
@[simp] theorem State.setLane_streams (n : LaneId) (v : Lane) : (s.setLane n v).streams = s.streams := rfl
@[simp] theorem State.setLane_slots (n : LaneId) (v : Lane) : (s.setLane n v).slots = s.slots := rfl
@[simp] theorem State.setLane_tahr (n : LaneId) (v : Lane) : (s.setLane n v).tahr = s.tahr := rfl
@[simp] theorem State.setLane_serow (n : LaneId) (v : Lane) : (s.setLane n v).serow = s.serow := rfl
@[simp] theorem State.setLane_lc (n : LaneId) (v : Lane) : (s.setLane n v).lc = s.lc := rfl
@[simp] theorem State.setLane_repair (n : LaneId) (v : Lane) : (s.setLane n v).repair = s.repair := rfl
@[simp] theorem State.setLane_ics (n : LaneId) (v : Lane) : (s.setLane n v).ics = s.ics := rfl
@[simp] theorem State.setLane_orderSeq (n : LaneId) (v : Lane) : (s.setLane n v).orderSeq = s.orderSeq := rfl
@[simp] theorem State.setLane_freeCtr (n : LaneId) (v : Lane) : (s.setLane n v).freeCtr = s.freeCtr := rfl
@[simp] theorem State.setLane_lineStatus (n : LaneId) (v : Lane) : (s.setLane n v).lineStatus = s.lineStatus := rfl
@[simp] theorem State.setLane_reply (n : LaneId) (v : Lane) : (s.setLane n v).reply = s.reply := rfl

/-! ## `State.setDim` -/
@[simp] theorem State.setDim_pending (d : DimId) (v : Dim) : (s.setDim d v).pending = s.pending := rfl
@[simp] theorem State.setDim_power (d : DimId) (v : Dim) : (s.setDim d v).power = s.power := rfl
@[simp] theorem State.setDim_arbSlot (d : DimId) (v : Dim) : (s.setDim d v).arbSlot = s.arbSlot := rfl
@[simp] theorem State.setDim_operWeight (d : DimId) (v : Dim) : (s.setDim d v).operWeight = s.operWeight := rfl
@[simp] theorem State.setDim_weights (d : DimId) (v : Dim) : (s.setDim d v).weights = s.weights := rfl
@[simp] theorem State.setDim_wdogUs (d : DimId) (v : Dim) : (s.setDim d v).wdogUs = s.wdogUs := rfl
@[simp] theorem State.setDim_tb (d : DimId) (v : Dim) : (s.setDim d v).tb = s.tb := rfl
@[simp] theorem State.setDim_pins (d : DimId) (v : Dim) : (s.setDim d v).pins = s.pins := rfl
@[simp] theorem State.setDim_cfg (d : DimId) (v : Dim) : (s.setDim d v).cfg = s.cfg := rfl
@[simp] theorem State.setDim_linkTimeoutMs (d : DimId) (v : Dim) : (s.setDim d v).linkTimeoutMs = s.linkTimeoutMs := rfl
@[simp] theorem State.setDim_linkUp (d : DimId) (v : Dim) : (s.setDim d v).linkUp = s.linkUp := rfl
@[simp] theorem State.setDim_linkSpeed (d : DimId) (v : Dim) : (s.setDim d v).linkSpeed = s.linkSpeed := rfl
@[simp] theorem State.setDim_linkWidth (d : DimId) (v : Dim) : (s.setDim d v).linkWidth = s.linkWidth := rfl
@[simp] theorem State.setDim_doeError (d : DimId) (v : Dim) : (s.setDim d v).doeError = s.doeError := rfl
@[simp] theorem State.setDim_aer (d : DimId) (v : Dim) : (s.setDim d v).aer = s.aer := rfl
@[simp] theorem State.setDim_d3hot (d : DimId) (v : Dim) : (s.setDim d v).d3hot = s.d3hot := rfl
@[simp] theorem State.setDim_numVfs (d : DimId) (v : Dim) : (s.setDim d v).numVfs = s.numVfs := rfl
@[simp] theorem State.setDim_vfEnable (d : DimId) (v : Dim) : (s.setDim d v).vfEnable = s.vfEnable := rfl
@[simp] theorem State.setDim_lots (d : DimId) (v : Dim) : (s.setDim d v).lots = s.lots := rfl
@[simp] theorem State.setDim_denied (d : DimId) (v : Dim) : (s.setDim d v).denied = s.denied := rfl
@[simp] theorem State.setDim_hbm (d : DimId) (v : Dim) : (s.setDim d v).hbm = s.hbm := rfl
@[simp] theorem State.setDim_interleavedOk (d : DimId) (v : Dim) : (s.setDim d v).interleavedOk = s.interleavedOk := rfl
@[simp] theorem State.setDim_mem (d : DimId) (v : Dim) : (s.setDim d v).mem = s.mem := rfl
@[simp] theorem State.setDim_lineEpoch (d : DimId) (v : Dim) : (s.setDim d v).lineEpoch = s.lineEpoch := rfl
@[simp] theorem State.setDim_hbmBad (d : DimId) (v : Dim) : (s.setDim d v).hbmBad = s.hbmBad := rfl
@[simp] theorem State.setDim_healthRo (d : DimId) (v : Dim) : (s.setDim d v).healthRo = s.healthRo := rfl
@[simp] theorem State.setDim_hostMem (d : DimId) (v : Dim) : (s.setDim d v).hostMem = s.hostMem := rfl
@[simp] theorem State.setDim_copies (d : DimId) (v : Dim) : (s.setDim d v).copies = s.copies := rfl
@[simp] theorem State.setDim_waitFree (d : DimId) (v : Dim) : (s.setDim d v).waitFree = s.waitFree := rfl
@[simp] theorem State.setDim_blocks (d : DimId) (v : Dim) : (s.setDim d v).blocks = s.blocks := rfl
@[simp] theorem State.setDim_herds (d : DimId) (v : Dim) : (s.setDim d v).herds = s.herds := rfl
@[simp] theorem State.setDim_pfRings (d : DimId) (v : Dim) : (s.setDim d v).pfRings = s.pfRings := rfl
@[simp] theorem State.setDim_ide (d : DimId) (v : Dim) : (s.setDim d v).ide = s.ide := rfl
@[simp] theorem State.setDim_meters (d : DimId) (v : Dim) : (s.setDim d v).meters = s.meters := rfl
@[simp] theorem State.setDim_meterDue (d : DimId) (v : Dim) : (s.setDim d v).meterDue = s.meterDue := rfl
@[simp] theorem State.setDim_linkIds (d : DimId) (v : Dim) : (s.setDim d v).linkIds = s.linkIds := rfl
@[simp] theorem State.setDim_heldLow (d : DimId) (v : Dim) : (s.setDim d v).heldLow = s.heldLow := rfl
@[simp] theorem State.setDim_latchedHigh (d : DimId) (v : Dim) : (s.setDim d v).latchedHigh = s.latchedHigh := rfl
@[simp] theorem State.setDim_wins (d : DimId) (v : Dim) : (s.setDim d v).wins = s.wins := rfl
@[simp] theorem State.setDim_macFail (d : DimId) (v : Dim) : (s.setDim d v).macFail = s.macFail := rfl
@[simp] theorem State.setDim_badNodeCnt (d : DimId) (v : Dim) : (s.setDim d v).badNodeCnt = s.badNodeCnt := rfl
@[simp] theorem State.setDim_profile (d : DimId) (v : Dim) : (s.setDim d v).profile = s.profile := rfl
@[simp] theorem State.setDim_smallD (d : DimId) (v : Dim) : (s.setDim d v).smallD = s.smallD := rfl
@[simp] theorem State.setDim_dimEn (d : DimId) (v : Dim) : (s.setDim d v).dimEn = s.dimEn := rfl
@[simp] theorem State.setDim_pod (d : DimId) (v : Dim) : (s.setDim d v).pod = s.pod := rfl
@[simp] theorem State.setDim_spareDim (d : DimId) (v : Dim) : (s.setDim d v).spareDim = s.spareDim := rfl
@[simp] theorem State.setDim_crcLimit (d : DimId) (v : Dim) : (s.setDim d v).crcLimit = s.crcLimit := rfl
@[simp] theorem State.setDim_cubeAddr (d : DimId) (v : Dim) : (s.setDim d v).cubeAddr = s.cubeAddr := rfl
@[simp] theorem State.setDim_addrValid (d : DimId) (v : Dim) : (s.setDim d v).addrValid = s.addrValid := rfl
@[simp] theorem State.setDim_lanes (d : DimId) (v : Dim) : (s.setDim d v).lanes = s.lanes := rfl
@[simp] theorem State.setDim_streams (d : DimId) (v : Dim) : (s.setDim d v).streams = s.streams := rfl
@[simp] theorem State.setDim_slots (d : DimId) (v : Dim) : (s.setDim d v).slots = s.slots := rfl
@[simp] theorem State.setDim_tahr (d : DimId) (v : Dim) : (s.setDim d v).tahr = s.tahr := rfl
@[simp] theorem State.setDim_serow (d : DimId) (v : Dim) : (s.setDim d v).serow = s.serow := rfl
@[simp] theorem State.setDim_lc (d : DimId) (v : Dim) : (s.setDim d v).lc = s.lc := rfl
@[simp] theorem State.setDim_repair (d : DimId) (v : Dim) : (s.setDim d v).repair = s.repair := rfl
@[simp] theorem State.setDim_ics (d : DimId) (v : Dim) : (s.setDim d v).ics = s.ics := rfl
@[simp] theorem State.setDim_orderSeq (d : DimId) (v : Dim) : (s.setDim d v).orderSeq = s.orderSeq := rfl
@[simp] theorem State.setDim_freeCtr (d : DimId) (v : Dim) : (s.setDim d v).freeCtr = s.freeCtr := rfl
@[simp] theorem State.setDim_lineStatus (d : DimId) (v : Dim) : (s.setDim d v).lineStatus = s.lineStatus := rfl
@[simp] theorem State.setDim_reply (d : DimId) (v : Dim) : (s.setDim d v).reply = s.reply := rfl

/-! ## `State.modDim` -/
@[simp] theorem State.modDim_pending (d : DimId) (f : Dim → Dim) : (s.modDim d f).pending = s.pending := rfl
@[simp] theorem State.modDim_power (d : DimId) (f : Dim → Dim) : (s.modDim d f).power = s.power := rfl
@[simp] theorem State.modDim_arbSlot (d : DimId) (f : Dim → Dim) : (s.modDim d f).arbSlot = s.arbSlot := rfl
@[simp] theorem State.modDim_operWeight (d : DimId) (f : Dim → Dim) : (s.modDim d f).operWeight = s.operWeight := rfl
@[simp] theorem State.modDim_weights (d : DimId) (f : Dim → Dim) : (s.modDim d f).weights = s.weights := rfl
@[simp] theorem State.modDim_wdogUs (d : DimId) (f : Dim → Dim) : (s.modDim d f).wdogUs = s.wdogUs := rfl
@[simp] theorem State.modDim_tb (d : DimId) (f : Dim → Dim) : (s.modDim d f).tb = s.tb := rfl
@[simp] theorem State.modDim_pins (d : DimId) (f : Dim → Dim) : (s.modDim d f).pins = s.pins := rfl
@[simp] theorem State.modDim_cfg (d : DimId) (f : Dim → Dim) : (s.modDim d f).cfg = s.cfg := rfl
@[simp] theorem State.modDim_linkTimeoutMs (d : DimId) (f : Dim → Dim) : (s.modDim d f).linkTimeoutMs = s.linkTimeoutMs := rfl
@[simp] theorem State.modDim_linkUp (d : DimId) (f : Dim → Dim) : (s.modDim d f).linkUp = s.linkUp := rfl
@[simp] theorem State.modDim_linkSpeed (d : DimId) (f : Dim → Dim) : (s.modDim d f).linkSpeed = s.linkSpeed := rfl
@[simp] theorem State.modDim_linkWidth (d : DimId) (f : Dim → Dim) : (s.modDim d f).linkWidth = s.linkWidth := rfl
@[simp] theorem State.modDim_doeError (d : DimId) (f : Dim → Dim) : (s.modDim d f).doeError = s.doeError := rfl
@[simp] theorem State.modDim_aer (d : DimId) (f : Dim → Dim) : (s.modDim d f).aer = s.aer := rfl
@[simp] theorem State.modDim_d3hot (d : DimId) (f : Dim → Dim) : (s.modDim d f).d3hot = s.d3hot := rfl
@[simp] theorem State.modDim_numVfs (d : DimId) (f : Dim → Dim) : (s.modDim d f).numVfs = s.numVfs := rfl
@[simp] theorem State.modDim_vfEnable (d : DimId) (f : Dim → Dim) : (s.modDim d f).vfEnable = s.vfEnable := rfl
@[simp] theorem State.modDim_lots (d : DimId) (f : Dim → Dim) : (s.modDim d f).lots = s.lots := rfl
@[simp] theorem State.modDim_denied (d : DimId) (f : Dim → Dim) : (s.modDim d f).denied = s.denied := rfl
@[simp] theorem State.modDim_hbm (d : DimId) (f : Dim → Dim) : (s.modDim d f).hbm = s.hbm := rfl
@[simp] theorem State.modDim_interleavedOk (d : DimId) (f : Dim → Dim) : (s.modDim d f).interleavedOk = s.interleavedOk := rfl
@[simp] theorem State.modDim_mem (d : DimId) (f : Dim → Dim) : (s.modDim d f).mem = s.mem := rfl
@[simp] theorem State.modDim_lineEpoch (d : DimId) (f : Dim → Dim) : (s.modDim d f).lineEpoch = s.lineEpoch := rfl
@[simp] theorem State.modDim_hbmBad (d : DimId) (f : Dim → Dim) : (s.modDim d f).hbmBad = s.hbmBad := rfl
@[simp] theorem State.modDim_healthRo (d : DimId) (f : Dim → Dim) : (s.modDim d f).healthRo = s.healthRo := rfl
@[simp] theorem State.modDim_hostMem (d : DimId) (f : Dim → Dim) : (s.modDim d f).hostMem = s.hostMem := rfl
@[simp] theorem State.modDim_copies (d : DimId) (f : Dim → Dim) : (s.modDim d f).copies = s.copies := rfl
@[simp] theorem State.modDim_waitFree (d : DimId) (f : Dim → Dim) : (s.modDim d f).waitFree = s.waitFree := rfl
@[simp] theorem State.modDim_blocks (d : DimId) (f : Dim → Dim) : (s.modDim d f).blocks = s.blocks := rfl
@[simp] theorem State.modDim_herds (d : DimId) (f : Dim → Dim) : (s.modDim d f).herds = s.herds := rfl
@[simp] theorem State.modDim_pfRings (d : DimId) (f : Dim → Dim) : (s.modDim d f).pfRings = s.pfRings := rfl
@[simp] theorem State.modDim_ide (d : DimId) (f : Dim → Dim) : (s.modDim d f).ide = s.ide := rfl
@[simp] theorem State.modDim_meters (d : DimId) (f : Dim → Dim) : (s.modDim d f).meters = s.meters := rfl
@[simp] theorem State.modDim_meterDue (d : DimId) (f : Dim → Dim) : (s.modDim d f).meterDue = s.meterDue := rfl
@[simp] theorem State.modDim_linkIds (d : DimId) (f : Dim → Dim) : (s.modDim d f).linkIds = s.linkIds := rfl
@[simp] theorem State.modDim_heldLow (d : DimId) (f : Dim → Dim) : (s.modDim d f).heldLow = s.heldLow := rfl
@[simp] theorem State.modDim_latchedHigh (d : DimId) (f : Dim → Dim) : (s.modDim d f).latchedHigh = s.latchedHigh := rfl
@[simp] theorem State.modDim_wins (d : DimId) (f : Dim → Dim) : (s.modDim d f).wins = s.wins := rfl
@[simp] theorem State.modDim_macFail (d : DimId) (f : Dim → Dim) : (s.modDim d f).macFail = s.macFail := rfl
@[simp] theorem State.modDim_badNodeCnt (d : DimId) (f : Dim → Dim) : (s.modDim d f).badNodeCnt = s.badNodeCnt := rfl
@[simp] theorem State.modDim_profile (d : DimId) (f : Dim → Dim) : (s.modDim d f).profile = s.profile := rfl
@[simp] theorem State.modDim_smallD (d : DimId) (f : Dim → Dim) : (s.modDim d f).smallD = s.smallD := rfl
@[simp] theorem State.modDim_dimEn (d : DimId) (f : Dim → Dim) : (s.modDim d f).dimEn = s.dimEn := rfl
@[simp] theorem State.modDim_pod (d : DimId) (f : Dim → Dim) : (s.modDim d f).pod = s.pod := rfl
@[simp] theorem State.modDim_spareDim (d : DimId) (f : Dim → Dim) : (s.modDim d f).spareDim = s.spareDim := rfl
@[simp] theorem State.modDim_crcLimit (d : DimId) (f : Dim → Dim) : (s.modDim d f).crcLimit = s.crcLimit := rfl
@[simp] theorem State.modDim_cubeAddr (d : DimId) (f : Dim → Dim) : (s.modDim d f).cubeAddr = s.cubeAddr := rfl
@[simp] theorem State.modDim_addrValid (d : DimId) (f : Dim → Dim) : (s.modDim d f).addrValid = s.addrValid := rfl
@[simp] theorem State.modDim_lanes (d : DimId) (f : Dim → Dim) : (s.modDim d f).lanes = s.lanes := rfl
@[simp] theorem State.modDim_streams (d : DimId) (f : Dim → Dim) : (s.modDim d f).streams = s.streams := rfl
@[simp] theorem State.modDim_slots (d : DimId) (f : Dim → Dim) : (s.modDim d f).slots = s.slots := rfl
@[simp] theorem State.modDim_tahr (d : DimId) (f : Dim → Dim) : (s.modDim d f).tahr = s.tahr := rfl
@[simp] theorem State.modDim_serow (d : DimId) (f : Dim → Dim) : (s.modDim d f).serow = s.serow := rfl
@[simp] theorem State.modDim_lc (d : DimId) (f : Dim → Dim) : (s.modDim d f).lc = s.lc := rfl
@[simp] theorem State.modDim_repair (d : DimId) (f : Dim → Dim) : (s.modDim d f).repair = s.repair := rfl
@[simp] theorem State.modDim_ics (d : DimId) (f : Dim → Dim) : (s.modDim d f).ics = s.ics := rfl
@[simp] theorem State.modDim_orderSeq (d : DimId) (f : Dim → Dim) : (s.modDim d f).orderSeq = s.orderSeq := rfl
@[simp] theorem State.modDim_freeCtr (d : DimId) (f : Dim → Dim) : (s.modDim d f).freeCtr = s.freeCtr := rfl
@[simp] theorem State.modDim_lineStatus (d : DimId) (f : Dim → Dim) : (s.modDim d f).lineStatus = s.lineStatus := rfl
@[simp] theorem State.modDim_reply (d : DimId) (f : Dim → Dim) : (s.modDim d f).reply = s.reply := rfl

/-! ## `State.setWin` -/
@[simp] theorem State.setWin_pending (w : WinId) (v : Win) : (s.setWin w v).pending = s.pending := rfl
@[simp] theorem State.setWin_power (w : WinId) (v : Win) : (s.setWin w v).power = s.power := rfl
@[simp] theorem State.setWin_arbSlot (w : WinId) (v : Win) : (s.setWin w v).arbSlot = s.arbSlot := rfl
@[simp] theorem State.setWin_operWeight (w : WinId) (v : Win) : (s.setWin w v).operWeight = s.operWeight := rfl
@[simp] theorem State.setWin_weights (w : WinId) (v : Win) : (s.setWin w v).weights = s.weights := rfl
@[simp] theorem State.setWin_wdogUs (w : WinId) (v : Win) : (s.setWin w v).wdogUs = s.wdogUs := rfl
@[simp] theorem State.setWin_tb (w : WinId) (v : Win) : (s.setWin w v).tb = s.tb := rfl
@[simp] theorem State.setWin_pins (w : WinId) (v : Win) : (s.setWin w v).pins = s.pins := rfl
@[simp] theorem State.setWin_cfg (w : WinId) (v : Win) : (s.setWin w v).cfg = s.cfg := rfl
@[simp] theorem State.setWin_linkTimeoutMs (w : WinId) (v : Win) : (s.setWin w v).linkTimeoutMs = s.linkTimeoutMs := rfl
@[simp] theorem State.setWin_linkUp (w : WinId) (v : Win) : (s.setWin w v).linkUp = s.linkUp := rfl
@[simp] theorem State.setWin_linkSpeed (w : WinId) (v : Win) : (s.setWin w v).linkSpeed = s.linkSpeed := rfl
@[simp] theorem State.setWin_linkWidth (w : WinId) (v : Win) : (s.setWin w v).linkWidth = s.linkWidth := rfl
@[simp] theorem State.setWin_doeError (w : WinId) (v : Win) : (s.setWin w v).doeError = s.doeError := rfl
@[simp] theorem State.setWin_aer (w : WinId) (v : Win) : (s.setWin w v).aer = s.aer := rfl
@[simp] theorem State.setWin_d3hot (w : WinId) (v : Win) : (s.setWin w v).d3hot = s.d3hot := rfl
@[simp] theorem State.setWin_numVfs (w : WinId) (v : Win) : (s.setWin w v).numVfs = s.numVfs := rfl
@[simp] theorem State.setWin_vfEnable (w : WinId) (v : Win) : (s.setWin w v).vfEnable = s.vfEnable := rfl
@[simp] theorem State.setWin_lots (w : WinId) (v : Win) : (s.setWin w v).lots = s.lots := rfl
@[simp] theorem State.setWin_denied (w : WinId) (v : Win) : (s.setWin w v).denied = s.denied := rfl
@[simp] theorem State.setWin_hbm (w : WinId) (v : Win) : (s.setWin w v).hbm = s.hbm := rfl
@[simp] theorem State.setWin_interleavedOk (w : WinId) (v : Win) : (s.setWin w v).interleavedOk = s.interleavedOk := rfl
@[simp] theorem State.setWin_mem (w : WinId) (v : Win) : (s.setWin w v).mem = s.mem := rfl
@[simp] theorem State.setWin_lineEpoch (w : WinId) (v : Win) : (s.setWin w v).lineEpoch = s.lineEpoch := rfl
@[simp] theorem State.setWin_hbmBad (w : WinId) (v : Win) : (s.setWin w v).hbmBad = s.hbmBad := rfl
@[simp] theorem State.setWin_healthRo (w : WinId) (v : Win) : (s.setWin w v).healthRo = s.healthRo := rfl
@[simp] theorem State.setWin_hostMem (w : WinId) (v : Win) : (s.setWin w v).hostMem = s.hostMem := rfl
@[simp] theorem State.setWin_copies (w : WinId) (v : Win) : (s.setWin w v).copies = s.copies := rfl
@[simp] theorem State.setWin_waitFree (w : WinId) (v : Win) : (s.setWin w v).waitFree = s.waitFree := rfl
@[simp] theorem State.setWin_blocks (w : WinId) (v : Win) : (s.setWin w v).blocks = s.blocks := rfl
@[simp] theorem State.setWin_herds (w : WinId) (v : Win) : (s.setWin w v).herds = s.herds := rfl
@[simp] theorem State.setWin_pfRings (w : WinId) (v : Win) : (s.setWin w v).pfRings = s.pfRings := rfl
@[simp] theorem State.setWin_ide (w : WinId) (v : Win) : (s.setWin w v).ide = s.ide := rfl
@[simp] theorem State.setWin_meters (w : WinId) (v : Win) : (s.setWin w v).meters = s.meters := rfl
@[simp] theorem State.setWin_meterDue (w : WinId) (v : Win) : (s.setWin w v).meterDue = s.meterDue := rfl
@[simp] theorem State.setWin_linkIds (w : WinId) (v : Win) : (s.setWin w v).linkIds = s.linkIds := rfl
@[simp] theorem State.setWin_heldLow (w : WinId) (v : Win) : (s.setWin w v).heldLow = s.heldLow := rfl
@[simp] theorem State.setWin_latchedHigh (w : WinId) (v : Win) : (s.setWin w v).latchedHigh = s.latchedHigh := rfl
@[simp] theorem State.setWin_macFail (w : WinId) (v : Win) : (s.setWin w v).macFail = s.macFail := rfl
@[simp] theorem State.setWin_badNodeCnt (w : WinId) (v : Win) : (s.setWin w v).badNodeCnt = s.badNodeCnt := rfl
@[simp] theorem State.setWin_profile (w : WinId) (v : Win) : (s.setWin w v).profile = s.profile := rfl
@[simp] theorem State.setWin_smallD (w : WinId) (v : Win) : (s.setWin w v).smallD = s.smallD := rfl
@[simp] theorem State.setWin_dimEn (w : WinId) (v : Win) : (s.setWin w v).dimEn = s.dimEn := rfl
@[simp] theorem State.setWin_pod (w : WinId) (v : Win) : (s.setWin w v).pod = s.pod := rfl
@[simp] theorem State.setWin_spareDim (w : WinId) (v : Win) : (s.setWin w v).spareDim = s.spareDim := rfl
@[simp] theorem State.setWin_crcLimit (w : WinId) (v : Win) : (s.setWin w v).crcLimit = s.crcLimit := rfl
@[simp] theorem State.setWin_cubeAddr (w : WinId) (v : Win) : (s.setWin w v).cubeAddr = s.cubeAddr := rfl
@[simp] theorem State.setWin_addrValid (w : WinId) (v : Win) : (s.setWin w v).addrValid = s.addrValid := rfl
@[simp] theorem State.setWin_lanes (w : WinId) (v : Win) : (s.setWin w v).lanes = s.lanes := rfl
@[simp] theorem State.setWin_dims (w : WinId) (v : Win) : (s.setWin w v).dims = s.dims := rfl
@[simp] theorem State.setWin_streams (w : WinId) (v : Win) : (s.setWin w v).streams = s.streams := rfl
@[simp] theorem State.setWin_slots (w : WinId) (v : Win) : (s.setWin w v).slots = s.slots := rfl
@[simp] theorem State.setWin_tahr (w : WinId) (v : Win) : (s.setWin w v).tahr = s.tahr := rfl
@[simp] theorem State.setWin_serow (w : WinId) (v : Win) : (s.setWin w v).serow = s.serow := rfl
@[simp] theorem State.setWin_lc (w : WinId) (v : Win) : (s.setWin w v).lc = s.lc := rfl
@[simp] theorem State.setWin_repair (w : WinId) (v : Win) : (s.setWin w v).repair = s.repair := rfl
@[simp] theorem State.setWin_ics (w : WinId) (v : Win) : (s.setWin w v).ics = s.ics := rfl
@[simp] theorem State.setWin_orderSeq (w : WinId) (v : Win) : (s.setWin w v).orderSeq = s.orderSeq := rfl
@[simp] theorem State.setWin_freeCtr (w : WinId) (v : Win) : (s.setWin w v).freeCtr = s.freeCtr := rfl
@[simp] theorem State.setWin_lineStatus (w : WinId) (v : Win) : (s.setWin w v).lineStatus = s.lineStatus := rfl
@[simp] theorem State.setWin_reply (w : WinId) (v : Win) : (s.setWin w v).reply = s.reply := rfl

/-! ## `State.setSlot` -/
@[simp] theorem State.setSlot_pending (n : Nat) (v : Slot) : (s.setSlot n v).pending = s.pending := rfl
@[simp] theorem State.setSlot_power (n : Nat) (v : Slot) : (s.setSlot n v).power = s.power := rfl
@[simp] theorem State.setSlot_arbSlot (n : Nat) (v : Slot) : (s.setSlot n v).arbSlot = s.arbSlot := rfl
@[simp] theorem State.setSlot_operWeight (n : Nat) (v : Slot) : (s.setSlot n v).operWeight = s.operWeight := rfl
@[simp] theorem State.setSlot_weights (n : Nat) (v : Slot) : (s.setSlot n v).weights = s.weights := rfl
@[simp] theorem State.setSlot_wdogUs (n : Nat) (v : Slot) : (s.setSlot n v).wdogUs = s.wdogUs := rfl
@[simp] theorem State.setSlot_tb (n : Nat) (v : Slot) : (s.setSlot n v).tb = s.tb := rfl
@[simp] theorem State.setSlot_pins (n : Nat) (v : Slot) : (s.setSlot n v).pins = s.pins := rfl
@[simp] theorem State.setSlot_cfg (n : Nat) (v : Slot) : (s.setSlot n v).cfg = s.cfg := rfl
@[simp] theorem State.setSlot_linkTimeoutMs (n : Nat) (v : Slot) : (s.setSlot n v).linkTimeoutMs = s.linkTimeoutMs := rfl
@[simp] theorem State.setSlot_linkUp (n : Nat) (v : Slot) : (s.setSlot n v).linkUp = s.linkUp := rfl
@[simp] theorem State.setSlot_linkSpeed (n : Nat) (v : Slot) : (s.setSlot n v).linkSpeed = s.linkSpeed := rfl
@[simp] theorem State.setSlot_linkWidth (n : Nat) (v : Slot) : (s.setSlot n v).linkWidth = s.linkWidth := rfl
@[simp] theorem State.setSlot_doeError (n : Nat) (v : Slot) : (s.setSlot n v).doeError = s.doeError := rfl
@[simp] theorem State.setSlot_aer (n : Nat) (v : Slot) : (s.setSlot n v).aer = s.aer := rfl
@[simp] theorem State.setSlot_d3hot (n : Nat) (v : Slot) : (s.setSlot n v).d3hot = s.d3hot := rfl
@[simp] theorem State.setSlot_numVfs (n : Nat) (v : Slot) : (s.setSlot n v).numVfs = s.numVfs := rfl
@[simp] theorem State.setSlot_vfEnable (n : Nat) (v : Slot) : (s.setSlot n v).vfEnable = s.vfEnable := rfl
@[simp] theorem State.setSlot_lots (n : Nat) (v : Slot) : (s.setSlot n v).lots = s.lots := rfl
@[simp] theorem State.setSlot_denied (n : Nat) (v : Slot) : (s.setSlot n v).denied = s.denied := rfl
@[simp] theorem State.setSlot_hbm (n : Nat) (v : Slot) : (s.setSlot n v).hbm = s.hbm := rfl
@[simp] theorem State.setSlot_interleavedOk (n : Nat) (v : Slot) : (s.setSlot n v).interleavedOk = s.interleavedOk := rfl
@[simp] theorem State.setSlot_mem (n : Nat) (v : Slot) : (s.setSlot n v).mem = s.mem := rfl
@[simp] theorem State.setSlot_lineEpoch (n : Nat) (v : Slot) : (s.setSlot n v).lineEpoch = s.lineEpoch := rfl
@[simp] theorem State.setSlot_hbmBad (n : Nat) (v : Slot) : (s.setSlot n v).hbmBad = s.hbmBad := rfl
@[simp] theorem State.setSlot_healthRo (n : Nat) (v : Slot) : (s.setSlot n v).healthRo = s.healthRo := rfl
@[simp] theorem State.setSlot_hostMem (n : Nat) (v : Slot) : (s.setSlot n v).hostMem = s.hostMem := rfl
@[simp] theorem State.setSlot_copies (n : Nat) (v : Slot) : (s.setSlot n v).copies = s.copies := rfl
@[simp] theorem State.setSlot_waitFree (n : Nat) (v : Slot) : (s.setSlot n v).waitFree = s.waitFree := rfl
@[simp] theorem State.setSlot_blocks (n : Nat) (v : Slot) : (s.setSlot n v).blocks = s.blocks := rfl
@[simp] theorem State.setSlot_herds (n : Nat) (v : Slot) : (s.setSlot n v).herds = s.herds := rfl
@[simp] theorem State.setSlot_pfRings (n : Nat) (v : Slot) : (s.setSlot n v).pfRings = s.pfRings := rfl
@[simp] theorem State.setSlot_ide (n : Nat) (v : Slot) : (s.setSlot n v).ide = s.ide := rfl
@[simp] theorem State.setSlot_meters (n : Nat) (v : Slot) : (s.setSlot n v).meters = s.meters := rfl
@[simp] theorem State.setSlot_meterDue (n : Nat) (v : Slot) : (s.setSlot n v).meterDue = s.meterDue := rfl
@[simp] theorem State.setSlot_linkIds (n : Nat) (v : Slot) : (s.setSlot n v).linkIds = s.linkIds := rfl
@[simp] theorem State.setSlot_heldLow (n : Nat) (v : Slot) : (s.setSlot n v).heldLow = s.heldLow := rfl
@[simp] theorem State.setSlot_latchedHigh (n : Nat) (v : Slot) : (s.setSlot n v).latchedHigh = s.latchedHigh := rfl
@[simp] theorem State.setSlot_wins (n : Nat) (v : Slot) : (s.setSlot n v).wins = s.wins := rfl
@[simp] theorem State.setSlot_macFail (n : Nat) (v : Slot) : (s.setSlot n v).macFail = s.macFail := rfl
@[simp] theorem State.setSlot_badNodeCnt (n : Nat) (v : Slot) : (s.setSlot n v).badNodeCnt = s.badNodeCnt := rfl
@[simp] theorem State.setSlot_profile (n : Nat) (v : Slot) : (s.setSlot n v).profile = s.profile := rfl
@[simp] theorem State.setSlot_smallD (n : Nat) (v : Slot) : (s.setSlot n v).smallD = s.smallD := rfl
@[simp] theorem State.setSlot_dimEn (n : Nat) (v : Slot) : (s.setSlot n v).dimEn = s.dimEn := rfl
@[simp] theorem State.setSlot_pod (n : Nat) (v : Slot) : (s.setSlot n v).pod = s.pod := rfl
@[simp] theorem State.setSlot_spareDim (n : Nat) (v : Slot) : (s.setSlot n v).spareDim = s.spareDim := rfl
@[simp] theorem State.setSlot_crcLimit (n : Nat) (v : Slot) : (s.setSlot n v).crcLimit = s.crcLimit := rfl
@[simp] theorem State.setSlot_cubeAddr (n : Nat) (v : Slot) : (s.setSlot n v).cubeAddr = s.cubeAddr := rfl
@[simp] theorem State.setSlot_addrValid (n : Nat) (v : Slot) : (s.setSlot n v).addrValid = s.addrValid := rfl
@[simp] theorem State.setSlot_lanes (n : Nat) (v : Slot) : (s.setSlot n v).lanes = s.lanes := rfl
@[simp] theorem State.setSlot_dims (n : Nat) (v : Slot) : (s.setSlot n v).dims = s.dims := rfl
@[simp] theorem State.setSlot_streams (n : Nat) (v : Slot) : (s.setSlot n v).streams = s.streams := rfl
@[simp] theorem State.setSlot_tahr (n : Nat) (v : Slot) : (s.setSlot n v).tahr = s.tahr := rfl
@[simp] theorem State.setSlot_serow (n : Nat) (v : Slot) : (s.setSlot n v).serow = s.serow := rfl
@[simp] theorem State.setSlot_lc (n : Nat) (v : Slot) : (s.setSlot n v).lc = s.lc := rfl
@[simp] theorem State.setSlot_repair (n : Nat) (v : Slot) : (s.setSlot n v).repair = s.repair := rfl
@[simp] theorem State.setSlot_ics (n : Nat) (v : Slot) : (s.setSlot n v).ics = s.ics := rfl
@[simp] theorem State.setSlot_orderSeq (n : Nat) (v : Slot) : (s.setSlot n v).orderSeq = s.orderSeq := rfl
@[simp] theorem State.setSlot_freeCtr (n : Nat) (v : Slot) : (s.setSlot n v).freeCtr = s.freeCtr := rfl
@[simp] theorem State.setSlot_lineStatus (n : Nat) (v : Slot) : (s.setSlot n v).lineStatus = s.lineStatus := rfl
@[simp] theorem State.setSlot_reply (n : Nat) (v : Slot) : (s.setSlot n v).reply = s.reply := rfl

/-! ## `State.setStack` -/
@[simp] theorem State.setStack_pending (k : StackId) (v : Stack) : (s.setStack k v).pending = s.pending := rfl
@[simp] theorem State.setStack_power (k : StackId) (v : Stack) : (s.setStack k v).power = s.power := rfl
@[simp] theorem State.setStack_arbSlot (k : StackId) (v : Stack) : (s.setStack k v).arbSlot = s.arbSlot := rfl
@[simp] theorem State.setStack_operWeight (k : StackId) (v : Stack) : (s.setStack k v).operWeight = s.operWeight := rfl
@[simp] theorem State.setStack_weights (k : StackId) (v : Stack) : (s.setStack k v).weights = s.weights := rfl
@[simp] theorem State.setStack_wdogUs (k : StackId) (v : Stack) : (s.setStack k v).wdogUs = s.wdogUs := rfl
@[simp] theorem State.setStack_tb (k : StackId) (v : Stack) : (s.setStack k v).tb = s.tb := rfl
@[simp] theorem State.setStack_pins (k : StackId) (v : Stack) : (s.setStack k v).pins = s.pins := rfl
@[simp] theorem State.setStack_cfg (k : StackId) (v : Stack) : (s.setStack k v).cfg = s.cfg := rfl
@[simp] theorem State.setStack_linkTimeoutMs (k : StackId) (v : Stack) : (s.setStack k v).linkTimeoutMs = s.linkTimeoutMs := rfl
@[simp] theorem State.setStack_linkUp (k : StackId) (v : Stack) : (s.setStack k v).linkUp = s.linkUp := rfl
@[simp] theorem State.setStack_linkSpeed (k : StackId) (v : Stack) : (s.setStack k v).linkSpeed = s.linkSpeed := rfl
@[simp] theorem State.setStack_linkWidth (k : StackId) (v : Stack) : (s.setStack k v).linkWidth = s.linkWidth := rfl
@[simp] theorem State.setStack_doeError (k : StackId) (v : Stack) : (s.setStack k v).doeError = s.doeError := rfl
@[simp] theorem State.setStack_aer (k : StackId) (v : Stack) : (s.setStack k v).aer = s.aer := rfl
@[simp] theorem State.setStack_d3hot (k : StackId) (v : Stack) : (s.setStack k v).d3hot = s.d3hot := rfl
@[simp] theorem State.setStack_numVfs (k : StackId) (v : Stack) : (s.setStack k v).numVfs = s.numVfs := rfl
@[simp] theorem State.setStack_vfEnable (k : StackId) (v : Stack) : (s.setStack k v).vfEnable = s.vfEnable := rfl
@[simp] theorem State.setStack_lots (k : StackId) (v : Stack) : (s.setStack k v).lots = s.lots := rfl
@[simp] theorem State.setStack_denied (k : StackId) (v : Stack) : (s.setStack k v).denied = s.denied := rfl
@[simp] theorem State.setStack_interleavedOk (k : StackId) (v : Stack) : (s.setStack k v).interleavedOk = s.interleavedOk := rfl
@[simp] theorem State.setStack_mem (k : StackId) (v : Stack) : (s.setStack k v).mem = s.mem := rfl
@[simp] theorem State.setStack_lineEpoch (k : StackId) (v : Stack) : (s.setStack k v).lineEpoch = s.lineEpoch := rfl
@[simp] theorem State.setStack_hbmBad (k : StackId) (v : Stack) : (s.setStack k v).hbmBad = s.hbmBad := rfl
@[simp] theorem State.setStack_healthRo (k : StackId) (v : Stack) : (s.setStack k v).healthRo = s.healthRo := rfl
@[simp] theorem State.setStack_hostMem (k : StackId) (v : Stack) : (s.setStack k v).hostMem = s.hostMem := rfl
@[simp] theorem State.setStack_copies (k : StackId) (v : Stack) : (s.setStack k v).copies = s.copies := rfl
@[simp] theorem State.setStack_waitFree (k : StackId) (v : Stack) : (s.setStack k v).waitFree = s.waitFree := rfl
@[simp] theorem State.setStack_blocks (k : StackId) (v : Stack) : (s.setStack k v).blocks = s.blocks := rfl
@[simp] theorem State.setStack_herds (k : StackId) (v : Stack) : (s.setStack k v).herds = s.herds := rfl
@[simp] theorem State.setStack_pfRings (k : StackId) (v : Stack) : (s.setStack k v).pfRings = s.pfRings := rfl
@[simp] theorem State.setStack_ide (k : StackId) (v : Stack) : (s.setStack k v).ide = s.ide := rfl
@[simp] theorem State.setStack_meters (k : StackId) (v : Stack) : (s.setStack k v).meters = s.meters := rfl
@[simp] theorem State.setStack_meterDue (k : StackId) (v : Stack) : (s.setStack k v).meterDue = s.meterDue := rfl
@[simp] theorem State.setStack_linkIds (k : StackId) (v : Stack) : (s.setStack k v).linkIds = s.linkIds := rfl
@[simp] theorem State.setStack_heldLow (k : StackId) (v : Stack) : (s.setStack k v).heldLow = s.heldLow := rfl
@[simp] theorem State.setStack_latchedHigh (k : StackId) (v : Stack) : (s.setStack k v).latchedHigh = s.latchedHigh := rfl
@[simp] theorem State.setStack_wins (k : StackId) (v : Stack) : (s.setStack k v).wins = s.wins := rfl
@[simp] theorem State.setStack_macFail (k : StackId) (v : Stack) : (s.setStack k v).macFail = s.macFail := rfl
@[simp] theorem State.setStack_badNodeCnt (k : StackId) (v : Stack) : (s.setStack k v).badNodeCnt = s.badNodeCnt := rfl
@[simp] theorem State.setStack_profile (k : StackId) (v : Stack) : (s.setStack k v).profile = s.profile := rfl
@[simp] theorem State.setStack_smallD (k : StackId) (v : Stack) : (s.setStack k v).smallD = s.smallD := rfl
@[simp] theorem State.setStack_dimEn (k : StackId) (v : Stack) : (s.setStack k v).dimEn = s.dimEn := rfl
@[simp] theorem State.setStack_pod (k : StackId) (v : Stack) : (s.setStack k v).pod = s.pod := rfl
@[simp] theorem State.setStack_spareDim (k : StackId) (v : Stack) : (s.setStack k v).spareDim = s.spareDim := rfl
@[simp] theorem State.setStack_crcLimit (k : StackId) (v : Stack) : (s.setStack k v).crcLimit = s.crcLimit := rfl
@[simp] theorem State.setStack_cubeAddr (k : StackId) (v : Stack) : (s.setStack k v).cubeAddr = s.cubeAddr := rfl
@[simp] theorem State.setStack_addrValid (k : StackId) (v : Stack) : (s.setStack k v).addrValid = s.addrValid := rfl
@[simp] theorem State.setStack_lanes (k : StackId) (v : Stack) : (s.setStack k v).lanes = s.lanes := rfl
@[simp] theorem State.setStack_dims (k : StackId) (v : Stack) : (s.setStack k v).dims = s.dims := rfl
@[simp] theorem State.setStack_streams (k : StackId) (v : Stack) : (s.setStack k v).streams = s.streams := rfl
@[simp] theorem State.setStack_slots (k : StackId) (v : Stack) : (s.setStack k v).slots = s.slots := rfl
@[simp] theorem State.setStack_tahr (k : StackId) (v : Stack) : (s.setStack k v).tahr = s.tahr := rfl
@[simp] theorem State.setStack_serow (k : StackId) (v : Stack) : (s.setStack k v).serow = s.serow := rfl
@[simp] theorem State.setStack_lc (k : StackId) (v : Stack) : (s.setStack k v).lc = s.lc := rfl
@[simp] theorem State.setStack_repair (k : StackId) (v : Stack) : (s.setStack k v).repair = s.repair := rfl
@[simp] theorem State.setStack_ics (k : StackId) (v : Stack) : (s.setStack k v).ics = s.ics := rfl
@[simp] theorem State.setStack_orderSeq (k : StackId) (v : Stack) : (s.setStack k v).orderSeq = s.orderSeq := rfl
@[simp] theorem State.setStack_freeCtr (k : StackId) (v : Stack) : (s.setStack k v).freeCtr = s.freeCtr := rfl
@[simp] theorem State.setStack_lineStatus (k : StackId) (v : Stack) : (s.setStack k v).lineStatus = s.lineStatus := rfl
@[simp] theorem State.setStack_reply (k : StackId) (v : Stack) : (s.setStack k v).reply = s.reply := rfl

/-! ## `State.setLot` -/
@[simp] theorem State.setLot_pending (l : Nat) (v : Lot) : (s.setLot l v).pending = s.pending := rfl
@[simp] theorem State.setLot_power (l : Nat) (v : Lot) : (s.setLot l v).power = s.power := rfl
@[simp] theorem State.setLot_arbSlot (l : Nat) (v : Lot) : (s.setLot l v).arbSlot = s.arbSlot := rfl
@[simp] theorem State.setLot_operWeight (l : Nat) (v : Lot) : (s.setLot l v).operWeight = s.operWeight := rfl
@[simp] theorem State.setLot_weights (l : Nat) (v : Lot) : (s.setLot l v).weights = s.weights := rfl
@[simp] theorem State.setLot_wdogUs (l : Nat) (v : Lot) : (s.setLot l v).wdogUs = s.wdogUs := rfl
@[simp] theorem State.setLot_tb (l : Nat) (v : Lot) : (s.setLot l v).tb = s.tb := rfl
@[simp] theorem State.setLot_pins (l : Nat) (v : Lot) : (s.setLot l v).pins = s.pins := rfl
@[simp] theorem State.setLot_cfg (l : Nat) (v : Lot) : (s.setLot l v).cfg = s.cfg := rfl
@[simp] theorem State.setLot_linkTimeoutMs (l : Nat) (v : Lot) : (s.setLot l v).linkTimeoutMs = s.linkTimeoutMs := rfl
@[simp] theorem State.setLot_linkUp (l : Nat) (v : Lot) : (s.setLot l v).linkUp = s.linkUp := rfl
@[simp] theorem State.setLot_linkSpeed (l : Nat) (v : Lot) : (s.setLot l v).linkSpeed = s.linkSpeed := rfl
@[simp] theorem State.setLot_linkWidth (l : Nat) (v : Lot) : (s.setLot l v).linkWidth = s.linkWidth := rfl
@[simp] theorem State.setLot_doeError (l : Nat) (v : Lot) : (s.setLot l v).doeError = s.doeError := rfl
@[simp] theorem State.setLot_aer (l : Nat) (v : Lot) : (s.setLot l v).aer = s.aer := rfl
@[simp] theorem State.setLot_d3hot (l : Nat) (v : Lot) : (s.setLot l v).d3hot = s.d3hot := rfl
@[simp] theorem State.setLot_numVfs (l : Nat) (v : Lot) : (s.setLot l v).numVfs = s.numVfs := rfl
@[simp] theorem State.setLot_vfEnable (l : Nat) (v : Lot) : (s.setLot l v).vfEnable = s.vfEnable := rfl
@[simp] theorem State.setLot_denied (l : Nat) (v : Lot) : (s.setLot l v).denied = s.denied := rfl
@[simp] theorem State.setLot_hbm (l : Nat) (v : Lot) : (s.setLot l v).hbm = s.hbm := rfl
@[simp] theorem State.setLot_interleavedOk (l : Nat) (v : Lot) : (s.setLot l v).interleavedOk = s.interleavedOk := rfl
@[simp] theorem State.setLot_mem (l : Nat) (v : Lot) : (s.setLot l v).mem = s.mem := rfl
@[simp] theorem State.setLot_lineEpoch (l : Nat) (v : Lot) : (s.setLot l v).lineEpoch = s.lineEpoch := rfl
@[simp] theorem State.setLot_hbmBad (l : Nat) (v : Lot) : (s.setLot l v).hbmBad = s.hbmBad := rfl
@[simp] theorem State.setLot_healthRo (l : Nat) (v : Lot) : (s.setLot l v).healthRo = s.healthRo := rfl
@[simp] theorem State.setLot_hostMem (l : Nat) (v : Lot) : (s.setLot l v).hostMem = s.hostMem := rfl
@[simp] theorem State.setLot_copies (l : Nat) (v : Lot) : (s.setLot l v).copies = s.copies := rfl
@[simp] theorem State.setLot_waitFree (l : Nat) (v : Lot) : (s.setLot l v).waitFree = s.waitFree := rfl
@[simp] theorem State.setLot_blocks (l : Nat) (v : Lot) : (s.setLot l v).blocks = s.blocks := rfl
@[simp] theorem State.setLot_herds (l : Nat) (v : Lot) : (s.setLot l v).herds = s.herds := rfl
@[simp] theorem State.setLot_pfRings (l : Nat) (v : Lot) : (s.setLot l v).pfRings = s.pfRings := rfl
@[simp] theorem State.setLot_ide (l : Nat) (v : Lot) : (s.setLot l v).ide = s.ide := rfl
@[simp] theorem State.setLot_meters (l : Nat) (v : Lot) : (s.setLot l v).meters = s.meters := rfl
@[simp] theorem State.setLot_meterDue (l : Nat) (v : Lot) : (s.setLot l v).meterDue = s.meterDue := rfl
@[simp] theorem State.setLot_linkIds (l : Nat) (v : Lot) : (s.setLot l v).linkIds = s.linkIds := rfl
@[simp] theorem State.setLot_heldLow (l : Nat) (v : Lot) : (s.setLot l v).heldLow = s.heldLow := rfl
@[simp] theorem State.setLot_latchedHigh (l : Nat) (v : Lot) : (s.setLot l v).latchedHigh = s.latchedHigh := rfl
@[simp] theorem State.setLot_wins (l : Nat) (v : Lot) : (s.setLot l v).wins = s.wins := rfl
@[simp] theorem State.setLot_macFail (l : Nat) (v : Lot) : (s.setLot l v).macFail = s.macFail := rfl
@[simp] theorem State.setLot_badNodeCnt (l : Nat) (v : Lot) : (s.setLot l v).badNodeCnt = s.badNodeCnt := rfl
@[simp] theorem State.setLot_profile (l : Nat) (v : Lot) : (s.setLot l v).profile = s.profile := rfl
@[simp] theorem State.setLot_smallD (l : Nat) (v : Lot) : (s.setLot l v).smallD = s.smallD := rfl
@[simp] theorem State.setLot_dimEn (l : Nat) (v : Lot) : (s.setLot l v).dimEn = s.dimEn := rfl
@[simp] theorem State.setLot_pod (l : Nat) (v : Lot) : (s.setLot l v).pod = s.pod := rfl
@[simp] theorem State.setLot_spareDim (l : Nat) (v : Lot) : (s.setLot l v).spareDim = s.spareDim := rfl
@[simp] theorem State.setLot_crcLimit (l : Nat) (v : Lot) : (s.setLot l v).crcLimit = s.crcLimit := rfl
@[simp] theorem State.setLot_cubeAddr (l : Nat) (v : Lot) : (s.setLot l v).cubeAddr = s.cubeAddr := rfl
@[simp] theorem State.setLot_addrValid (l : Nat) (v : Lot) : (s.setLot l v).addrValid = s.addrValid := rfl
@[simp] theorem State.setLot_lanes (l : Nat) (v : Lot) : (s.setLot l v).lanes = s.lanes := rfl
@[simp] theorem State.setLot_dims (l : Nat) (v : Lot) : (s.setLot l v).dims = s.dims := rfl
@[simp] theorem State.setLot_streams (l : Nat) (v : Lot) : (s.setLot l v).streams = s.streams := rfl
@[simp] theorem State.setLot_slots (l : Nat) (v : Lot) : (s.setLot l v).slots = s.slots := rfl
@[simp] theorem State.setLot_tahr (l : Nat) (v : Lot) : (s.setLot l v).tahr = s.tahr := rfl
@[simp] theorem State.setLot_serow (l : Nat) (v : Lot) : (s.setLot l v).serow = s.serow := rfl
@[simp] theorem State.setLot_lc (l : Nat) (v : Lot) : (s.setLot l v).lc = s.lc := rfl
@[simp] theorem State.setLot_repair (l : Nat) (v : Lot) : (s.setLot l v).repair = s.repair := rfl
@[simp] theorem State.setLot_ics (l : Nat) (v : Lot) : (s.setLot l v).ics = s.ics := rfl
@[simp] theorem State.setLot_orderSeq (l : Nat) (v : Lot) : (s.setLot l v).orderSeq = s.orderSeq := rfl
@[simp] theorem State.setLot_freeCtr (l : Nat) (v : Lot) : (s.setLot l v).freeCtr = s.freeCtr := rfl
@[simp] theorem State.setLot_lineStatus (l : Nat) (v : Lot) : (s.setLot l v).lineStatus = s.lineStatus := rfl
@[simp] theorem State.setLot_reply (l : Nat) (v : Lot) : (s.setLot l v).reply = s.reply := rfl

/-! ## `State.setIde` -/
@[simp] theorem State.setIde_pending (k : Fin 33) (v : IdeStream) : (s.setIde k v).pending = s.pending := rfl
@[simp] theorem State.setIde_power (k : Fin 33) (v : IdeStream) : (s.setIde k v).power = s.power := rfl
@[simp] theorem State.setIde_arbSlot (k : Fin 33) (v : IdeStream) : (s.setIde k v).arbSlot = s.arbSlot := rfl
@[simp] theorem State.setIde_operWeight (k : Fin 33) (v : IdeStream) : (s.setIde k v).operWeight = s.operWeight := rfl
@[simp] theorem State.setIde_weights (k : Fin 33) (v : IdeStream) : (s.setIde k v).weights = s.weights := rfl
@[simp] theorem State.setIde_wdogUs (k : Fin 33) (v : IdeStream) : (s.setIde k v).wdogUs = s.wdogUs := rfl
@[simp] theorem State.setIde_tb (k : Fin 33) (v : IdeStream) : (s.setIde k v).tb = s.tb := rfl
@[simp] theorem State.setIde_pins (k : Fin 33) (v : IdeStream) : (s.setIde k v).pins = s.pins := rfl
@[simp] theorem State.setIde_cfg (k : Fin 33) (v : IdeStream) : (s.setIde k v).cfg = s.cfg := rfl
@[simp] theorem State.setIde_linkTimeoutMs (k : Fin 33) (v : IdeStream) : (s.setIde k v).linkTimeoutMs = s.linkTimeoutMs := rfl
@[simp] theorem State.setIde_linkUp (k : Fin 33) (v : IdeStream) : (s.setIde k v).linkUp = s.linkUp := rfl
@[simp] theorem State.setIde_linkSpeed (k : Fin 33) (v : IdeStream) : (s.setIde k v).linkSpeed = s.linkSpeed := rfl
@[simp] theorem State.setIde_linkWidth (k : Fin 33) (v : IdeStream) : (s.setIde k v).linkWidth = s.linkWidth := rfl
@[simp] theorem State.setIde_doeError (k : Fin 33) (v : IdeStream) : (s.setIde k v).doeError = s.doeError := rfl
@[simp] theorem State.setIde_aer (k : Fin 33) (v : IdeStream) : (s.setIde k v).aer = s.aer := rfl
@[simp] theorem State.setIde_d3hot (k : Fin 33) (v : IdeStream) : (s.setIde k v).d3hot = s.d3hot := rfl
@[simp] theorem State.setIde_numVfs (k : Fin 33) (v : IdeStream) : (s.setIde k v).numVfs = s.numVfs := rfl
@[simp] theorem State.setIde_vfEnable (k : Fin 33) (v : IdeStream) : (s.setIde k v).vfEnable = s.vfEnable := rfl
@[simp] theorem State.setIde_lots (k : Fin 33) (v : IdeStream) : (s.setIde k v).lots = s.lots := rfl
@[simp] theorem State.setIde_denied (k : Fin 33) (v : IdeStream) : (s.setIde k v).denied = s.denied := rfl
@[simp] theorem State.setIde_hbm (k : Fin 33) (v : IdeStream) : (s.setIde k v).hbm = s.hbm := rfl
@[simp] theorem State.setIde_interleavedOk (k : Fin 33) (v : IdeStream) : (s.setIde k v).interleavedOk = s.interleavedOk := rfl
@[simp] theorem State.setIde_mem (k : Fin 33) (v : IdeStream) : (s.setIde k v).mem = s.mem := rfl
@[simp] theorem State.setIde_lineEpoch (k : Fin 33) (v : IdeStream) : (s.setIde k v).lineEpoch = s.lineEpoch := rfl
@[simp] theorem State.setIde_hbmBad (k : Fin 33) (v : IdeStream) : (s.setIde k v).hbmBad = s.hbmBad := rfl
@[simp] theorem State.setIde_healthRo (k : Fin 33) (v : IdeStream) : (s.setIde k v).healthRo = s.healthRo := rfl
@[simp] theorem State.setIde_hostMem (k : Fin 33) (v : IdeStream) : (s.setIde k v).hostMem = s.hostMem := rfl
@[simp] theorem State.setIde_copies (k : Fin 33) (v : IdeStream) : (s.setIde k v).copies = s.copies := rfl
@[simp] theorem State.setIde_waitFree (k : Fin 33) (v : IdeStream) : (s.setIde k v).waitFree = s.waitFree := rfl
@[simp] theorem State.setIde_blocks (k : Fin 33) (v : IdeStream) : (s.setIde k v).blocks = s.blocks := rfl
@[simp] theorem State.setIde_herds (k : Fin 33) (v : IdeStream) : (s.setIde k v).herds = s.herds := rfl
@[simp] theorem State.setIde_pfRings (k : Fin 33) (v : IdeStream) : (s.setIde k v).pfRings = s.pfRings := rfl
@[simp] theorem State.setIde_meters (k : Fin 33) (v : IdeStream) : (s.setIde k v).meters = s.meters := rfl
@[simp] theorem State.setIde_meterDue (k : Fin 33) (v : IdeStream) : (s.setIde k v).meterDue = s.meterDue := rfl
@[simp] theorem State.setIde_linkIds (k : Fin 33) (v : IdeStream) : (s.setIde k v).linkIds = s.linkIds := rfl
@[simp] theorem State.setIde_heldLow (k : Fin 33) (v : IdeStream) : (s.setIde k v).heldLow = s.heldLow := rfl
@[simp] theorem State.setIde_latchedHigh (k : Fin 33) (v : IdeStream) : (s.setIde k v).latchedHigh = s.latchedHigh := rfl
@[simp] theorem State.setIde_wins (k : Fin 33) (v : IdeStream) : (s.setIde k v).wins = s.wins := rfl
@[simp] theorem State.setIde_macFail (k : Fin 33) (v : IdeStream) : (s.setIde k v).macFail = s.macFail := rfl
@[simp] theorem State.setIde_badNodeCnt (k : Fin 33) (v : IdeStream) : (s.setIde k v).badNodeCnt = s.badNodeCnt := rfl
@[simp] theorem State.setIde_profile (k : Fin 33) (v : IdeStream) : (s.setIde k v).profile = s.profile := rfl
@[simp] theorem State.setIde_smallD (k : Fin 33) (v : IdeStream) : (s.setIde k v).smallD = s.smallD := rfl
@[simp] theorem State.setIde_dimEn (k : Fin 33) (v : IdeStream) : (s.setIde k v).dimEn = s.dimEn := rfl
@[simp] theorem State.setIde_pod (k : Fin 33) (v : IdeStream) : (s.setIde k v).pod = s.pod := rfl
@[simp] theorem State.setIde_spareDim (k : Fin 33) (v : IdeStream) : (s.setIde k v).spareDim = s.spareDim := rfl
@[simp] theorem State.setIde_crcLimit (k : Fin 33) (v : IdeStream) : (s.setIde k v).crcLimit = s.crcLimit := rfl
@[simp] theorem State.setIde_cubeAddr (k : Fin 33) (v : IdeStream) : (s.setIde k v).cubeAddr = s.cubeAddr := rfl
@[simp] theorem State.setIde_addrValid (k : Fin 33) (v : IdeStream) : (s.setIde k v).addrValid = s.addrValid := rfl
@[simp] theorem State.setIde_lanes (k : Fin 33) (v : IdeStream) : (s.setIde k v).lanes = s.lanes := rfl
@[simp] theorem State.setIde_dims (k : Fin 33) (v : IdeStream) : (s.setIde k v).dims = s.dims := rfl
@[simp] theorem State.setIde_streams (k : Fin 33) (v : IdeStream) : (s.setIde k v).streams = s.streams := rfl
@[simp] theorem State.setIde_slots (k : Fin 33) (v : IdeStream) : (s.setIde k v).slots = s.slots := rfl
@[simp] theorem State.setIde_tahr (k : Fin 33) (v : IdeStream) : (s.setIde k v).tahr = s.tahr := rfl
@[simp] theorem State.setIde_serow (k : Fin 33) (v : IdeStream) : (s.setIde k v).serow = s.serow := rfl
@[simp] theorem State.setIde_lc (k : Fin 33) (v : IdeStream) : (s.setIde k v).lc = s.lc := rfl
@[simp] theorem State.setIde_repair (k : Fin 33) (v : IdeStream) : (s.setIde k v).repair = s.repair := rfl
@[simp] theorem State.setIde_ics (k : Fin 33) (v : IdeStream) : (s.setIde k v).ics = s.ics := rfl
@[simp] theorem State.setIde_orderSeq (k : Fin 33) (v : IdeStream) : (s.setIde k v).orderSeq = s.orderSeq := rfl
@[simp] theorem State.setIde_freeCtr (k : Fin 33) (v : IdeStream) : (s.setIde k v).freeCtr = s.freeCtr := rfl
@[simp] theorem State.setIde_lineStatus (k : Fin 33) (v : IdeStream) : (s.setIde k v).lineStatus = s.lineStatus := rfl
@[simp] theorem State.setIde_reply (k : Fin 33) (v : IdeStream) : (s.setIde k v).reply = s.reply := rfl

/-! ## `State.setIc` -/
@[simp] theorem State.setIc_pending (c : Nat) (v : Ic) : (s.setIc c v).pending = s.pending := rfl
@[simp] theorem State.setIc_power (c : Nat) (v : Ic) : (s.setIc c v).power = s.power := rfl
@[simp] theorem State.setIc_arbSlot (c : Nat) (v : Ic) : (s.setIc c v).arbSlot = s.arbSlot := rfl
@[simp] theorem State.setIc_operWeight (c : Nat) (v : Ic) : (s.setIc c v).operWeight = s.operWeight := rfl
@[simp] theorem State.setIc_weights (c : Nat) (v : Ic) : (s.setIc c v).weights = s.weights := rfl
@[simp] theorem State.setIc_wdogUs (c : Nat) (v : Ic) : (s.setIc c v).wdogUs = s.wdogUs := rfl
@[simp] theorem State.setIc_tb (c : Nat) (v : Ic) : (s.setIc c v).tb = s.tb := rfl
@[simp] theorem State.setIc_pins (c : Nat) (v : Ic) : (s.setIc c v).pins = s.pins := rfl
@[simp] theorem State.setIc_cfg (c : Nat) (v : Ic) : (s.setIc c v).cfg = s.cfg := rfl
@[simp] theorem State.setIc_linkTimeoutMs (c : Nat) (v : Ic) : (s.setIc c v).linkTimeoutMs = s.linkTimeoutMs := rfl
@[simp] theorem State.setIc_linkUp (c : Nat) (v : Ic) : (s.setIc c v).linkUp = s.linkUp := rfl
@[simp] theorem State.setIc_linkSpeed (c : Nat) (v : Ic) : (s.setIc c v).linkSpeed = s.linkSpeed := rfl
@[simp] theorem State.setIc_linkWidth (c : Nat) (v : Ic) : (s.setIc c v).linkWidth = s.linkWidth := rfl
@[simp] theorem State.setIc_doeError (c : Nat) (v : Ic) : (s.setIc c v).doeError = s.doeError := rfl
@[simp] theorem State.setIc_aer (c : Nat) (v : Ic) : (s.setIc c v).aer = s.aer := rfl
@[simp] theorem State.setIc_d3hot (c : Nat) (v : Ic) : (s.setIc c v).d3hot = s.d3hot := rfl
@[simp] theorem State.setIc_numVfs (c : Nat) (v : Ic) : (s.setIc c v).numVfs = s.numVfs := rfl
@[simp] theorem State.setIc_vfEnable (c : Nat) (v : Ic) : (s.setIc c v).vfEnable = s.vfEnable := rfl
@[simp] theorem State.setIc_lots (c : Nat) (v : Ic) : (s.setIc c v).lots = s.lots := rfl
@[simp] theorem State.setIc_denied (c : Nat) (v : Ic) : (s.setIc c v).denied = s.denied := rfl
@[simp] theorem State.setIc_hbm (c : Nat) (v : Ic) : (s.setIc c v).hbm = s.hbm := rfl
@[simp] theorem State.setIc_interleavedOk (c : Nat) (v : Ic) : (s.setIc c v).interleavedOk = s.interleavedOk := rfl
@[simp] theorem State.setIc_mem (c : Nat) (v : Ic) : (s.setIc c v).mem = s.mem := rfl
@[simp] theorem State.setIc_lineEpoch (c : Nat) (v : Ic) : (s.setIc c v).lineEpoch = s.lineEpoch := rfl
@[simp] theorem State.setIc_hbmBad (c : Nat) (v : Ic) : (s.setIc c v).hbmBad = s.hbmBad := rfl
@[simp] theorem State.setIc_healthRo (c : Nat) (v : Ic) : (s.setIc c v).healthRo = s.healthRo := rfl
@[simp] theorem State.setIc_hostMem (c : Nat) (v : Ic) : (s.setIc c v).hostMem = s.hostMem := rfl
@[simp] theorem State.setIc_copies (c : Nat) (v : Ic) : (s.setIc c v).copies = s.copies := rfl
@[simp] theorem State.setIc_waitFree (c : Nat) (v : Ic) : (s.setIc c v).waitFree = s.waitFree := rfl
@[simp] theorem State.setIc_blocks (c : Nat) (v : Ic) : (s.setIc c v).blocks = s.blocks := rfl
@[simp] theorem State.setIc_herds (c : Nat) (v : Ic) : (s.setIc c v).herds = s.herds := rfl
@[simp] theorem State.setIc_pfRings (c : Nat) (v : Ic) : (s.setIc c v).pfRings = s.pfRings := rfl
@[simp] theorem State.setIc_ide (c : Nat) (v : Ic) : (s.setIc c v).ide = s.ide := rfl
@[simp] theorem State.setIc_meters (c : Nat) (v : Ic) : (s.setIc c v).meters = s.meters := rfl
@[simp] theorem State.setIc_meterDue (c : Nat) (v : Ic) : (s.setIc c v).meterDue = s.meterDue := rfl
@[simp] theorem State.setIc_linkIds (c : Nat) (v : Ic) : (s.setIc c v).linkIds = s.linkIds := rfl
@[simp] theorem State.setIc_heldLow (c : Nat) (v : Ic) : (s.setIc c v).heldLow = s.heldLow := rfl
@[simp] theorem State.setIc_latchedHigh (c : Nat) (v : Ic) : (s.setIc c v).latchedHigh = s.latchedHigh := rfl
@[simp] theorem State.setIc_wins (c : Nat) (v : Ic) : (s.setIc c v).wins = s.wins := rfl
@[simp] theorem State.setIc_macFail (c : Nat) (v : Ic) : (s.setIc c v).macFail = s.macFail := rfl
@[simp] theorem State.setIc_badNodeCnt (c : Nat) (v : Ic) : (s.setIc c v).badNodeCnt = s.badNodeCnt := rfl
@[simp] theorem State.setIc_profile (c : Nat) (v : Ic) : (s.setIc c v).profile = s.profile := rfl
@[simp] theorem State.setIc_smallD (c : Nat) (v : Ic) : (s.setIc c v).smallD = s.smallD := rfl
@[simp] theorem State.setIc_dimEn (c : Nat) (v : Ic) : (s.setIc c v).dimEn = s.dimEn := rfl
@[simp] theorem State.setIc_pod (c : Nat) (v : Ic) : (s.setIc c v).pod = s.pod := rfl
@[simp] theorem State.setIc_spareDim (c : Nat) (v : Ic) : (s.setIc c v).spareDim = s.spareDim := rfl
@[simp] theorem State.setIc_crcLimit (c : Nat) (v : Ic) : (s.setIc c v).crcLimit = s.crcLimit := rfl
@[simp] theorem State.setIc_cubeAddr (c : Nat) (v : Ic) : (s.setIc c v).cubeAddr = s.cubeAddr := rfl
@[simp] theorem State.setIc_addrValid (c : Nat) (v : Ic) : (s.setIc c v).addrValid = s.addrValid := rfl
@[simp] theorem State.setIc_lanes (c : Nat) (v : Ic) : (s.setIc c v).lanes = s.lanes := rfl
@[simp] theorem State.setIc_dims (c : Nat) (v : Ic) : (s.setIc c v).dims = s.dims := rfl
@[simp] theorem State.setIc_streams (c : Nat) (v : Ic) : (s.setIc c v).streams = s.streams := rfl
@[simp] theorem State.setIc_slots (c : Nat) (v : Ic) : (s.setIc c v).slots = s.slots := rfl
@[simp] theorem State.setIc_tahr (c : Nat) (v : Ic) : (s.setIc c v).tahr = s.tahr := rfl
@[simp] theorem State.setIc_serow (c : Nat) (v : Ic) : (s.setIc c v).serow = s.serow := rfl
@[simp] theorem State.setIc_lc (c : Nat) (v : Ic) : (s.setIc c v).lc = s.lc := rfl
@[simp] theorem State.setIc_repair (c : Nat) (v : Ic) : (s.setIc c v).repair = s.repair := rfl
@[simp] theorem State.setIc_orderSeq (c : Nat) (v : Ic) : (s.setIc c v).orderSeq = s.orderSeq := rfl
@[simp] theorem State.setIc_freeCtr (c : Nat) (v : Ic) : (s.setIc c v).freeCtr = s.freeCtr := rfl
@[simp] theorem State.setIc_lineStatus (c : Nat) (v : Ic) : (s.setIc c v).lineStatus = s.lineStatus := rfl
@[simp] theorem State.setIc_reply (c : Nat) (v : Ic) : (s.setIc c v).reply = s.reply := rfl

/-! ## `State.setStream` -/
@[simp] theorem State.setStream_pending (d : DimId) (h : HerdId) (v : Stream) : (s.setStream d h v).pending = s.pending := rfl
@[simp] theorem State.setStream_power (d : DimId) (h : HerdId) (v : Stream) : (s.setStream d h v).power = s.power := rfl
@[simp] theorem State.setStream_arbSlot (d : DimId) (h : HerdId) (v : Stream) : (s.setStream d h v).arbSlot = s.arbSlot := rfl
@[simp] theorem State.setStream_operWeight (d : DimId) (h : HerdId) (v : Stream) : (s.setStream d h v).operWeight = s.operWeight := rfl
@[simp] theorem State.setStream_weights (d : DimId) (h : HerdId) (v : Stream) : (s.setStream d h v).weights = s.weights := rfl
@[simp] theorem State.setStream_wdogUs (d : DimId) (h : HerdId) (v : Stream) : (s.setStream d h v).wdogUs = s.wdogUs := rfl
@[simp] theorem State.setStream_tb (d : DimId) (h : HerdId) (v : Stream) : (s.setStream d h v).tb = s.tb := rfl
@[simp] theorem State.setStream_pins (d : DimId) (h : HerdId) (v : Stream) : (s.setStream d h v).pins = s.pins := rfl
@[simp] theorem State.setStream_cfg (d : DimId) (h : HerdId) (v : Stream) : (s.setStream d h v).cfg = s.cfg := rfl
@[simp] theorem State.setStream_linkTimeoutMs (d : DimId) (h : HerdId) (v : Stream) : (s.setStream d h v).linkTimeoutMs = s.linkTimeoutMs := rfl
@[simp] theorem State.setStream_linkUp (d : DimId) (h : HerdId) (v : Stream) : (s.setStream d h v).linkUp = s.linkUp := rfl
@[simp] theorem State.setStream_linkSpeed (d : DimId) (h : HerdId) (v : Stream) : (s.setStream d h v).linkSpeed = s.linkSpeed := rfl
@[simp] theorem State.setStream_linkWidth (d : DimId) (h : HerdId) (v : Stream) : (s.setStream d h v).linkWidth = s.linkWidth := rfl
@[simp] theorem State.setStream_doeError (d : DimId) (h : HerdId) (v : Stream) : (s.setStream d h v).doeError = s.doeError := rfl
@[simp] theorem State.setStream_aer (d : DimId) (h : HerdId) (v : Stream) : (s.setStream d h v).aer = s.aer := rfl
@[simp] theorem State.setStream_d3hot (d : DimId) (h : HerdId) (v : Stream) : (s.setStream d h v).d3hot = s.d3hot := rfl
@[simp] theorem State.setStream_numVfs (d : DimId) (h : HerdId) (v : Stream) : (s.setStream d h v).numVfs = s.numVfs := rfl
@[simp] theorem State.setStream_vfEnable (d : DimId) (h : HerdId) (v : Stream) : (s.setStream d h v).vfEnable = s.vfEnable := rfl
@[simp] theorem State.setStream_lots (d : DimId) (h : HerdId) (v : Stream) : (s.setStream d h v).lots = s.lots := rfl
@[simp] theorem State.setStream_denied (d : DimId) (h : HerdId) (v : Stream) : (s.setStream d h v).denied = s.denied := rfl
@[simp] theorem State.setStream_hbm (d : DimId) (h : HerdId) (v : Stream) : (s.setStream d h v).hbm = s.hbm := rfl
@[simp] theorem State.setStream_interleavedOk (d : DimId) (h : HerdId) (v : Stream) : (s.setStream d h v).interleavedOk = s.interleavedOk := rfl
@[simp] theorem State.setStream_mem (d : DimId) (h : HerdId) (v : Stream) : (s.setStream d h v).mem = s.mem := rfl
@[simp] theorem State.setStream_lineEpoch (d : DimId) (h : HerdId) (v : Stream) : (s.setStream d h v).lineEpoch = s.lineEpoch := rfl
@[simp] theorem State.setStream_hbmBad (d : DimId) (h : HerdId) (v : Stream) : (s.setStream d h v).hbmBad = s.hbmBad := rfl
@[simp] theorem State.setStream_healthRo (d : DimId) (h : HerdId) (v : Stream) : (s.setStream d h v).healthRo = s.healthRo := rfl
@[simp] theorem State.setStream_hostMem (d : DimId) (h : HerdId) (v : Stream) : (s.setStream d h v).hostMem = s.hostMem := rfl
@[simp] theorem State.setStream_copies (d : DimId) (h : HerdId) (v : Stream) : (s.setStream d h v).copies = s.copies := rfl
@[simp] theorem State.setStream_waitFree (d : DimId) (h : HerdId) (v : Stream) : (s.setStream d h v).waitFree = s.waitFree := rfl
@[simp] theorem State.setStream_blocks (d : DimId) (h : HerdId) (v : Stream) : (s.setStream d h v).blocks = s.blocks := rfl
@[simp] theorem State.setStream_herds (d : DimId) (h : HerdId) (v : Stream) : (s.setStream d h v).herds = s.herds := rfl
@[simp] theorem State.setStream_pfRings (d : DimId) (h : HerdId) (v : Stream) : (s.setStream d h v).pfRings = s.pfRings := rfl
@[simp] theorem State.setStream_ide (d : DimId) (h : HerdId) (v : Stream) : (s.setStream d h v).ide = s.ide := rfl
@[simp] theorem State.setStream_meters (d : DimId) (h : HerdId) (v : Stream) : (s.setStream d h v).meters = s.meters := rfl
@[simp] theorem State.setStream_meterDue (d : DimId) (h : HerdId) (v : Stream) : (s.setStream d h v).meterDue = s.meterDue := rfl
@[simp] theorem State.setStream_linkIds (d : DimId) (h : HerdId) (v : Stream) : (s.setStream d h v).linkIds = s.linkIds := rfl
@[simp] theorem State.setStream_heldLow (d : DimId) (h : HerdId) (v : Stream) : (s.setStream d h v).heldLow = s.heldLow := rfl
@[simp] theorem State.setStream_latchedHigh (d : DimId) (h : HerdId) (v : Stream) : (s.setStream d h v).latchedHigh = s.latchedHigh := rfl
@[simp] theorem State.setStream_wins (d : DimId) (h : HerdId) (v : Stream) : (s.setStream d h v).wins = s.wins := rfl
@[simp] theorem State.setStream_macFail (d : DimId) (h : HerdId) (v : Stream) : (s.setStream d h v).macFail = s.macFail := rfl
@[simp] theorem State.setStream_badNodeCnt (d : DimId) (h : HerdId) (v : Stream) : (s.setStream d h v).badNodeCnt = s.badNodeCnt := rfl
@[simp] theorem State.setStream_profile (d : DimId) (h : HerdId) (v : Stream) : (s.setStream d h v).profile = s.profile := rfl
@[simp] theorem State.setStream_smallD (d : DimId) (h : HerdId) (v : Stream) : (s.setStream d h v).smallD = s.smallD := rfl
@[simp] theorem State.setStream_dimEn (d : DimId) (h : HerdId) (v : Stream) : (s.setStream d h v).dimEn = s.dimEn := rfl
@[simp] theorem State.setStream_pod (d : DimId) (h : HerdId) (v : Stream) : (s.setStream d h v).pod = s.pod := rfl
@[simp] theorem State.setStream_spareDim (d : DimId) (h : HerdId) (v : Stream) : (s.setStream d h v).spareDim = s.spareDim := rfl
@[simp] theorem State.setStream_crcLimit (d : DimId) (h : HerdId) (v : Stream) : (s.setStream d h v).crcLimit = s.crcLimit := rfl
@[simp] theorem State.setStream_cubeAddr (d : DimId) (h : HerdId) (v : Stream) : (s.setStream d h v).cubeAddr = s.cubeAddr := rfl
@[simp] theorem State.setStream_addrValid (d : DimId) (h : HerdId) (v : Stream) : (s.setStream d h v).addrValid = s.addrValid := rfl
@[simp] theorem State.setStream_lanes (d : DimId) (h : HerdId) (v : Stream) : (s.setStream d h v).lanes = s.lanes := rfl
@[simp] theorem State.setStream_dims (d : DimId) (h : HerdId) (v : Stream) : (s.setStream d h v).dims = s.dims := rfl
@[simp] theorem State.setStream_slots (d : DimId) (h : HerdId) (v : Stream) : (s.setStream d h v).slots = s.slots := rfl
@[simp] theorem State.setStream_tahr (d : DimId) (h : HerdId) (v : Stream) : (s.setStream d h v).tahr = s.tahr := rfl
@[simp] theorem State.setStream_serow (d : DimId) (h : HerdId) (v : Stream) : (s.setStream d h v).serow = s.serow := rfl
@[simp] theorem State.setStream_lc (d : DimId) (h : HerdId) (v : Stream) : (s.setStream d h v).lc = s.lc := rfl
@[simp] theorem State.setStream_repair (d : DimId) (h : HerdId) (v : Stream) : (s.setStream d h v).repair = s.repair := rfl
@[simp] theorem State.setStream_ics (d : DimId) (h : HerdId) (v : Stream) : (s.setStream d h v).ics = s.ics := rfl
@[simp] theorem State.setStream_orderSeq (d : DimId) (h : HerdId) (v : Stream) : (s.setStream d h v).orderSeq = s.orderSeq := rfl
@[simp] theorem State.setStream_freeCtr (d : DimId) (h : HerdId) (v : Stream) : (s.setStream d h v).freeCtr = s.freeCtr := rfl
@[simp] theorem State.setStream_lineStatus (d : DimId) (h : HerdId) (v : Stream) : (s.setStream d h v).lineStatus = s.lineStatus := rfl
@[simp] theorem State.setStream_reply (d : DimId) (h : HerdId) (v : Stream) : (s.setStream d h v).reply = s.reply := rfl

/-! ## Accessors after updates -/
@[simp] theorem State.block_setHerd (h : HerdId) (v : Herd) (j : BlockId) : (s.setHerd h v).block j = s.block j := rfl
@[simp] theorem State.laneAt_setHerd (h : HerdId) (v : Herd) (j : LaneId) : (s.setHerd h v).laneAt j = s.laneAt j := rfl
@[simp] theorem State.dimAt_setHerd (h : HerdId) (v : Herd) (j : DimId) : (s.setHerd h v).dimAt j = s.dimAt j := rfl
@[simp] theorem State.win_setHerd (h : HerdId) (v : Herd) (j : WinId) : (s.setHerd h v).win j = s.win j := rfl
@[simp] theorem State.slot_setHerd (h : HerdId) (v : Herd) (j : Nat) : (s.setHerd h v).slot j = s.slot j := rfl
@[simp] theorem State.stack_setHerd (h : HerdId) (v : Herd) (j : StackId) : (s.setHerd h v).stack j = s.stack j := rfl
@[simp] theorem State.lot_setHerd (h : HerdId) (v : Herd) (j : Nat) : (s.setHerd h v).lot j = s.lot j := rfl
@[simp] theorem State.ideAt_setHerd (h : HerdId) (v : Herd) (j : Fin 33) : (s.setHerd h v).ideAt j = s.ideAt j := rfl
@[simp] theorem State.icAt_setHerd (h : HerdId) (v : Herd) (j : Nat) : (s.setHerd h v).icAt j = s.icAt j := rfl
@[simp] theorem State.herd_setHerd_same (h : HerdId) (v : Herd) : (s.setHerd h v).herd h = v := by
  simp [State.setHerd, State.herd]
theorem State.herd_setHerd_ne (h : HerdId) (v : Herd) {j : HerdId} (e : j ≠ h) : (s.setHerd h v).herd j = s.herd j := by
  exact Tbl.get_set_ne _ _ _ (fun x => e (Fin.ext x))
@[simp] theorem State.block_modHerd (h : HerdId) (f : Herd → Herd) (j : BlockId) : (s.modHerd h f).block j = s.block j := rfl
@[simp] theorem State.laneAt_modHerd (h : HerdId) (f : Herd → Herd) (j : LaneId) : (s.modHerd h f).laneAt j = s.laneAt j := rfl
@[simp] theorem State.dimAt_modHerd (h : HerdId) (f : Herd → Herd) (j : DimId) : (s.modHerd h f).dimAt j = s.dimAt j := rfl
@[simp] theorem State.win_modHerd (h : HerdId) (f : Herd → Herd) (j : WinId) : (s.modHerd h f).win j = s.win j := rfl
@[simp] theorem State.slot_modHerd (h : HerdId) (f : Herd → Herd) (j : Nat) : (s.modHerd h f).slot j = s.slot j := rfl
@[simp] theorem State.stack_modHerd (h : HerdId) (f : Herd → Herd) (j : StackId) : (s.modHerd h f).stack j = s.stack j := rfl
@[simp] theorem State.lot_modHerd (h : HerdId) (f : Herd → Herd) (j : Nat) : (s.modHerd h f).lot j = s.lot j := rfl
@[simp] theorem State.ideAt_modHerd (h : HerdId) (f : Herd → Herd) (j : Fin 33) : (s.modHerd h f).ideAt j = s.ideAt j := rfl
@[simp] theorem State.icAt_modHerd (h : HerdId) (f : Herd → Herd) (j : Nat) : (s.modHerd h f).icAt j = s.icAt j := rfl
@[simp] theorem State.herd_modHerd_same (h : HerdId) (f : Herd → Herd) : (s.modHerd h f).herd h = f (s.herd h) := by
  simp [State.modHerd, State.setHerd, State.herd]
theorem State.herd_modHerd_ne (h : HerdId) (f : Herd → Herd) {j : HerdId} (e : j ≠ h) : (s.modHerd h f).herd j = s.herd j := by
  exact Tbl.get_set_ne _ _ _ (fun x => e (Fin.ext x))
@[simp] theorem State.herd_setBlock (b : BlockId) (v : Block) (j : HerdId) : (s.setBlock b v).herd j = s.herd j := rfl
@[simp] theorem State.laneAt_setBlock (b : BlockId) (v : Block) (j : LaneId) : (s.setBlock b v).laneAt j = s.laneAt j := rfl
@[simp] theorem State.dimAt_setBlock (b : BlockId) (v : Block) (j : DimId) : (s.setBlock b v).dimAt j = s.dimAt j := rfl
@[simp] theorem State.win_setBlock (b : BlockId) (v : Block) (j : WinId) : (s.setBlock b v).win j = s.win j := rfl
@[simp] theorem State.slot_setBlock (b : BlockId) (v : Block) (j : Nat) : (s.setBlock b v).slot j = s.slot j := rfl
@[simp] theorem State.stack_setBlock (b : BlockId) (v : Block) (j : StackId) : (s.setBlock b v).stack j = s.stack j := rfl
@[simp] theorem State.lot_setBlock (b : BlockId) (v : Block) (j : Nat) : (s.setBlock b v).lot j = s.lot j := rfl
@[simp] theorem State.ideAt_setBlock (b : BlockId) (v : Block) (j : Fin 33) : (s.setBlock b v).ideAt j = s.ideAt j := rfl
@[simp] theorem State.icAt_setBlock (b : BlockId) (v : Block) (j : Nat) : (s.setBlock b v).icAt j = s.icAt j := rfl
@[simp] theorem State.block_setBlock_same (b : BlockId) (v : Block) : (s.setBlock b v).block b = v := by
  simp [State.setBlock, State.block]
theorem State.block_setBlock_ne (b : BlockId) (v : Block) {j : BlockId} (e : j ≠ b) : (s.setBlock b v).block j = s.block j := by
  exact Tbl.get_set_ne _ _ _ (fun x => e (Fin.ext x))
@[simp] theorem State.herd_modBlock (b : BlockId) (f : Block → Block) (j : HerdId) : (s.modBlock b f).herd j = s.herd j := rfl
@[simp] theorem State.laneAt_modBlock (b : BlockId) (f : Block → Block) (j : LaneId) : (s.modBlock b f).laneAt j = s.laneAt j := rfl
@[simp] theorem State.dimAt_modBlock (b : BlockId) (f : Block → Block) (j : DimId) : (s.modBlock b f).dimAt j = s.dimAt j := rfl
@[simp] theorem State.win_modBlock (b : BlockId) (f : Block → Block) (j : WinId) : (s.modBlock b f).win j = s.win j := rfl
@[simp] theorem State.slot_modBlock (b : BlockId) (f : Block → Block) (j : Nat) : (s.modBlock b f).slot j = s.slot j := rfl
@[simp] theorem State.stack_modBlock (b : BlockId) (f : Block → Block) (j : StackId) : (s.modBlock b f).stack j = s.stack j := rfl
@[simp] theorem State.lot_modBlock (b : BlockId) (f : Block → Block) (j : Nat) : (s.modBlock b f).lot j = s.lot j := rfl
@[simp] theorem State.ideAt_modBlock (b : BlockId) (f : Block → Block) (j : Fin 33) : (s.modBlock b f).ideAt j = s.ideAt j := rfl
@[simp] theorem State.icAt_modBlock (b : BlockId) (f : Block → Block) (j : Nat) : (s.modBlock b f).icAt j = s.icAt j := rfl
@[simp] theorem State.block_modBlock_same (b : BlockId) (f : Block → Block) : (s.modBlock b f).block b = f (s.block b) := by
  simp [State.modBlock, State.setBlock, State.block]
theorem State.block_modBlock_ne (b : BlockId) (f : Block → Block) {j : BlockId} (e : j ≠ b) : (s.modBlock b f).block j = s.block j := by
  exact Tbl.get_set_ne _ _ _ (fun x => e (Fin.ext x))
@[simp] theorem State.herd_setLane (n : LaneId) (v : Lane) (j : HerdId) : (s.setLane n v).herd j = s.herd j := rfl
@[simp] theorem State.block_setLane (n : LaneId) (v : Lane) (j : BlockId) : (s.setLane n v).block j = s.block j := rfl
@[simp] theorem State.dimAt_setLane (n : LaneId) (v : Lane) (j : DimId) : (s.setLane n v).dimAt j = s.dimAt j := rfl
@[simp] theorem State.win_setLane (n : LaneId) (v : Lane) (j : WinId) : (s.setLane n v).win j = s.win j := rfl
@[simp] theorem State.slot_setLane (n : LaneId) (v : Lane) (j : Nat) : (s.setLane n v).slot j = s.slot j := rfl
@[simp] theorem State.stack_setLane (n : LaneId) (v : Lane) (j : StackId) : (s.setLane n v).stack j = s.stack j := rfl
@[simp] theorem State.lot_setLane (n : LaneId) (v : Lane) (j : Nat) : (s.setLane n v).lot j = s.lot j := rfl
@[simp] theorem State.ideAt_setLane (n : LaneId) (v : Lane) (j : Fin 33) : (s.setLane n v).ideAt j = s.ideAt j := rfl
@[simp] theorem State.icAt_setLane (n : LaneId) (v : Lane) (j : Nat) : (s.setLane n v).icAt j = s.icAt j := rfl
@[simp] theorem State.laneAt_setLane_same (n : LaneId) (v : Lane) : (s.setLane n v).laneAt n = v := by
  simp [State.setLane, State.laneAt]
theorem State.laneAt_setLane_ne (n : LaneId) (v : Lane) {j : LaneId} (e : j ≠ n) : (s.setLane n v).laneAt j = s.laneAt j := by
  exact Tbl.get_set_ne _ _ _ (fun x => e (Fin.ext x))
@[simp] theorem State.herd_setDim (d : DimId) (v : Dim) (j : HerdId) : (s.setDim d v).herd j = s.herd j := rfl
@[simp] theorem State.block_setDim (d : DimId) (v : Dim) (j : BlockId) : (s.setDim d v).block j = s.block j := rfl
@[simp] theorem State.laneAt_setDim (d : DimId) (v : Dim) (j : LaneId) : (s.setDim d v).laneAt j = s.laneAt j := rfl
@[simp] theorem State.win_setDim (d : DimId) (v : Dim) (j : WinId) : (s.setDim d v).win j = s.win j := rfl
@[simp] theorem State.slot_setDim (d : DimId) (v : Dim) (j : Nat) : (s.setDim d v).slot j = s.slot j := rfl
@[simp] theorem State.stack_setDim (d : DimId) (v : Dim) (j : StackId) : (s.setDim d v).stack j = s.stack j := rfl
@[simp] theorem State.lot_setDim (d : DimId) (v : Dim) (j : Nat) : (s.setDim d v).lot j = s.lot j := rfl
@[simp] theorem State.ideAt_setDim (d : DimId) (v : Dim) (j : Fin 33) : (s.setDim d v).ideAt j = s.ideAt j := rfl
@[simp] theorem State.icAt_setDim (d : DimId) (v : Dim) (j : Nat) : (s.setDim d v).icAt j = s.icAt j := rfl
@[simp] theorem State.dimAt_setDim_same (d : DimId) (v : Dim) : (s.setDim d v).dimAt d = v := by
  simp [State.setDim, State.dimAt]
theorem State.dimAt_setDim_ne (d : DimId) (v : Dim) {j : DimId} (e : j ≠ d) : (s.setDim d v).dimAt j = s.dimAt j := by
  exact Tbl.get_set_ne _ _ _ (fun x => e (Fin.ext x))
@[simp] theorem State.herd_modDim (d : DimId) (f : Dim → Dim) (j : HerdId) : (s.modDim d f).herd j = s.herd j := rfl
@[simp] theorem State.block_modDim (d : DimId) (f : Dim → Dim) (j : BlockId) : (s.modDim d f).block j = s.block j := rfl
@[simp] theorem State.laneAt_modDim (d : DimId) (f : Dim → Dim) (j : LaneId) : (s.modDim d f).laneAt j = s.laneAt j := rfl
@[simp] theorem State.win_modDim (d : DimId) (f : Dim → Dim) (j : WinId) : (s.modDim d f).win j = s.win j := rfl
@[simp] theorem State.slot_modDim (d : DimId) (f : Dim → Dim) (j : Nat) : (s.modDim d f).slot j = s.slot j := rfl
@[simp] theorem State.stack_modDim (d : DimId) (f : Dim → Dim) (j : StackId) : (s.modDim d f).stack j = s.stack j := rfl
@[simp] theorem State.lot_modDim (d : DimId) (f : Dim → Dim) (j : Nat) : (s.modDim d f).lot j = s.lot j := rfl
@[simp] theorem State.ideAt_modDim (d : DimId) (f : Dim → Dim) (j : Fin 33) : (s.modDim d f).ideAt j = s.ideAt j := rfl
@[simp] theorem State.icAt_modDim (d : DimId) (f : Dim → Dim) (j : Nat) : (s.modDim d f).icAt j = s.icAt j := rfl
@[simp] theorem State.dimAt_modDim_same (d : DimId) (f : Dim → Dim) : (s.modDim d f).dimAt d = f (s.dimAt d) := by
  simp [State.modDim, State.setDim, State.dimAt]
theorem State.dimAt_modDim_ne (d : DimId) (f : Dim → Dim) {j : DimId} (e : j ≠ d) : (s.modDim d f).dimAt j = s.dimAt j := by
  exact Tbl.get_set_ne _ _ _ (fun x => e (Fin.ext x))
@[simp] theorem State.herd_setWin (w : WinId) (v : Win) (j : HerdId) : (s.setWin w v).herd j = s.herd j := rfl
@[simp] theorem State.block_setWin (w : WinId) (v : Win) (j : BlockId) : (s.setWin w v).block j = s.block j := rfl
@[simp] theorem State.laneAt_setWin (w : WinId) (v : Win) (j : LaneId) : (s.setWin w v).laneAt j = s.laneAt j := rfl
@[simp] theorem State.dimAt_setWin (w : WinId) (v : Win) (j : DimId) : (s.setWin w v).dimAt j = s.dimAt j := rfl
@[simp] theorem State.slot_setWin (w : WinId) (v : Win) (j : Nat) : (s.setWin w v).slot j = s.slot j := rfl
@[simp] theorem State.stack_setWin (w : WinId) (v : Win) (j : StackId) : (s.setWin w v).stack j = s.stack j := rfl
@[simp] theorem State.lot_setWin (w : WinId) (v : Win) (j : Nat) : (s.setWin w v).lot j = s.lot j := rfl
@[simp] theorem State.ideAt_setWin (w : WinId) (v : Win) (j : Fin 33) : (s.setWin w v).ideAt j = s.ideAt j := rfl
@[simp] theorem State.icAt_setWin (w : WinId) (v : Win) (j : Nat) : (s.setWin w v).icAt j = s.icAt j := rfl
@[simp] theorem State.win_setWin_same (w : WinId) (v : Win) : (s.setWin w v).win w = v := by
  simp [State.setWin, State.win]
theorem State.win_setWin_ne (w : WinId) (v : Win) {j : WinId} (e : j ≠ w) : (s.setWin w v).win j = s.win j := by
  exact Tbl.get_set_ne _ _ _ (fun x => e (Fin.ext x))
@[simp] theorem State.herd_setSlot (n : Nat) (v : Slot) (j : HerdId) : (s.setSlot n v).herd j = s.herd j := rfl
@[simp] theorem State.block_setSlot (n : Nat) (v : Slot) (j : BlockId) : (s.setSlot n v).block j = s.block j := rfl
@[simp] theorem State.laneAt_setSlot (n : Nat) (v : Slot) (j : LaneId) : (s.setSlot n v).laneAt j = s.laneAt j := rfl
@[simp] theorem State.dimAt_setSlot (n : Nat) (v : Slot) (j : DimId) : (s.setSlot n v).dimAt j = s.dimAt j := rfl
@[simp] theorem State.win_setSlot (n : Nat) (v : Slot) (j : WinId) : (s.setSlot n v).win j = s.win j := rfl
@[simp] theorem State.stack_setSlot (n : Nat) (v : Slot) (j : StackId) : (s.setSlot n v).stack j = s.stack j := rfl
@[simp] theorem State.lot_setSlot (n : Nat) (v : Slot) (j : Nat) : (s.setSlot n v).lot j = s.lot j := rfl
@[simp] theorem State.ideAt_setSlot (n : Nat) (v : Slot) (j : Fin 33) : (s.setSlot n v).ideAt j = s.ideAt j := rfl
@[simp] theorem State.icAt_setSlot (n : Nat) (v : Slot) (j : Nat) : (s.setSlot n v).icAt j = s.icAt j := rfl
@[simp] theorem State.slot_setSlot_same (n : Nat) (v : Slot) : (s.setSlot n v).slot n = v := by
  simp [State.setSlot, State.slot]
theorem State.slot_setSlot_ne (n : Nat) (v : Slot) {j : Nat} (e : j ≠ n) : (s.setSlot n v).slot j = s.slot j := by
  exact Tbl.get_set_ne _ _ _ e
@[simp] theorem State.herd_setStack (k : StackId) (v : Stack) (j : HerdId) : (s.setStack k v).herd j = s.herd j := rfl
@[simp] theorem State.block_setStack (k : StackId) (v : Stack) (j : BlockId) : (s.setStack k v).block j = s.block j := rfl
@[simp] theorem State.laneAt_setStack (k : StackId) (v : Stack) (j : LaneId) : (s.setStack k v).laneAt j = s.laneAt j := rfl
@[simp] theorem State.dimAt_setStack (k : StackId) (v : Stack) (j : DimId) : (s.setStack k v).dimAt j = s.dimAt j := rfl
@[simp] theorem State.win_setStack (k : StackId) (v : Stack) (j : WinId) : (s.setStack k v).win j = s.win j := rfl
@[simp] theorem State.slot_setStack (k : StackId) (v : Stack) (j : Nat) : (s.setStack k v).slot j = s.slot j := rfl
@[simp] theorem State.lot_setStack (k : StackId) (v : Stack) (j : Nat) : (s.setStack k v).lot j = s.lot j := rfl
@[simp] theorem State.ideAt_setStack (k : StackId) (v : Stack) (j : Fin 33) : (s.setStack k v).ideAt j = s.ideAt j := rfl
@[simp] theorem State.icAt_setStack (k : StackId) (v : Stack) (j : Nat) : (s.setStack k v).icAt j = s.icAt j := rfl
@[simp] theorem State.stack_setStack_same (k : StackId) (v : Stack) : (s.setStack k v).stack k = v := by
  simp [State.setStack, State.stack]
theorem State.stack_setStack_ne (k : StackId) (v : Stack) {j : StackId} (e : j ≠ k) : (s.setStack k v).stack j = s.stack j := by
  exact Tbl.get_set_ne _ _ _ (fun x => e (Fin.ext x))
@[simp] theorem State.herd_setLot (l : Nat) (v : Lot) (j : HerdId) : (s.setLot l v).herd j = s.herd j := rfl
@[simp] theorem State.block_setLot (l : Nat) (v : Lot) (j : BlockId) : (s.setLot l v).block j = s.block j := rfl
@[simp] theorem State.laneAt_setLot (l : Nat) (v : Lot) (j : LaneId) : (s.setLot l v).laneAt j = s.laneAt j := rfl
@[simp] theorem State.dimAt_setLot (l : Nat) (v : Lot) (j : DimId) : (s.setLot l v).dimAt j = s.dimAt j := rfl
@[simp] theorem State.win_setLot (l : Nat) (v : Lot) (j : WinId) : (s.setLot l v).win j = s.win j := rfl
@[simp] theorem State.slot_setLot (l : Nat) (v : Lot) (j : Nat) : (s.setLot l v).slot j = s.slot j := rfl
@[simp] theorem State.stack_setLot (l : Nat) (v : Lot) (j : StackId) : (s.setLot l v).stack j = s.stack j := rfl
@[simp] theorem State.ideAt_setLot (l : Nat) (v : Lot) (j : Fin 33) : (s.setLot l v).ideAt j = s.ideAt j := rfl
@[simp] theorem State.icAt_setLot (l : Nat) (v : Lot) (j : Nat) : (s.setLot l v).icAt j = s.icAt j := rfl
@[simp] theorem State.lot_setLot_same (l : Nat) (v : Lot) : (s.setLot l v).lot l = v := by
  simp [State.setLot, State.lot]
theorem State.lot_setLot_ne (l : Nat) (v : Lot) {j : Nat} (e : j ≠ l) : (s.setLot l v).lot j = s.lot j := by
  exact Tbl.get_set_ne _ _ _ e
@[simp] theorem State.herd_setIde (k : Fin 33) (v : IdeStream) (j : HerdId) : (s.setIde k v).herd j = s.herd j := rfl
@[simp] theorem State.block_setIde (k : Fin 33) (v : IdeStream) (j : BlockId) : (s.setIde k v).block j = s.block j := rfl
@[simp] theorem State.laneAt_setIde (k : Fin 33) (v : IdeStream) (j : LaneId) : (s.setIde k v).laneAt j = s.laneAt j := rfl
@[simp] theorem State.dimAt_setIde (k : Fin 33) (v : IdeStream) (j : DimId) : (s.setIde k v).dimAt j = s.dimAt j := rfl
@[simp] theorem State.win_setIde (k : Fin 33) (v : IdeStream) (j : WinId) : (s.setIde k v).win j = s.win j := rfl
@[simp] theorem State.slot_setIde (k : Fin 33) (v : IdeStream) (j : Nat) : (s.setIde k v).slot j = s.slot j := rfl
@[simp] theorem State.stack_setIde (k : Fin 33) (v : IdeStream) (j : StackId) : (s.setIde k v).stack j = s.stack j := rfl
@[simp] theorem State.lot_setIde (k : Fin 33) (v : IdeStream) (j : Nat) : (s.setIde k v).lot j = s.lot j := rfl
@[simp] theorem State.icAt_setIde (k : Fin 33) (v : IdeStream) (j : Nat) : (s.setIde k v).icAt j = s.icAt j := rfl
@[simp] theorem State.ideAt_setIde_same (k : Fin 33) (v : IdeStream) : (s.setIde k v).ideAt k = v := by
  simp [State.setIde, State.ideAt]
theorem State.ideAt_setIde_ne (k : Fin 33) (v : IdeStream) {j : Fin 33} (e : j ≠ k) : (s.setIde k v).ideAt j = s.ideAt j := by
  exact Tbl.get_set_ne _ _ _ (fun x => e (Fin.ext x))
@[simp] theorem State.herd_setIc (c : Nat) (v : Ic) (j : HerdId) : (s.setIc c v).herd j = s.herd j := rfl
@[simp] theorem State.block_setIc (c : Nat) (v : Ic) (j : BlockId) : (s.setIc c v).block j = s.block j := rfl
@[simp] theorem State.laneAt_setIc (c : Nat) (v : Ic) (j : LaneId) : (s.setIc c v).laneAt j = s.laneAt j := rfl
@[simp] theorem State.dimAt_setIc (c : Nat) (v : Ic) (j : DimId) : (s.setIc c v).dimAt j = s.dimAt j := rfl
@[simp] theorem State.win_setIc (c : Nat) (v : Ic) (j : WinId) : (s.setIc c v).win j = s.win j := rfl
@[simp] theorem State.slot_setIc (c : Nat) (v : Ic) (j : Nat) : (s.setIc c v).slot j = s.slot j := rfl
@[simp] theorem State.stack_setIc (c : Nat) (v : Ic) (j : StackId) : (s.setIc c v).stack j = s.stack j := rfl
@[simp] theorem State.lot_setIc (c : Nat) (v : Ic) (j : Nat) : (s.setIc c v).lot j = s.lot j := rfl
@[simp] theorem State.ideAt_setIc (c : Nat) (v : Ic) (j : Fin 33) : (s.setIc c v).ideAt j = s.ideAt j := rfl
@[simp] theorem State.icAt_setIc_same (c : Nat) (v : Ic) : (s.setIc c v).icAt c = v := by
  simp [State.setIc, State.icAt]
theorem State.icAt_setIc_ne (c : Nat) (v : Ic) {j : Nat} (e : j ≠ c) : (s.setIc c v).icAt j = s.icAt j := by
  exact Tbl.get_set_ne _ _ _ e
@[simp] theorem State.herd_setStream (d : DimId) (h : HerdId) (v : Stream) (j : HerdId) : (s.setStream d h v).herd j = s.herd j := rfl
@[simp] theorem State.block_setStream (d : DimId) (h : HerdId) (v : Stream) (j : BlockId) : (s.setStream d h v).block j = s.block j := rfl
@[simp] theorem State.laneAt_setStream (d : DimId) (h : HerdId) (v : Stream) (j : LaneId) : (s.setStream d h v).laneAt j = s.laneAt j := rfl
@[simp] theorem State.dimAt_setStream (d : DimId) (h : HerdId) (v : Stream) (j : DimId) : (s.setStream d h v).dimAt j = s.dimAt j := rfl
@[simp] theorem State.win_setStream (d : DimId) (h : HerdId) (v : Stream) (j : WinId) : (s.setStream d h v).win j = s.win j := rfl
@[simp] theorem State.slot_setStream (d : DimId) (h : HerdId) (v : Stream) (j : Nat) : (s.setStream d h v).slot j = s.slot j := rfl
@[simp] theorem State.stack_setStream (d : DimId) (h : HerdId) (v : Stream) (j : StackId) : (s.setStream d h v).stack j = s.stack j := rfl
@[simp] theorem State.lot_setStream (d : DimId) (h : HerdId) (v : Stream) (j : Nat) : (s.setStream d h v).lot j = s.lot j := rfl
@[simp] theorem State.ideAt_setStream (d : DimId) (h : HerdId) (v : Stream) (j : Fin 33) : (s.setStream d h v).ideAt j = s.ideAt j := rfl
@[simp] theorem State.icAt_setStream (d : DimId) (h : HerdId) (v : Stream) (j : Nat) : (s.setStream d h v).icAt j = s.icAt j := rfl

end Sys2Proof.Machine
end

