-- ==== Sys2Proof/Laws/Ops.lean ====
section
/-!
SUPPORT. Laws of the shared operations: once for each, everything that it can change.
-/
namespace Sys2Proof.Machine

/-! ## Only the interrupt controllers change -/

theorem State.onlyIcs.refl (s : State) : State.onlyIcs s s := rfl
theorem State.onlyIcs.trans {s t u : State} (a : State.onlyIcs s t) (b : State.onlyIcs t u) : State.onlyIcs s u := by
  cases s; cases t; cases u; simp [State.onlyIcs] at *; simp [a, b]
theorem State.onlyIcs.of_set (s : State) (c : Nat) (v : Ic) : State.onlyIcs s (s.setIc c v) := rfl

/-- A fold whose every step keeps a reflexive and transitive relation keeps it. -/
theorem foldl_rel {α σ : Type} (R : σ → σ → Prop) (rf : ∀ s, R s s) (tr : ∀ {a b c}, R a b → R b c → R a c)
    (f : σ → α → σ) (h : ∀ s a, R s (f s a)) (l : List α) : (s : σ) → R s (l.foldl f s) := by
  induction l with
  | nil => exact rf
  | cons x r ih => intro s; exact tr (h s x) (ih _)

theorem State.icNote_only (s : State) : State.onlyIcs s s.icNote := by
  unfold State.icNote
  refine foldl_rel _ .refl .trans _ (fun s e => ?_) _ _
  refine foldl_rel _ .refl .trans _ (fun s t => ?_) _ _
  dsimp only
  split
  · exact .of_set _ _ _
  · exact .refl _

theorem State.edge_only (s : State) (c src : Nat) : State.onlyIcs s (s.edge c src) := by
  unfold State.edge
  split
  · exact (State.onlyIcs.of_set _ _ _).trans (State.icNote_only _)
  · exact .refl _

theorem State.latchLevel_only (s : State) (c src : Nat) (v : Bool) : State.onlyIcs s (s.latchLevel c src v) :=
  (State.onlyIcs.of_set _ _ _).trans (State.icNote_only _)

/-- What `onlyIcs` says of a state, as an equation. -/
theorem State.onlyIcs.eq {s t : State} (a : State.onlyIcs s t) : ∃ i, t = { s with ics := i } := by
  refine ⟨t.ics, ?_⟩
  cases s; cases t; simp [State.onlyIcs] at *; simp [a]

theorem State.icNote_eq (s : State) : ∃ i, s.icNote = { s with ics := i } := (State.icNote_only s).eq
theorem State.edge_eq (s : State) (c src : Nat) : ∃ i, s.edge c src = { s with ics := i } := (State.edge_only s c src).eq
theorem State.latchLevel_eq (s : State) (c src : Nat) (v : Bool) : ∃ i, s.latchLevel c src v = { s with ics := i } :=
  (State.latchLevel_only s c src v).eq

/-! ## Only the ring sets change -/

theorem State.onlyRings.refl (s : State) : State.onlyRings s s := ⟨rfl, fun _ => rfl⟩
theorem State.onlyRings.trans {s t u : State} (a : State.onlyRings s t) (b : State.onlyRings t u) :
    State.onlyRings s u := by
  refine ⟨?_, fun h => ?_⟩
  · obtain ⟨a, -⟩ := a
    obtain ⟨b, -⟩ := b
    cases s; cases t; cases u; simp at *; simp [a, b]
  · have x := a.2 h
    have y := b.2 h
    rw [← x, ← y]
theorem State.onlyIcs.rings {s t : State} (a : State.onlyIcs s t) : State.onlyRings s t := by
  obtain ⟨i, rfl⟩ := a.eq
  exact ⟨rfl, fun _ => rfl⟩

theorem State.setRing_only (s : State) (r : RingId) (v : RingSet) : State.onlyRings s (s.setRing r v) := by
  cases r with
  | pf k => exact ⟨rfl, fun _ => rfl⟩
  | vf g =>
    refine ⟨rfl, fun h => ?_⟩
    simp only [State.setRing]
    by_cases e : h = g
    · subst e; simp
    · rw [State.herd_modHerd_ne _ _ _ e]

theorem State.setSrcRing_only (s : State) (o : OrderSrc) (v : RingSet) : State.onlyRings s (s.setSrcRing o v) := by
  cases o with
  | ring r => exact State.setRing_only s r v
  | tahr => exact ⟨rfl, fun _ => rfl⟩

theorem State.hostWrite_only (s : State) (a : Nat) (l : List Byte) : State.onlyRings s (s.hostWrite a l) :=
  ⟨rfl, fun _ => rfl⟩

theorem State.putCpls_only (r : RingId) (l : List Cpl) : (s : State) → State.onlyRings s (s.putCpls r l) := by
  induction l with
  | nil => intro s; exact State.setRing_only _ _ _
  | cons c rest ih =>
    intro s
    unfold State.putCpls
    dsimp only
    split
    · exact ((State.setRing_only _ _ _).trans (State.hostWrite_only _ _ _)).trans (ih _)
    · exact State.setRing_only _ _ _

theorem State.flushCpl_only (s : State) (r : RingId) : State.onlyRings s (s.flushCpl r) := State.putCpls_only _ _ _

theorem State.putEvt_only (s : State) (r : RingId) (e : Evt) : State.onlyRings s (s.putEvt r e) :=
  (State.setRing_only _ _ _).trans (State.hostWrite_only _ _ _)

theorem State.putLost_only (s : State) (r : RingId) : State.onlyRings s (s.putLost r) := by
  unfold State.putLost
  dsimp only
  split
  · exact (State.setRing_only _ _ _).trans (State.putEvt_only _ _ _)
  · exact .refl _

theorem State.offerEvt_only (s : State) (r : RingId) (e : Evt) : State.onlyRings s (s.offerEvt r e) := by
  unfold State.offerEvt
  dsimp only
  split
  · exact State.setRing_only _ _ _
  · split
    · exact State.putEvt_only _ _ _
    · exact State.setRing_only _ _ _

theorem State.flushEvt_only (s : State) (r : RingId) : State.onlyRings s (s.flushEvt r) := by
  unfold State.flushEvt
  dsimp only
  split
  · exact ((State.setRing_only _ _ _).trans (State.putLost_only _ _)).trans
      (foldl_rel State.onlyRings .refl (fun a b => a.trans b) _ (fun s e => State.offerEvt_only _ _ _) _ _)
  · exact .refl _

theorem State.evtPf_only (s : State) (k : Fin 4) (code : BitVec 16) (h : Nat) (p : List Byte) :
    State.onlyRings s (s.evtPf k code h p) := State.offerEvt_only _ _ _

theorem State.evtHerd_only (s : State) (h : HerdId) (code : BitVec 16) (p : List Byte) :
    State.onlyRings s (s.evtHerd h code p) := by
  unfold State.evtHerd
  split
  · exact State.offerEvt_only _ _ _
  · exact .refl _

/-- Metering reports change the meters alone. -/
theorem State.meterFlush_fold (l : List HerdId) : (s : State) →
    ∃ m d, l.foldl State.meterFlush s = { s with meters := m, meterDue := d } := by
  induction l with
  | nil => intro s; exact ⟨_, _, rfl⟩
  | cons h r ih =>
    intro s
    obtain ⟨m, d, e⟩ := ih (s.meterFlush h)
    exact ⟨m, d, by rw [List.foldl_cons, e]; rfl⟩

/-- Completing `FENCE`s changes the ring sets and the meters. -/
theorem State.fenceCheck_only (s : State) (o : OrderSrc) :
    ∃ m d, State.onlyRings { s with meters := m, meterDue := d } (s.fenceCheck o) := by
  unfold State.fenceCheck
  dsimp only
  split
  · obtain ⟨m, d, e⟩ := State.meterFlush_fold ((s.srcRing o).fences.filterMap (·.herd)) s
    rw [e]
    refine ⟨m, d, ?_⟩
    cases o with
    | ring r => exact (State.setSrcRing_only _ _ _).trans (State.flushCpl_only _ _)
    | tahr => exact (State.setSrcRing_only _ _ _).trans (State.setSrcRing_only _ _ _)
  · exact ⟨_, _, .refl _⟩

theorem State.admitOrder_only (s : State) (o : OrderSrc) : State.onlyRings s (s.admitOrder o) := State.setSrcRing_only _ _ _

end Sys2Proof.Machine
end

