-- ==== Sys2Proof/Laws/Power.lean ====
section
/-!
SUPPORT. Laws of the power state and the timebase: everything that `State.setPower` and `State.setTb` do.
-/
namespace Sys2Proof.Machine

/-- Everything that `State.setPower` does. -/
theorem State.setPower_spec (s : State) (p : Power) :
    ∃ b i, s.setPower p = { s with power := { p with slewing := b }, ics := i }
      ∧ (p.effective ≠ s.power.effective → p.supplyMv ≠ vddOf p.effective → b = true)
      ∧ (p.effective = s.power.effective → b = p.slewing) := by
  unfold State.setPower
  dsimp only
  generalize hq : (if (p.effective != s.power.effective) = true then
    { p with slewing := p.slewing || p.supplyMv != vddOf p.effective } else p) = q
  have hq' : ∃ b, q = { p with slewing := b }
      ∧ (p.effective ≠ s.power.effective → p.supplyMv ≠ vddOf p.effective → b = true)
      ∧ (p.effective = s.power.effective → b = p.slewing) := by
    subst hq
    split
    · next h => exact ⟨_, rfl, fun _ h => by simp [h], fun e => by simp [e] at h⟩
    · next h => exact ⟨p.slewing, rfl, fun e => by simp at h; exact absurd h e, fun _ => rfl⟩
  obtain ⟨b, rfl, hb⟩ := hq'
  split
  · obtain ⟨i, e⟩ := State.edge_eq { s with power := { p with slewing := b } } 0 46
    exact ⟨b, i, e, hb⟩
  · exact ⟨b, s.ics, rfl, hb⟩

/-- Everything that `State.setTb` does. -/
theorem State.setTb_spec (s : State) (t : Timebase) : ∃ i, s.setTb t = { s with tb := t, ics := i } := by
  unfold State.setTb
  split
  · exact State.edge_eq { s with tb := t } 0 48
  · exact ⟨s.ics, rfl⟩

/-- An event whose condition holds on a powered unit has its effect. -/
theorem State.ifOnly_next {s : State} {c : Bool} {f : State → State} (g : s.pins.pwrGood = true) (h : c = true) :
    s.ifOnly c f = .next (f s) := by
  simp [State.ifOnly, g, h]

/-- Everything that an event does: its effect where its condition holds on a powered unit, else nothing. -/
theorem State.ifOnly_eq_next {s t : State} {c : Bool} {f : State → State} :
    s.ifOnly c f = .next t ↔ t = if s.pins.pwrGood = true ∧ c = true then f s else s := by
  unfold State.ifOnly
  by_cases g : s.pins.pwrGood = true ∧ c = true
  · simp only [Bool.and_eq_true, g, and_self, if_true, Host.Outcome.next.injEq]
    exact ⟨Eq.symm, Eq.symm⟩
  · simp only [Bool.and_eq_true, g, if_false, Host.Outcome.next.injEq]
    exact ⟨Eq.symm, Eq.symm⟩

end Sys2Proof.Machine
end

