-- ==== Sys2Proof/Tests/Slice0.lean ====
section
/-!
SUPPORT. Tests of slice 0: an ill-formed command for each check of WellFormed, single steps whose results are worked out by
hand from the spec, and for each statement with hypotheses states and operands that meet them, clause by clause
(`test_met_…`), at boundary values where a clause has a range.
-/
namespace Sys2Proof.Tests
open Sys2Proof.Machine

set_option maxRecDepth 20000

/-! ## Small states -/

def pins : Pins := { pwrEn := true, pwrGood := true, perst := false }
def rings : RingSet :=
  { ord := { base := 0x10000, log2 := 4, en := true, idx := 0, door := 0 }
    cpl := { base := 0x20000, log2 := 4, en := true, idx := 3, door := 3, phase := true }
    evt := { base := 0x30000, log2 := 4, en := true, idx := 15, door := 15, phase := true } }
/-- A powered unit with a COMMITTED configuration and Tahr running. -/
def up : State :=
  { pins := pins, cfg := { st := 2 }, linkUp := true, vfEnable := true, numVfs := 32, pfRings := ⟨[(0, rings)]⟩
    tahr := { st := 3 }, addrValid := true, cubeAddr := 0 }
def ref : OrderRef := { src := .ring (.pf 0), tag := 7 }
def sent : Sentence :=
  { det := true, commit := false, sliceJ := 0, beats := 2, beatLimitMs := 10, meas := List.replicate 32 1, clauses := []
    plan := [], routes := [], carryD := 1, reds := [], dcls := [] }
def run0 : Run := { ref := ref, steps := 3, beat0 := 5 }
def herd0 : Herd := { st := .live, groups := 1, span := 0, rings := rings, beatNow := 5, seq := .ready, sentence := some sent }
/-- Herd 0 is LIVE and READY and holds lot 0. -/
def live : State := { up with herds := ⟨[(0, herd0)]⟩, lots := ⟨[(0, { herd := 0, assigned := true })]⟩ }
/-- The run `r` of herd 0 under Sentence `m` is in progress, and its block 0 is `x`. -/
def runs (r : Run) (m : Sentence) (x : Block) : State :=
  { live with herds := ⟨[(0, { herd0 with seq := .running, run := some r, sentence := some m })]⟩, blocks := ⟨[(0, x)]⟩ }
def running : State := runs run0 sent { st := .issue }
def dim0 (e s : Nat) : NounDim := { extM1 := BitVec.ofNat 18 (e - 1), stride := BitVec.ofNat 28 s, lead := 0, tail := 0 }
/-- A Noun in the scratch of block 0: 4 x 4 elements of format `f`. -/
def noun0 (f : BitVec 4) : Noun :=
  { kind := 0, alloc := 0, offset := 0, elem := f, rank := 2, herd := 0, live := true, dims := [dim0 4 8, dim0 4 1] }
def cell0 : VCell := { regs := ⟨[(128, 0x3F800000)]⟩, curs := ⟨[(0, { base := 0, lane := 1, step := 2 })]⟩ }
/-- Block 0, with a few Nouns, generators and lanes, is to issue the verb `v` next, and then the verbs `l`. -/
def atV (v : Verb) (l : List VerbWord := []) : State := runs run0 sent
  { st := .issue, clause := ⟨v, ⟨false, 0⟩⟩ :: l, vcells := ⟨[(0, cell0)]⟩
    nouns := ⟨[(0, noun0 0), (1, { noun0 0 with offset := 4096 }), (2, noun0 1)]⟩
    ags := ⟨[(0, { bound := true, noun := 2, mode := 0, rowDim := 0, colDim := 1 }),
             (1, { bound := true, noun := 2, mode := 1, rowDim := 0, colDim := 1 }),
             (2, { bound := true, noun := 1, mode := 3, rowDim := 0, colDim := 1 }),
             (3, { bound := true, noun := 0, mode := 2, rowDim := 0, colDim := 1 })]⟩ }

theorem up_quiet : up.quiet := by unfold State.quiet; decide
theorem live_quiet : live.quiet := by unfold State.quiet; decide
theorem running_quiet : running.quiet := by unfold State.quiet; decide

/-! ## WellFormed refuses an ill-formed command, check by check -/

def frame0 (n k : Nat) : Frame :=
  { type := 1, herd := 0, last := true, item := 0, offset := 0, counter := 0, payload := List.replicate n 0
    tag := List.replicate k 0, ack := 0, ackV := false, ackHerd := 0 }

theorem test_wf_write_size : (Instr.regWrite .pf .setup 0 5 0 .clear).wf = false := by decide
theorem test_wf_write_align : (Instr.regWrite .pf .setup 4 8 0 .clear).wf = false := by decide
theorem test_wf_write_ok : (Instr.regWrite .pf .setup 8 8 0 .clear).wf = true := by decide
theorem test_wf_data_frame : (Instr.dataFrame 0 (frame0 511 16) []).wf = false := by decide
theorem test_wf_reduce_frame : (Instr.reduceFrame 0 (frame0 512 15)).wf = false := by decide
theorem test_wf_frame_ok : (frame0 512 16).wf = true := by decide
theorem test_wf_key_offer : (Instr.keyOffer 0 false (List.replicate 1567 0) 0 none).wf = false := by decide
theorem test_wf_encap : (Instr.encap 0 [] [] 0).wf = false := by decide
theorem test_wf_confirm : (Instr.confirm 0 [] (List.replicate 31 0) 0).wf = false := by decide
theorem test_wf_join : (Instr.join 0 [] 0 false (List.replicate 33 0) 0 true).wf = false := by decide
theorem test_wf_line_write : (Instr.lineWrite false 0 0 0 60 [1, 2, 3, 4, 5] [] []).wf = false := by decide
theorem test_wf_line_align : (Instr.lineWrite false 0 0 32 0 [] [] []).wf = false := by decide
theorem test_wf_line_read : (Instr.lineRead false 0 0 63 [] []).wf = false := by decide
theorem test_wf_line_ok : (Instr.lineWrite false 0 0 64 60 [1, 2, 3, 4] [] []).wf = true := by decide

def mma0 : MmaOp := { pairs := 3, arrange := 1, aAg := 0, bAg := 1, fmt := 3, lcode := 1, start := 1, mSweep := 1, ksteps := 0 }
def mst0 : MstOp := { pairs := 3, cAg := 2, outFmt := 0, rnd := 0, srStream := 0, keep := 0, scaleAxis := 0, layer := 0 }
def bind0 : AgBindOp := { ag := 0, mode := 0, noun := 0, rowDim := 0, colDim := 1, oob := 0 }
def origin0 : AgOriginOp := { ag := 0, dim0 := 0, dim1 := 1, dim2 := 0, valid := 3, coord0 := 5, coord1 := 7, coord2 := 0 }
def conv0 : AgConvOp := { ag := 3, kh := 2, kw := 2, sh := 1, sw := 1, dh := 1, dw := 1, padT := 1, padL := 0, groups := 0
                          oh := 4, ow := 4, dimN := 0, dimC := 3, dimH := 1, dimW := 2 }
def reg0 : RegOp := { cell := 0, vd := 1, sa := 2, sb := 3, sc := 4, sub := 0, imm := 0 }
def vcvt0 : VcvtOp := { cell := 0, vd := 1, sa := 2, sb := 3, sc := 4, conv := 0, rnd := 0, srStream := 0, layer := 0, cur := 0 }
def vld0 : VldOp := { cell := 0, vd := 1, noun := 0, cur := 0, inc := 1, form := 0 }
def vst0 : VstOp := { cell := 0, sa := 2, noun := 0, cur := 0, inc := 1, form := 0, rnd := 0, srStream := 0, layer := 0, maskEn := 0
                      mreg := 0 }
def vred0 : VredOp := { cell := 0, vd := 1, sa := 2, sb := 3, op := 0 }
def bred0 : BredOp := { dest := 0, vd := 1, sa := 2, op := 0, cells := 15, lanewise := 0 }
def vrng0 : VrngOp := { cell := 0, vd := 1, cur := 0, inc := 1, stream := 3, layer := 4, draw := 5, form := 0 }
def mov0 : MovOp := { src := 0, dst := 1, od0 := 0, od1 := 1, org0 := 0, org1 := 0, scales := 0 }
def setr0 : SetrOp := { offset := 0x180, imm := 1, wide := 0, fromNoun := 0, noun := 0, index := 0 }
def dcoef0 : DcoefOp := { cell := 0, vd := 1, row := 2, checkK := 0, kExpect := 0 }
def i0 : Issue := ⟨false, 0⟩

theorem test_wf_mma : (Instr.mma 0 i0 { mma0 with pairs := 0 }).wf = false := by decide
theorem test_wf_mma_ags : (Instr.mma 0 i0 { mma0 with bAg := 0 }).wf = false := by decide
theorem test_wf_mma_fmt : (Instr.mma 0 i0 { mma0 with fmt := 5 }).wf = false := by decide
theorem test_wf_mma_lcode : (Instr.mma 0 i0 { mma0 with fmt := 1, lcode := 0 }).wf = false := by decide
theorem test_wf_mst : (Instr.mst 0 i0 { mst0 with outFmt := 7 }).wf = false := by decide
theorem test_wf_mst_pairs : (Instr.mst 0 i0 { mst0 with pairs := 0 }).wf = false := by decide
theorem test_wf_mst_rnd : (Instr.mst 0 i0 { mst0 with rnd := 2 }).wf = false := by decide
theorem test_wf_mclr : (Instr.mclr 0 i0 0).wf = false := by decide
theorem test_wf_ag_bind : (Instr.agBind 0 i0 { bind0 with rowDim := 1 }).wf = false := by decide
theorem test_wf_ag_bind_dim : (Instr.agBind 0 i0 { bind0 with colDim := 6 }).wf = false := by decide
theorem test_wf_ag_bind_oob : (Instr.agBind 0 i0 { bind0 with oob := 3 }).wf = false := by decide
theorem test_wf_ag_origin : (Instr.agOrigin 0 i0 { origin0 with valid := 0 }).wf = false := by decide
theorem test_wf_ag_conv : (Instr.agConv 0 i0 { conv0 with dimW := 1 }).wf = false := by decide
theorem test_wf_reg_sub : (Instr.vadd 0 i0 { reg0 with sub := 1 }).wf = false := by decide
theorem test_wf_reg_imm : (Instr.vadd 0 i0 { reg0 with imm := 1 }).wf = false := by decide
theorem test_wf_vcvt : (Instr.vcvt 0 i0 { vcvt0 with conv := 8 }).wf = false := by decide
theorem test_wf_vcvt_rnd : (Instr.vcvt 0 i0 { vcvt0 with rnd := 2 }).wf = false := by decide
theorem test_wf_vld : (Instr.vld 0 i0 { vld0 with form := 4 }).wf = false := by decide
theorem test_wf_vst : (Instr.vst 0 i0 { vst0 with form := 4 }).wf = false := by decide
theorem test_wf_vst_rnd : (Instr.vst 0 i0 { vst0 with rnd := 2 }).wf = false := by decide
theorem test_wf_vred : (Instr.vred 0 i0 { vred0 with op := 6 }).wf = false := by decide
theorem test_wf_bred : (Instr.bred 0 i0 { bred0 with cells := 0 }).wf = false := by decide
theorem test_wf_bred_op : (Instr.bred 0 i0 { bred0 with op := 6 }).wf = false := by decide
theorem test_wf_bred_lanewise : (Instr.bred 0 i0 { bred0 with lanewise := 1, op := 3 }).wf = false := by decide
theorem test_wf_vrng : (Instr.vrng 0 i0 { vrng0 with form := 2 }).wf = false := by decide
theorem test_wf_vrng_draw : (Instr.vrng 0 i0 { vrng0 with draw := 0xFFFF }).wf = false := by decide
theorem test_wf_mov : (Instr.mov 0 i0 { mov0 with od0 := 6 }).wf = false := by decide
theorem test_wf_mov_dim1 : (Instr.mov 0 i0 { mov0 with od1 := 6 }).wf = false := by decide
theorem test_wf_mov_dims : (Instr.mov 0 i0 { mov0 with od1 := 0, org1 := 1 }).wf = false := by decide
theorem test_wf_setr : (Instr.setr 0 i0 { setr0 with offset := 0xF000 }).wf = false := by decide
theorem test_wf_setr_align : (Instr.setr 0 i0 { setr0 with offset := 0x182 }).wf = false := by decide
theorem test_wf_setr_wide : (Instr.setr 0 i0 { setr0 with offset := 0x184, wide := 1 }).wf = false := by decide
theorem test_wf_setr_noun : (Instr.setr 0 i0 { setr0 with noun := 1 }).wf = false := by decide
theorem test_wf_verbs_ok : [Verb.mma mma0, .mst mst0, .agBind bind0, .agOrigin origin0, .agConv conv0, .reg .vadd reg0, .vcvt vcvt0,
    .vld vld0, .vst vst0, .vred vred0, .bred bred0, .vrng vrng0, .mov mov0, .setr setr0].all verbOk = true := by decide

/-! ## Single steps, with results worked out from the spec -/

/-- An empty queue: the timebase of a powered unit counts 1 ns (R45). -/
theorem test_idle_counts : ∃ t, step up = .next t ∧ t.tb.now = 1 := ⟨_, rfl, by decide⟩
/-- The command at the front runs and the rest waits: QUERY answers OK (Table 17.3). -/
theorem test_step_front : ∃ t, step { up with pending := [.query, .slewDone] } = .next t ∧ t.pending = [.slewDone] :=
  ⟨_, rfl, by decide⟩
/-- 2000 W against a limit of 1000 W: the power duty falls by 6 points (R31). -/
theorem test_governor_throttles :
    ∃ t, exec (.governorEval 2000 6000) { up with power := { up.power with limitW := 1000 } } = .next t
      ∧ t.power.powerDuty = 94 := ⟨_, rfl, by decide⟩
/-- 949 W is below 95 % of 1000 W; the duty rises by 3 points and stops at 100 % (R31). -/
theorem test_governor_recovers :
    ∃ t, exec (.governorEval 949 6000) { up with power := { up.power with limitW := 1000, powerDuty := 98 } } = .next t
      ∧ t.power.powerDuty = 100 := ⟨_, rfl, by decide⟩
/-- A sync 51 ns away steps a unit without a herd to the head's time (Table 01.9). -/
theorem test_sync_steps :
    ∃ t, exec (.tbSyncReceive 1000 51 none) { up with tb := { up.tb with light := true, mode := .locked, now := 949 } } = .next t
      ∧ t.tb.now = 1000 := ⟨_, rfl, by decide⟩
/-- Lane 0 of a register of FP32 1.0 plus 1.0 is 2.0 (R153). -/
theorem test_vadd : ∃ t, exec (.vadd 0 i0 { reg0 with sb := 2 }) (atV (.reg .vadd { reg0 with sb := 2 })) = .next t
    ∧ ((t.block 0).vcell 0).lane 1 0 = 0x40000000 := ⟨_, rfl, by decide⟩
/-- MCLR leaves a pair without an accumulation (R100). -/
theorem test_mclr : ∃ t, exec (.mclr 0 i0 1) ((atV (.mclr 1)).modBlock 0 fun x =>
      x.setPair 0 { acc := some { fmt := 3, lcode := 1, arrange := 1, mSweep := 1, set := 3, gridRow := 0, gridCol := 0, kCount := 4 } })
      = .next t ∧ ((t.block 0).pair 0).acc = none := ⟨_, rfl, by decide⟩
/-- A doorbell of N = 16 moves nothing and sets RING_ERR (R338). -/
theorem test_doorbell_too_big : ∃ t, exec (.ordTail (.pf 0) 16 []) up = .next t ∧ (t.ring (.pf 0)).ringErr = true
    ∧ (t.ring (.pf 0)).ord.door = 0 := ⟨_, rfl, by decide⟩
/-- A doorbell of 3 is the ring's new tail (R338). -/
theorem test_doorbell : ∃ t, exec (.ordTail (.pf 0) 3 []) up = .next t ∧ (t.ring (.pf 0)).ord.door = 3 := ⟨_, rfl, by decide⟩
/-- A lane in TRAIN that locks goes to PROBE (Table 09.6). -/
theorem test_lane_lock : ∃ t, exec (.laneLock 0) { up with lanes := ⟨[(0, { st := .train, dim := 0 })]⟩ } = .next t
    ∧ (t.laneAt 0).st = .probe := ⟨_, rfl, by decide⟩
/-- Without an eligible source a claim reads 0 (R457). -/
theorem test_claim_nothing : ∃ t, exec (.icClaim .chip 0) { up with reply := [1] } = .next t ∧ t.reply = [0, 0, 0, 0] :=
  ⟨_, rfl, by decide⟩
/-- A rail fault turns the rails off and records cause 5 (R499). -/
theorem test_rail_fault : ∃ t, exec .railFault up = .next t ∧ t.pins.pwrGood = false ∧ t.serow.trips = [5] :=
  ⟨_, rfl, by decide⟩
/-- HERD_REVOKE takes a LIVE herd to REVOKING (R369). -/
theorem test_revoke : ∃ t, exec (.herdRevoke (.ring (.pf 0)) 0 9) live = .next t ∧ (t.herd 0).st = .revoking :=
  ⟨_, rfl, by decide⟩
/-- A copy of an absent herd is refused `CFG_INVALID` (R343). -/
theorem test_copy_absent_herd : ∃ t, exec (.copyOrder (.ring (.pf 0)) 1 9 0 0 64 false false) live = .next t ∧ t.copies = [] :=
  ⟨_, rfl, by decide⟩
/-- HOT is set above 85 degrees (R71). -/
theorem test_hot : ∃ t, exec (.hbmHotEnter 0 86) up = .next t ∧ (t.stack 0).hot = true := ⟨_, rfl, by decide⟩
/-- 100,000 µF at 54 V against 1,800 W hold up for 247 units of 100 µs (R500). -/
theorem test_holdup : ∃ t, exec (.holdupMeasure 5400 1800) { up with serow := { up.serow with cHold := 100000000 } } = .next t
    ∧ t.serow.holdup = 247 := ⟨_, rfl, by decide⟩

/-- Line 63 of local page 33: channel (63 + 33) mod 32, the second pseudo-channel (R68). -/
theorem test_hbm_channel : hbmChannel (linBase + 33 * 4096 + 63 * 64) = (0, 1) := by decide
/-- Along the source's row first, then along the destination's column (R21). -/
theorem test_mesh_path : meshPath (2, 0) (0, 2) = [(2, 0), (2, 1), (2, 2), (1, 2), (0, 2)] := by decide

/-! ## The statements' hypotheses are met, clause by clause -/

theorem test_met_StepRunsFrontCommand : { up with pending := [.query] }.pending = .query :: [] := rfl

/-- `up` with the timebase `b`. -/
def timed (b : Timebase) : State := { up with tb := b }
theorem test_met_TimebaseAndStringFollow :
    (up.pending = [] ∧ up.pins.pwrGood = true ∧ up.tb.slewNs = 0) ∧ State.reset.pins.pwrGood = false
    ∧ (let s := { up with cfg := { st := 1 } }
       s.pending = [] ∧ s.pins.pwrGood = true ∧ s.cfg.st = 1)
    ∧ (let s := timed { slewNs := 1, slewPhase := 9998 }
       s.pins.pwrGood = true ∧ s.tb.slewNs ≠ 0 ∧ s.tb.slewPhase < 9999)
    ∧ (let s := timed { slewNs := 1, slewPhase := 9999 }
       s.pins.pwrGood = true ∧ 0 < s.tb.slewNs ∧ 9999 ≤ s.tb.slewPhase)
    ∧ (let s := timed { slewNs := -1, slewPhase := 9999 }
       s.pins.pwrGood = true ∧ s.tb.slewNs < 0 ∧ 9999 ≤ s.tb.slewPhase)
    ∧ (∀ m ∈ [TbMode.free, .locked, .adrift], let s := timed { light := true, mode := m }
       s.pins.pwrGood = true ∧ s.tb.light = true ∧ s.tb.mode ≠ .master ∧ s.anyHerd = false ∧ s.cfg.st = 2)
    ∧ (let s := { live with tb := { live.tb with light := true, mode := .locked } }
       s.pins.pwrGood = true ∧ s.tb.light = true ∧ s.tb.mode ≠ .master ∧ s.anyHerd = true)
    ∧ (-50 ≤ (-50 : W64).toInt ∧ (50 : W64).toInt ≤ 50 ∧ (-51 : W64).toInt < -50 ∧ 50 < (51 : W64).toInt)
    ∧ (let s := { timed { light := true, mode := .free } with cfg := {} }
       s.cfg.st ≠ 2 ∧ s.tb.stringFault = false ∧ (30 : BitVec 5) ≠ 31)
    ∧ (let s := timed { light := true, stringFault := true, beacon := none }
       s.pins.pwrGood = true ∧ s.tb.stringFault = true ∧ s.tb.light = true ∧ s.tb.beacon = none)
    ∧ (let s := { up with pins := { pins with bootSrcString := true }, tahr := { st := 1 } }
       s.pins.pwrGood = true ∧ s.tb.light ≠ true ∧ s.pins.bootSrcString = true ∧ s.tahr.st = 1)
    ∧ (let s := { up with tahr := { st := 4, fail := 9 } }
       s.pins.pwrGood = true ∧ s.tahr.st = 4 ∧ s.tahr.fail = 9)
    ∧ (up.tb.light ≠ true ∧ (timed { light := true }).tb.light ≠ false)
    ∧ (up.regOpen .pf .setup .active = true ∧ (timed { mode := .master }).anyHerd = false ∧ (timed { mode := .master }).tb.mode = .master)
    ∧ (live.anyHerd = true ∧ (1 : W64) ≠ live.tb.now ∧ (0 : W64) = live.tb.now) := by decide

/-- `up` with the power state `p`. -/
def powered (p : Power) : State := { up with power := p }
theorem test_met_GovernorMovesItsTwoLoops :
    (let limit := min (100 * (powered { limitW := 1200 }).power.limitW.toNat) (72 * 6000)
     limit < 100 * 1201 ∧ 100 * (100 * 1139) < 95 * limit ∧ 95 * limit ≤ 100 * (100 * 1140) ∧ 100 * 1200 ≤ limit)
    ∧ (let s := powered { powerPoint := 1, powerDuty := 74 }
       s.pins.pwrGood = true ∧ s.power.powerDuty < 75 ∧ s.power.powerPoint ≠ 0)
    ∧ (powered { powerPoint := 0 }).power.powerPoint = 0
    ∧ (let s := powered { point := 1, powerPoint := 1 }
       ¬ s.power.powerPoint < s.power.point)
    ∧ (let s := powered { point := 3, powerPoint := 0, inputW := 0xFFF, p56 := 6000, limitW := 1200 }
       s.power.powerPoint < s.power.point ∧ s.power.roomAbove = false)
    ∧ (let s := powered { point := 3, powerPoint := 0, inputW := 0, p56 := 6000, limitW := 1200 }
       s.power.powerPoint < s.power.point ∧ s.power.roomAbove = true)
    ∧ (powered { slewing := true }).power.slewing = true
    ∧ (powered { thermalPoint := 1 }).power.thermalPoint ≠ 0 ∧ (powered { thermalPoint := 0 }).power.thermalPoint = 0
    ∧ (powered { thermalDuty := 99 }).power.thermalDuty < 100
    ∧ (let s := powered { thermalDuty := 100, thermalPoint := 2, point := 3 }
       100 ≤ s.power.thermalDuty ∧ s.power.thermalPoint < s.power.point)
    ∧ (let s := powered { thermalDuty := 100, thermalPoint := 3, point := 3 }
       100 ≤ s.power.thermalDuty ∧ ¬ s.power.thermalPoint < s.power.point) := by decide

theorem test_met_RegisterWordsAreHeldAndLatched :
    State.reset.regOpen .pf .setup .clear = false ∧ up.regOpen .pf .setup .active = true
    ∧ (live.regOpen (.vf 0) (.window 0) .clear = true ∧ live.frozen (.vf 0) (.window 0) = false)
    ∧ (let s := { live with herds := ⟨[(0, { herd0 with st := .revoking })]⟩ }
       s.regOpen (.vf 0) (.window 0) .clear = true ∧ s.frozen (.vf 0) (.window 0) = true)
    ∧ chipPart (.rcRow 0 0) = true
    ∧ (let s := { up with cfg := { st := 1 } }
       s.regOpen .pf .setup .clear = true
       ∧ ((s.regAt .pf .setup 0x1_0280).map fun r => (r.wide, r.img && s.cfg.st == 1)) = some (false, true))
    ∧ (4 % 4 = 0 ∧ up.regAt .pf .setup 0x1F_FFFC = none) ∧ onlyWords .doors 0x3FF8 = true
    ∧ ((up.regAt .pf .setup 0x5_0000).map fun r => (r.wide, r.off)) = some (true, 0x5_0000)
    ∧ ((up.regAt .pf .setup 0x5_0004).map fun r => (r.wide, r.off)) = some (true, 0x5_0000)
    ∧ ((up.regAt .pf .setup 0x3_0008).map fun r => !r.wide && r.fields.all fun f => f.acc == .ro) = some true
    ∧ ((up.regAt .pf .setup 0x1_0280).map fun r => !r.wide && !r.fields.all fun f => f.acc == .ro) = some true := by decide

/-- Herd 0 is LIVE with the fields that `f` gives it. -/
def herdIs (f : Herd → Herd) : State := { live with herds := ⟨[(0, f herd0)]⟩ }
theorem test_met_WeightAndPointRegistersTakeTheirFields :
    (up.regOpen .pf .setup .active = true ∧ up.cfg.st ≠ 1 ∧ up.cfg.st = 2) ∧ ({ up with cfg := {} } : State).cfg.st ≠ 2
    ∧ (0x100 : W64).toNat % 256 = 0 ∧ (1 : W64).toNat % 256 ≠ 0
    ∧ (∀ w ∈ [1200, 3600], 1200 ≤ w * 16 / 16 % 4096 ∧ w * 16 / 16 % 4096 ≤ 3600)
    ∧ 1199 * 16 / 16 % 4096 < 1200 ∧ 3600 < 3601 * 16 / 16 % 4096
    ∧ (let s := powered { point := 3 }
       ({ s.power with point := 0 } : Power).effective ≠ s.power.effective)
    ∧ ({ up.power with limitW := 1200 } : Power).effective = up.power.effective := by decide

/-- `up` before its configuration is committed, with its string position known and every HBM stack trained. -/
def ready : State := { up with cfg := {}, tb := { posValid := true, mode := .master }, dimEn := 0x7FFF,
                               hbm := ⟨(List.range 12).map fun k => (k, { st := 1 })⟩ }
theorem test_met_CommitAndLaneControls :
    ready.regOpen .pf .setup .active = true ∧ ready.cfg.st ≠ 1 ∧ ready.cfg.st ≠ 2 ∧ up.cfg.st = 2
    ∧ ({ ready with tahr := {} } : State).cfgCheck 0 = some (0x30, 0x5_0200, 0)
    ∧ ({ ready with hbm := {} } : State).cfgCheck 0 = some (0x31, 0x4_0000, 0)
    ∧ (up.laneInfo 0).2.2 = true ∧ (up.laneAt 0).disable = false
    ∧ (let s := { up with lanes := ⟨[(0, { st := .test, dim := 0 })]⟩ }
       (s.laneAt 0).st = .test ∧ true ≠ (s.laneAt 0).disable ∧ (s.laneAt 0).disable = false ∧ (s.laneAt 1).spare = false)
    ∧ (let s := { up with lanes := ⟨[(0, { st := .dark, dim := 0, disable := true })]⟩ }
       (s.laneAt 0).disable = true ∧ (s.laneAt 0).st = .dark ∧ s.cfg.st = 2 ∧ (s.laneInfo 0).2.2 = true) := by decide

theorem test_met_StageAndLedgerRegistersAreGuarded :
    (live.regOpen (.vf 0) (.window 0) .active = true ∧ (live.herd 0).st = .live ∧ (live.herd 0).busy = false)
    ∧ (1 <<< 48 : W64).getLsbD 48 = true ∧ (0 : W64).getLsbD 48 = false
    ∧ (let s := herdIs fun x => { x with ledgerCount := 3 }
       (3 : W32).toNat % 2 ^ 20 ≤ (s.herd 0).ledgerCount.toNat ∧ (s.herd 0).ledgerCount.toNat < (4 : W32).toNat % 2 ^ 20)
    ∧ (running.regOpen (.vf 0) (.window 0) .active = true ∧ (running.herd 0).st = .live ∧ (running.herd 0).busy = true
      ∧ (1 : W32).toNat % 2 ^ 20 ≠ (running.herd 0).ledgerCount.toNat
      ∧ (0 : W32).toNat % 2 ^ 20 = (running.herd 0).ledgerCount.toNat) := by decide

/-- A pair that holds an accumulation of format `f`, and the `MMA` that it runs. -/
def openPair (f : BitVec 4) : Pair :=
  { acc := some { fmt := f, lcode := 1, arrange := 1, mSweep := 1, set := 3, gridRow := 0, gridCol := 0, kCount := 4 }, sat0 := 1 }
def mmaRun0 (o : MmaOp) : MmaRun :=
  { op := o, seg := 0, m0 := 0, kA := 0, kB := 0, n0 := 0, group := 0, inGroup := false, row := 0, offer := none, acks := 0
    nextFull := false }
theorem test_met_VerbsIssueInClauseOrder :
    up.atVerb 0 ⟨.bend 0, i0⟩ = none
    ∧ ((atV (.mclr 1) [⟨.bend 0, i0⟩]).atVerb 0 ⟨.mclr 1, ⟨false, 0⟩⟩ = some 0)
    ∧ (let s := (atV (.mst mst0)).modBlock 0 fun x => x.setPair 0 { run := some (mmaRun0 mma0) }
       s.atVerb 0 ⟨.mst mst0, i0⟩ = some 0 ∧ s.verbHeld 0 (.mst mst0) = true)
    ∧ ((atV (.agBind { bind0 with noun := 9 })).canIssue 0 0 ⟨.agBind { bind0 with noun := 9 }, i0⟩
      ∧ ((atV (.agBind { bind0 with noun := 9 })).runVerb 0 0 (.agBind { bind0 with noun := 9 })).2 ≠ stOK)
    ∧ ((atV (.agBind bind0)).canIssue 0 0 ⟨.agBind bind0, i0⟩ ∧ ((atV (.agBind bind0)).runVerb 0 0 (.agBind bind0)).2 = stOK)
    ∧ ((atV (.mma mma0)).canIssue 0 0 ⟨.mma mma0, i0⟩ ∧ (atV (.mma mma0)).verbRefused 0 0 (.mma mma0))
    ∧ ((running.herd 0).run = some run0 ∧ (running.block 0).st ≠ .idle) := by
  unfold State.canIssue State.verbRefused; (repeat' apply And.intro) <;> decide

theorem test_met_MatrixVerbsSetGeneratorsAndPairs :
    (let o := { mma0 with fmt := 2 }
     (atV (.mma o)).canIssue 0 0 ⟨.mma o, i0⟩ ∧ (atV (.mma o)).mmaOk 0 o = true ∧ o.start = 1
     ∧ o.pairs.getLsbD 0 = true ∧ o.pairs.getLsbD 2 = false)
    ∧ (let o := { mma0 with fmt := 2, start := 0 }
       let s := (atV (.mma o)).modBlock 0 fun x => (x.setPair 0 (openPair 2)).setPair 1 (openPair 2)
       s.canIssue 0 0 ⟨.mma o, i0⟩ ∧ s.mmaOk 0 o = true ∧ o.start ≠ 1)
    ∧ ((atV (.mma mma0)).canIssue 0 0 ⟨.mma mma0, i0⟩ ∧ (atV (.mma mma0)).mmaOk 0 mma0 = false)
    ∧ (atV (.mclr 1)).canIssue 0 0 ⟨.mclr 1, i0⟩
    ∧ ((atV (.agBind bind0)).canIssue 0 0 ⟨.agBind bind0, i0⟩
      ∧ ((atV (.agBind bind0)).nounAt 0 bind0.noun).map (fun n => n.rank.toNat) = some 2
      ∧ bind0.rowDim.toNat < 2 ∧ bind0.colDim.toNat < 2)
    ∧ (let o := { bind0 with noun := 9 }
       (atV (.agBind o)).canIssue 0 0 ⟨.agBind o, i0⟩ ∧ (atV (.agBind o)).nounAt 0 o.noun = none)
    ∧ (let o := { bind0 with colDim := 2 }
       (atV (.agBind o)).canIssue 0 0 ⟨.agBind o, i0⟩ ∧ o.mode ≠ 2
       ∧ ((atV (.agBind o)).nounAt 0 o.noun).map (fun n => decide (n.rank.toNat ≤ o.colDim.toNat)) = some true)
    ∧ ((atV (.agOrigin origin0)).canIssue 0 0 ⟨.agOrigin origin0, i0⟩
      ∧ (let a := ((atV (.agOrigin origin0)).block 0).ag origin0.ag
         a.bound = true ∧ (atV (.agOrigin origin0)).nounAt 0 a.noun = some (noun0 1)
         ∧ ∀ e ∈ originSlots origin0, if 6 ≤ e.1 then a.mode = 2 else e.1 < (noun0 1).rank.toNat))
    ∧ (let s := (atV (.agOrigin origin0)).modBlock 0 fun x => { x with ags := {} }
       s.canIssue 0 0 ⟨.agOrigin origin0, i0⟩ ∧ ((s.block 0).ag 0).bound = false)
    ∧ (let o := { conv0 with dimN := 0, dimC := 1, dimH := 1, dimW := 0 }
       (atV (.agConv o)).canIssue 0 0 ⟨.agConv o, i0⟩
       ∧ (let a := ((atV (.agConv o)).block 0).ag o.ag
          a.bound = true ∧ a.mode = 2 ∧ (atV (.agConv o)).nounAt 0 a.noun = some (noun0 0)
          ∧ o.dimC.toNat < (noun0 0).rank.toNat ∧ o.dimW.toNat < (noun0 0).rank.toNat
          ∧ ((atV (.agConv o)).piece (noun0 0)).loc.getD o.dimC.toNat 0 % (o.groups.toNat + 1) = 0))
    ∧ (let o := { conv0 with ag := 0 }
       (atV (.agConv o)).canIssue 0 0 ⟨.agConv o, i0⟩ ∧ (((atV (.agConv o)).block 0).ag 0).mode ≠ 2) := by
  unfold State.canIssue; (repeat' apply And.intro) <;> decide

/-- Pair 0 of block 0 runs the `MMA` `r` on an accumulation of BF16. -/
def mmaAt (r : MmaRun) : State := (atV (.mclr 1)).modBlock 0 fun x => x.setPair 0 { openPair 2 with run := some r }
def mmaBf : MmaOp := { mma0 with fmt := 2 }
theorem test_met_PairsWalkAndAccumulate :
    (let r := { mmaRun0 mmaBf with nextFull := true }
     (mmaAt r).mmaRun 0 0 = some r ∧ r.inGroup = false ∧ r.nextFull = true ∧ r.group ≤ r.op.ksteps.toNat)
    ∧ (let r := { mmaRun0 mmaBf with inGroup := true }
       let s := mmaAt r
       s.mmaRun 0 0 = some r ∧ r.offer = none ∧ s.nounAt 0 ((s.block 0).ag r.op.aAg).noun = some (noun0 1)
       ∧ (s.fetchGroup ((s.block 0).ag r.op.aAg) (s.piece (noun0 1)) (fmtG r.op.fmt) (r.m0 + r.row)
           (r.kA + (r.group * fmtG r.op.fmt : Nat))).2.1 = stOK)
    ∧ (∀ n ∈ [0, 1], let r := { mmaRun0 mmaBf with inGroup := true, acks := BitVec.allOnes 128, row := n }
       (mmaAt r).mmaRun 0 0 = some r ∧ (r.row < r.op.mSweep.toNat ∨ r.op.mSweep.toNat ≤ r.row) ∧ (mmaAt r).owner 0 = some 0)
    ∧ (let r := mmaRun0 mmaBf
       let s := mmaAt r
       s.mmaRun 0 0 = some r ∧ r.nextFull = false ∧ r.fillGroup ≤ r.op.ksteps.toNat
       ∧ s.nounAt 0 ((s.block 0).ag r.op.bAg).noun = some (noun0 1)
       ∧ (State.fillLanes ((s.block 0).ag r.op.bAg) (s.piece (noun0 1)) (fmtG r.op.fmt) r.n0
           (r.kB + (r.fillGroup * fmtG r.op.fmt : Nat)) 128 0 {} s).2.1 = stOK)
    ∧ (let r := { mmaRun0 mmaBf with group := 1 }
       let s := mmaAt r
       s.mmaRun 0 0 = some r ∧ r.inGroup = false ∧ r.op.ksteps.toNat < r.group ∧ r.op.aAg ≠ r.op.bAg
       ∧ ∀ q, q ≠ (0 : PairId) → ((s.block 0).pair q).run = none)
    ∧ (∀ k ∈ [0, 8], let r := { mmaRun0 mmaBf with inGroup := true, offer := some { data := 0, scale := 127 } }
       let s := (mmaAt r).modBlock 0 fun x => x.setPair 0 { x.pair 0 with acc := (openPair 2).acc.map fun a => { a with kCount := k } }
       s.mmaRun 0 0 = some r ∧ r.acks.getLsbD 127 = false ∧ fmtInt r.op.fmt = false ∧ chunkLen 1 = 32)
    ∧ fmtInt 3 = true := by
  (repeat' apply And.intro) <;> decide

theorem test_met_MatrixStoreWritesItsTiles :
    (let s := (atV (.mst mst0)).modBlock 0 fun x => (x.setPair 0 (openPair 2)).setPair 1 (openPair 2)
     let n := { noun0 0 with offset := 4096 }
     s.canIssue 0 0 ⟨.mst mst0, i0⟩ ∧ s.nounAt 0 ((s.block 0).ag mst0.cAg).noun = some n
     ∧ s.mstOk 0 0 mst0 ((s.block 0).ag mst0.cAg) n = true ∧ (s.runMst 0 0 mst0).2 = stOK ∧ n.scaled = false
     ∧ 8 ≤ elemBits n.elem ∧ mst0.pairs.getLsbD 1 = true ∧ mst0.pairs.getLsbD 2 = false ∧ mst0.keep ≠ 1)
    ∧ (let o := { mst0 with pairs := 1, keep := 1 }
       let s := (atV (.mst o)).modBlock 0 fun x => x.setPair 0 (openPair 2)
       let n := { noun0 0 with offset := 4096 }
       s.canIssue 0 0 ⟨.mst o, i0⟩ ∧ s.nounAt 0 ((s.block 0).ag o.cAg).noun = some n
       ∧ s.mstOk 0 0 o ((s.block 0).ag o.cAg) n = true ∧ (s.runMst 0 0 o).2 = stOK ∧ o.keep = 1
       ∧ (tileCoords ((s.block 0).ag o.cAg) (s.piece n) ((openPair 2).acc.getD
           { fmt := 0, lcode := 0, arrange := 0, mSweep := 0, set := 0, gridRow := 0, gridCol := 0, kCount := 0 })).any (fun e =>
             (s.piece n).valid e.1 && match s.place ((s.piece n).addr e.1) with | .scratch 0 _ => true | _ => false) = true)
    ∧ (∀ e ∈ [3, 5], let o := { mst0 with pairs := 1, outFmt := BitVec.ofNat 4 e }
       let n := { noun0 (BitVec.ofNat 4 e) with offset := 4096, scale := 1, sdim := 1, sofs := 8192, dims := [dim0 1 32, dim0 32 1] }
       let s := (atV (.mst o)).modBlock 0 fun x =>
         { x.setPair 0 (openPair 2) with nouns := x.nouns.set {} 1 n }
       s.canIssue 0 0 ⟨.mst o, i0⟩ ∧ s.nounAt 0 ((s.block 0).ag o.cAg).noun = some n
       ∧ s.mstOk 0 0 o ((s.block 0).ag o.cAg) n = true ∧ (s.runMst 0 0 o).2 = stOK ∧ n.scaled = true
       ∧ (elemFmt n.elem).isSome = true) := by
  unfold State.canIssue; (repeat' apply And.intro) <;> decide

/-- A register verb can issue, whatever its function. -/
theorem test_met_RegisterVerbsTouchOneRegister :
    ∀ f ∈ [RegFn.vadd, .vmul, .vrcp, .vexp2, .vcmp, .vand, .viadd, .vexpadd, .vpadd, .vmov, .vsplat, .vargmax, .vgetf, .vclrf],
      (atV (.reg f reg0)).canIssue 0 0 ⟨.reg f reg0, i0⟩ ∧ reg0.vd ≠ reg0.sc := by
  unfold State.canIssue; decide

/-- The lane of a register holds 1.0, so the hypotheses about numbers are met; the special operands are words of their own. -/
theorem test_met_FloatVerbsFollowTheirRules :
    (∀ f ∈ [RegFn.vadd, .vsub, .vmul, .vfma, .vfnma, .vdivs, .vldexp, .vabs, .vneg, .vrcp, .vrsqrt, .vexp2, .vlog2],
      (atV (.reg f reg0)).canIssue 0 0 ⟨.reg f reg0, i0⟩)
    ∧ (0x3F800000 : W32) = BitVec.ofInt 32 ((0 + 127) * 2 ^ 23) ∧ ¬((0x3F800000 : W32).toNat / 2 ^ 23 % 256 = 255)
    ∧ (0x7F800001 : W32).toNat / 2 ^ 23 % 256 = 255 ∧ (0x7F800001 : W32).toNat % 2 ^ 23 ≠ 0
    ∧ ((f32 0x7F800000).add (f32 0xFF800000)).2 = true ∧ (0x80000000 : W32).toNat < (0x80000001 : W32).toNat := by
  unfold State.canIssue; (repeat' apply And.intro) <;> decide

theorem test_met_IntegerAndMoveVerbsLaneByLane :
    (∀ f ∈ [RegFn.vand, .vor, .vxor, .vshl, .vsrl, .vsra, .viadd, .visub, .vimul, .vimax, .vimin, .vsel, .vmov, .vlimm, .vlane,
        .vexpadd, .vmax, .vmin, .vcmp], (atV (.reg f reg0)).canIssue 0 0 ⟨.reg f reg0, i0⟩)
    ∧ (∀ k, k < 7 → ((BitVec.ofNat 6 (8 * k)).extractLsb' 3 3).toNat = k)
    ∧ (0xFF : W32).toNat % 256 = 255 ∧ (0xFE : W32).toNat % 256 ≠ 255 := by
  unfold State.canIssue; (repeat' apply And.intro) <;> decide

theorem test_met_PackedArgAndFlagVerbs :
    (∀ f ∈ [RegFn.vpadd, .vpmul, .vpfma, .vsplat, .vgetf, .vclrf, .vargmax, .vargmin],
      (atV (.reg f reg0)).canIssue 0 0 ⟨.reg f reg0, i0⟩) ∧ reg0.vd ≠ reg0.sc := by
  unfold State.canIssue; (repeat' apply And.intro) <;> decide

theorem test_met_ReductionsCombineInTreeOrder :
    (∀ k ∈ [0, 1, 2, 3, 4, 5], (atV (.vred { vred0 with op := k })).canIssue 0 0 ⟨.vred { vred0 with op := k }, i0⟩)
    ∧ (∀ o ∈ [bred0, { bred0 with cells := 0b1011 }, { bred0 with lanewise := 1 }, { bred0 with op := 1, cells := 0b0011 },
        { bred0 with cells := 0b0100 }],
        (atV (.bred o)).canIssue 0 0 ⟨.bred o, i0⟩) := by
  unfold State.canIssue; (repeat' apply And.intro) <;> decide

theorem test_met_RandomCursorAndBeatEndVerbs :
    (∀ o ∈ [vrng0, { vrng0 with form := 1 }], (atV (.vrng o)).canIssue 0 0 ⟨.vrng o, i0⟩)
    ∧ (let o : RseedOp := { stream := 3, seed := 5 }
       (atV (.rseed o)).canIssue 0 0 ⟨.rseed o, i0⟩)
    ∧ (let o : VcurOp := { cell := 0, cur := 1, base := 4, lane := 1, step := 64 }
       (atV (.vcur o)).canIssue 0 0 ⟨.vcur o, i0⟩)
    ∧ (atV (.bend 15)).canIssue 0 0 ⟨.bend 15, i0⟩ := by
  unfold State.canIssue; (repeat' apply And.intro) <;> decide

theorem test_met_ConversionsRoundAsSelected :
    ∀ k ∈ [0, 1, 2, 3, 4, 5, 6, 7], (atV (.vcvt { vcvt0 with conv := k })).canIssue 0 0 ⟨.vcvt { vcvt0 with conv := k }, i0⟩
      ∧ Fmt.bf16.decode (0x3F80 : W32).toNat ≠ .nan := by
  unfold State.canIssue; decide

theorem test_met_LoopRepeatsItsBody :
    let o : VloopOp := { cell := 0, count := 2, body := 0 }
    let s := atV (.vloop o) [⟨.reg .vadd reg0, i0⟩]
    s.canIssue 0 0 ⟨.vloop o, i0⟩ ∧ (s.block 0).loopBody o = [⟨.reg .vadd reg0, i0⟩] := by
  unfold State.canIssue; (repeat' apply And.intro) <;> decide

theorem test_met_LoadFillsLanesInBounds :
    (let s := atV (.vld vld0)
     let cur := ((s.block 0).vcell vld0.cell).cursor vld0.cur
     let p := s.piece (noun0 0)
     s.canIssue 0 0 ⟨.vld vld0, i0⟩ ∧ s.nounAt 0 vld0.noun = some (noun0 0) ∧ accessOk 0 (noun0 0) vld0.form cur = true
     ∧ (State.ldLanes p vld0.form cur 64 0 s).2.1 = stOK ∧ p.inBounds (cur.at_ 16) = none
     ∧ p.inBounds (cur.at_ 15) = some [3, 3] ∧ s.place (p.addr [3, 3]) = .scratch 0 108 ∧ s.blockOk p.herd 0 = true
     ∧ (s.block 0).fenced = false ∧ p.addr [3, 3] % 4 = 0)
    ∧ (let o := { vld0 with form := 1 }
       let s := atV (.vld o)
       s.canIssue 0 0 ⟨.vld o, i0⟩
       ∧ accessOk 0 (noun0 0) o.form (((s.block 0).vcell o.cell).cursor o.cur) = false) := by
  unfold State.canIssue; (repeat' apply And.intro) <;> decide

theorem test_met_StoreWritesItsLanes :
    (let s := atV (.vst vst0)
     let cur := ((s.block 0).vcell vst0.cell).cursor vst0.cur
     let p := s.piece (noun0 0)
     s.canIssue 0 0 ⟨.vst vst0, i0⟩ ∧ s.nounAt 0 vst0.noun = some (noun0 0) ∧ accessOk 0 (noun0 0) vst0.form cur = true
     ∧ cur.lane ≠ 0 ∧ p.herd = (0 : HerdId) ∧ (s.block 0).fenced = false ∧ s.blockOk 0 0 = true
     ∧ p.inBounds (cur.at_ 15) = some [3, 3] ∧ p.addr [3, 3] % 4 = 0 ∧ s.place (p.addr [3, 3]) = .scratch 0 108)
    ∧ (let o := { vst0 with cur := 1 }
       (atV (.vst o)).canIssue 0 0 ⟨.vst o, i0⟩ ∧ ((((atV (.vst o)).block 0).vcell 0).cursor 1).lane = 0) := by
  unfold State.canIssue; (repeat' apply And.intro) <;> decide

theorem test_met_MoveCopiesValidExtent :
    (let s := atV (.mov mov0)
     let p := s.piece (noun0 0)
     let q := s.piece { noun0 0 with offset := 4096 }
     s.canIssue 0 0 ⟨.mov mov0, i0⟩ ∧ s.nounAt 0 mov0.src = some (noun0 0)
     ∧ s.nounAt 0 mov0.dst = some { noun0 0 with offset := 4096 } ∧ movOk 0 mov0 p q = true
     ∧ (s.runMov 0 0 mov0).2 = stOK ∧ mov0.scales = 0 ∧ 8 ≤ elemBits (noun0 0).elem)
    ∧ (let o := { mov0 with dst := 2 }
       let s := atV (.mov o)
       s.canIssue 0 0 ⟨.mov o, i0⟩ ∧ s.nounAt 0 o.dst = some (noun0 1)
       ∧ movOk 0 o (s.piece (noun0 0)) (s.piece (noun0 1)) = false) := by
  unfold State.canIssue; (repeat' apply And.intro) <;> decide

/-- A declension item of 37 rows whose masks stand in lot 0. -/
def dcl0 : DclItem :=
  { layer := 0, row := 0, phase := 0, sparse := false, mix := false, trust := 0, gFmt := 0, gScaled := false, wFmt := 0, sFmt := 0
    wSr := false, srStream := 0, rows := 37, rowLen := 4, gBase := lotAddr 0 4096, gSBase := 0, wBase := lotAddr 0 8192
    mBase := lotAddr 0 12288, vBase := lotAddr 0 16384, lastBase := 0, maskBase := lotAddr 0 4096, tStride := 64, gnormAddr := 0
    gnormEn := false, xbuf := 0 }
theorem test_met_HandOffVerbsStageAndTouch :
    (let o := { setr0 with offset := 0x104, imm := 0x10102 }
     let s := atV (.setr o)
     s.canIssue 0 0 ⟨.setr o, i0⟩ ∧ (s.herd 0).run = some run0 ∧ o.fromNoun = 0 ∧ o.wide = 0 ∧ rwsFields o.offset.toNat ≠ []
     ∧ ∀ f ∈ rwsFields o.offset.toNat, f.2.2 (bits (o.imm.setWidth 32).toNat f.1 f.2.1) = false)
    ∧ (let o := { setr0 with offset := 0x108 }
       (atV (.setr o)).canIssue 0 0 ⟨.setr o, i0⟩ ∧ rwsFields o.offset.toNat = [])
    ∧ (let o := { dcoef0 with checkK := 1, kExpect := 9 }
       let s := atV (.dcoef o)
       s.canIssue 0 0 ⟨.dcoef o, i0⟩ ∧ (s.herd 0).mixK (s.blockBeat 0 0) o.row.toNat ≠ o.kExpect.toNat)
    ∧ ((atV (.dcoef dcoef0)).canIssue 0 0 ⟨.dcoef dcoef0, i0⟩ ∧ dcoef0.checkK = 0 ∧ ((atV (.dcoef dcoef0)).herd 0).rowHist = [])
    ∧ (let o : DtouchOp := { cell := 0, sa := 2, item := 0 }
       let m := { sent with dcls := [dcl0] }
       let s := { runs run0 m ((atV (.dtouch o)).block 0) with lots := ⟨[(0, { herd := 0, assigned := true })]⟩ }
       s.canIssue 0 0 ⟨.dtouch o, i0⟩ ∧ (s.herd 0).sentence = some m ∧ m.dcls[o.item.toNat]? = some dcl0
       ∧ ((s.meterSteps 0 1).runDtouch 0 0 o).2 = stOK
       ∧ (((s.block 0).vcell o.cell).lane o.sa 63).toNat < dcl0.rows) := by
  unfold State.canIssue; (repeat' apply And.intro) <;> decide

/-! ### Orders -/

abbrev src0 : OrderSrc := .ring (.pf 0)
theorem test_met_GeneralRulesRefuseOrders :
    (up.quiet ∧ up.orderRefused (up.orderAt src0 0 9 (.lotAssign 0 0)) = some stCfgInvalid)
    ∧ (Machine.orderOf (.fence src0 9) = some (src0, 0, 9, .fence) ∧ State.reset.pins.pwrGood = false)
    ∧ (reservedOp (.fence) = false ∧ tenantOp (.herdCreate 1 0) = true ∧ tenantOp .fence = false
      ∧ ({ up with serow := { tampered := true } } : State).serow.tampered = true)
    ∧ (ready.cfg.st ≠ 2 ∧ earlyOp (.lotAssign 0 0) = false ∧ earlyOp .fence = true)
    ∧ (operatorOnly (.lotAssign 0 0) = true ∧ up.herdExists 0 = false)
    ∧ (vfOnly (.keyRotate 0 0) = true ∧ (herdIs fun x => { x with secure := true }).herdExists (orderHerd src0 0) = true)
    ∧ (let o := live.orderAt src0 0 9 (.lotAssign 0 0)
       live.mayIssue o = true ∧ namesHerd o = true ∧ createsHerd o.op = false ∧ (live.herd 0).st = .live ∧ (up.herd 0).st = .absent
       ∧ ((herdIs fun x => { x with st := .revoking }).herd 0).st = .revoking)
    ∧ (createsHerd (.herdCreate 1 0) = true ∧ up.lc.seq = none ∧ up.lc.reboot = false ∧ up.lcState ≠ 2
      ∧ up.mayIssue (up.orderAt .tahr 1 9 (.herdCreate 1 0)) = true)
    ∧ (let s := { live with tahr := { live.tahr with entropyBad := true }, wins := {} }
       let o := s.orderAt src0 0 9 (.windowAlloc 0 9 0 0x10000 0)
       s.quiet ∧ s.orderRefused o = none ∧ s.drawsFor o = true ∧ isCheckpoint o.op = false) := by
  unfold State.quiet; (repeat' apply And.intro) <;> decide

theorem test_met_CompletionsReachTheirRing :
    (up.quiet ∧ (up.ring (.pf 0)).fences = [] ∧ (up.ring (.pf 0)).reserved = 0 ∧ (up.ring (.pf 0)).heldCpl = []
      ∧ up.linkUp = true ∧ (up.ring (.pf 0)).cpl.room = true ∧ (up.ring (.pf 0)).cpl.log2.toNat ≤ 16
      ∧ ref.gen = (up.ring (.pf 0)).gen)
    ∧ (let s := { up with pfRings := ⟨[(0, { rings with reserved := 1 })]⟩ }
       s.quiet ∧ (s.ring (.pf 0)).fences = [] ∧ (s.ring (.pf 0)).reserved ≠ 0)
    ∧ (let x : RingSet := { rings with cpl := { rings.cpl with idx := 15 } }
       (x.cpl.idx.toNat + 1) % x.cpl.size = 0 ∧ x.cpl.room = true)
    ∧ (let o : OrderRef := { ref with herd := some 3 }
       o.herd ≠ some (0 : HerdId) ∧ ref.herd = none) := by
  unfold State.quiet; (repeat' apply And.intro) <;> decide

theorem test_met_ResourceOrdersGiveAndTake :
    (up.orderOpen src0 1 9 (.herdCreate 1 0) ∧ up.createRefused 1 1 0 = false ∧ up.createRefused 1 0 0 = true)
    ∧ (live.orderOpen src0 0 9 (.lotAssign 1007 0) ∧ lotRange 1007 0 = [1007] ∧ (live.lot 1007).assigned = false
      ∧ (live.lot 1007).clearing = false ∧ live.repair.lotRetired.get false 1007 = false)
    ∧ (live.orderOpen src0 0 9 (.lotAssign 0 0) ∧ (live.lot 0).assigned = true)
    ∧ (live.orderOpen src0 0 9 (.lotRelease 0 0) ∧ live.holdsLot 0 0 = true ∧ live.nounNames 0 1 0 = false
      ∧ (live.herd 0).busy = false ∧ live.copyUses 0 (lotRange 0 0) none = false)
    ∧ (live.orderOpen src0 0 9 (.lotRelease 1 0) ∧ live.holdsLot 0 1 = false)
    ∧ (let s := { live with copies := [{ ref := ref, herd := 0, op := .copy 0x1000_0000_0000 0x1000_0000_0100 64 false false false
                                         status := none, src := [(lotAddr 0 0, 64)], dst := [] }] }
       s.orderOpen src0 0 9 (.lotRelease 0 0) ∧ s.copyUses 0 (lotRange 0 0) none = true) := by
  unfold State.orderOpen State.quiet; (repeat' apply And.intro) <;> decide

/-- Herd 0 holds window 0 of 64 KiB, its first key in slot 16, whose keys are those of the field `f`. -/
def win0 : Win := { st := 1, herd := 0, tag := 1, base := 65536, size := 65536, slot0 := some 16, slot1 := some 17 }
def winIs (w : Win) : State :=
  { live with wins := ⟨[(0, w)]⟩, interleavedOk := true, hbm := ready.hbm
              slots := ⟨[(16, { valid := true, tenant := true, type := 4, owner := 2, herd := 0, secret := List.replicate 32 7 }),
                         (17, { held := true, tenant := true, type := 4, owner := 2, herd := 0 })]⟩ }
theorem test_met_WindowAndKeyOrders :
    (let s := winIs win0
     s.orderOpen src0 0 9 (.windowAlloc 1 9 0x30000 0x10000 24) ∧ (s.win 1).st = 0 ∧ s.rangeServed 0x30000 0x10000 = true
     ∧ (∀ v : WinId, (s.win v).st = 0 ∨ winMeets 0x30000 0x10000 (s.win v).base (s.win v).size = false)
     ∧ s.repair.pages = [] ∧ (s.herd 0).tagOk 9 = true ∧ s.freeSlots ≠ [] ∧ 2 ≤ s.freeSlots.length)
    ∧ (let s := winIs win0
       s.orderOpen src0 0 9 (.windowAlloc 0 9 0x30000 0x10000 36) ∧ (s.win 0).st ≠ 0)
    ∧ (let s := { winIs win0 with slots := ⟨(List.range 256).map fun n => (n, { held := true })⟩ }
       s.orderOpen src0 0 9 (.windowAlloc 1 9 0x30000 0x10000 36) ∧ s.freeSlots.length < 2)
    ∧ (let s := winIs win0
       s.orderOpen src0 0 9 (.windowFree 0) ∧ s.holdsWin 0 0 = true ∧ s.nounNames 0 2 0 = false ∧ (s.herd 0).busy = false
       ∧ s.copyUses 0 [] (some 0) = false ∧ (s.win 0).rotations = [] ∧ s.holdsWin 0 1 = false)
    ∧ (let s := winIs win0
       s.orderOpen src0 0 9 (.keyRotate 0 0) ∧ s.holdsWin 0 0 = true ∧ (s.win 0).epochSt = 0
       ∧ (s.win 0).slotOf (!(s.win 0).epoch) = some 17 ∧ (s.winKeys (s.win 0) (s.win 0).epoch).isSome = true)
    ∧ ((winIs { win0 with epochSt := 1 }).orderOpen src0 0 9 (.keyRotate 0 0))
    ∧ (let s := winIs { win0 with st := 2, subs := [⟨true, 0, 0, false, []⟩] }
       s.orderOpen src0 0 9 (.keyRotate 0 1) ∧ s.holdsWin 0 0 = true ∧ (s.win 0).st = 2)
    ∧ ((winIs win0).orderOpen src0 0 9 (.keyRotate 0 1) ∧ ((winIs win0).win 0).st ≠ 2)
    ∧ (live.orderOpen src0 0 9 (.keyRotate 0 2) ∧ (live.herd 0).dims = [])
    ∧ (let s := herdIs fun x => { x with span := 3 }
       s.orderOpen src0 0 9 (.keyRotate 0 2) ∧ (s.herd 0).dims ≠ []) := by
  unfold State.orderOpen State.quiet; (repeat' apply And.intro) <;> decide

/-- A NOUN_CREATE record for entry 2 of the block of herd-block index 0, and `live` with it in host memory. -/
def nounRec : List Byte :=
  leBytes 8 (2 * 2 ^ 50) ++ leBytes 8 0 ++ leBytes 8 (3 + 20 * 2 ^ 18) ++ leBytes 8 (19 + 2 ^ 18) ++ List.replicate 32 0
    ++ leBytes 48 1 ++ leBytes 1 2 ++ List.replicate 15 0
def placed : State := { live with hostMem := Mem.writeBytes {} 0x50000 nounRec }
theorem test_met_NounOrdersWriteTheTables :
    (placed.orderOpen src0 0 9 (.nounCreate 0x50000) ∧ (placed.herd 0).busy = false ∧ (0x50000 : W64).toNat % 64 = 0
      ∧ (nounRecord (placed.hostRead 0x50000 128)).map (fun e => (e.1, e.2.1)) = some (2, [0])
      ∧ (match nounRecord (placed.hostRead 0x50000 128) with
         | some (e, set, d) => (match (placed.issued src0).nounChecks 0 e set d with
            | .ok n => (placed.issued src0).nounOverlap 0 n [] == 0
            | .error _ => false)
         | none => false) = true)
    ∧ (live.orderOpen src0 0 9 (.nounCreate 0x50000) ∧ (match nounRecord (live.hostRead 0x50000 128) with
         | some (e, set, d) => (match (live.issued src0).nounChecks 0 e set d with
            | .ok _ => true
            | .error _ => false)
         | none => false) = false)
    ∧ (running.orderOpen src0 0 9 (.nounCreate 0x50000) ∧ (running.herd 0).busy = true)
    ∧ (let s := { live with blocks := ⟨[(0, { nouns := ⟨[(2, noun0 0)]⟩ })]⟩ }
       s.orderOpen src0 0 9 (.nounDestroy 2 0) ∧ (s.herd 0).busy = false
       ∧ ((s.blockAt 0 0).bind fun k => s.nounAt k 2) = some (noun0 0) ∧ noun0 0 ∉ s.copyNouns 0)
    ∧ (let s := { live with blocks := ⟨[(0, { nouns := ⟨[(2, noun0 0)]⟩ })]⟩
                            copies := [{ ref := ref, herd := 0, op := .copy 2 2 0 false false true, status := none }] }
       s.orderOpen src0 0 9 (.nounDestroy 2 0) ∧ noun0 0 ∈ s.copyNouns 0)
    ∧ (let s := { live with blocks := ⟨[(0, { fenced := true, fault := stHwCell, nouns := ⟨[(2, noun0 0)]⟩ })]⟩ }
       s.orderOpen src0 0 9 (.nounDestroy 2 0) ∧ noun0 0 ∉ s.copyNouns 0
       ∧ s.tableFault (s.nounBlocks 0 2 (noun0 0)) = some stHwCell)
    ∧ (let s := { placed with blocks := ⟨[(0, { fenced := true, fault := stHwCell })]⟩ }
       s.orderOpen src0 0 9 (.nounCreate 0x50000) ∧ s.tableFault (([0] : List Nat).filterMap fun i => s.blockAt 0 i) = some stHwCell)
    ∧ (live.orderOpen src0 0 9 (.nounDestroy 2 0) ∧ ((live.blockAt 0 0).bind fun k => live.nounAt k 2) = none) := by
  unfold State.orderOpen State.quiet; (repeat' apply And.intro) <;> decide

/-- A copy inside lot 0, with status `st`. -/
def lotCopy (st : Option Status) : CopyJob :=
  { ref := ref, herd := 0, op := .copy (BitVec.ofNat 64 (lotAddr 0 0)) (BitVec.ofNat 64 (lotAddr 0 256)) 64 false false false
    status := st, quiet := st.isSome, src := [(lotAddr 0 0, 64)], dst := [(lotAddr 0 256, 64)] }
def copying (st : Option Status) : State := { live with copies := [lotCopy st] }
theorem test_met_CopiesMoveInOrder :
    (live.orderOpen src0 0 9 (lotCopy none).op ∧ (live.copies.any fun j => j.herd == 0) = false
      ∧ (live.issued src0).copyCheck 0 (lotCopy none).op = none)
    ∧ (let op : OrderOp := .copy 0 0 64 false false false
       live.orderOpen src0 0 9 op ∧ ((live.issued src0).copyCheck 0 op).isSome = true)
    ∧ ((copying none).orderOpen src0 0 9 (lotCopy none).op ∧ ((copying none).copies.any fun j => j.herd == 0) = true)
    ∧ live.orderOpen src0 0 9 (.copy (BitVec.ofNat 64 (2 + 0 * 64)) (BitVec.ofNat 64 (3 + 0 * 64)) 0 false false true)
    ∧ (let s := copying none
       s.quiet ∧ (s.copies.find? fun j => j.herd == 0) = some (lotCopy none) ∧ (lotCopy none).status = none
       ∧ (lotCopy none).old = [] ∧ (lotCopy none).met = [] ∧ s.copies.erase (lotCopy none) = [] ∧ s.hostReach 0 = true
       ∧ s.repair.lotLost = {} ∧ s.lotOk 0 0 = true ∧ lotAddr 0 256 + 64 ≤ lotAddr 0 lotBytes)
    ∧ (let s := copying (some stCfgInvalid)
       s.quiet ∧ (s.copies.find? fun j => j.herd == 0) = some (lotCopy (some stCfgInvalid))
       ∧ (lotCopy (some stCfgInvalid)).quiet = true) := by
  unfold State.orderOpen State.quiet; (repeat' apply And.intro) <;> decide

/-- Herd 0 is LOADING; the load `l` has been checked as it stands. -/
def load0 : LoadRun := { ref := ref, result := some sent, status := 0, code := 0, where_ := 0 }
def loading (l : LoadRun) : State := herdIs fun x => { x with seq := .loading, sentence := none, load := some l }
theorem test_met_SentencesLoadAndRun :
    (live.orderOpen src0 0 9 (.sentenceLoad 0x40000 0x100) ∧ (0x40000 : W64).toNat % 64 = 0 ∧ (live.herd 0).seq = .ready
      ∧ (live.herd 0).commit ≠ .recording ∧ (live.herd 0).loadQueue = [])
    ∧ live.orderOpen src0 0 9 (.sentenceLoad 0x40001 0x100)
    ∧ ((loading load0).orderOpen src0 0 9 (.sentenceLoad 0x40000 0x100) ∧ ((loading load0).herd 0).seq = .loading)
    ∧ (let s := herdIs fun x => { x with tail := some run0 }
       s.orderOpen src0 0 9 (.sentenceLoad 0x40000 0x100) ∧ (s.herd 0).seq = .ready ∧ (s.herd 0).commit ≠ .recording
       ∧ (s.herd 0).tail ≠ none ∧ (0 : BlockId) ∈ s.blocksOf 0)
    ∧ (running.orderOpen src0 0 9 (.sentenceLoad 0x40000 0x100) ∧ (running.herd 0).busy = true)
    ∧ (((loading load0).herd 0).load = some load0 ∧ ((loading load0).herd 0).loadQueue = [] ∧ load0.result = some sent
      ∧ ((loading load0).herd 0).sentence = none ∧ ({ load0 with result := none } : LoadRun).result = none)
    ∧ (let s := herdIs fun x => { x with seq := .loading, load := some load0, sentence := some { sent with meas := [] } }
       (s.herd 0).sentence = some { sent with meas := [] } ∧ ([] : List Byte) ≠ sent.meas)
    ∧ (let s := herdIs fun x => { x with healthValid := true }
       s.orderOpen src0 0 9 (.sentenceRun 3) ∧ (s.herd 0).commit ≠ .recording ∧ (s.herd 0).sentence = some sent
       ∧ (s.issued src0).runAllowed 0 sent 3 = true ∧ s.startsClean 0 sent)
    ∧ (running.orderOpen src0 0 9 (.sentenceRun 3) ∧ (running.issued src0).runAllowed 0 sent 3 = false)
    ∧ (let s := herdIs fun x => { x with sentence := none }
       s.orderOpen src0 0 9 (.sentenceRun 3) ∧ (s.herd 0).sentence = none) := by
  unfold State.orderOpen State.quiet State.startsClean; (repeat' apply And.intro) <;> decide

theorem test_met_QuiesceAndRevokeStopAHerd :
    (live.orderOpen src0 0 9 .herdQuiesce ∧ (live.herd 0).seq = .ready)
    ∧ (running.orderOpen src0 0 9 .herdQuiesce ∧ (running.herd 0).run = some run0 ∧ (running.herd 0).seq = .running)
    ∧ (let s := { running with herds := ⟨[(0, { running.herd 0 with seq := .stopping })]⟩ }
       s.orderOpen src0 0 9 .herdQuiesce ∧ (s.herd 0).run = some run0 ∧ (s.herd 0).seq = .stopping)
    ∧ ((loading load0).orderOpen src0 0 9 .herdQuiesce ∧ ((loading load0).herd 0).load = some load0)
    ∧ (live.orderOpen src0 0 9 .herdRevoke ∧ (herdIs fun x => { x with tail := some run0 }).orderOpen src0 0 9 .herdRevoke ∧ running.orderOpen src0 0 9 .herdRevoke ∧ (live.herd 1).st ≠ .revoking) := by
  unfold State.orderOpen State.quiet; (repeat' apply And.intro) <;> decide

/-- A section of 64 bytes of lot 0, the COMMIT section, and a container of class OPEN with one section and its data. -/
def sect0 : Sect := { kind := 1, addr := lotAddr 0 0, bytes := 64 }
def sect7 : Sect := { kind := 7, addr := 0, bytes := 16 }
def boxOf (cls : Nat) (l : List Sect) (d : List Byte) : List Byte :=
  let head := sealHead cls 0 false 0 l.length [] []
  head ++ sealTable l ++ tableTag none head (sealTable l) ++ (sealPiece none (sealIv 0 0) head d).1
    ++ (sealPiece none (sealIv 0 0) head d).2
def boxed (b : List Byte) : State := { live with hostMem := Mem.writeBytes {} 0x60000 b }
/-- A list of one section, lot 0's first 64 bytes, at 0x70000 in host memory. -/
def listed : State :=
  { live with hostMem := Mem.writeBytes {} 0x70000 (leBytes 64 1 ++ leBytes 8 (lotAddr 0 0) ++ leBytes 8 64) }
def sealOp (auto : Bool) (n : BitVec 40) (d : W64) : OrderOp := .checkpointSeal 0x70000 d n 0 0 auto 0
/-- `live` with an alias key whose next leaf is `n`. -/
def signing (n : Nat) : State :=
  { live with
    tahr := { st := 3, aliasOk := true
              recs := ⟨[(4, ({ aliasLeaf := n, aliasIdx := 3, seq := 4 } : LeafRec).sealed)]⟩ }
    lc := { fuseState := 0x5A3C5A3C }, slots := ⟨[(9, { valid := true, type := 2, secret := [1] })]⟩ }
theorem test_met_CheckpointsAndReports :
    (listed.orderOpen src0 0 9 (sealOp false 0x1000 0x80000) ∧ (listed.herd 0).commit ≠ .recording
      ∧ (listed.sealList 0x70000).2 = some [sect0] ∧ (listed.herd 0).noCheckpoint = false ∧ (0x80000 : W64).toNat % 64 = 0
      ∧ (listed.issued src0).sectsHeld 0 [sect0] = true ∧ (listed.issued src0).sealClass 0 [sect0] = some (0, 0)
      ∧ (listed.issued src0).approved 0 0 0 0 0 (listed.hostRead 0 512) (listed.sealList 0x70000).1 = true
      ∧ listed.protected_ 0 = false ∧ containerSize [sect0] = 256
      ∧ (State.sealAll 0 none (sealHead 0 0 false 0 1 [] []) [sect0].zipIdx (listed.issued src0)).2.1 = stOK)
    ∧ listed.orderOpen src0 0 9 (sealOp false 0x1000 0x80001)
    ∧ (listed.orderOpen src0 0 9 (sealOp true 0x1000 0x80000) ∧ (listed.herd 0).seq ≠ .empty
      ∧ (listed.herd 0).sentence.map (autoSects (listed.herd 0)) = some [sect7])
    ∧ (let s := { listed with lots := {} }
       s.orderOpen src0 0 9 (sealOp false 0x1000 0x80000) ∧ (s.issued src0).sectsHeld 0 [sect0] = false)
    ∧ (let s := boxed (boxOf 0 [sect0] (List.replicate 64 5))
       let m := s.hostRead 0x60000 256
       s.orderOpen src0 0 9 (.checkpointRestore 0x60000 256) ∧ (s.herd 0).commit ≠ .recording ∧ (s.herd 0).noCheckpoint = false
       ∧ s.protected_ 0 = false ∧ containerBad m 256 = false ∧ tableSects m = [sect0]
       ∧ tableTag none (m.take 128) (sliceBytes m 128 32) = sliceBytes m 160 16 ∧ bit (fieldLe m 4 4) 21 = false
       ∧ (s.issued src0).sectsHeld 0 [sect0] = true ∧ s.lotOk 0 0 = true ∧ s.repair.lotLost = {}
       ∧ openPiece none (sealIv 0 0) (m.take 128) (sliceBytes m 176 64) (sliceBytes m 240 16) = some (List.replicate 64 5))
    ∧ (let s := boxed (boxOf 0 [sect7] (List.replicate 16 0))
       let m := s.hostRead 0x60000 208
       s.orderOpen src0 0 9 (.checkpointRestore 0x60000 208) ∧ containerBad m 208 = false ∧ tableSects m = [sect7]
       ∧ tableTag none (m.take 128) (sliceBytes m 128 32) = sliceBytes m 160 16 ∧ (s.issued src0).sectsHeld 0 [sect7] = true
       ∧ openPiece none (sealIv 0 0) (m.take 128) (sliceBytes m 176 16) (sliceBytes m 192 16) = some (List.replicate 16 0))
    ∧ (let s := boxed (boxOf 2 [sect0] (List.replicate 64 5))
       s.orderOpen src0 0 9 (.checkpointRestore 0x60000 256) ∧ (s.herd 0).secure = false
       ∧ containerBad (s.hostRead 0x60000 256) 256 = false)
    ∧ (live.orderOpen src0 0 9 (.checkpointRestore 0x60000 256) ∧ containerBad (live.hostRead 0x60000 256) 256 = true)
    ∧ (live.orderOpen src0 0 9 (.attest 0x80001 0x4000 false 1) ∧ live.orderOpen src0 0 9 (.attest 0x80000 0x4000 true 1)
      ∧ live.herdExists 0 = true ∧ live.serow.tampered = false)
    ∧ ((signing 1024).orderOpen src0 0 9 (.attest 0x80000 0x4000 false 1) ∧ (signing 1024).signGone = false
      ∧ (signing 1024).canSign = false)
    ∧ (let s := { live with serow := { tampered := true } }
       s.orderOpen src0 0 9 (.attest 0x80000 0x4000 false 1) ∧ s.serow.tampered = true)
    ∧ ((signing 1023).orderOpen src0 0 9 (.attest 0x80000 0x4000 false 1) ∧ (signing 1023).canSign = true
      ∧ (signing 1023).canReport src0 = true ∧ (signing 1023).signGone = false) := by
  unfold State.orderOpen State.quiet; (repeat' apply And.intro) <;> decide

/-- Herd 0 is REVOKING and its revocation has reached stage `g`. -/
def revAt (g : RevStage) : State :=
  { live with
    herds := ⟨[(0, { herd0 with st := .revoking, seq := .empty, sentence := none
                                rev := some { stage := g, t0 := 0, tOff := 0, refs := [ref], lasts := [] } })]⟩
    blocks := ⟨[(0, { seen := 1 })]⟩ }
theorem test_met_RevocationGoesThroughItsStages :
    (let s := { winIs win0 with herds := (revAt .executed).herds }
     s.canonical = true ∧ s.atStage 0 .executed = true ∧ s.holdsWin 0 0 = true ∧ s.holdsWin 0 1 = false
     ∧ (s.slot 16).owner = 2 ∧ (s.slot 16).herd.toNat = 0 ∧ (s.slot 16).type ≠ 6 ∧ (s.slot 18).owner ≠ 2)
    ∧ (revAt .zeroized).atStage 0 .zeroized = true
    ∧ ((revAt .lastWritten).canonical = true ∧ (revAt .lastWritten).atStage 0 .lastWritten = true)
    ∧ (let s := revAt .streamOff
       s.atStage 0 .streamOff = true ∧ (s.herd 0).run = none ∧ (s.herd 0).tail = none ∧ s.testing 0 = false ∧ s.holdsLot 0 0 = true
       ∧ s.holdsLot 0 1 = false ∧ ∀ w, s.holdsWin 0 w = true → (s.win w).rotations = [])
    ∧ (let s := { revAt .cleared with lots := {} }
       (s.herd 0).rev.map (fun v => (v.stage, v.refs)) = some (.cleared, [ref]) ∧ ref.isVf = false
       ∧ ∀ e ∈ s.lots.entries, e.2.assigned = false ∨ e.2.herd.toNat ≠ 0) := by
  (repeat' apply And.intro) <;> decide

/-- A FORM record of herd 1 with one party, block group 1 and no dimension; and a PARTY_REVOKE record of party 0 of herd 0. -/
def formRec : List Byte := leBytes 4 0x46564652 ++ [1, 1, 0, 0] ++ leBytes 8 2 ++ List.replicate (48 + 1792) 0
def held0 : Formation := { n := 1, quorum := false, kM1 := 0, lead := 0, meas := [], fnonce := 5, seq := 0, pkSlots := [16], kcSlot := 17 }
def revokeRec : List Byte :=
  leBytes 4 0x46564652 ++ [2, 0, 0, 0] ++ List.replicate 24 0
    ++ hmac (approvalKey (List.replicate 32 7)) (ascii "FV20-REVOKE" ++ bytes256 5)
/-- `up` in FIELDED, with request `r` in Tahr's hands. -/
def asked (r : List Byte) : State :=
  { up with tahr := { st := 3, reqBusy := true, request := some { bytes := r } }, lc := { fuseState := 0x5A3C5A3C } }
theorem test_met_TahrAnswersRequestRecords :
    (up.reach .pf = true ∧ up.tahr.reqBusy = false ∧ (asked []).tahr.reqBusy = true)
    ∧ (let d := (up.hostPlace [(0, leBytes 64 (0x46564652 + 2 ^ 32))]).hostRead up.tahr.reqAddr.toNat 64
       fieldLe d 0 4 = 0x46564652 ∧ fieldLe d 4 1 = 1)
    ∧ (let d := (up.hostPlace [(0, leBytes 64 (0x46564652 + 2 * 2 ^ 32))]).hostRead up.tahr.reqAddr.toNat 64
       fieldLe d 0 4 = 0x46564652 ∧ fieldLe d 4 1 = 2)
    ∧ (let d := (up.hostPlace [(0, leBytes 64 0x46564652)]).hostRead up.tahr.reqAddr.toNat 64
       fieldLe d 0 4 = 0x46564652 ∧ fieldLe d 4 1 ≠ 1 ∧ fieldLe d 4 1 ≠ 2)
    ∧ fieldLe (up.hostRead 0 64) 0 4 ≠ 0x46564652
    ∧ (let s := asked formRec
       s.tahr.request = some { bytes := formRec } ∧ fieldLe formRec 4 1 = 1 ∧ s.tahr.entropyBad = false ∧ s.lc.rights = 0
       ∧ s.serow.tampered = false ∧ s.lcState = 2 ∧ formAt formRec = none ∧ recHerd formRec = 1 ∧ recParties formRec = 1
       ∧ s.formRefused 1 2 0 = none ∧ 1 < s.freeSlots.length)
    ∧ (formAt (formRec.set 16 1 |>.set 20 1)).isSome = true ∧ (asked formRec).formRefused 1 0 0 = some 8
    ∧ ({ asked formRec with lc := { rights := 1 } } : State).lc.rights ≠ 0 ∧ ({ asked formRec with lc := {} } : State).lcState ≠ 2
    ∧ (let s := { winIs win0 with tahr := (asked revokeRec).tahr, herds := ⟨[(0, { herd0 with secure := true, form := some held0 })]⟩ }
       s.tahr.request = some { bytes := revokeRec } ∧ fieldLe revokeRec 4 1 = 2 ∧ s.tokenOk revokeRec = true)
    ∧ ((asked revokeRec).tahr.st = 3 ∧ (asked revokeRec).tokenOk revokeRec = false) := by
  (repeat' apply And.intro) <;> decide +kernel

def cpl0 : Cpl := { tag := 4, status := 2, check := 0, detail := 8 }
/-- Herd 0 is LIVE; PF ring set 0 and the VF's ring set are `x`. -/
def ringIs (x : RingSet) : State := { live with pfRings := ⟨[(0, x)]⟩, herds := ⟨[(0, { herd0 with rings := x })]⟩ }
/-- An order of 64 bytes with an opcode and a HERD byte. -/
def order0 (op h : Nat) : Fetched := { bytes := leBytes 64 (op + h * 2 ^ 8 + 5 * 2 ^ 32) }
theorem test_met_DoorbellsFetchAndBatchOrders :
    (State.reset.barOpen .pf = false ∧ live.barOpen .pf = true ∧ live.barOpen (.vf 0) = true)
    ∧ (rings.ord.size = 16 ∧ (16 : W32).setWidth 16 = (16 : BitVec 16) ∧ (15 : BitVec 16).toNat < rings.ord.size
      ∧ rings.heldCpl = [] ∧ rings.heldEvt = [] ∧ rings.lostSince = 0)
    ∧ (let x := { rings with lostSince := 4, evt := { rings.evt with door := 0 } }
       x.heldEvt = [] ∧ x.lostSince ≠ 0 ∧ (ringIs x).ringReach (.pf 0) = true ∧ ({ x.evt with door := 15 } : Ring).room = true)
    ∧ (let x := { rings with heldCpl := [cpl0], cpl := { rings.cpl with en := false } }
       x.heldCpl = [cpl0] ∧ x.cpl.en = false ∧ x.cpl.log2 ≠ 0 ∧ (ringIs x).ringReach (.pf 0) = true)
    ∧ (∀ d m, let x := { rings with vecBusy := true, vecDue := d, masked := m }
       (ringIs x).pins.pwrGood = true ∧ ((ringIs x).ring (.pf 0)).vecBusy = true)
    ∧ (let x := { rings with ord := { rings.ord with door := 1 } }
       let s := ringIs x
       s.reach (ringWho (.vf 0)) = true ∧ s.ringReach (.vf 0) = true ∧ (s.herd 0).st = .live ∧ s.ring (.vf 0) = x
       ∧ x.ord.en = true ∧ x.cpl.en = true ∧ x.ord.idx ≠ x.ord.door
       ∧ x.cpl.unread + x.reserved + x.heldCpl.length + 1 ≤ x.cpl.size - 1 ∧ x.fences = [] ∧ x.fetched = [])
    ∧ (let s := { live with pfRings := ⟨[(0, { rings with fetched := [order0 0x0D 0], reserved := 1 })]⟩ }
       s.quiet ∧ s.batchItems.map (fun e => (e.ok, s.orderRefused e.order)) = [(true, none)])
    ∧ (let s := { live with pfRings := ⟨[(0, { rings with fetched := [order0 0x3F 0], reserved := 1 })]⟩ }
       s.quiet ∧ s.batchItems.map (fun e => e.ok) = [false])
    ∧ (let s := { live with pfRings := ⟨[(0, { rings with fetched := [order0 0x0D 1], reserved := 1 })]⟩ }
       s.quiet ∧ s.batchItems.map (fun e => (e.ok, s.orderRefused e.order)) = [(true, some stCfgInvalid)])
    ∧ (let s := { live with pfRings := ⟨[(0, { rings with fetched := [order0 0x0D 0, order0 0x0E 0], reserved := 2 })]⟩ }
       s.quiet ∧ s.batchItems.map (fun e => (e.ok, e.order.op, e.order.herd)) =
         [(true, .herdRevoke, (0 : HerdId)), (true, .herdQuiesce, 0)]
       ∧ ∀ e ∈ s.batchItems, s.orderRefused e.order = none ∧ namesHerd e.order = true ∧ s.mayIssue e.order = true
           ∧ reservedOp e.order.op = false) := by
  unfold State.quiet; (repeat' apply And.intro) <;> decide

/-- A copy of herd 0 with an end in host memory. -/
def hostCopy : CopyJob := { lotCopy none with op := .copy 0x500 (BitVec.ofNat 64 (lotAddr 0 256)) 64 true false false }
theorem test_met_LinkLossAndFunctionResets :
    (let s := { live with linkUp := false }
     s.pins.perst = false ∧ s.quiet ∧ s.tahr.waitAttests = [] ∧ s.tahr.waitReports = [] ∧ linkTrains 5 16 = true
     ∧ linkTrains 6 16 = false ∧ linkTrains 5 0 = false ∧ s.tahr.st ≠ 4)
    ∧ (let s := { live with linkUp := false, tahr := { st := 4, fail := 9 } }
       s.quiet ∧ s.tahr.st = 4 ∧ s.tahr.fail = 9)
    ∧ (let s := { ringIs { rings with heldCpl := [cpl0] } with linkUp := false }
       s.quiet ∧ (s.ring (.pf 0)).heldCpl = [cpl0])
    ∧ (live.canonical = true ∧ live.quiet ∧ live.linkUp = true ∧ live.copies = [])
    ∧ (let s := { live with copies := [hostCopy], ide := ⟨[(1, { st := .secure, set0 := [1] })]⟩, linkUp := false }
       s.quiet ∧ hostCopy.hostEnd = true ∧ (s.ideAt (ideOf 0)).st ≠ .disabled)
    ∧ (live.reach (.vf 0) = true ∧ (live.herd 0).st = .live ∧ (live.herd 0).seq = .ready ∧ up.reach (.vf 0) = true
      ∧ (up.herd 0).st ≠ .live)
    ∧ (running.reach (.vf 0) = true ∧ running.quiet ∧ (running.herd 0).seq = .running ∧ (running.herd 0).run = some run0)
    ∧ (live.reach .pf = true ∧ State.reset.reach .pf = false) := by
  unfold State.quiet; (repeat' apply And.intro) <;> decide

/-- Stream 1, of herd 0's VF, is `x`, with the key of its set 0 in slot 5; Tahr has its KEM seed. -/
def streamIs (x : IdeStream) : State :=
  { live with
    ide := ⟨[(1, x)]⟩
    slots := ⟨[(5, { valid := true, tenant := true, type := 6, owner := 2, herd := 0, index := 1, secret := [9] }),
               (11, { valid := true, type := 3, secret := [5] })]⟩ }
theorem test_met_StreamsAreKeyedAndLost :
    (up.reach .pf = true ∧ 3 < (4 : BitVec 8).toNat ∧ (3 : BitVec 8).toNat ≤ 3 ∧ (3 : BitVec 8) ≠ 1 ∧ (8 : BitVec 8).toNat ≥ 8
      ∧ (7 : BitVec 8).toNat < 8)
    ∧ ((signing 1023).canSign = true ∧ live.canSign = false ∧ live.signGone = true)
    ∧ ((signing 1024).canSign = false ∧ (signing 1024).signGone = false)
    ∧ (let s := { signing 1023 with slots := ⟨[(9, { valid := true, type := 2, secret := [1] }), (11, { valid := true, type := 3, secret := [5] })]⟩ }
       let ct : List Byte := List.replicate 1568 0
       ct.length = 1568 ∧ s.quiet ∧ s.copies = [] ∧ s.ideAuthOk 0 (ideHeader 0x02 0 false ++ ct ++ bytes256 0) none = true ∧ (s.ideAt 0).st = .disabled
       ∧ s.serow.tampered = false ∧ s.signGone = false ∧ (s.slot 11).valid = true ∧ s.freeSlots ≠ [])
    ∧ ((live.ideAt 0).st = .disabled)
    ∧ (let s := streamIs { st := .keyed, set0 := [1] }
       s.reach .pf = true ∧ (s.ideAt 1).st ≠ .disabled ∧ (s.ideAt 1).set0 ≠ [] ∧ (s.ideAt 1).set1 = [])
    ∧ (let s := streamIs { st := .secure, set0 := [1], set1 := [2] }
       (s.ideAt 1).active ≠ true ∧ (s.ideAt 1).active = false ∧ (s.ideAt 1).set1 ≠ [])
    ∧ (let s := { streamIs { st := .secure, set0 := [1], set1 := [2], active := true, both := true } with
        herds := ⟨[(0, { herd0 with secure := true })]⟩ }
       s.barOpen (.vf 0) = true ∧ s.protected_ 0 = true ∧ (s.ideAt (ideOf 0)).both = true ∧ ideOf 0 = 1)
    ∧ (let s := streamIs { st := .secure, set0 := [1] }
       s.canonical = true ∧ s.quiet ∧ s.linkUp = true ∧ (s.ideAt 1).st = .secure) := by
  unfold State.quiet; (repeat' apply And.intro) <;> decide

/-! ### Encrypted lines, hop keys and streams -/

/-- Window 0 with the page node of page 0 in its cache. -/
def winC : Win := { win0 with tag := 9, size := 131072, budgetLog2 := 24, cache := ⟨[(0, some 0)]⟩ }
/-- The sweep of window 0 goes on under both its keys, and a rotation waits for its end. -/
def sweepSet : State :=
  { winIs { winC with epochSt := 1, epoch := true, rotations := [(ref, 100)] } with
    slots := ⟨[(16, { valid := true, tenant := true, type := 4, owner := 2, herd := 0, secret := List.replicate 32 7 }),
               (17, { valid := true, tenant := true, type := 4, owner := 2, herd := 0, secret := List.replicate 32 8 })]⟩ }
/-- Herd 0's stream on dimension 0 is advancing. -/
def advanceSet : State :=
  { live with streams := ⟨[(0, { advancing := true, sendCtr := 77 })]⟩, lanes := ⟨[(0, { st := .active, dim := 0 })]⟩ }
/-- Whether the MAC of a line with a minor counter is right decides which of the last two clauses of a read applies. -/
theorem test_met_EncryptedLinesAndTheirSweeps :
    (live.admits false 0 0 0 false = false ∧ live.admits false 0 0 0 true = false ∧ live.lc.rights = 0
      ∧ live.herdExists 0 = true ∧ (live.herd 0).secure = false ∧ up.lc.rights = 0)
    ∧ (let s := { winIs winC with herds := ⟨[(0, { herd0 with st := .revoking })]⟩ }
       (s.herd 0).st ≠ .live ∧ s.admits false 0 0 0 false = true ∧ s.admits false 0 0 0 true = true)
    ∧ (((winIs { winC with waiting := [(0, [1])] }).win 0).waiting = [] ++ [(0, [1])])
    ∧ (let s := { winIs winC with repair := { pages := [pageOf ((winIs winC |>.win 0).phys 0)] } }
       s.pageFenced ((s.win 0).phys 0) = true)
    ∧ (let s := { winIs winC with repair := { pages := [pageOf ((winIs winC |>.win 0).phys (macOff 65536 0))] } }
       s.pageFenced ((s.win 0).phys (macOff 65536 0)) = true)
    ∧ (let s := winIs winC
       (s.herd 0).st = .live ∧ s.admits false 0 0 0 false = true ∧ (s.win 0).cache.get none (nodeKey 0 (pageOfOff 0)) = some 0
       ∧ (s.win 0).waiting = [] ∧ (s.win 0).blocked 0 false = false ∧ nodeMinor 0 0 = 0)
    ∧ ((winIs { winC with st := 2, subs := [⟨true, 0, 0, false, []⟩] }).admits false 0 0 0 false = true
      ∧ ({ winC with st := 2, subs := [⟨true, 0, 0, false, []⟩] } : Win).blocked 0 false = true)
    ∧ (let s := winIs { winC with cache := ⟨[(0, some (setMinor 0 0 1))]⟩ }
       let x := s.win 0
       s.admits false 0 0 0 false = true ∧ nodeMinor (setMinor 0 0 1) 0 = 1 ∧ x.blocked 0 false = false
       ∧ s.pageFenced (x.phys 0) = false ∧ s.pageFenced (x.phys (macOff x.size 0)) = false ∧ x.phys 0 ∉ s.hbmBad
       ∧ (s.winKeys x (s.lineEpoch.get false (x.phys 0))).isSome = true)
    ∧ (let s := { winIs winC with hbmBad := [(winIs winC |>.win 0).phys 0] }
       (s.win 0).phys 0 ∈ s.hbmBad)
    ∧ (let s := winIs winC
       let x := s.win 0
       s.admits false 0 0 0 true = true ∧ x.base % 65536 = 0 ∧ x.size % 65536 = 0 ∧ x.subs = [] ∧ x.waiting = []
       ∧ x.epochSt ≠ 2 ∧ s.pageFenced (x.phys 0) = false ∧ (x.writes + 1) * 8 < 7 * x.budget
       ∧ (s.winKeys x x.epoch).isSome = true)
    ∧ nodeMinor (setMinor 0 0 62) 0 < 63
    ∧ (sweepSet.quiet ∧ (sweepSet.win 0).st ≠ 0 ∧ (sweepSet.win 0).epochSt ≠ 0 ∧ sweepSet.sweeping 0 = true
      ∧ (sweepSet.win 0).waiting = [] ∧ ref.src = .ring (.pf 0) ∧ sweepSet.linkUp = true ∧ (sweepSet.ring (.pf 0)).cpl.room = true
      ∧ sweepSet.tahr.entropyBad = false)
    ∧ (advanceSet.quiet ∧ (advanceSet.stream 0 0).advancing = true ∧ advanceSet.dimUp 0 = true ∧ (advanceSet.dimAt 0).held = []
      ∧ ∀ e : DimId, e ≠ 0 → (advanceSet.stream e 0).advancing = false)
    ∧ (let s := { live with streams := ⟨[(0, { advancing := true }), (32, { advancing := true })]⟩ }
       (1 : DimId) ≠ 0 ∧ (s.stream 1 0).advancing = true)
    ∧ (let s := signing 896
       s.quiet ∧ s.aliasDue = true ∧ s.tahr.waitAttests = [] ∧ s.tahr.waitReports = [] ∧ s.leafRec.isSome = true
       ∧ s.devidLeaf < 1048576 ∧ s.aliasLeaf < 1024 ∧ ∀ d, (s.dimAt d).helloDue = false)
    ∧ (1024 ≤ (signing 1024).aliasLeaf ∧ (signing 1024).aliasDue = true) := by
  unfold State.quiet; (repeat' apply And.intro) <;> decide +kernel

/-- A message comes in one frame on lane 0, with an ACK word. -/
def via0 : List Carried := [⟨0, some (0, 1)⟩]
/-- Lane 0 is READY on dimension 0, whose hop is `x`; Tahr has its KEM seed and an alias key. -/
def hopIs (x : Dim) : State :=
  { signing 0 with
    dims := ⟨[(0, x)]⟩, lanes := ⟨[(0, { st := .ready, dim := 0 })]⟩
    slots := ⟨[(9, { valid := true, type := 2, secret := [1] }), (11, { valid := true, type := 3, secret := [5] })]⟩ }
/-- An accepted HELLO needs a report whose LMS signatures verify; its hypotheses up to there are met. -/
theorem test_met_HopKeysAndHerdsAreAgreed :
    ((hopIs {}).laneAt 0).locked = true ∧ ((hopIs {}).laneAt 0).dimId = some 0 ∧ ((hopIs {}).laneAt 0).hunting = false
    ∧ ((hopIs {}).laneAt 1).locked = false ∧ ((hopIs {}).carry 0 []).2 = false
    ∧ (∀ x ∈ [({} : Dim), { ctlSeen := some 5 }, { hk := some 7 }, { ssOwn := some 3 }],
        ((hopIs x).carry 0 via0).2 = true ∧ ((hopIs x).carry 0 via0).1.hopReady 0 = true
        ∧ ((hopIs x).carry 0 via0).1.dimAt 0 = x ∧ ((hopIs x).carry 0 via0).1.hopAble = (hopIs x).hopAble)
    ∧ ((hopIs { ctlSeen := some 5 }).hopReady 0 = true ∧ ((hopIs { ctlSeen := some 5 }).dimAt 0).ctlSeen = some 5 ∧ (5 : W64) ≤ 5)
    ∧ ((hopIs {}).hopReady 0 = true ∧ ((hopIs {}).dimAt 0).ctlSeen = none ∧ (5 : W64) < 6 ∧ reportOk [] = false
      ∧ (hopIs {}).hopAble = true ∧ (hopIs {}).tahr.entropyBad = false ∧ live.hopAble = false)
    ∧ (((hopIs {}).slot 11).valid = true ∧ ((hopIs {}).dimAt 0).hop ≠ .keyed ∧ ((hopIs {}).dimAt 0).ssOwn = none
      ∧ (live.slot 11).valid = false)
    ∧ ((hopIs { ssOwn := some 3 }).dimAt 0).ssOwn = some 3
    ∧ (((hopIs { hk := some 7 }).dimAt 0).hk = some 7
      ∧ hmac (bytes256 7) (ascii "FV20-HOP-CONF" ++ leBytes 2 (((0 : BitVec 15) ^^^ (1 <<< 0)).toNat)) ≠ [])
    ∧ ((hopIs { hk := some 7 }).lanesOf 0).length ≠ 0 ∧ ((hopIs {}).dimAt 0).hk = none
    ∧ (let s := { hopIs { hk := some 7 } with herds := ⟨[(0, { herd0 with span := 1 })]⟩ }
       (s.herd 0).st = .live ∧ (s.herd 0).span.getLsbD 0 = true ∧ (s.herd 0).secure = false
       ∧ (joinValue 7 (s.linkId 0) false).length = 32) := by
  (repeat' apply And.intro) <;> decide +kernel

/-! ### Runs -/

def frec (st : BitVec 8) : FaultRec := { status := st, beat := 3, slicePos := 0, herdBlock := 1 }
def tok0 : BeatToken :=
  { stop := false, ready := false, through := 5, meas := List.replicate 32 1, steps := 3, firstBeat := 5, committed := 0
    present := false, isReady := false, recorded := false, dropped := false, mismatch := false, faults := [], incs := [] }
/-- The run `r` of a herd with the changes of `f` is in progress; block 0 is `x`. -/
def runAs (f : Herd → Herd) (r : Run) (m : Sentence) (x : Block) : State :=
  { live with herds := ⟨[(0, f { herd0 with seq := .running, run := some r, sentence := some m })]⟩, blocks := ⟨[(0, x)]⟩ }
def blk (seg done seen : Nat) : Block :=
  { st := .issue, seg := seg, doneSegs := done, seen := seen, clause := [⟨.bend 0, ⟨true, 0⟩⟩] }
theorem test_met_BeatsEndOnTheirTokens :
    (∀ e ∈ [(1, 0, 0), (2, 1, 1), (2, 1, 2)], let s := runs run0 sent (blk e.1 e.2.1 e.2.2)
       s.owner 0 = some 0 ∧ (s.herd 0).workRun = some run0 ∧ (s.herd 0).sentence = some sent ∧ (s.herd 0).working = true
       ∧ (s.block 0).st = .issue ∧ (s.block 0).doneSegs < (s.block 0).seg
       ∧ (s.block 0).segComplete (s.block 0).pass (s.block 0).doneSegs = true
       ∧ (s.herd 0).captureDue sent (s.block 0).pass (s.block 0).doneSegs = false)
    ∧ (1 + 1 = sent.beats ∧ 0 + 1 < run0.steps.toNat ∧ run0.steps.toNat ≤ 2 + 1)
    ∧ (let s := runs run0 sent (blk 1 1 0)
       (s.herd 0).active = true ∧ s.rowBlocks 0 (regionOf 0) (s.meshRow 0) = [0]
       ∧ (s.block 0).pass = run0.pass ∧ run0.beat < (s.block 0).doneSegs ∧ run0.rows = [])
    ∧ (let r := { run0 with rows := [regionOf 0 * 10 + State.reset.meshRow 0] }
       let s := runs r sent (blk 1 1 0)
       s.rowsDone 0 r = true ∧ s.enginesDone 0 sent r = true ∧ r.unitDone = false)
    ∧ (let r := { run0 with unitDone := true }
       let s := runAs (fun x => { x with span := 1, tokens := [(0, tok0)] }) r sent (blk 1 1 0)
       (s.herd 0).active = true ∧ r.round < (s.herd 0).dims.length ∧ (s.herd 0).tokenAt r r.round false = some tok0)
    ∧ (run0.first = true ∧ ({ tok0 with steps := 4 } : BeatToken).steps ≠ run0.steps)
    ∧ (∀ b ∈ [0, 1], let r := { run0 with unitDone := true, beat := b }
       let s := runs r sent (blk 1 1 0)
       (s.herd 0).active = true ∧ (s.herd 0).commit = .opened ∧ r.round = (s.herd 0).dims.length ∧ r.mismatch = false
       ∧ r.stopAtEnd = false)
    ∧ (let m := { sent with commit := true }
       let r := { run0 with unitDone := true, beat := 1, steps := 1, done := 1, flipped := true }
       let s := runs r m (blk 2 2 2)
       (s.herd 0).active = true ∧ r.beat + 1 = m.beats ∧ m.commit = true ∧ r.done = r.steps ∧ r.closed = false ∧ r.quiesces = []
       ∧ (s.ring (.pf 0)).heldCpl = [] ∧ (s.ring (.pf 0)).cpl.room = true)
    ∧ (∀ r ∈ [{ run0 with unitDone := true, mismatch := true }, { run0 with unitDone := true, stopAtEnd := true }],
       ((runs r sent (blk 1 1 0)).herd 0).active = true ∧ r.unitDone = true)
    ∧ ((runs run0 sent {}).block 0).st = .idle
    ∧ (let r := { run0 with ended := 2 }
       let s := runs r sent { blk 2 2 1 with st := .passEnd }
       s.owner 0 = some 0 ∧ (s.herd 0).workRun = some r ∧ (s.block 0).st = .passEnd
       ∧ (s.block 0).pass * sent.beats + (s.block 0).seen < r.ended ∧ (s.block 0).seen + 1 = sent.beats) := by
  (repeat' apply And.intro) <;> decide

theorem test_met_StopsEndTheRun :
    ((running.herd 0).active = true ∧ (running.herd 0).sentence = some sent ∧ sent.beatLimitMs ≠ 0)
    ∧ (let s := runAs (fun x => { x with seq := .stopping }) run0 sent { st := .halt }
       (s.herd 0).seq = .stopping ∧ (s.herd 0).run = some run0 ∧ run0.stopAtEnd = false ∧ ([] : List BeatToken).length + 1 = 2 ^ (s.herd 0).dims.length
       ∧ (s.herd 0).st = .live)
    ∧ ((frec 0x02).status ≠ 0x01 ∧ (frec 0x01).status = 0x01 ∧ ({ run0 with stopAtEnd := true } : Run).stopAtEnd = true)
    ∧ [frec 1] ≠ []
    ∧ (let r := { run0 with between := true, atBoundary := true }
       r.atBoundary = true ∧ r.closed = false ∧ r.quiesces = [])
    ∧ (let m := { sent with commit := true }
       let s := runAs (fun x => { x with seq := .stopping, commit := .ready }) run0 m { st := .halt }
       (s.herd 0).run = some run0 ∧ (s.herd 0).sentence = some m ∧ m.commit = true ∧ (s.herd 0).seq = .stopping
       ∧ (s.herd 0).commit = .ready ∧ run0.flipped = false)
    ∧ (∀ k ∈ [{ tok0 with recorded := true, committed := 9 }, tok0, { tok0 with committed := 9 }],
       let s := runAs (fun x => { x with seq := .stopping, commit := .ready, span := 1 }) run0 { sent with commit := true }
         { st := .halt }
       [k].length + 1 = 2 ^ (s.herd 0).dims.length ∧ (s.herd 0).st = .live
       ∧ (k ≠ { tok0 with committed := 9 } ↔ k.recorded = true ∨ k.committed = s.stepNo 0))
    ∧ (frec 2).status ≠ 1 ∧ (running.herd 0).seq = .running ∧ gentleStop tok0 = false := by
  (repeat' apply And.intro) <;> decide

theorem test_met_CommitRecordsThenFlips :
    (let m := { sent with commit := true }
     let r := { run0 with beat := 1, unitDone := true, ended := 1, rows := [regionOf 0 * 10 + State.reset.meshRow 0] }
     let s := runs r m (blk 2 2 1)
     (s.herd 0).active = true ∧ r.beat + 1 = m.beats ∧ r.flipped = false ∧ (s.herd 0).commit = .opened
     ∧ (s.herd 0).captures = [] ∧ s.localDone 0 r.pass r.beat = true)
    ∧ (let s := runAs (fun x => { x with commit := .ready }) run0 sent (blk 1 1 0)
       (s.herd 0).commit = .ready ∧ run0.round = (s.herd 0).dims.length ∧ run0.mismatch = false)
    ∧ (let s := runAs (fun x => { x with commit := .recording }) run0 sent (blk 1 1 0)
       (s.herd 0).st = .live ∧ (s.herd 0).commit = .recording ∧ s.hasRecorded 0 = false)
    ∧ (let s := runAs (fun x => { x with commit := .recording, recorded := true, commitAddr := BitVec.ofNat 48 (lotAddr 0 0) })
         run0 sent (blk 1 1 0)
       let s := { s with tahr := { s.tahr with commits := ⟨[(0, some { step := s.stepNo 0, present := true
                                                                       mac := s.commitMac 0 (s.stepNo 0) true })]⟩ } }
       s.hasRecorded 0 = true ∧ (s.herd 0).hbmRecorded = false ∧ s.lotOk 0 0 = true ∧ lotAddr 0 0 + 64 ≤ lotAddr 0 lotBytes
       ∧ s.repair.lotLost = {} ∧ (s.wr 0 (s.herd 0).commitAddr.toNat (s.commitBytes 0)).2 = stOK)
    ∧ (let s := runAs (fun x => { x with commit := .recording, recorded := true, hbmRecorded := true }) run0 sent (blk 1 1 0)
       (s.herd 0).hbmRecorded = true ∧ (s.herd 0).run = some run0)
    ∧ (State.reset.regOpen (.vf 0) (.window 0) .active = false ∧ live.regOpen (.vf 0) (.window 0) .active = true)
    ∧ ((herdIs fun x => { x with commit := .unresolved }).herd 0).commit = .unresolved
    ∧ ((live.herd 0).commit ≠ .unresolved ∧ (live.herd 0).rings.lostSince = 0 ∧ live.hostReach 0 = true
      ∧ (herdIs fun x => { x with rings := { rings with evt := { rings.evt with door := 0 } } }).hostReach 0 = true
      ∧ ({ rings with evt := { rings.evt with door := 0 } } : RingSet).evt.room = false
      ∧ rings.evt.room = true) := by
  (repeat' apply And.intro) <;> decide +kernel

/-- A reduction item on lot 0 over the lowest slice bit, and `sent` with the items in its first beat. -/
def red0 (op : BitVec 4) (patient : Bool) : RedItem :=
  { op := op, elem := 4, scaled := false, wire := false, ring := false, patient := patient, drop := false, normEn := false, normSlot := 0
    layer := 0, groupMask := 1, n := 4, patienceUs := 10, src := lotAddr 0 0, dst := lotAddr 0 256, ssrc := 0, sdst := 0
    cbuf := lotAddr 0 512 }
def route0 : RouteEnt :=
  { beat := 0, mask := 1, mtch := 0, delta := 1, descending := false, bytes := 700, src := lotAddr 0 0, dst := lotAddr 0 2048 }
def sentE : Sentence :=
  { sent with reds := [red0 1 false, red0 2 false, red0 3 false, red0 4 false, red0 5 false, red0 6 false, red0 3 true]
              dcls := [dcl0], routes := [route0], plan := ((List.range 7).map fun i => ⟨0, 1, i⟩) ++ [⟨0, 2, 0⟩] }
/-- Herd 0 spans dimension 0 and runs `sentE`. -/
def engines (f : Herd → Herd) : State := runAs (fun x => f { x with span := 1 }) run0 sentE { st := .idle }
/-- The small sum's own values are there and its round 0 waits for the peer's frame. -/
def sumSet : State :=
  { engines (fun x => { x with reds := ⟨[(4, { started := true, x := ⟨[(0, 0x3F800000)]⟩ })]⟩ }) with
    lanes := ⟨[(0, { st := .active, dim := 0 })]⟩ }
/-- Up to the opening of the frame, which needs its seal. -/
theorem test_met_CollectivesRunTheirRounds :
    (∀ e, e < 6 → (engines id).fabricNow 0 e = some (run0, red0 (BitVec.ofNat 4 (e + 1)) false, 1)
      ∧ ((engines id).redRun 0 e).started = false)
    ∧ ((engines fun x => { x with reds := ⟨[(6, { missed := true })]⟩ }).fabricNow 0 6).isSome = true
    ∧ ((red0 3 false).ring = false ∧ 1 < redMembers (red0 3 false) ∧ ((redRounds (red0 3 false) 1)[0]?).isSome = true)
    ∧ ((sumSet.laneAt 0).locked = true ∧ (sumSet.laneAt 0).hunting = false ∧ (sumSet.laneAt 0).dimId = some 0
      ∧ sumSet.redItem 0 4 = some (red0 5 false) ∧ (groupBits (red0 5 false)).length = 1 ∧ (sumSet.herd 0).bitOf (red0 5 false) 0 = some 0
      ∧ (sumSet.redRun 0 4).started = true ∧ (sumSet.redRun 0 4).done = false ∧ (sumSet.redRun 0 4).round = 0
      ∧ (sumSet.redRun 0 4).early = [] ∧ (sumSet.herd 0).active = true) := by
  (repeat' apply And.intro) <;> decide

/-- The PATIENT item 6 is within its budget while its block is still at work, with room for `k` ledger entries. -/
def patience (k : Nat) : State :=
  runAs (fun x => { x with span := 1, reds := ⟨[(6, { budget := true })]⟩, ledgerCap := BitVec.ofNat 20 k }) run0 sentE (blk 0 0 0)
/-- The PATIENT item 6 of step 0 is to be captured. -/
def capturing : State := engines fun x => { x with captures := [(6, 0, 0)] }
theorem test_met_EnginesWorkThroughTheirItems_miss : ∀ k ∈ [0, 1],
    (patience k).fabricNow 0 6 = some (run0, red0 3 true, 1) ∧ ((patience k).redRun 0 6).started = false
    ∧ ((patience k).redRun 0 6).missed = false ∧ ((patience k).redRun 0 6).budget = true ∧ ((patience k).herd 0).replay = false
    ∧ (patience k).localDone 0 run0.pass run0.beat = false
    ∧ ((patience k).herd 0).ledgerCount.toNat + ((patience k).herd 0).pendLedger.length = 0 ∧ ((patience k).herd 0).ledgerCap.toNat = k := by
  decide +kernel
theorem test_met_EnginesWorkThroughTheirItems :
    ((capturing.herd 0).captures.find? (fun c => c.1 = 6) = some (6, 0, 0) ∧ sentE.reds[6]? = some (red0 3 true)
      ∧ (capturing.herd 0).active = true
      ∧ capturing.localDone 0 0 (((sentE.plan.find? fun p => p.kind = 1 && p.item = 6).map (·.beat)).getD 0) = true)
    ∧ (((engines id).herd 0).run = some run0 ∧ sentE.routes[0]? = some route0 ∧ route0.beat = run0.beat
       ∧ (engines id).slicePos ((engines id).herd 0) &&& route0.mask.toNat = route0.mtch.toNat ∧ (0, 0) ∉ run0.items
       ∧ ((engines id).rdIn 0 route0.src route0.bytes).2.1 = stOK
       ∧ (routeOrder route0).head?.bind ((engines id).herd 0).sliceDim = some 0)
    ∧ (let s := { runAs (fun x => { x with span := 1 }) run0 { sentE with det := false } { st := .idle } with
         lanes := ⟨[(0, { st := .active, dim := 0 })]⟩ }
       0 ∈ routeOrder route0 ∧ s.bitUp 0 0 = true ∧ s.wayOf 0 route0 (routeOrder route0) = [0])
    ∧ (sentE.dcls[0]? = some dcl0 ∧ 0 ∈ itemsIn sentE 2 run0.beat ∧ (2, 0) ∉ run0.items ∧ ((engines id).herd 0).active = true) := by
  (repeat' apply And.intro) <;> decide +kernel

/-! ### Lanes and frames -/

/-- Lane 0 is `x`, a lane of dimension 0, whose state is `d`. -/
def laneIs (x : Lane) (d : Dim) : State := { live with lanes := ⟨[(0, { x with dim := 0 })]⟩, dims := ⟨[(0, d)]⟩ }
theorem test_met_LanesFollowTheStateTable :
    ((laneIs { st := .train } {}).laneAt 0).st = .train
    ∧ (let s := { laneIs { st := .active } {} with lanes := ⟨[(0, { st := .active, dim := 0 }), (1, { st := .active, dim := 0 })]⟩ }
       (s.laneAt 0).locked = true ∧ (s.laneAt 0).st ≠ .mismatch ∧ (s.laneAt 0).dimId = some 0 ∧ (1 : LaneId) ∈ s.activeLanes 0)
    ∧ (∀ m ∈ (laneIs { st := .active } {}).lanesOf 0, m ≠ 0 → ((laneIs { st := .active } {}).laneAt m).locked = false)
    ∧ ((laneIs { st := .mismatch } {}).laneAt 0).st = .mismatch ∧ ((laneIs { st := .test } {}).laneAt 0).st = .test
    ∧ ((laneIs { st := .probe } {}).laneAt 0).st = .probe
    ∧ (∀ k ∈ [2, 3], ((laneIs { st := .probe, hunting := true, goods := k } {}).laneAt 0).locked = true)
    ∧ ((laneIs { st := .probe, last := some (1, 0) } {}).laneAt 0).last = some (1, 0) ∧ 7 ≤ (7 : BitVec 4).toNat
    ∧ (let p : Probe := { addr := 1, lane := 0, dim := 0, profile := 0, smallD := 0, echoV := true, echoAddr := 0, echoLane := 0 }
       let s := laneIs { st := .probe } {}
       p.addr = s.cubeAddr ^^^ (1 <<< (s.laneAt 0).dim.toNat) ∧ p.dim = (s.laneAt 0).dim ∧ p.profile = s.profile ∧ s.profile ≠ 3
       ∧ p.echoAddr = s.cubeAddr ∧ p.echoLane.toNat = 0)
    ∧ (let s := laneIs { st := .active, spare := true, toStandby := true } {}
       (s.laneAt 0).spare = true ∧ (s.laneAt 0).st = .active ∧ (s.laneAt 0).toStandby = true ∧ (s.dimAt 0).held = [])
    ∧ (let s := laneIs { st := .active, errs := List.replicate 16 0 } {}
       (s.laneAt 0).testable = true ∧ (s.laneAt 0).errs.length ≤ s.crcLimit.toNat)
    ∧ (let s := laneIs { st := .active, errs := List.replicate 17 0 } { hk := some 7 }
       s.crcLimit.toNat < (s.laneAt 0).errs.length ∧ (s.dimAt 0).hk = some 7 ∧ (s.dimAt 0).held = [])
    ∧ ((laneIs { st := .active } {}).dimAt 0).hk = none ∧ ((laneIs { st := .active } { hk := some 7, ctlSeen := some 5 }).dimAt 0).ctlSeen = some 5
    ∧ (5 : W64) < 6 ∧ ((laneIs { st := .train } {}).laneAt 0).testable = false
    ∧ rsCorrects (List.replicate 15 1) = true ∧ rsCorrects (List.replicate 16 1) = false
    ∧ ((laneIs { st := .mismatch } {}).laneAt 0).locked = true ∧ 7 ≤ (15 : BitVec 4).toNat
    ∧ (let s := laneIs { st := .probe, last := some (1, 0) } { hop := .keyed }
       (s.laneAt 0).dimId = some 0 ∧ (s.dimAt 0).hop = .keyed)
    ∧ (let s : State := { live with lanes := ⟨[(0, { st := .active })]⟩ }
       (s.laneAt 0).dimId = none)
    ∧ ((laneIs { st := .active } {}).carry 0 []).2 = false
    ∧ ((laneIs { st := .train } {}).carry 0 via0).2 = false
    ∧ (∀ x ∈ [({} : Dim), { hk := some 7 }, { hk := some 7, ctlSeen := some 5 }],
       let s := laneIs { st := .active } x
       (s.carry 0 via0).2 = true ∧ (s.carry 0 via0).1.hopReady 0 = true ∧ ((s.carry 0 via0).1.laneAt 0).testable = true
       ∧ (s.carry 0 via0).1.dimAt 0 = x)
    ∧ (let s := { laneIs { st := .active, errs := List.replicate 17 0 } { hk := some 7 } with
         lanes := ⟨[(0, { st := .active, dim := 0, errs := List.replicate 17 0 }), (1, { st := .active, dim := 0 })]⟩ }
       (s.activeLanes 0).find? (fun q => q != 0) = some 1 ∧ (s.dimAt 0).ctlSent.toNat + 2 < 2 ^ 64) := by
  (repeat' apply And.intro) <;> decide

/-- A frame that waits, one held on lane 0, and the same for a received frame of stream 0. -/
def outF (t : BitVec 4) : OutFrame := { type := t, herd := 0, last := true, item := 0, offset := 0, payload := List.replicate 512 0 }
def heldF : HeldFrame := { herd := 0, frame := frame0 512 16, lane := 0 }
theorem test_met_FramesTravelOnceInOrder :
    (∀ k ∈ [1022, 1023], ((laneIs { st := .active, sentCount := k } {}).laneAt 0).locked = true)
    ∧ ((laneIs { st := .active } {}).laneAt 0).dimId = some 0 ∧ ((laneIs { st := .active } {}).dimAt 0).queue = []
    ∧ (let s := laneIs { st := .active } { queue := [outF 1], held := List.replicate 1024 heldF }
       1024 ≤ (s.dimAt 0).held.length ∧ ∀ o ∈ (s.dimAt 0).queue, o.type ≠ 4 ∧ o.type ≠ 6)
    ∧ (let s := laneIs { st := .ready } { queue := [{ outF 6 with clear := true }] }
       (s.dimAt 0).queue = [{ outF 6 with clear := true }] ∧ (outF 6).type = 6 ∧ (s.dimAt 0).ackDue = [])
    ∧ (∀ t ∈ [1, 2, 3], let s := laneIs { st := .active } { queue := [outF t], hk := some 7 }
       (s.dimAt 0).queue = [outF t] ∧ (s.dimAt 0).hk = some 7 ∧ (s.dimAt 0).held.length < 1024)
    ∧ (let s := { laneIs { st := .active } { queue := [outF 1], hk := some 7 } with arbSlot := true }
       s.arbSlot = true ∧ slotOwner s.arbNow 0 = some 0)
    ∧ (let s := { laneIs { st := .active } { queue := [{ outF 1 with herd := 1 }], hk := some 7 } with arbSlot := true }
       slotOwner s.arbNow 0 ≠ some 1)
    ∧ up.arbSlot = false ∧ (up.weights.get 0x10 0).toNat ≠ 0
    ∧ (let s := laneIs { st := .active, hunting := true } {}
       (s.laneAt 0).locked = true ∧ (s.laneAt 0).hunting = true ∧ (s.laneAt 0).dimId ≠ none)
    ∧ (let s := laneIs { st := .active } { hk := some 7, ctlSeen := some 5, held := [heldF], ackDue := [0] }
       (s.laneAt 0).hunting = false ∧ (s.dimAt 0).ctlSeen = some 5 ∧ (5 : W64) ≤ 5 ∧ (5 : W64) < 6 ∧ (s.dimAt 0).ackDue ≠ []
       ∧ (s.dimAt 0).held[0]? = some heldF ∧ s.dimUp 0 = true)
    ∧ (let s := { laneIs { st := .active } { hk := some 7, map := ⟨[(0, 1)]⟩ } with streams := ⟨[(0, { e := 4, seen := [6] })]⟩ }
       let st := s.streams.get {} 0
       (frame0 512 16).ackV = false ∧ (frame0 512 16).type = 1 ∧ (3 : W64) < st.e ∧ 6 ∈ st.seen ∧ st.e.toNat + 1024 ≤ 1028
       ∧ 1028 ∉ st.seen ∧ st.e ≤ 4 ∧ 1027 < st.e.toNat + 1024 ∧ 1027 ∉ st.seen ∧ st.e ∉ st.seen
       ∧ (s.dimAt 0).map.get 0 0 = 0 + 1 ∧ (s.dimAt 0).map.get 0 1 = 0 ∧ (s.herd 0).st = .live)
    ∧ (∀ m ∈ [sentE, { sentE with det := false }],
       let s := { runAs (fun x => { x with span := 1 }) run0 m { st := .idle } with cubeAddr := 1 }
       s.plan 0 = some m ∧ m.routes[0]? = some route0 ∧ (s.herd 0).sliceBit 0 = some 0 ∧ routeOrder route0 = [0]
       ∧ routeSends route0 (s.slicePos (s.herd 0) ^^^ 2 ^ 0) = true ∧ routeTakes route0 (s.slicePos (s.herd 0)) = true
       ∧ 512 * 0 < route0.bytes ∧ (s.herd 0).active = true ∧ s.current 0 0 (frame0 512 16) = true
       ∧ (s.runWr 0 route0.dst (List.replicate 512 0)).2 = stOK)
    ∧ (let s := { live with streams := ⟨[(0, { cut := 5 })]⟩ }
       s.current 0 0 (frame0 512 16) = false ∧ gentleStop tok0 = false ∧ (0 : W64) < 6
       ∧ gentleStop { tok0 with stop := true, faults := [frec 1] } = true
       ∧ gentleStop { tok0 with stop := true, faults := [frec 2] } = false ∧ (running.herd 0).run = some run0) := by
  (repeat' apply And.intro) <;> decide

/-! ### Interrupts, power, Serow, life cycle and repair -/

/-- The chip's controller is `x`. -/
def icIs (x : Ic) : State := { up with ics := ⟨[(0, x)]⟩ }
theorem test_met_InterruptControllersArbitrate :
    (icTargets (icIdx (.region 0)) ≤ 4 ∧ 0 < icTargets (icIdx .chip))
    ∧ ((icIs { active := ⟨[(0, 52)]⟩ }).icAt 0).active.get 0 0 = 51 + 1
    ∧ (((icIs {}).icAt 0).active.get 0 0 = 0 ∧ (icIs {}).icBest 0 0 = none)
    ∧ (let s := icIs { edge := ⟨[(51, true)]⟩, enable := ⟨[(51, true)]⟩, vector := true, raised := ⟨[(0, true)]⟩
                       gdis := false }
       s.icBest 0 0 = some 51 ∧ (s.icAt 0).vector = true ∧ s.icRequest 0 0 = true)
    ∧ (let s := icIs { edge := ⟨[(51, true)]⟩, enable := ⟨[(51, true)]⟩, raised := ⟨[(0, true)]⟩, gdis := true }
       (s.icAt 0).active.get 0 0 = 0 ∧ (s.icAt 0).gdis = true ∧ (s.icAt 0).raised.get false 0 = true)
    ∧ (icSource 0 51 = true ∧ icLevel 0 51 = false)
    ∧ ((icIs { held := ⟨[(3, true)]⟩ }).icAt 0).held.get false 3 = true ∧ (1 : W32).getLsbD 0 = true := by
  (repeat' apply And.intro) <;> decide

def test0 (p : Part) : Test := { part := p, status := 0x44, herds := [0], again := false }
/-- An unpowered unit whose PWR_EN is asserted, with Serow and the fuses as given. -/
def risen (w : Serow) (l : LifeCycle) : State := { pins := { pwrEn := true }, serow := w, lc := l }
theorem test_met_PowerGoodIsAColdBoot :
    (let s := risen {} {}
     s.pins.pwrEn = true ∧ s.pins.pwrGood = false ∧ s.pins.blocked = false ∧ (5 : BitVec 3).toNat < 6 ∧ s.pendingIntent = none
     ∧ s.lcState < 4 ∧ s.serow.root = none ∧ s.serow.latent = none ∧ s.serow.trips = [])
    ∧ (let s := risen { root := some 4, trips := [1, 3] } { fuseState := 0x1234 }
       s.pendingIntent = none ∧ 4 ≤ s.lcState ∧ s.serow.root = some 4 ∧ s.serow.trips.getLast? = some 3)
    ∧ 4800 ≤ (4800 : BitVec 16).toNat ∧ (6000 : BitVec 16).toNat ≤ 6000
    ∧ (4799 : BitVec 16).toNat < 4800 ∧ 6000 < (6001 : BitVec 16).toNat
    ∧ (let x := test0 (.scratchRow 0 3 5)
       x ∈ (risen {} {} |> fun s => { s with repair := { tests := [x] } } : State).repair.tests ∧ partBlock x.part = some 0)
    ∧ (1 : BitVec 3).getLsbD 0 = true ∧ (2 : BitVec 3).getLsbD 0 = false ∧ (2 : BitVec 3).getLsbD 1 = true := by
  (repeat' apply And.intro) <;> decide +kernel

theorem test_met_WarmResetsAndShutdowns :
    (up.pins.pwrGood = true ∧ up.pins.pwrEn = true ∧ up.tb.light = false ∧ State.reset.pins.pwrGood = false)
    ∧ (let s := { live with tb := { light := true, stringFault := true, posValid := true } }
       (s.herd 1).st = .absent ∧ s.lot 0 ≠ {} ∧ s.tb.light = true ∧ s.tb.stringFault = true ∧ s.tb.beacon = none)
    ∧ ({ live with tb := { light := true, beacon := some 7 } } : State).tb.beacon = some 7
    ∧ (up.pins.railsOn = true ∧ ({ pins with blocked := true } : Pins).railsOn = false ∧ State.reset.pins.pwrEn = false)
    ∧ (up.serow.vin = 0 ∧ up.serow.vbatMv ≠ 0)
    ∧ up.fuseBusy = false ∧ ({ up with lc := { svnWriting := true } } : State).lc.svnWriting = true := by
  (repeat' apply And.intro) <;> decide

/-- Tahr's boot state is `x`, and the host reaches the mailbox. -/
def booting (x : Tahr) : State := { up with tahr := x }
theorem test_met_RecoveryTakesAndVerifiesAnImage :
    ((booting { st := 2 }).reach .pf = true ∧ (booting { st := 2 }).tahr.st = 2 ∧ (booting { st := 1 }).tahr.st ≠ 2)
    ∧ (∀ n ∈ [64, 65536], let o : W32 := 64
       let s := booting { st := 1, total := some (64 + n) }
       s.tahr.st = 1 ∧ o.toNat + n ≤ 64 + n ∧ 64 ≤ n ∧ n ≤ 65536 ∧ n % 64 = 0)
    ∧ (let s := booting { st := 1, total := some 128, got := [(0, 64), (64, 128)] }
       s.tahr.total = some 128 ∧ ∀ a, a < 128 → ∃ r ∈ s.tahr.got, r.1 ≤ a ∧ a < r.2)
    ∧ ((booting { st := 3, imageLen := 5 }).tahr.imageLen ≠ 0 ∧ up.tahr.imageLen = 0)
    ∧ (let s := booting { st := 2, candLen := 3, sig := [1, 2] }
       s.tahr.entropyBad = false ∧ s.tahr.strWait = none ∧ s.tahr.imgWaits = []
       ∧ s.imageFail (s.mem.readBytes (lotAddr 1008 0) s.tahr.candLen ++ s.tahr.sig) ≠ 0)
    ∧ (booting { st := 2, strWait := some [1] }).tahr.strWait = some [1] ∧ (booting { st := 2, entropyBad := true }).tahr.entropyBad = true
    ∧ ((booting { st := 1, imgAsked := 1 }).tahr.imgAsked ≠ 0 ∧ (booting { st := 2, imgAsked := 1 }).tahr.strWait = none
      ∧ up.tahr.imgAsked = 0) := by
  (repeat' apply And.intro) <;> decide

theorem test_met_SerowGuardsItsSecrets :
    (up.pins.pwrGood = true ∧ State.reset.pins.pwrGood = false ∧ (5 : Fin 7).val ≠ 6 ∧ (1 : Fin 7).val ≠ 0)
    ∧ ((4500 : BitVec 16).toNat ≤ 4500 ∧ (4500 : BitVec 16) ≠ 0 ∧ 4500 < (4501 : BitVec 16).toNat ∧ (1 : BitVec 12) ≠ 0)
    ∧ (State.reset.serow.vin = 0 ∧ State.reset.serow.vbatMv = 3000 ∧ (2599 : BitVec 12).toNat < 2600 ∧ (2199 : BitVec 12).toNat < 2200)
    ∧ up.tahr.entropyBad = false
    ∧ (let s := booting { st := 3, entropyBad := true, renewDue := true }
       s.tahr.entropyBad = true ∧ s.quiet ∧ (∀ d, (s.dimAt d).encapDue = none)
       ∧ (∀ w, (s.win w).sweepDue = false ∧ (s.win w).waiting = []) ∧ s.lc.seq = none ∧ s.tahr.renewDue = true)
    ∧ (let q : FuseSeq := { k := 3, stage := 0, writing := false, resumed := false, draws := true }
       let s := { booting { st := 3, entropyBad := true } with lc := { seq := some q } }
       s.lc.seq = some q ∧ q.draws = true ∧ s.tahr.renewDue = false) := by
  unfold State.quiet; (repeat' apply And.intro) <;> decide

/-- A unit whose life cycle is `l` and whose hold-up condition is met. -/
def aged (l : LifeCycle) : State := { up with lc := l, serow := { p56 := 5600, holdup := 300 } }
theorem test_met_DebugAndLifeCycleMessages :
    ((aged {}).debugAlive = true ∧ (aged {}).lcState < 4 ∧ (aged {}).tahr.entropyBad = false ∧ (2 : W64) ≠ 1)
    ∧ ((aged { fuseState := 0x5A3C5A3C5A3C5A3C }).debugAlive = true ∧ 4 ≤ (aged { fuseState := 0x5A3C5A3C5A3C5A3C }).lcState)
    ∧ ((aged {}).reach .pf = true ∧ (aged {}).tahr.st ≠ 4 ∧ (aged {}).lcState = 0 ∧ (aged {}).lc.kill = 0
      ∧ (aged { kill := 1 }).lc.kill ≠ 0 ∧ (aged { fuseState := 0x5A3C }).lcState ≠ 0)
    ∧ ((aged {}).certCheck 1 0 [] ≠ 0)
    ∧ (let s := { aged {} with tahr := { st := 3, entropyBad := true } }
       s.reach .pf = true ∧ s.debugAlive = true ∧ s.lcState < 4 ∧ s.tahr.entropyBad = true ∧ s.lc.seq = none)
    ∧ (256 ≤ (256 : W32).toNat ∧ (255 : W32).toNat < 256)
    ∧ ((4 : W32).toNat = 4 ∧ (aged {}).lc.seq = none ∧ (aged {}).anyHerd = false ∧ (aged {}).powerOk = true
      ∧ up.powerOk = false ∧ live.anyHerd = true)
    ∧ ((aged {}).certCheck 2 1 [] ≠ 0 ∧ (1 : W32).toNat = (aged {}).lcState + 1)
    ∧ ((2 : W32).toNat = (aged { fuseState := 0x5A3C }).lcState + 1)
    ∧ (∀ g ∈ [0, 1, 2], let q : FuseSeq := { k := 3, stage := g, writing := true, resumed := false }
       (aged { seq := some q }).lc.seq = some q ∧ q.writing = true ∧ (aged { seq := some q }).lc.svnWriting = false)
    ∧ up.fuseBusy = false ∧ (aged { svnWriting := true }).lc.svnWriting = true := by
  (repeat' apply And.intro) <;> decide

theorem test_met_ErrorsReachTheirHerdRegionOrChip :
    (partBlock (.cell 0 3) = some 0 ∧ running.owner 0 = some 0 ∧ (running.herd 0).run = some run0 ∧ running.quiet)
    ∧ (let s := (atV (.mclr 1)).modBlock 0 fun x => x.setPair 0 { run := some { mmaRun0 mma0 with
          inGroup := true, offer := some { data := 0, scale := 127 } } }
       s.quiet ∧ s.offering (.cell 0 0) = true ∧ s.offering (.cell 0 15) = false ∧ s.idleChan (.cell 0 0) = true
       ∧ ({ s with repair := { stalled := [.cell 0 0] } } : State).idleChan (.cell 0 0) = false)
    ∧ (let s := atV (.setr setr0)
       let p : Part := .rowPort ⟨regionOf 0, by decide⟩ ⟨s.meshRow 0, by decide⟩
       s.offering (.blockChan 0) = true ∧ s.offering .hubChan = true ∧ s.offering p = true ∧ s.idleChan p = true)
    ∧ (copying none).offering .hubChan = true
    ∧ (up.offering (.cell 0 0) = false)
    ∧ (up.repair.hubErr.any up.recent = false ∧ live.repair.hubErr = none)
    ∧ (let s := { up with repair := { hubErr := some 0 } }
       s.repair.hubErr.any s.recent = true)
    ∧ (2047 : BitVec 12).toNat < 2048
    ∧ up.winAt (linOf 0) = none
    ∧ (let s := winIs { win0 with base := 0, size := 65536 }
       s.winAt (linOf 0) = some (0, 0) ∧ (nodeAt 65536 0).isSome = false ∧ (nodeAt 65536 (nodeOff 65536 0 0)).isSome = true)
    ∧ live.herdsIn 0 = [0] ∧ live.herdsIn 1 = []
    ∧ (∀ e ∈ [0, 5, 6, 7], (e : BitVec 3) = 6 ∨ e ≠ 6)
    ∧ ((winIs win0).win 0).st ≠ 0
    ∧ (correctable (.scratchRow 0 3 5)).isSome = true ∧ (correctable .tahrMem) = some false := by
  unfold State.quiet; (repeat' apply And.intro) <;> decide

def rec0 (p : Part) (k : RecordKind) : MramRecord := { part := p, kind := k, status := 0x44, herds := [0], lost := false }
/-- `live` with repair state `r`. -/
def repairs (r : Repair) : State := { live with repair := r }
/-- A stack that has used as many spare rows as the register can count has none left, however many it was built with. -/
theorem test_met_RepairsRunTheirCourse_page :
    ({ live with hbm := ⟨[(5, { repaired := 255 })]⟩ } : State).lastingKind (.hbmLine 5) = .pageFenced := by
  have h : ¬ ((255 : Nat) < min 255 (Config.pprRows 5)) := by omega
  exact if_neg h
theorem test_met_RepairsRunTheirCourse :
    (∀ p ∈ [Part.scratchRow 0 3 5, .cell 0 3, .lane 0, .hubChan], (repairs { tests := [test0 p] }).dueTest p = some (test0 p))
    ∧ (∀ r ∈ [rec0 (.scratchRow 0 3 5) .row, rec0 (.cell 0 3) .cellMoved, rec0 (.hbmLine 5) .pageFenced, rec0 (.rowPort 0 0) .groupRetired],
        (repairs { records := [r] }).recordable r = true ∧ (repairs { records := [r] }).tahr.st ≠ 4)
    ∧ ((repairs {}).lastingKind (.scratchRow 0 3 5) = .row ∧ (repairs {}).repair.cellMoved.get 0 0 = 0 ∧ (repairs {}).lastingKind (.rowPort 0 0) = .groupRetired)
    ∧ (∀ r ∈ (repairs {}).repair.records, (repairs {}).recordable r = false)
    ∧ ((repairs { restarts := ⟨[(0, true)]⟩ }).repair.restarts.get false 0 = true ∧ live.repair.restarts.get false 0 = false
       ∧ ∀ b : BlockId, (live.block b).st = .idle)
    ∧ (test0 (.csRow 0 3 5)).loses = true ∧ (test0 (.cell 0 3)).loses = false
    ∧ (live.lastingKind (.seqRow 0 3) = .blockMoved ∧ (rec0 (.seqRow 0 3) .blockMoved).status ≠ 0)
    ∧ (repairs { groupRetired := {} }).groupsOf (.rowPort 0 0) ≠ []
    ∧ (({ live with lots := ⟨[(0, { clearing := true })]⟩ } : State).lot 0).clearing = true
    ∧ (up.stack 0).st = 0 ∧ (up.stack 0).hot = false ∧ 85 < (86 : BitVec 8).toNat ∧ (80 : BitVec 8).toNat ≤ 80
    ∧ (({ up with hbm := ⟨[(0, { st := 1, hot := true })]⟩ } : State).stack 0).hot = true := by
  (repeat' apply And.intro) <;> decide

/-! ### The whole machine -/

theorem test_met_VerbWordsEncodeAndDecode :
    verbOk (Verb.mma mma0) = true ∧ decodeVerb (encodeVerb ⟨.mma mma0, i0⟩) = some ⟨.mma mma0, i0⟩ := by
  (repeat' apply And.intro) <;> decide
theorem test_met_StepsKeepTheCanonicalForm : up.canonical = true ∧ isNext (step up) = true := by
  (repeat' apply And.intro) <;> decide
theorem test_met_CommandsLeaveTheQueue :
    { up with pending := [.query] }.pending = .query :: [] ∧ isNext (step { up with pending := [.query] }) = true := by
  (repeat' apply And.intro) <;> decide
theorem test_met_BlockFaultsStopOneHerd :
    up.pins.pwrGood = true ∧ running.quiet ∧ partBlock (.cell 0 3) = some 0 ∧ running.owner 0 = some 0 := by
  unfold State.quiet; (repeat' apply And.intro) <;> decide
theorem test_met_CommittedConfigurationStays : up.cfg.st = 2 ∧ isNext (step up) = true
    ∧ isNext (step { up with pending := [.perstAssert] }) = true ∧ resetsUnit .perstAssert = true := by
  (repeat' apply And.intro) <;> decide
/-- No row of the table gives bits, so no word spells a command. -/
theorem test_decode_table_word : decodeTableWord 32 0xFFFFFFFF = none := rfl

end Sys2Proof.Tests
end

section
/-!
The lane-wise register verbs of class 0x1 (O14). The first parts say once what a write of a vector register and the raising of
lane flags leave in a lane, and that a register verb which may issue puts `regLane` into every lane of VD; the last parts
read `regLane` as the arithmetic of R154, R155, R158 and Table 05.3.
-/
namespace Sys2Proof.Machine

/-! ## Vector cells -/

/-- A list written to consecutive keys reads back at those keys, and every other key keeps its value. -/
theorem Tbl.get_foldl_set_zipIdx {β : Type} [DecidableEq β] (d : β) (k j : Nat) (l : List β) (n : Nat) (t : Tbl β) :
    ((l.zipIdx n).foldl (fun t e => t.set d (k + e.2) e.1) t).get d j
      = if k + n ≤ j then (l[j - (k + n)]?).getD (t.get d j) else t.get d j := by
  induction l generalizing n t with
  | nil => simp
  | cons x r ih =>
    rw [List.zipIdx_cons, List.foldl_cons, ih, Tbl.get_set]
    rcases Nat.lt_trichotomy j (k + n) with h | h | h
    · rw [if_neg (by omega), if_neg (by omega), if_neg (by omega)]
    · rw [if_neg (by omega), if_pos h, if_pos (by omega)]
      simp [h]
    · rw [if_pos (by omega), if_neg (by omega), if_pos (by omega),
        show j - (k + n) = j - (k + (n + 1)) + 1 by omega, List.getElem?_cons_succ]

/-- A lane of a register just written holds its entry of the list. -/
theorem VCell.lane_setReg_same (c : VCell) (r : BitVec 5) (v : List W32) {l : Nat} (hl : l < 64) :
    (c.setReg r v).lane r l = (v[l]?).getD (c.lane r l) := by
  have h := Tbl.get_foldl_set_zipIdx (0 : W32) (r.toNat * 64) (r.toNat * 64 + l) (v.take 64) 0 c.regs
  simpa [VCell.setReg, VCell.lane, List.getElem?_take_of_lt hl] using h

@[simp] theorem VCell.flags_setReg (c : VCell) (r : BitVec 5) (v : List W32) : (c.setReg r v).flags = c.flags := rfl

theorem VCell.flags_raise (c : VCell) (k l : Nat) (f : Flags) :
    (c.raise k f).flags.get 0 l = if l = k then c.flags.get 0 l ||| f.word else c.flags.get 0 l := by
  rw [VCell.raise, Tbl.get_set]
  split
  · next e => rw [e]
  · rfl

/-- The flags that `raiseAll` raises, from any first lane on. -/
theorem VCell.foldl_raise_spec (fl : List Flags) (n l : Nat) (c : VCell) :
    ((fl.zipIdx n).foldl (fun c e => c.raise e.2 e.1) c).regs = c.regs
    ∧ ((fl.zipIdx n).foldl (fun c e => c.raise e.2 e.1) c).flags.get 0 l
      = if n ≤ l then c.flags.get 0 l ||| ((fl[l - n]?).getD {}).word else c.flags.get 0 l := by
  induction fl generalizing n c with
  | nil => simp [Flags.word, b2n]
  | cons f r ih =>
    obtain ⟨hregs, hflags⟩ := ih (n + 1) (c.raise n f)
    rw [List.zipIdx_cons, List.foldl_cons]
    refine ⟨hregs, hflags.trans ?_⟩
    rw [VCell.flags_raise]
    rcases Nat.lt_trichotomy l n with h | h | h
    · rw [if_neg (by omega), if_neg (by omega), if_neg (by omega)]
    · rw [if_neg (by omega), if_pos h, if_pos (by omega)]
      simp [h]
    · rw [if_pos (by omega), if_neg (by omega), if_pos (by omega),
        show l - n = l - (n + 1) + 1 by omega, List.getElem?_cons_succ]

@[simp] theorem VCell.lane_raiseAll (c : VCell) (fl : List Flags) (r : BitVec 5) (l : Nat) :
    (c.raiseAll fl).lane r l = c.lane r l := by
  rw [VCell.lane, VCell.raiseAll, (VCell.foldl_raise_spec fl 0 0 c).1, VCell.lane]

/-- A lane's flags gain the flags of its entry of the list. -/
theorem VCell.flags_raiseAll (c : VCell) (fl : List Flags) (l : Nat) :
    (c.raiseAll fl).flags.get 0 l = c.flags.get 0 l ||| ((fl[l]?).getD {}).word :=
  (VCell.foldl_raise_spec fl 0 l c).2.trans (if_pos (Nat.zero_le l))

@[simp] theorem Block.vcell_setVcell_same (x : Block) (k : BitVec 2) (v : VCell) : (x.setVcell k v).vcell k = v := by
  simp [Block.setVcell, Block.vcell]

/-! ## Register verbs -/

/-- The verbs whose lanes are computed one by one, by `regLane`. -/
def RegFn.laneWise : RegFn → Bool
  | .vsplat | .vgetf | .vclrf | .vargmax | .vargmin => false
  | _ => true

/-- What a lane-wise verb leaves of its block (R153, R165). -/
theorem State.runReg_of_laneWise {f : RegFn} (hf : RegFn.laneWise f = true) (s : State) (b : BlockId) (o : RegOp) :
    s.runReg b f o =
      (let c := (s.block b).vcell o.cell
       let r := lanes64.map fun l => regLane f o l (c.lane o.vd l) (c.lane o.sa l) (c.lane o.sb l) (c.lane o.sc l)
       s.setBlock b (((s.block b).raise (orFlags (r.map (·.2)))).setVcell o.cell
         ((c.setReg o.vd (r.map (·.1))).raiseAll (r.map (·.2))))) := by
  unfold State.runReg
  split
  case h_6 => rfl
  all_goals contradiction

/-- A lane-wise verb puts `regLane` into each lane of VD, and raises its flags there. -/
theorem State.runReg_lane {f : RegFn} (hf : RegFn.laneWise f = true) (s : State) (b : BlockId) (o : RegOp) {l : Nat}
    (hl : l < 64) :
    (let c := (s.block b).vcell o.cell
     let d := ((s.runReg b f o).block b).vcell o.cell
     let r := regLane f o l (c.lane o.vd l) (c.lane o.sa l) (c.lane o.sb l) (c.lane o.sc l)
     d.lane o.vd l = r.1 ∧ d.flags.get 0 l = c.flags.get 0 l ||| r.2.word) := by
  have hl64 : lanes64[l]? = some l := by simp [lanes64, hl]
  rw [State.runReg_of_laneWise hf]
  dsimp only
  rw [State.block_setBlock_same, Block.vcell_setVcell_same, VCell.flags_raiseAll]
  simp [VCell.lane_setReg_same _ _ _ hl, hl64]

/-- A register verb that may issue does what `runReg` says, is metered, and the block goes on to the next verb. -/
theorem exec_regVerb {f : RegFn} {h : HerdId} {b : BlockId} {i : Issue} {o : RegOp} {s : State}
    (hs : s.canIssue h b ⟨.reg f o, i⟩) :
    exec (RegFn.toInstr f b i o) s =
      .next (((s.meterSteps h (s.periods b (.reg f o))).runReg b f o).modBlock b fun x =>
        { x with st := .issue, pos := x.pos + 1, seg := x.seg + segEnds ⟨.reg f o, i⟩ }) := by
  obtain ⟨hat, hwait, hheld⟩ := hs
  have hexec : exec (RegFn.toInstr f b i o) s = s.issueVerb b ⟨.reg f o, i⟩ := by cases f <;> rfl
  have hrun : s.runVerb h b (.reg f o) = ((s.meterSteps h (s.periods b (.reg f o))).runReg b f o, stOK) := rfl
  rw [hexec, State.issueVerb, hat]
  simp [hwait, hheld, hrun, verbLen]

/-- What `regLane` gives and raises in one lane holds of every lane that a lane-wise verb leaves. -/
theorem laneMeets_of_regLane {f : RegFn} (hf : RegFn.laneWise f = true)
    {p : RegOp → Nat → W32 → W32 → W32 → W32 → W32 → BitVec 5 → BitVec 5 → Prop}
    (hp : ∀ o l d a b c w, p o l d a b c (regLane f o l d a b c).1 w (w ||| (regLane f o l d a b c).2.word)) :
    laneMeets f p := by
  intro h b i o s hs
  refine ⟨_, exec_regVerb hs, fun l hl => ?_⟩
  obtain ⟨hlane, hflags⟩ := State.runReg_lane hf (s.meterSteps h (s.periods b (.reg f o))) b o hl
  let c := (s.block b).vcell o.cell
  have hr := hp o l (c.lane o.vd l) (c.lane o.sa l) (c.lane o.sb l) (c.lane o.sc l) (c.flags.get 0 l)
  rw [State.block_modBlock_same]
  exact hlane.symm.subst (motive := fun q => p o l _ _ _ _ q _ _) (hflags.symm.subst (motive := p o l _ _ _ _ _ _) hr)

/-! ## Flags in one lane -/

@[simp] theorem Flags.word_none : Flags.word {} = 0 := rfl
@[simp] theorem Flags.word_sat (x : Bool) : Flags.word { sat := x } = if x then 0b10000 else 0 := by cases x <;> rfl
@[simp] theorem Flags.word_inv (x : Bool) : Flags.word { inv := x } = if x then 1 else 0 := by cases x <;> rfl

/-- A verb that raises no flag keeps those of the lane. -/
theorem laneMeets_of_noFlags {f : RegFn} (hf : RegFn.laneWise f = true) {v : RegOp → Nat → W32 → W32 → W32 → W32 → W32}
    (hv : ∀ o l d a b c, regLane f o l d a b c = (v o l d a b c, {})) :
    laneMeets f fun o l d a b c q w w' => q = v o l d a b c ∧ w' = w :=
  laneMeets_of_regLane hf fun o l d a b c w => by simp [hv]

/-! ## Integer verbs (R155, R158) -/

theorem toInt_w32OfInt {e : Int} (hlo : -2 ^ 31 ≤ e) (hhi : e < 2 ^ 31) : (w32OfInt e).toInt = e :=
  BitVec.toInt_ofInt_eq_self (by decide) hlo hhi

/-- R155: the result saturates to ±(2^31 − 1), and SAT says whether it did. -/
theorem satWord_spec (e : Int) :
    (satWord e).1.toInt = max (-(2 ^ 31 - 1)) (min (2 ^ 31 - 1) e)
    ∧ (satWord e).2.word = if e < -(2 ^ 31 - 1) ∨ 2 ^ 31 - 1 < e then 0b10000 else 0 := by
  unfold satWord satInt32 int32Max
  rcases Int.lt_or_le e (-2147483647) with hlo | hlo
  · rw [if_pos hlo]
    exact ⟨by rw [toInt_w32OfInt] <;> omega, by rw [if_pos (by omega)]; rfl⟩
  · rw [if_neg (by omega)]
    rcases Int.lt_or_le 2147483647 e with hhi | hhi
    · rw [if_pos hhi]
      exact ⟨by rw [toInt_w32OfInt] <;> omega, by rw [if_pos (by omega)]; rfl⟩
    · rw [if_neg (by omega)]
      exact ⟨by rw [toInt_w32OfInt] <;> omega, by rw [if_neg (by omega)]; rfl⟩

/-- A verb whose lane is `satWord` of an exact integer result. -/
theorem laneMeets_of_satWord {f : RegFn} (hf : RegFn.laneWise f = true) {e : W32 → W32 → Int}
    (he : ∀ o l d a b c, regLane f o l d a b c = satWord (e a b)) :
    laneMeets f fun _ _ _ a b _ q w w' => q.toInt = max (-(2 ^ 31 - 1)) (min (2 ^ 31 - 1) (e a b))
      ∧ w' = w ||| (if e a b < -(2 ^ 31 - 1) ∨ 2 ^ 31 - 1 < e a b then 0b10000 else 0) :=
  laneMeets_of_regLane hf fun o l d a b c w => by
    obtain ⟨hval, hflag⟩ := satWord_spec (e a b)
    rw [he]
    exact ⟨hval, by rw [hflag]⟩

/-- R158: the code 255 stays; every other is moved by SB and clamped to 0 to 254, with SAT where the clamp acts. -/
theorem expAddLane_spec (a b : W32) :
    (a.toNat % 256 = 255 → (expAddLane a b).1 = 255 ∧ (expAddLane a b).2.word = 0)
    ∧ (a.toNat % 256 ≠ 255 →
      (expAddLane a b).1.toInt = max 0 (min 254 (((a.toNat % 256 : Nat) : Int) + b.toInt))
      ∧ (expAddLane a b).2.word = if ((a.toNat % 256 : Nat) : Int) + b.toInt < 0
          ∨ 254 < ((a.toNat % 256 : Nat) : Int) + b.toInt then 0b10000 else 0) := by
  have hcode : bits a.toNat 0 8 = a.toNat % 256 := rfl
  unfold expAddLane
  rw [hcode]
  generalize a.toNat % 256 = c
  refine ⟨fun hc => by rw [if_pos hc]; exact ⟨rfl, rfl⟩, fun hc => ?_⟩
  rw [if_neg hc]
  dsimp only
  generalize (c : Int) + b.toInt = n
  rcases Int.lt_or_le n 0 with hlo | hlo
  · rw [if_pos hlo, if_pos (.inl hlo)]
    exact ⟨show (0 : Int) = _ by omega, rfl⟩
  · rw [if_neg (by omega)]
    rcases Int.lt_or_le 254 n with hhi | hhi
    · rw [if_pos hhi, if_pos (.inr hhi)]
      exact ⟨show (254 : Int) = _ by omega, rfl⟩
    · rw [if_neg (by omega), if_neg (by omega)]
      exact ⟨by rw [toInt_w32OfInt] <;> omega, rfl⟩

/-! ## FP32 words by value (R154, Table 05.3) -/

/-- A number's place among the FP32 numbers: equal for the two zeros, else in the order of their values. -/
def value32 (w : W32) : Int := if w.toNat < 2 ^ 31 then (w.toNat : Int) else 2 ^ 31 - (w.toNat : Int)

theorem isNan32_eq (w : W32) :
    isNan32 w = decide (w.toNat / 2 ^ 23 % 256 = 255 ∧ w.toNat % 2 ^ 23 ≠ 0) := by
  rw [Bool.eq_iff_iff]
  simp [isNan32, bits, Nat.shiftRight_eq_div_pow]

/-- `ordKey32` orders by value, and puts −0 just below +0. -/
theorem ordKey32_lt_iff (a b : W32) : ordKey32 a < ordKey32 b ↔
    value32 a < value32 b ∨ value32 a = value32 b ∧ 2 ^ 31 ≤ a.toNat ∧ b.toNat < 2 ^ 31 := by
  unfold ordKey32 value32
  omega

theorem isZero32_iff (w : W32) : isZero32 w = true ↔ value32 w = 0 := by
  have hw := w.isLt
  simp only [isZero32, bits, value32, Nat.shiftRight_zero, beq_iff_eq]
  omega

/-- Equal by value: the same word, or two zeros. -/
theorem value32_eq_iff (a b : W32) : value32 a = value32 b ↔ a = b ∨ value32 a = 0 ∧ value32 b = 0 := by
  have ha := a.isLt
  have hb := b.isLt
  rw [BitVec.toNat_eq]
  unfold value32
  omega

theorem fLt_eq (a b : W32) : fLt a b = (!(isNan32 a || isNan32 b) && decide (value32 a < value32 b)) := by
  unfold fLt
  cases isNan32 a || isNan32 b with
  | true => rfl
  | false =>
    by_cases hz : value32 a = 0 ∧ value32 b = 0
    · simp [isZero32_iff, hz]
    · have hkey : ordKey32 a < ordKey32 b ↔ value32 a < value32 b := by
        rw [ordKey32_lt_iff]
        unfold value32 at *
        omega
      simp [isZero32_iff, hz, hkey]

/-- R154: `VMAX` returns an operand of the greater value, and +0 rather than −0. -/
theorem fMax_spec (a b : W32) :
    (isNan32 a || isNan32 b → fMax a b = 0x7FC00000)
    ∧ (isNan32 a = false → isNan32 b = false →
      (fMax a b = a ∨ fMax a b = b) ∧ value32 a ≤ value32 (fMax a b) ∧ value32 b ≤ value32 (fMax a b)
      ∧ (value32 a = value32 b → a.toNat < 2 ^ 31 ∨ b.toNat < 2 ^ 31 → (fMax a b).toNat < 2 ^ 31)) := by
  refine ⟨fun hn => if_pos hn, fun ha hb => ?_⟩
  have hmax : fMax a b = if ordKey32 a < ordKey32 b then b else a := if_neg (by simp [ha, hb])
  rw [hmax]
  split
  · next hlt =>
    rw [ordKey32_lt_iff] at hlt
    exact ⟨.inr rfl, by omega, Int.le_refl _, by unfold value32 at *; omega⟩
  · next hge =>
    rw [ordKey32_lt_iff] at hge
    exact ⟨.inl rfl, Int.le_refl _, by omega, by omega⟩

/-- R154: `VMIN` returns an operand of the lesser value, and −0 rather than +0. -/
theorem fMin_spec (a b : W32) :
    (isNan32 a || isNan32 b → fMin a b = 0x7FC00000)
    ∧ (isNan32 a = false → isNan32 b = false →
      (fMin a b = a ∨ fMin a b = b) ∧ value32 (fMin a b) ≤ value32 a ∧ value32 (fMin a b) ≤ value32 b
      ∧ (value32 a = value32 b → 2 ^ 31 ≤ a.toNat ∨ 2 ^ 31 ≤ b.toNat → 2 ^ 31 ≤ (fMin a b).toNat)) := by
  refine ⟨fun hn => if_pos hn, fun ha hb => ?_⟩
  have hmin : fMin a b = if ordKey32 b < ordKey32 a then b else a := if_neg (by simp [ha, hb])
  rw [hmin]
  split
  · next hlt =>
    rw [ordKey32_lt_iff] at hlt
    exact ⟨.inr rfl, by omega, Int.le_refl _, by omega⟩
  · next hge =>
    rw [ordKey32_lt_iff] at hge
    exact ⟨.inl rfl, Int.le_refl _, by omega, by omega⟩

/-- The equality of `VCMP`: numbers of one value. -/
theorem cmpEq_eq (a b : W32) :
    (!(isNan32 a || isNan32 b) && (a == b || (isZero32 a && isZero32 b)))
      = decide ((isNan32 a || isNan32 b) = false ∧ value32 a = value32 b) := by
  rw [Bool.eq_iff_iff]
  simp [isZero32_iff, value32_eq_iff a b]

/-- Table 05.3, condition by condition: the mask of a lane and the INV that an ordered comparison of a NaN raises. -/
theorem cmpLane_spec (a b : W32) :
    cmpLane 0 a b = (if (isNan32 a || isNan32 b) = false ∧ value32 a = value32 b then 0xFFFFFFFF else 0, {})
    ∧ cmpLane 1 a b = (if (isNan32 a || isNan32 b) = false ∧ value32 a < value32 b then 0xFFFFFFFF else 0,
        { inv := isNan32 a || isNan32 b })
    ∧ cmpLane 2 a b = (if (isNan32 a || isNan32 b) = false ∧ value32 a ≤ value32 b then 0xFFFFFFFF else 0,
        { inv := isNan32 a || isNan32 b })
    ∧ cmpLane 3 a b = (if (isNan32 a || isNan32 b) = true then 0xFFFFFFFF else 0, {})
    ∧ cmpLane 4 a b = (if a = b then 0xFFFFFFFF else 0, {})
    ∧ cmpLane 5 a b = (if a.toInt < b.toInt then 0xFFFFFFFF else 0, {})
    ∧ cmpLane 6 a b = (if a.toInt ≤ b.toInt then 0xFFFFFFFF else 0, {}) := by
  have hlt : fLt a b = decide ((isNan32 a || isNan32 b) = false ∧ value32 a < value32 b) := by
    rw [fLt_eq, Bool.decide_and, Bool.decide_eq_false]
  have hle : (fLt a b || decide ((isNan32 a || isNan32 b) = false ∧ value32 a = value32 b))
      = decide ((isNan32 a || isNan32 b) = false ∧ value32 a ≤ value32 b) := by
    rw [hlt, ← Bool.decide_or, decide_eq_decide, ← and_or_left, Int.le_iff_lt_or_eq]
  unfold cmpLane
  simp only [cmpEq_eq, hle]
  simp [hlt, mask32]

/-! ## The verbs, lane by lane -/

/-- R154 in each lane of VD. -/
theorem laneMeets_vmax : laneMeets .vmax fun _ _ _ a b _ q w w' => w' = w
    ∧ (isNan32 a || isNan32 b → q = 0x7FC00000)
    ∧ (isNan32 a = false → isNan32 b = false → (q = a ∨ q = b) ∧ value32 a ≤ value32 q ∧ value32 b ≤ value32 q
      ∧ (value32 a = value32 b → a.toNat < 2 ^ 31 ∨ b.toNat < 2 ^ 31 → q.toNat < 2 ^ 31)) :=
  laneMeets_of_regLane rfl fun _ _ _ a b _ _ => ⟨BitVec.or_zero, fMax_spec a b⟩

/-- R154 in each lane of VD. -/
theorem laneMeets_vmin : laneMeets .vmin fun _ _ _ a b _ q w w' => w' = w
    ∧ (isNan32 a || isNan32 b → q = 0x7FC00000)
    ∧ (isNan32 a = false → isNan32 b = false → (q = a ∨ q = b) ∧ value32 q ≤ value32 a ∧ value32 q ≤ value32 b
      ∧ (value32 a = value32 b → 2 ^ 31 ≤ a.toNat ∨ 2 ^ 31 ≤ b.toNat → 2 ^ 31 ≤ q.toNat)) :=
  laneMeets_of_regLane rfl fun _ _ _ a b _ _ => ⟨BitVec.or_zero, fMin_spec a b⟩

/-- `VIMAX` and `VIMIN` choose an operand by its signed value. -/
theorem laneMeets_vimax : laneMeets .vimax fun _ _ _ a b _ q w w' => q.toInt = max a.toInt b.toInt ∧ w' = w :=
  laneMeets_of_regLane rfl fun o l d a b c w => by
    refine ⟨?_, BitVec.or_zero⟩
    dsimp only [regLane]
    split
    all_goals omega
theorem laneMeets_vimin : laneMeets .vimin fun _ _ _ a b _ q w w' => q.toInt = min a.toInt b.toInt ∧ w' = w :=
  laneMeets_of_regLane rfl fun o l d a b c w => by
    refine ⟨?_, BitVec.or_zero⟩
    dsimp only [regLane]
    split
    all_goals omega

/-- R158 in each lane of VD. -/
theorem laneMeets_vexpadd : laneMeets .vexpadd fun _ _ _ a b _ q w w' =>
    (a.toNat % 256 = 255 → q = 255 ∧ w' = w)
    ∧ (a.toNat % 256 ≠ 255 → q.toInt = max 0 (min 254 (((a.toNat % 256 : Nat) : Int) + b.toInt))
      ∧ w' = w ||| (if ((a.toNat % 256 : Nat) : Int) + b.toInt < 0
          ∨ 254 < ((a.toNat % 256 : Nat) : Int) + b.toInt then 0b10000 else 0)) :=
  laneMeets_of_regLane rfl fun o l d a b c w => by
    obtain ⟨hnan, hcode⟩ := expAddLane_spec a b
    refine ⟨fun hc => ?_, fun hc => ?_⟩
    · obtain ⟨hval, hflag⟩ := hnan hc
      exact ⟨hval, (congrArg (w ||| ·) hflag).trans BitVec.or_zero⟩
    · obtain ⟨hval, hflag⟩ := hcode hc
      exact ⟨hval, congrArg (w ||| ·) hflag⟩

/-- Table 05.3 in each lane of VD. -/
theorem laneMeets_vcmp : laneMeets .vcmp fun o _ _ a b _ q w w' =>
    let nan := isNan32 a || isNan32 b
    let cond := (o.sub.extractLsb' 3 3).toNat
    let mask := fun (c : Prop) [Decidable c] => if c then (0xFFFFFFFF : W32) else 0
    (cond = 0 → q = mask (nan = false ∧ value32 a = value32 b) ∧ w' = w)
    ∧ (cond = 1 → q = mask (nan = false ∧ value32 a < value32 b) ∧ w' = w ||| (if nan then 1 else 0))
    ∧ (cond = 2 → q = mask (nan = false ∧ value32 a ≤ value32 b) ∧ w' = w ||| (if nan then 1 else 0))
    ∧ (cond = 3 → q = mask (nan = true) ∧ w' = w) ∧ (cond = 4 → q = mask (a = b) ∧ w' = w)
    ∧ (cond = 5 → q = mask (a.toInt < b.toInt) ∧ w' = w) ∧ (cond = 6 → q = mask (a.toInt ≤ b.toInt) ∧ w' = w) :=
  laneMeets_of_regLane rfl fun o l d a b c w => by
    obtain ⟨heq, hlt, hle, hun, hieq, hilt, hile⟩ := cmpLane_spec a b
    dsimp only [regLane]
    generalize (o.sub.extractLsb' 3 3).toNat = cond
    refine ⟨?_, ?_, ?_, ?_, ?_, ?_, ?_⟩ <;> rintro rfl
    · simp [heq]
    · simp [hlt]
    · simp [hle]
    · simp [hun]
    · simp [hieq]
    · simp [hilt]
    · simp [hile]

/-- Settles O14: each verb is lane-wise, so its lanes hold what the lemmas above say of `regLane`. -/
theorem integerAndMoveVerbsLaneByLane : Obligations.IntegerAndMoveVerbsLaneByLane := by
  unfold Obligations.IntegerAndMoveVerbsLaneByLane
  intro keep isNan value sat mask
  have hNan : isNan = isNan32 := funext fun w => (isNan32_eq w).symm
  rw [hNan]
  refine ⟨?vand, ?vor, ?vxor, ?vshl, ?vsrl, ?vsra, ?viadd, ?visub, ?vimul, laneMeets_vimax, laneMeets_vimin, ?vsel, ?vmov,
    ?vlimm, ?vlane, laneMeets_vexpadd, laneMeets_vmax, laneMeets_vmin, laneMeets_vcmp⟩
  case viadd => exact laneMeets_of_satWord rfl fun _ _ _ _ _ _ => rfl
  case visub => exact laneMeets_of_satWord rfl fun _ _ _ _ _ _ => rfl
  case vimul => exact laneMeets_of_satWord rfl fun _ _ _ _ _ _ => rfl
  case vsel => exact laneMeets_of_noFlags rfl fun _ _ _ a b c => by by_cases hc : c = 0 <;> simp [regLane, hc]
  all_goals exact laneMeets_of_noFlags rfl fun _ _ _ _ _ _ => rfl

end Sys2Proof.Machine
end

section
/-!
A fault in one block stops the run of one herd (O60). The first parts name the work that a fault could disturb, and show that the
end of a copy, with all that its undefined destination does to memory, windows and rings, disturbs none of it; the last parts
show that a stop request reaches the work of one herd and its blocks alone.
-/
namespace Sys2Proof.Machine

/-! ## The work in progress -/

/-- A herd without its rings, its revocation and its fabric items. -/
def Herd.work (x : Herd) : Herd := { x with rings := {}, rev := none, reds := {}, routes := {} }

/-- What the machine works at: the herds, the blocks, and the orders that wait for a copy. -/
structure Work where
  herd : HerdId → Herd
  block : BlockId → Block
  waitFree : List Order

/-- The work of a state. -/
def State.work (s : State) : Work where
  herd h := (s.herd h).work
  block := s.block
  waitFree := s.waitFree

theorem State.onlyRings.work {s t : State} (a : State.onlyRings s t) : t.work = s.work := by
  obtain ⟨hrest, hherd⟩ := a
  have hblock : t.block = s.block := funext fun b => (congrArg (State.block · b) hrest :)
  have hwait : t.waitFree = s.waitFree := (congrArg State.waitFree hrest :)
  have hwork : ∀ h, (t.herd h).work = (s.herd h).work := fun h => (congrArg Herd.work (hherd h) :)
  simp only [State.work, hblock, hwait, hwork]

theorem State.onlyIcs.work {s t : State} (a : State.onlyIcs s t) : t.work = s.work := a.rings.work

theorem State.work_modHerd {s : State} {h : HerdId} {f : Herd → Herd} (hf : (f (s.herd h)).work = (s.herd h).work) :
    (s.modHerd h f).work = s.work := by
  have hherd : ∀ k, ((s.modHerd h f).herd k).work = (s.herd k).work := fun k => by
    by_cases e : k = h
    · subst e; rw [State.herd_modHerd_same, hf]
    · rw [State.herd_modHerd_ne _ _ _ e]
  simp only [State.work, hherd]
  rfl

/-- A fold whose every step keeps a view keeps it. -/
theorem foldl_keeps {α σ ν : Type} {g : σ → ν} {f : σ → α → σ} (h : ∀ x a, g (f x a) = g x) (l : List α) (x : σ) :
    g (l.foldl f x) = g x :=
  foldl_rel (fun x y => g y = g x) (fun _ => rfl) (fun a b => b.trans a) f h l x

variable (s : State)

/-! ## Single updates keep the work -/

@[simp] theorem State.work_icNote : s.icNote.work = s.work := s.icNote_only.work
@[simp] theorem State.work_edge (c src : Nat) : (s.edge c src).work = s.work := (s.edge_only c src).work
@[simp] theorem State.work_latchLevel (c src : Nat) (v : Bool) : (s.latchLevel c src v).work = s.work :=
  (s.latchLevel_only c src v).work
@[simp] theorem State.work_setWin (w : WinId) (x : Win) : (s.setWin w x).work = s.work := rfl
@[simp] theorem State.work_modDim (d : DimId) (f : Dim → Dim) : (s.modDim d f).work = s.work := rfl
@[simp] theorem State.work_freeBytes (n : Nat) : (s.freeBytes n).1.work = s.work := rfl
@[simp] theorem State.work_meter (h : HerdId) (f : Meter → Meter) : (s.meter h f).work = s.work := rfl
@[simp] theorem State.work_meterFlush (h : HerdId) : (s.meterFlush h).work = s.work := rfl
@[simp] theorem State.work_macMiss : s.macMiss.work = s.work := rfl
@[simp] theorem State.work_deny : s.deny.work = s.work := rfl
@[simp] theorem State.work_mem (m : Mem) : { s with mem := m }.work = s.work := rfl
@[simp] theorem State.work_meterDue (m : Tbl Meter) : { s with meterDue := m }.work = s.work := rfl
@[simp] theorem State.work_copies (l : List CopyJob) : { s with copies := l }.work = s.work := rfl
@[simp] theorem State.work_addTest (p : Part) (st : BitVec 8) (hs : List HerdId) : (s.addTest p st hs).work = s.work := rfl
@[simp] theorem State.work_hbmStore (a : Nat) (l : List Byte) (e : Bool) : (s.hbmStore a l e).work = s.work := rfl
@[simp] theorem State.work_cachePut (w : WinId) (l n : Nat) (v : BitVec 448) : (s.cachePut w l n v).work = s.work :=
  State.work_setWin ..
@[simp] theorem State.work_hbmError (a : Nat) : (s.hbmError a).work = s.work :=
  (State.work_addTest ..).trans (State.work_edge ..)
@[simp] theorem State.work_badNode (w : WinId) (whole : Bool) (l n : Nat) : (s.badNode w whole l n).work = s.work :=
  (State.work_edge ..).trans rfl

/-! ## Accesses to windows keep the work -/

@[simp] theorem State.work_getNode (f : Nat) (w : WinId) (l n : Nat) : (State.getNode f s w l n).1.work = s.work := by
  induction f generalizing s l n with
  | zero => rfl
  | succ f ih =>
    rw [State.getNode]
    dsimp only
    split
    · rfl
    split
    · rfl
    generalize hp : (if (parentOf (s.win w).size l n).1 = 0 then (s, stOK, (0 : BitVec 448)) else _) = p
    have hparent : p.1.work = s.work := by
      rw [← hp]
      split
      · rfl
      · exact ih ..
    obtain ⟨t, st, pv⟩ := p
    dsimp only at hparent ⊢
    repeat' split
    all_goals simp [hparent]

@[simp] theorem State.work_node (w : WinId) (l n : Nat) : (s.node w l n).1.work = s.work := State.work_getNode ..

@[simp] theorem State.work_openLine (w : WinId) (off : Nat) (v : BitVec 448) : (s.openLine w off v).1.work = s.work := by
  unfold State.openLine
  dsimp only
  repeat' split
  all_goals simp

@[simp] theorem State.work_readLine (w : WinId) (off : Nat) : (s.readLine w off).1.work = s.work := by
  have hnode := s.work_node w 0 (pageOfOff off)
  unfold State.readLine
  generalize s.node w 0 (pageOfOff off) = p at hnode ⊢
  obtain ⟨t, st, v⟩ := p
  dsimp only at hnode ⊢
  repeat' split
  all_goals simp [hnode]

@[simp] theorem State.work_startSweep (w : WinId) : (s.startSweep w).work = s.work := by
  unfold State.startSweep
  dsimp only [State.draw]
  split
  · rfl
  · split <;> rfl

@[simp] theorem State.work_countWrites (w : WinId) (k : Nat) : (s.countWrites w k).work = s.work := by
  unfold State.countWrites
  dsimp only
  repeat' split
  all_goals simp

@[simp] theorem State.work_sealLine (w : WinId) (off : Nat) (v : BitVec 448) (d : List Byte) :
    (s.sealLine w off v d).work = s.work := by
  unfold State.sealLine
  dsimp only
  split <;> simp

@[simp] theorem State.work_noteSeed (w : WinId) (off : Nat) : (s.noteSeed w off).work = s.work := by
  unfold State.noteSeed
  dsimp only
  split <;> simp

@[simp] theorem State.work_recryptPage (w : WinId) (base : Nat) (old new : BitVec 448) :
    (s.recryptPage w base old new).1.work = s.work := by
  unfold State.recryptPage
  refine foldl_keeps (g := fun a : State × Nat => a.1.work) (fun a l => ?_) _ _
  have hopen := a.1.work_openLine w (base + 64 * l) old
  generalize a.1.openLine w (base + 64 * l) old = p at hopen ⊢
  obtain ⟨t, st, d⟩ := p
  dsimp only at hopen ⊢
  repeat' split
  all_goals simp [hopen]

@[simp] theorem State.work_writeLine (w : WinId) (off : Nat) (d : List Byte) : (s.writeLine w off d).1.work = s.work := by
  have hnode := s.work_node w 0 (pageOfOff off)
  rw [State.writeLine]
  generalize s.node w 0 (pageOfOff off) = p at hnode ⊢
  obtain ⟨t, st, v⟩ := p
  dsimp only at hnode ⊢
  repeat' split
  all_goals simp [hnode]

@[simp] theorem State.work_writePart (w : WinId) (off o : Nat) (d : List Byte) :
    (s.writePart w off o d).1.work = s.work := by
  have hread := s.work_readLine w off
  unfold State.writePart
  generalize s.readLine w off = p at hread ⊢
  obtain ⟨t, st, old⟩ := p
  dsimp only at hread ⊢
  repeat' split
  all_goals simp [hread]

@[simp] theorem State.work_wrPiece (h : HerdId) (a : Nat) (d : List Byte) : (s.wrPiece h a d).1.work = s.work := by
  unfold State.wrPiece
  repeat' split
  all_goals simp

/-! ## Events, completions and the ends of copies keep the work -/

@[simp] theorem State.work_setRing (r : RingId) (x : RingSet) : (s.setRing r x).work = s.work := (s.setRing_only r x).work
@[simp] theorem State.work_setSrcRing (o : OrderSrc) (x : RingSet) : (s.setSrcRing o x).work = s.work :=
  (s.setSrcRing_only o x).work
@[simp] theorem State.work_flushCpl (r : RingId) : (s.flushCpl r).work = s.work := (s.flushCpl_only r).work
@[simp] theorem State.work_evtPf (k : Fin 4) (code : BitVec 16) (h : Nat) (p : List Byte) :
    (s.evtPf k code h p).work = s.work := (s.evtPf_only k code h p).work
@[simp] theorem State.work_evtHerd (h : HerdId) (code : BitVec 16) (p : List Byte) : (s.evtHerd h code p).work = s.work :=
  (s.evtHerd_only h code p).work
@[simp] theorem State.work_fenceCheck (o : OrderSrc) : (s.fenceCheck o).work = s.work := by
  obtain ⟨m, d, honly⟩ := s.fenceCheck_only o
  exact honly.work

@[simp] theorem State.work_hardError (p : Part) (st : Status) (hs : List HerdId) : (s.hardError p st hs).work = s.work :=
  (foldl_keeps (fun _ _ => State.work_evtHerd ..) _ _).trans (State.work_evtPf ..)

@[simp] theorem State.work_tahrDone (tag : W32) (st : Status) : (s.tahrDone tag st).work = s.work := by
  unfold State.tahrDone
  dsimp only
  repeat' split
  all_goals rfl

@[simp] theorem State.work_complete (ref : OrderRef) (st : Status) (chk : BitVec 8) (detail : W64) :
    (s.complete ref st chk detail).work = s.work := by
  unfold State.complete
  extract_lets u x v c w
  have hmetered : u.work = s.work := by
    subst u
    split <;> simp
  have hfreed : v.work = s.work := (State.work_setSrcRing ..).trans hmetered
  have hreported : w.work = s.work := by
    clear_value v c
    subst w
    split
    · simp [hfreed]
    · split
      · simp [hfreed]
      · split
        · rw [State.work_modHerd rfl, hfreed]
        · exact hfreed
      · exact hfreed
    · simp [hfreed]
  split
  · exact hmetered
  · rw [State.work_icNote, State.work_fenceCheck, hreported]

@[simp] theorem State.work_done (ref : OrderRef) (st : Status) : (s.done ref st).work = s.work := State.work_complete ..

@[simp] theorem State.work_spoilPiece (h : HerdId) (a : Nat) (d : List Byte) : (s.spoilPiece h a d).work = s.work := by
  unfold State.spoilPiece
  repeat' split
  all_goals simp

@[simp] theorem State.work_spoil (h : HerdId) (a n : Nat) : (s.spoil h a n).work = s.work := by
  rw [State.spoil, State.work_meterDue]
  refine foldl_keeps (fun t k => ?_) _ _
  dsimp only
  generalize (if k = 0 then a else a / 64 * 64 + 64 * k) = lo
  split <;> simp

@[simp] theorem State.work_hostSpoil (a n : Nat) : (s.hostSpoil a n).work = s.work := rfl

@[simp] theorem State.work_copySpoil (j : CopyJob) : (s.copySpoil j).work = s.work := by
  unfold State.copySpoil
  split
  · split
    · split
      · exact foldl_keeps (fun _ _ => State.work_spoil ..) _ _
      · rfl
    · split <;> simp
  · rfl

@[simp] theorem State.work_copyOver (j : CopyJob) (st : Status) : (s.copyOver j st).work = s.work := by
  unfold State.copyOver State.copyMeter
  repeat' split
  all_goals simp

@[simp] theorem State.work_copyEnd (j : CopyJob) (st : Status) : (s.copyEnd j st).work = s.work := by
  simp [State.copyEnd]

@[simp] theorem State.work_copyDrain (f : Nat) (h : HerdId) : (State.copyDrain f s h).work = s.work := by
  induction f generalizing s with
  | zero => rfl
  | succ f ih =>
    unfold State.copyDrain
    repeat' split
    all_goals simp [ih]

@[simp] theorem State.work_copyStop (st : Status) (p : CopyJob → Bool) : (s.copyStop st p).work = s.work :=
  foldl_keeps (fun _ _ => State.work_copyDrain ..) _ _

/-! ## A stop request reaches one herd and its blocks -/

@[simp] theorem State.work_tellRegions (h : HerdId) : (s.tellRegions h).work = s.work :=
  foldl_keeps (fun _ _ => State.work_latchLevel ..) _ _

@[simp] theorem State.work_sendToken (h : HerdId) (k : Nat) : (s.sendToken h k).work = s.work := by
  unfold State.sendToken
  split <;> rfl

@[simp] theorem State.work_sendStop (h : HerdId) : (s.sendStop h).work = s.work :=
  foldl_keeps (fun _ _ => State.work_sendToken ..) _ _

@[simp] theorem State.work_endFrames (h : HerdId) : (s.endFrames h).work = s.work :=
  (foldl_keeps (fun _ _ => State.work_modDim ..) _ _).trans (State.work_modHerd rfl)

theorem State.mem_blocksOf (h : HerdId) (c : BlockId) : c ∈ s.blocksOf h ↔ (s.herd h).hasGroup (groupOf c) = true := by
  simp [State.blocksOf, allBlocks]

theorem State.foldl_halt_spec (l : List BlockId) :
    let t := l.foldl (fun s b => s.setBlock b (s.block b).halt) s
    t.herd = s.herd ∧ t.waitFree = s.waitFree ∧ ∀ c, c ∉ l → t.block c = s.block c := by
  induction l generalizing s with
  | nil => exact ⟨rfl, rfl, fun _ _ => rfl⟩
  | cons b r ih =>
    obtain ⟨hherd, hwait, hblock⟩ := ih (s.setBlock b (s.block b).halt)
    refine ⟨hherd, hwait, fun c hc => ?_⟩
    rw [List.mem_cons, not_or] at hc
    obtain ⟨hcb, hcr⟩ := hc
    exact (hblock c hcr).trans (State.block_setBlock_ne _ _ _ hcb)

/-- A herd whose run takes a fault and stops. -/
def Herd.stopping (x : Herd) (r : Run) (f : FaultRec) : Herd :=
  { x with seq := .stopping, run := some { r with faults := r.faults ++ [f], stopAtEnd := false } }

variable {s}

theorem State.stop_of_idle {h : HerdId} (hr : (s.herd h).run = none) (f : FaultRec) : s.stop h f = s := by
  unfold State.stop
  rw [hr]

theorem State.work_stop {h : HerdId} {r : Run} (hr : (s.herd h).run = some r) (f : FaultRec) :
    (s.stop h f).work = ((s.modHerd h fun x => x.stopping r f).haltBlocks h).work := by
  unfold State.stop
  rw [hr]
  dsimp only
  split
  · rw [State.work_sendStop, State.work_endFrames, State.work_tellRegions]; rfl
  · rw [State.work_tellRegions]; rfl

/-! ## A fault of a block reaches its owner -/

/-- From work `v` to work `w` a fault of block `b` has been taken: the run of the owner `o`, if one is in progress, stops
with the fault, and what neither is `b` nor the owner's goes on. -/
structure Work.Faulted (b : BlockId) (code : BitVec 8) (o : Option HerdId) (v w : Work) : Prop where
  waitFree : w.waitFree = v.waitFree
  deferred : ∀ h, (w.herd h).deferred = (v.herd h).deferred
  stops : ∀ h, o = some h → ∀ r, (v.herd h).run = some r → (w.herd h).seq = .stopping ∧ ∃ f : FaultRec, f.status = code
    ∧ (w.herd h).run = some { r with faults := r.faults ++ [f], stopAtEnd := false }
  others : ∀ h, o ≠ some h → w.herd h = v.herd h
  blocks : ∀ c, c ≠ b → (∀ h, o = some h → (v.herd h).hasGroup (groupOf c) = false) → w.block c = v.block c

theorem Work.Faulted.unowned (b : BlockId) (code : BitVec 8) (v : Work) : Work.Faulted b code none v v where
  waitFree := rfl
  deferred _ := rfl
  stops _ e := nomatch e
  others _ _ := rfl
  blocks _ _ _ := rfl

/-- What happens to the faulty block itself is no concern of the others. -/
theorem Work.Faulted.of_modBlock {b : BlockId} {code : BitVec 8} {o : Option HerdId} {f : Block → Block} {u : State}
    {w : Work} (hu : s.modBlock b f = u) (hw : Work.Faulted b code o u.work w) : Work.Faulted b code o s.work w := by
  subst hu
  exact { waitFree := hw.waitFree, deferred := hw.deferred, stops := hw.stops, others := hw.others
          blocks := fun c hc hout => (hw.blocks c hc hout).trans (State.block_modBlock_ne _ _ _ hc) }

variable (s)

theorem State.stop_faulted (h : HerdId) (b : BlockId) {f : FaultRec} {code : BitVec 8} (hf : f.status = code) :
    Work.Faulted b code (some h) s.work (s.stop h f).work := by
  cases hr : (s.herd h).run with
  | none =>
    rw [State.stop_of_idle hr]
    exact { waitFree := rfl, deferred := fun _ => rfl, others := fun _ _ => rfl, blocks := fun _ _ _ => rfl
            stops := fun k hk r hrun => by
              obtain rfl : h = k := Option.some.inj hk
              exact absurd (hr.symm.trans hrun) nofun }
  | some r =>
    rw [State.work_stop hr]
    generalize hu : s.modHerd h (fun x => x.stopping r f) = u
    have hsame : u.herd h = (s.herd h).stopping r f := by rw [← hu, State.herd_modHerd_same]
    have hne : ∀ k, k ≠ h → u.herd k = s.herd k := fun k e => by rw [← hu, State.herd_modHerd_ne _ _ _ e]
    obtain ⟨hherd, hwait, hblock⟩ := u.foldl_halt_spec (u.blocksOf h)
    have hwork : ∀ k, (u.haltBlocks h).work.herd k = (u.herd k).work := fun k => congrArg (fun g => (g k).work) hherd
    exact {
      waitFree := hwait.trans (by rw [← hu]; rfl)
      deferred := fun k => by
        rw [hwork]
        by_cases e : k = h
        · subst e; rw [hsame]; rfl
        · rw [hne k e]; rfl
      stops := fun k hk q hq => by
        obtain rfl : h = k := Option.some.inj hk
        obtain rfl : r = q := Option.some.inj (hr.symm.trans hq)
        rw [hwork, hsame]
        exact ⟨rfl, f, hf, rfl⟩
      others := fun k hk => by
        rw [hwork, hne k fun e => hk (e ▸ rfl)]
        rfl
      blocks := fun c _ hout => by
        have hc : c ∉ u.blocksOf h := by
          rw [State.mem_blocksOf, hsame]
          exact Bool.eq_false_iff.mp (hout h rfl)
        exact (hblock c hc).trans (by rw [← hu]; rfl) }

theorem State.stopBlock_faulted (h : HerdId) (b : BlockId) (st : Status) :
    Work.Faulted b (st.setWidth 8) (some h) s.work (s.stopBlock h b st).work := by
  unfold State.stopBlock
  exact Work.Faulted.of_modBlock (f := Block.halt) rfl (State.stop_faulted _ h b rfl)

/-- R465 for the effect of a block's fault: neither its events nor the copies that it ends reach any other work. -/
theorem State.faultBlock_faulted {p : Part} {b : BlockId} (hp : partBlock p = some b) (st : Status) :
    Work.Faulted b (st.setWidth 8) (s.owner b) s.work (s.faultBlock p st).work := by
  unfold State.faultBlock
  rw [hp]
  dsimp only
  rw [State.work_icNote, State.work_copyStop]
  generalize hu : s.modBlock b _ = u
  refine Work.Faulted.of_modBlock hu ?_
  rw [← State.work_hardError u p st (s.owner b).toList]
  cases s.owner b with
  | none => exact .unowned ..
  | some h => exact State.stopBlock_faulted ..

/-! ## Nothing waits in a quiet state -/

variable {s}

theorem State.settleWith_of_quiet (hq : s.quiet) (g : List Peer) : s.settleWith g = (s, []) := by
  obtain ⟨hwait, hdeferred⟩ := hq
  have hs : ({ s with waitFree := [] } : State) = s :=
    (congrArg (fun l => ({ s with waitFree := l } : State)) hwait.symm :)
  have hdrain : ∀ l : List HerdId,
      l.foldl (fun q h => State.drain g h (q.1.herd h).deferred q.1 q.2) (s, ([] : List Peer)) = (s, []) := fun l => by
    induction l with
    | nil => rfl
    | cons h r ih => rw [List.foldl_cons, hdeferred h]; exact ih
  unfold State.settleWith
  rw [hs, hwait]
  exact hdrain allHerds

theorem State.settle_of_quiet (hq : s.quiet) : s.settle = s := by
  rw [State.settle, withPeers, State.settleWith_of_quiet hq]
  rfl

/-- Settles O60: no order waits before or after the fault, so its effect is that of `faultBlock`, whose reach is R465's. -/
theorem blockFaultsStopOneHerd : Obligations.BlockFaultsStopOneHerd := by
  unfold Obligations.BlockFaultsStopOneHerd
  rintro p b s hpwr ⟨hwait, hdeferred⟩ hp
  have hfault := s.faultBlock_faulted hp (blockStatus p)
  have hquiet : (s.faultBlock p (blockStatus p)).quiet :=
    ⟨hfault.waitFree.trans hwait, fun h => (hfault.deferred h).trans (hdeferred h)⟩
  refine ⟨s.faultBlock p (blockStatus p), ?_, hfault.stops, fun h hh => ?_, fun c hcb hc => ?_⟩
  · have hexec : exec (.blockFault p) s = execBlockFault p s := rfl
    rw [hexec, execBlockFault, State.ifOnly_next hpwr (by rw [hp]; rfl), State.settle_of_quiet hquiet]
  · have hherd := hfault.others h hh
    exact ⟨(congrArg Herd.st hherd :), (congrArg Herd.seq hherd :), (congrArg Herd.beatNow hherd :),
      (congrArg (fun x : Herd => x.run.map (·.faults)) hherd :)⟩
  · exact hfault.blocks c hcb fun h hh => Bool.eq_false_iff.mpr fun hg => hc h hh ((s.mem_blocksOf h c).mpr hg)

end Sys2Proof.Machine
end
